-- ==== Sys2Proof/Word.lean ====
section
/-! DEFINITION. The word and number types the manual's quantities take. -/

namespace Sys2Proof

/-- One byte of a frame, of the image, or of the readout port. -/
abbrev Byte := BitVec 8

/-- A 64-bit tick count: cluster time, local clock, stamp or due time (00 "Time", R1, R2). -/
abbrev Time := BitVec 64

/-- A station number, 0 to 31 (00 "Terms"). -/
abbrev Station := Fin 32

/-- A trigger class, 0 to 63 (R82). -/
abbrev TrigClass := Fin 64

/-- A timing line number, TL0 to TL7 (00 "Terms"). -/
abbrev LineNo := Fin 8

/-- A schedule partition, 0 to 3 (R118). -/
abbrev Partition := Fin 4

/-- An action map index, 0 to 63 (R104). -/
abbrev MapIndex := Fin 64

/-- A trigger sequence, 16 bits and wrapping (R82, R85). -/
abbrev Sequence := BitVec 16

/-- A counter of the part: 32 bits and wrapping (00 "Counters"). -/
abbrev Counter := BitVec 32

/-- The factory number of a part (00 "Terms"). -/
abbrev UniqueId := BitVec 64

/-- A set of station numbers; bit n is station n (R186, R190). -/
abbrev StationSet := BitVec 32

/-- A set of timing lines; bit k is TLk (R188, R190). -/
abbrev LineSet := BitVec 8

end Sys2Proof
end

