-- ==== Sys2Proof/Config.lean ====
section
/-! DEFINITION. The fixed sizes of the part, and what the manual leaves open: constants with no body, of which no proof
can know a value. -/

namespace Sys2Proof.Config

/-- Free value (log 7). The factory number of this part: fixed in the part (R168), its value not in the manual. -/
opaque uniqueId : UniqueId

/-- Free value (log 6). The 64-bit time the part holds where the exact sum `z` does not fit in 64 bits and no rule
states the result. Where rules bar a time before another, `timeOnward` keeps it at or after that. -/
opaque timeOutside : Int → Time

/-- Free value (log 8). How far above 2,710 ticks the idle timer's largest value lies. R63 holds the timer at "its
largest value" and gives no width; R68 with R70 compares it with at most 160 + 2,550 ticks. -/
opaque idleTimerHeadroom : Nat

/-- Free order (logs 11 and 12). Whether, at the n-th such choice, an entry already due fires before the work that
follows in the same step (R123, R131, R133, R148: either order). -/
opaque fireNow : Nat → Bool

/-- Free value (log 30). What data out does, byte by byte, where the select has been low since reset release and is
ignored (R165): released, or driven with a byte. -/
opaque dataOutIgnored : Nat → Option Byte

/-! ### Fixed sizes (R168, capacity list) -/

/-- Places for trigger entries in the transmit queue (R64). -/
def queuePlaces : Nat := 8

/-- Places in the schedule, over the four partitions (R118). -/
def schedulePlaces : Nat := 48

/-- Records the journal holds (R162). -/
def journalPlaces : Nat := 128

/-- The largest image, in bytes (R178). -/
def imageBytes : Nat := 4096

/-- Ticks a PORT reset lasts (R176). -/
def portResetTicks : Nat := 100

/-- Quiet ticks that end a frame and make the receiver ready (R74). -/
def frameEndTicks : Nat := 20

/-- Ticks in one bit time (R62). -/
def bitTime : Nat := 10

end Sys2Proof.Config
end

