-- ==== Sys2Proof/Syntax.lean ====
section
/-! DEFINITION. The commands: one constructor for each row of spec/opcode_table.json, with the operands that the step's
rule says arrive with it. -/

namespace Sys2Proof

/-- What began a reset (R176). -/
inductive ResetCause where
  | power | pin | supply | port
  deriving DecidableEq, Repr

/-- The steps of the part (95_what_each_step_holds.md). -/
inductive Instr where
  /-- RESET (R176): the cause POWER, PIN or SUPPLY arises. -/
  | reset (cause : ResetCause)
  /-- RESET_RELEASE (R177): no cause holds any longer. `supplyLow`: the supply stands below the warning rising level
  (R185). `selectLow`: the readout select is low (R165). -/
  | resetRelease (supplyLow selectLow : Bool)
  /-- TICK (R2): one local tick. `active`: another station drives a symbol on the line at this tick (R63). `pins`: the
  level each timing line shows at this tick, bit k for TLk (R153). -/
  | tick (active : Bool) (pins : BitVec 8)
  /-- IMAGE_BYTE (R178): the next byte of the image has been clocked in. -/
  | imageByte (b : Byte)
  /-- LISTEN_TIMEOUT (R45). -/
  | listenTimeout
  /-- CORRECTION_EVENT (R11). -/
  | correctionEvent
  /-- BEACON_DUE (R58). -/
  | beaconDue
  /-- FRAME_START (R68). -/
  | frameStart
  /-- SEND_REFERENCE_POINT (R59). -/
  | sendReferencePoint
  /-- COLLISION (R70). -/
  | collision
  /-- FRAME_COMPLETE (R72). -/
  | frameComplete
  /-- START_MARK_RECEIVED (R74). -/
  | startMarkReceived
  /-- FRAME_END (R75): `body` is the bits gathered between the reference point and the end, first bit first (R74). -/
  | frameEnd (body : List Bool)
  /-- INPUT_TRANSITION (R154) on a line. -/
  | inputTransition (line : LineNo)
  /-- INPUT_REVERSION (R153) on a line. -/
  | inputReversion (line : LineNo)
  /-- EDGE_QUALIFIED (R155) on a line. -/
  | edgeQualified (line : LineNo)
  /-- ENTRY_DUE (R125). -/
  | entryDue
  /-- WIDTH_EXPIRY (R144) on a line. -/
  | widthExpiry (line : LineNo)
  /-- GAP_EXPIRY (R144) on a line. -/
  | gapExpiry (line : LineNo)
  /-- TRANSACTION_START (R165). -/
  | transactionStart
  /-- SELECT_RISE (R165). -/
  | selectRise
  /-- UNKNOWN_COMMAND (R166): a command byte that is none of the known codes. -/
  | unknownCommand (code : Byte)
  /-- READ_STATUS (R167). -/
  | readStatus
  /-- READ_TIME (R168). -/
  | readTime
  /-- READ_IDENTITY (R168). -/
  | readIdentity
  /-- READ_SYNC (R168). -/
  | readSync
  /-- READ_PEER (R38) with its argument byte. -/
  | readPeer (arg : Byte)
  /-- READ_SCHEDULE (R136). -/
  | readSchedule
  /-- READ_COUNTERS (R168). -/
  | readCounters
  /-- READ_FLAGS (R172). -/
  | readFlags
  /-- READ_JOURNAL (R169). -/
  | readJournal
  /-- JOURNAL_TRANSFER_DONE (R169). -/
  | journalTransferDone
  /-- RAISE (R93) with its argument byte. -/
  | raise (arg : Byte)
  /-- CANCEL (R132) with its argument byte. -/
  | cancel (arg : Byte)
  /-- RESTART_ARM (R174). -/
  | restartArm
  /-- RESTART (R175). -/
  | restart
  /-- LEAVE_TIMEOUT (R184). -/
  | leaveTimeout
  /-- SUPPLY_WARNING_SET (R185). -/
  | supplyWarningSet
  /-- SUPPLY_WARNING_CLEAR (R185). -/
  | supplyWarningClear
  /-- NOT_A_FRAME (R74). -/
  | notAFrame
  deriving DecidableEq, Repr

end Sys2Proof
end

