-- ==== Sys2Proof/WellFormed.lean ====
section
/-! DEFINITION. Which commands the table's rows can mean: two operands have values their row excludes. -/

namespace Sys2Proof

/-- The thirteen command codes of R166. -/
def commandCodes : List Byte :=
  [0x10, 0x11, 0x12, 0x13, 0x14, 0x15, 0x16, 0x17, 0x20, 0x30, 0x31, 0x5A, 0xA5]

/-- RESET arises from POWER, PIN or SUPPLY: a PORT reset is begun by the SRC inside RESTART, FRAME_COMPLETE and
LEAVE_TIMEOUT (R176, R183, R184). UNKNOWN_COMMAND carries none of the known codes (R166). Every other operand may take
every value of its type: a class or a station number out of range is a command that is answered BAD_ARGUMENT. -/
def Instr.wellFormed : Instr → Bool
  | .reset cause => cause != .port
  | .unknownCommand code => !commandCodes.contains code
  | .resetRelease _ _ | .tick _ _ | .imageByte _ | .listenTimeout | .correctionEvent | .beaconDue | .frameStart
  | .sendReferencePoint | .collision | .frameComplete | .startMarkReceived | .frameEnd _ | .inputTransition _
  | .inputReversion _ | .edgeQualified _ | .entryDue | .widthExpiry _ | .gapExpiry _ | .transactionStart | .selectRise
  | .readStatus | .readTime | .readIdentity | .readSync | .readPeer _ | .readSchedule | .readCounters | .readFlags
  | .readJournal | .journalTransferDone | .raise _ | .cancel _ | .restartArm | .restart | .leaveTimeout
  | .supplyWarningSet | .supplyWarningClear | .notAFrame => true

end Sys2Proof
end

