-- ==== Sys2Proof/Decode.lean ====
section
/-! DEFINITION. The command a word spells by the table's bits. No row of spec/opcode_table.json gives bits (its "fields"
are empty and it has no "fixed"), so no word spells a command (log 17). And the command that the bytes of a transaction on
the readout port spell (R165, R166). -/

namespace Sys2Proof

/-- No row of the table gives bits: no word spells a command. -/
def decodeTableWord (_nbits _w : Nat) : Option Instr := none

/-! ### The readout port's command bytes (R165, R166) -/

/-- READ PEER, RAISE and CANCEL take one argument byte, every other command none (R165). -/
def argumentCount (code : Byte) : Nat := if code = 0x14 ∨ code = 0x30 ∨ code = 0x31 then 1 else 0

/-- The command of a command byte, with its argument byte where it takes one (R166). -/
def commandOf (code arg : Byte) : Instr :=
  match code.toNat with
  | 0x10 => .readStatus
  | 0x11 => .readTime
  | 0x12 => .readIdentity
  | 0x13 => .readSync
  | 0x14 => .readPeer arg
  | 0x15 => .readSchedule
  | 0x16 => .readCounters
  | 0x17 => .readFlags
  | 0x20 => .readJournal
  | 0x30 => .raise arg
  | 0x31 => .cancel arg
  | 0x5A => .restartArm
  | 0xA5 => .restart
  | _ => .unknownCommand code

/-- The command that the bytes clocked into a transaction spell (R165): none until its last argument byte has been
received; the bytes behind it are ignored. -/
def portCommand : List Byte → Option Instr
  | [] => none
  | code :: rest => if argumentCount code ≤ rest.length then some (commandOf code (rest.headD 0)) else none

end Sys2Proof
end

