-- ==== Sys2Proof/Machine/State.lean ====
section
/-! DEFINITION. The state of the part, block by block, as plain data; the reasons a step could stop; and the state right
after reset. -/

namespace Sys2Proof.Machine

/-! ### Names the manual gives values -/

/-- Sync states (R39). -/
inductive SyncState where
  | off | listen | founding | tentative | sync | stable | holdover | clash
  deriving DecidableEq, Repr

/-- The states a beacon can report (R20, R59, R186). -/
inductive Reported where
  | founding | tentative | sync | stable | holdover
  deriving DecidableEq, Repr

/-- Time bases (R4): LOCAL, PROVISIONAL, CLUSTER. -/
inductive Basis where
  | localBasis | provisional | cluster
  deriving DecidableEq, Repr

/-- Peer record states (R20). -/
inductive PeerKind where
  | self | absent | heard | member | departed
  deriving DecidableEq, Repr

/-- Reason codes of a change of sync state (R40). -/
inductive Reason where
  | loadDone | listenTimeout | adopted | founderYield | quorumMet | roundsMet | stableMet | correctionUnstable
  | quorumLost | quorumRegained | boundExceeded | holdoverExpired | clashDetected
  deriving DecidableEq, Repr

/-- Load states (11, items of the SRC). -/
inductive LoadState where
  | loading | ready | failed
  deriving DecidableEq, Repr

/-- The result of a load with its capture (R178). -/
inductive LoadResult where
  | ok
  | noImage (magic : Nat)
  | wrongDevice (code : Nat)
  | tooLong (capture : Nat)
  | blockCheck (block : Nat)
  | missingBlock (type : Nat)
  | duplicateBlock (type : Nat)
  | imageCheck
  | badValue (type item : Nat)
  deriving DecidableEq, Repr

/-- The action a schedule entry and a fire command carry (R104, R109, R126): the kind with its width, period, count. -/
inductive Action where
  | pulse (width : Nat)
  | train (width period count : Nat)
  | set
  | clear
  deriving DecidableEq, Repr

/-- The kind of an output action (R104). -/
inductive OutKind where
  | pulse | train | set | clear
  deriving DecidableEq, Repr

/-- Late policies (R110). -/
inductive LatePolicy where
  | drop | fire
  deriving DecidableEq, Repr

/-- Channel states (R137). -/
inductive ChanState where
  | idle | active | gap | held
  deriving DecidableEq, Repr

/-- Edge selects (R151). -/
inductive EdgeSelect where
  | never | rising | falling | both
  deriving DecidableEq, Repr

/-- Retrigger policies (R137). -/
inductive Retrigger where
  | keep | restart
  deriving DecidableEq, Repr

/-- The outcome of a raise (R86, R157). -/
inductive RaiseOutcome where
  | none | raised (sequence : Sequence) | heldOff | leaving | refusedState | refusedQueue
  deriving DecidableEq, Repr

/-- Kinds of frame (04). -/
inductive FrameKind where
  | beacon | trigger
  deriving DecidableEq, Repr

/-- Kinds of record that can be lost (R164). -/
inductive LostKind where
  | capture | fire | state
  deriving DecidableEq, Repr

/-! ### Timebase -/

/-- The Timebase's state (R19). The time basis follows the sync state (R4) and is computed from it. -/
structure Tbu where
  localClock : Time
  clusterTime : Time
  slewDebt : Nat
  hold : Bool
  nextBoundary : Option Time
  lastCorrection : Int
  minCorrection : Int
  maxCorrection : Int
  correctionCount : Counter
  syncLossCount : BitVec 16
  deriving DecidableEq, Repr

/-! ### Membership Unit -/

/-- One record of the peer table (R20). -/
structure Peer where
  kind : PeerKind
  uniqueId : Option UniqueId
  reported : Option Reported
  foreign : Bool
  heard : Bool
  lastArrival : Option Time
  freshOffset : Option Int
  missed : Nat
  expected : Option Sequence
  lost : BitVec 16
  resync : BitVec 16
  deriving DecidableEq, Repr

/-- An ABSENT record: every optional field absent, both marks clear, the counts 0 (R20). -/
def Peer.absentRecord : Peer :=
  { kind := .absent, uniqueId := none, reported := none, foreign := false, heard := false, lastArrival := none,
    freshOffset := none, missed := 0, expected := none, lost := 0, resync := 0 }

/-- The Membership Unit's state (R20, R22). The membership vector is kept current (R37): it is computed. -/
structure Mbu where
  peers : Vector Peer 32
  agreement : Nat
  members : Nat
  minMembers : Nat
  maxMembers : Nat
  deriving DecidableEq, Repr

/-! ### Sync Controller -/

/-- The Sync Controller's state (R39). -/
structure Syc where
  state : SyncState
  lastSynchronizing : Option Reported
  goodRounds : Nat
  stableRounds : Nat
  holdoverRounds : Nat
  listenTimer : Option Nat
  nextBeaconDue : Option Time
  deriving DecidableEq, Repr

/-! ### Triggers and the Line Interface -/

/-- A root reference: an origin and a sequence (R82, R83). -/
structure Root where
  origin : Station
  sequence : Sequence
  deriving DecidableEq, Repr

/-- A trigger (R82). The depth is 0 to 3; the root reference is present at depth 1 to 3. -/
structure Trigger where
  origin : Station
  sequence : Sequence
  cls : TrigClass
  stamp : Time
  depth : Fin 4
  root : Option Root
  deriving DecidableEq, Repr

/-- A trigger entry of the transmit queue (R64). -/
structure TrigEntry where
  trigger : Trigger
  copies : Nat
  attempts : Nat
  backoff : Nat
  onLine : Bool
  deriving DecidableEq, Repr

/-- A beacon in the slot, with what it carries from its building (R58, R64). -/
structure BeaconEntry where
  station : Station
  uniqueId : UniqueId
  signature : BitVec 16
  attempts : Nat
  backoff : Nat
  deriving DecidableEq, Repr

/-- A beacon frame's fields (R59, R186). -/
structure Beacon where
  station : Station
  departing : Bool
  reported : Reported
  uniqueId : UniqueId
  sendStamp : Time
  vector : StationSet
  nextSequence : Sequence
  signature : BitVec 16
  deriving DecidableEq, Repr

/-- The frame this station has on the line (R68, R69). -/
inductive LineFrame where
  /-- A copy of a trigger, with its copy number (R69). -/
  | trigger (t : Trigger) (copy : Nat)
  /-- A beacon; `filled` holds the fields taken at its reference point (R59), `leavingAtRef` whether the leaving state
  was set there (R72). -/
  | beacon (b : BeaconEntry) (filled : Option Beacon) (leavingAtRef : Bool)
  deriving DecidableEq, Repr

/-- The frame on the line, whether its reference point has left, and whether a purge removed its entry meanwhile
(R73). -/
structure OnLine where
  frame : LineFrame
  refLeft : Bool
  purged : Bool
  deriving DecidableEq, Repr

/-- The receiving side (R74). -/
inductive Receiver where
  /-- The line is ignored until the idle timer next reaches 20. -/
  | ignoring
  /-- The line has been quiet for 20 ticks: the next activity is judged as a start mark. -/
  | ready
  /-- A frame is in reception, with both halves of its arrival stamp (R7). `ownSent`: it is this station's own frame,
  sent to the end (R69). -/
  | receiving (localStamp clusterStamp : Time) (ownSent : Bool)
  deriving DecidableEq, Repr

/-- The Line Interface's state (R63, R64, R77). -/
structure Lif where
  queue : List TrigEntry
  slot : Option BeaconEntry
  onLine : Option OnLine
  idleTimer : Nat
  receiver : Receiver
  beaconsSent : Counter
  copiesSent : Counter
  framesReceived : Counter
  badFrames : Counter
  collisions : Counter
  abandons : Counter
  deriving DecidableEq, Repr

/-- The Trigger Engine's state (R84). -/
structure Tge where
  ownSequence : Sequence
  holdOffEnd : Vector (Option Time) 8
  raised : Counter
  refused : Counter
  accepted : Counter
  duplicate : Counter
  notReady : Counter
  notMember : Counter
  selfNumbered : Counter
  chainLimit : Counter
  deriving DecidableEq, Repr

/-! ### Action Map and Schedule Unit -/

/-- A valid action map entry (R104). -/
structure MapEntry where
  cls : TrigClass
  origins : StationSet
  lines : LineSet
  part : Partition
  offset : Nat
  action : Action
  late : LatePolicy
  journal : Bool
  derive : Option (TrigClass × Nat)
  deriving DecidableEq, Repr

/-- A schedule entry (R116). -/
structure SchedEntry where
  due : Time
  /-- The exact due time exceeds the largest 64-bit value, at which `due` is held (R120). -/
  capped : Bool
  lines : LineSet
  action : Action
  cls : TrigClass
  origin : Station
  sequence : Sequence
  index : MapIndex
  part : Partition
  journal : Bool
  late : Bool
  deriving DecidableEq, Repr

/-- The Schedule Unit's state (R116 to R119, R134). `entries` stands in schedule order (R117); among equal due times and
indices the earlier placed stands first. -/
structure Scu where
  entries : List SchedEntry
  quota : Vector Nat 4
  space : Vector Nat 4
  drops : Vector Counter 4
  lateDrop : Counter
  lateFire : Counter
  cancelled : Counter
  deriving DecidableEq, Repr

/-! ### Timing Line Unit -/

/-- The configuration of an input line (R151). -/
structure InputCfg where
  select : EdgeSelect
  qualification : Nat
  holdOff : Nat
  cls : Option TrigClass
  capture : Bool
  deriving DecidableEq, Repr

/-- The mode of a timing line and the fields of that mode (R137, R151, R180). -/
inductive LineCfg where
  | off
  | output (activeHigh : Bool) (policy : Retrigger)
  | input (cfg : InputCfg)
  deriving DecidableEq, Repr

/-- An output channel with the fields present in each state (R137). `gapLength` is present for a TRAIN. -/
inductive Channel where
  | idle
  | active (width : Nat) (gapLength : Option Nat) (remaining toCome : Nat)
  | gap (width gapLength remaining toCome : Nat)
  | held
  deriving DecidableEq, Repr

/-- A change of level being qualified (R154). -/
structure Candidate where
  localClock : Time
  stamp : Time
  basis : Basis
  deriving DecidableEq, Repr

/-- The previous qualified selected edge (R156). -/
structure LastEdge where
  localClock : Time
  basis : Basis
  deriving DecidableEq, Repr

/-- An input channel (R151). The input state is QUALIFYING exactly while a candidate is present. -/
structure InputChan where
  settled : Option Bool
  candidate : Option Candidate
  lastEdge : Option LastEdge
  events : Counter
  deriving DecidableEq, Repr

/-- The Timing Line Unit's state. `pins` is the level each line showed at the last tick (R153). -/
structure Tlu where
  lines : Vector LineCfg 8
  channels : Vector Channel 8
  overruns : Vector Counter 8
  inputs : Vector InputChan 8
  pins : BitVec 8
  deriving DecidableEq, Repr

/-! ### Journal -/

/-- A CAPTURE record (R159). -/
structure CaptureRec where
  line : LineNo
  rising : Bool
  basis : Basis
  outcome : RaiseOutcome
  stamp : Time
  interval : Option (BitVec 32)
  eventCount : BitVec 16
  deriving DecidableEq, Repr

/-- A FIRE record (R127). -/
structure FireRec where
  time : Time
  lines : LineSet
  cls : TrigClass
  origin : Station
  sequence : Sequence
  index : MapIndex
  late : Bool
  overtaken : Bool
  deriving DecidableEq, Repr

/-- A STATE record (R41). -/
structure StateRec where
  time : Time
  basis : Basis
  old : SyncState
  new : SyncState
  reason : Reason
  cancelled : Option Nat
  deriving DecidableEq, Repr

/-- A stored journal record (R162). -/
inductive Record where
  | capture (r : CaptureRec)
  | fire (r : FireRec)
  | state (r : StateRec)
  | gap (lost : BitVec 16)
  deriving DecidableEq, Repr

/-- The Journal's state (R162, R164); `records` has the oldest first. -/
structure Jnl where
  records : List Record
  lost : BitVec 16
  deriving DecidableEq, Repr

/-! ### Readout Port -/

/-- The transaction on the readout port (R165). -/
inductive Txn where
  /-- The select is high. -/
  | idle
  /-- The select has been low since reset release: ignored until it has risen and fallen again. -/
  | ignored
  /-- The select is low and the command has not yet been taken. -/
  | begun
  /-- The command has been taken. `out` is the status byte and the response; `transfer` that the head record of the
  journal leaves when its last bit has been clocked out (R169). -/
  | taken (out : List Byte) (transfer : Bool)
  deriving DecidableEq, Repr

/-- The ten sticky flags with their captures (R171): a flag is set exactly while its capture is present. -/
structure Flags where
  schedFull : Option (Partition × TrigClass × Station)
  late : Option (TrigClass × Station × BitVec 32)
  chainLimit : Option (TrigClass × Station)
  txAbandon : Option (FrameKind × Option TrigClass)
  numberConflict : Option Station
  foreign : Option Station
  disagree : Option (Station × Int)
  overrun : Option (LineNo × OutKind × ChanState)
  journalLost : Option LostKind
  badFrame : Bool
  deriving DecidableEq, Repr

/-- Every flag clear and every capture absent (R171). -/
def Flags.clear : Flags :=
  { schedFull := none, late := none, chainLimit := none, txAbandon := none, numberConflict := none, foreign := none,
    disagree := none, overrun := none, journalLost := none, badFrame := false }

/-- Which attention sources are enabled (R173). -/
structure Mask where
  journal : Bool
  flags : Bool
  state : Bool
  load : Bool
  deriving DecidableEq, Repr

/-- The Readout Port's state (10). -/
structure Rdp where
  txn : Txn
  armed : Bool
  flags : Flags
  statePending : Bool
  loadPending : Bool
  mask : Mask
  threshold : Option Nat
  deriving DecidableEq, Repr

/-! ### Start-up and Reset Controller, and the configuration -/

/-- The SRC's state (11). The leaving state is set exactly while the leave timer is present (R184). -/
structure Src where
  inReset : Bool
  portHold : Nat
  loadState : LoadState
  loadResult : Option LoadResult
  resetCause : ResetCause
  supplyWarning : Bool
  leaveTimer : Option Nat
  image : List Byte
  deriving DecidableEq, Repr

/-- The items of the CLUSTER block (R179). -/
structure Cluster where
  bper : Nat
  quorum : Nat
  maxCorr : Nat
  stableBound : Nat
  tentRounds : Nat
  stabRounds : Nat
  holdRounds : Nat
  missLimit : Nat
  listenRounds : Nat
  lineDelay : Nat
  trigRepeat : Nat
  deriving DecidableEq, Repr

/-- What load READY distributes to the blocks that only read it (R181). -/
structure Cfg where
  station : Station
  cluster : Cluster
  signature : BitVec 16
  deriving DecidableEq, Repr

/-! ### The whole part -/

/-- The part's state and the queue of commands that wait, first in first out. -/
structure State where
  tbu : Tbu
  mbu : Mbu
  syc : Syc
  lif : Lif
  tge : Tge
  amp : Vector (Option MapEntry) 64
  scu : Scu
  tlu : Tlu
  jnl : Jnl
  rdp : Rdp
  src : Src
  cfg : Option Cfg
  uniqueId : UniqueId
  freeCount : Nat
  pending : List Instr
  deriving DecidableEq, Repr

/-- Why a step could stop with a fault. No rule of the spec stops the part, so there is none. -/
inductive Fault where
  deriving DecidableEq, Repr

/-- Why a step could be refused. -/
inductive Refusal where
  /-- Raised by an arm of exec whose command has no meaning yet; safe (no next state). No arm raises it. -/
  | notModelled (mnemonic : String)
  deriving DecidableEq, Repr

/-! ### Reset values -/

/-- R19. -/
def Tbu.reset : Tbu :=
  { localClock := 0, clusterTime := 0, slewDebt := 0, hold := false, nextBoundary := none, lastCorrection := 0,
    minCorrection := 0, maxCorrection := 0, correctionCount := 0, syncLossCount := 0 }

/-- R22. -/
def Mbu.reset : Mbu :=
  { peers := Vector.replicate 32 Peer.absentRecord, agreement := 0, members := 0, minMembers := 32, maxMembers := 0 }

/-- R39. -/
def Syc.reset : Syc :=
  { state := .off, lastSynchronizing := none, goodRounds := 0, stableRounds := 0, holdoverRounds := 0,
    listenTimer := none, nextBeaconDue := none }

/-- R64, R77. -/
def Lif.reset : Lif :=
  { queue := [], slot := none, onLine := none, idleTimer := 0, receiver := .ignoring, beaconsSent := 0, copiesSent := 0,
    framesReceived := 0, badFrames := 0, collisions := 0, abandons := 0 }

/-- R84. -/
def Tge.reset : Tge :=
  { ownSequence := 0, holdOffEnd := Vector.replicate 8 none, raised := 0, refused := 0, accepted := 0, duplicate := 0,
    notReady := 0, notMember := 0, selfNumbered := 0, chainLimit := 0 }

/-- R119. -/
def Scu.reset : Scu :=
  { entries := [], quota := Vector.replicate 4 0, space := Vector.replicate 4 0, drops := Vector.replicate 4 0,
    lateDrop := 0, lateFire := 0, cancelled := 0 }

/-- R152. -/
def InputChan.reset : InputChan := { settled := none, candidate := none, lastEdge := none, events := 0 }

/-- R139, R152. The lines' modes are not known before READY and no line is driven or sampled: OFF (log 19). -/
def Tlu.reset (pins : BitVec 8) : Tlu :=
  { lines := Vector.replicate 8 .off, channels := Vector.replicate 8 .idle, overruns := Vector.replicate 8 0,
    inputs := Vector.replicate 8 InputChan.reset, pins := pins }

/-- R162. -/
def Jnl.reset : Jnl := { records := [], lost := 0 }

/-- R165, R171, R173, R174. -/
def Rdp.reset : Rdp :=
  { txn := .idle, armed := false, flags := Flags.clear, statePending := false, loadPending := false,
    mask := { journal := false, flags := false, state := false, load := true }, threshold := none }

/-- 11, items of the SRC, for a part released from a reset of the given cause with the supply warning clear (log 9). -/
def Src.reset (cause : ResetCause) : Src :=
  { inReset := false, portHold := 0, loadState := .loading, loadResult := none, resetCause := cause,
    supplyWarning := false, leaveTimer := none, image := [] }

/-- The part right after its power-on reset has been released (log 9): every item at the value its chapter gives. The
unique ID is the free factory number (log 7), every timing line is low (log 10), no open choice has been taken
(log 25), and no command waits. -/
def State.reset : State :=
  { tbu := Tbu.reset, mbu := Mbu.reset, syc := Syc.reset, lif := Lif.reset, tge := Tge.reset,
    amp := Vector.replicate 64 none, scu := Scu.reset, tlu := Tlu.reset 0, jnl := Jnl.reset, rdp := Rdp.reset,
    src := Src.reset .power, cfg := none, uniqueId := Config.uniqueId, freeCount := 0, pending := [] }

end Sys2Proof.Machine
end

