-- ==== Sys2Proof/Machine/Fields.lean ====
section
/-! DEFINITION. One update per block of State. Every operation of the model changes State through these. -/

namespace Sys2Proof.Machine.State

def withTbu (s : State) (x : Tbu) : State := { s with tbu := x }
def withMbu (s : State) (x : Mbu) : State := { s with mbu := x }
def withSyc (s : State) (x : Syc) : State := { s with syc := x }
def withLif (s : State) (x : Lif) : State := { s with lif := x }
def withTge (s : State) (x : Tge) : State := { s with tge := x }
def withAmp (s : State) (x : Vector (Option MapEntry) 64) : State := { s with amp := x }
def withScu (s : State) (x : Scu) : State := { s with scu := x }
def withTlu (s : State) (x : Tlu) : State := { s with tlu := x }
def withJnl (s : State) (x : Jnl) : State := { s with jnl := x }
def withRdp (s : State) (x : Rdp) : State := { s with rdp := x }
def withSrc (s : State) (x : Src) : State := { s with src := x }
def withCfg (s : State) (x : Option Cfg) : State := { s with cfg := x }
def withFreeCount (s : State) (x : Nat) : State := { s with freeCount := x }
def withPending (s : State) (x : List Instr) : State := { s with pending := x }

end Sys2Proof.Machine.State
end

