-- ==== Sys2Proof/Machine/Operands.lean ====
section
/-! DEFINITION. The layouts (12 Formats): byte order, the two checks, value codes, frame bodies built and judged, and
journal records. -/

namespace Sys2Proof.Machine

/-! ### Byte order (12, first paragraph) -/

/-- `n` bytes of a number, most significant byte first; higher bits are dropped. -/
def beBytes : Nat → Nat → List Byte
  | 0, _ => []
  | n + 1, v => BitVec.ofNat 8 (v / 256 ^ n) :: beBytes n v

/-- The number that bytes spell, most significant byte first. -/
def beNat (bs : List Byte) : Nat := bs.foldl (fun acc b => acc * 256 + b.toNat) 0

/-- The number in `n` bytes from offset `i`. -/
def field (bs : List Byte) (i n : Nat) : Nat := beNat ((bs.drop i).take n)

/-- A signed number in `n` bytes, two's complement, most significant byte first. -/
def signedBytes (n : Nat) (z : Int) : List Byte := beBytes n (z.emod (256 ^ n)).toNat

/-- An offset in 8 bytes: one beyond the signed 64-bit range is sent at the nearer limit (R189). -/
def offsetBytes (z : Int) : List Byte := signedBytes 8 (max (-(2 ^ 63)) (min z (2 ^ 63 - 1)))

/-- A bit as a number. -/
def bit (b : Bool) (position : Nat) : Nat := if b then 2 ^ position else 0

/-- One byte from its value. -/
def byte (n : Nat) : Byte := BitVec.ofNat 8 n

/-- The bits of a byte, most significant first. -/
def byteBits (b : Byte) : List Bool :=
  [b.getLsbD 7, b.getLsbD 6, b.getLsbD 5, b.getLsbD 4, b.getLsbD 3, b.getLsbD 2, b.getLsbD 1, b.getLsbD 0]

/-- The bits of bytes, most significant first. -/
def bytesToBits (bs : List Byte) : List Bool := bs.flatMap byteBits

/-- The bytes that bits spell; none where they are not a whole number of bytes (R75). -/
def bitsToBytes : List Bool → Option (List Byte)
  | [] => some []
  | b7 :: b6 :: b5 :: b4 :: b3 :: b2 :: b1 :: b0 :: rest =>
    (bitsToBytes rest).map
      (byte (bit b7 7 + bit b6 6 + bit b5 5 + bit b4 4 + bit b3 3 + bit b2 2 + bit b1 1 + bit b0 0) :: ·)
  | _ => none

/-! ### Checks (R187) -/

/-- One bit of a cyclic check: no reflection, most significant bit first. -/
def crcStep {w : Nat} (poly c : BitVec w) (b : Bool) : BitVec w :=
  if c.msb != b then (c <<< 1) ^^^ poly else c <<< 1

/-- CRC-32: polynomial 0x04C11DB7, initial value 0xFFFFFFFF, no final inversion. -/
def crc32 (bs : List Byte) : BitVec 32 := (bytesToBits bs).foldl (crcStep 0x04C11DB7#32) 0xFFFFFFFF#32

/-- CRC-16: polynomial 0x1021, initial value 0xFFFF, no final inversion. -/
def crc16 (bs : List Byte) : BitVec 16 := (bytesToBits bs).foldl (crcStep 0x1021#16) 0xFFFF#16

/-! ### Value codes (R186, R188, R189) -/

def SyncState.code : SyncState → Nat
  | .off => 0 | .founding => 1 | .tentative => 2 | .sync => 3 | .stable => 4 | .holdover => 5 | .listen => 6 | .clash => 7

def Reported.code : Reported → Nat
  | .founding => 1 | .tentative => 2 | .sync => 3 | .stable => 4 | .holdover => 5

def Reported.ofCode : Nat → Option Reported
  | 1 => some .founding | 2 => some .tentative | 3 => some .sync | 4 => some .stable | 5 => some .holdover | _ => none

def Basis.code : Basis → Nat
  | .localBasis => 0 | .provisional => 1 | .cluster => 2

def Reason.code : Reason → Nat
  | .loadDone => 1 | .listenTimeout => 2 | .adopted => 3 | .founderYield => 4 | .quorumMet => 5 | .roundsMet => 6
  | .stableMet => 7 | .correctionUnstable => 8 | .quorumLost => 9 | .quorumRegained => 10 | .boundExceeded => 11
  | .holdoverExpired => 12 | .clashDetected => 13

def RaiseOutcome.code : RaiseOutcome → Nat
  | .none => 0 | .raised _ => 1 | .heldOff => 2 | .leaving => 3 | .refusedState => 4 | .refusedQueue => 5

/-- The sequence an outcome carries: present when it is RAISED (R157, R170). -/
def RaiseOutcome.sequence? : RaiseOutcome → Option Sequence
  | .raised q => some q
  | .none | .heldOff | .leaving | .refusedState | .refusedQueue => Option.none

def OutKind.code : OutKind → Nat
  | .pulse => 1 | .train => 2 | .set => 3 | .clear => 4

def ChanState.code : ChanState → Nat
  | .idle => 0 | .active => 1 | .gap => 2 | .held => 3

def PeerKind.code : PeerKind → Nat
  | .self => 0 | .absent => 1 | .heard => 2 | .member => 3 | .departed => 4

def FrameKind.code : FrameKind → Nat
  | .beacon => 1 | .trigger => 2

def LostKind.code : LostKind → Nat
  | .capture => 1 | .fire => 2 | .state => 3

def LoadState.code : LoadState → Nat
  | .loading => 0 | .ready => 1 | .failed => 2

def resetCauseCode : ResetCause → Nat
  | .power => 1 | .pin => 2 | .supply => 3 | .port => 4

def LoadResult.code : LoadResult → Nat
  | .ok => 1 | .noImage _ => 2 | .wrongDevice _ => 3 | .tooLong _ => 4 | .blockCheck _ => 5 | .missingBlock _ => 6
  | .duplicateBlock _ => 7 | .imageCheck => 8 | .badValue _ _ => 9

/-- The capture of a load result, right-aligned in 4 bytes; for BAD_VALUE byte 2 is the block type, byte 3 the item
(R189). -/
def LoadResult.capture : LoadResult → Nat
  | .ok | .imageCheck => 0
  | .noImage n | .wrongDevice n | .tooLong n | .blockCheck n | .missingBlock n | .duplicateBlock n => n
  | .badValue type item => type * 256 + item

/-- Numbers read from bytes, where they are in range. -/
def station? (n : Nat) : Option Station := if h : n < 32 then some ⟨n, h⟩ else none

def class? (n : Nat) : Option TrigClass := if h : n < 64 then some ⟨n, h⟩ else none

/-! ### Frame bodies (R186) -/

/-- A body with its CRC-32 behind it. -/
def checked (bs : List Byte) : List Byte := bs ++ beBytes 4 (crc32 bs).toNat

/-- The body of a BEACON, 31 bytes. -/
def beaconBody (b : Beacon) : List Byte :=
  checked ([byte FrameKind.beacon.code, byte b.station, byte (bit b.departing 7 + b.reported.code)] ++
    beBytes 8 b.uniqueId.toNat ++ beBytes 8 b.sendStamp.toNat ++ beBytes 4 b.vector.toNat ++
    beBytes 2 b.nextSequence.toNat ++ beBytes 2 b.signature.toNat)

/-- The body of a TRIGGER copy, 18 bytes without a root reference and 21 with one. -/
def triggerBody (t : Trigger) (copy : Nat) : List Byte :=
  checked ([byte FrameKind.trigger.code, byte t.origin,
      byte (copy * 64 + t.depth * 16 + bit t.root.isSome 0), byte t.cls] ++
    beBytes 2 t.sequence.toNat ++ beBytes 8 t.stamp.toNat ++
    (match t.root with
      | some r => byte r.origin :: beBytes 2 r.sequence.toNat
      | none => []))

/-- The body on the line, once every field of it has been taken (R69). -/
def LineFrame.body : LineFrame → Option (List Byte)
  | .trigger t copy => some (triggerBody t copy)
  | .beacon _ filled _ => filled.map beaconBody

/-! ### Symbols on the line (R62, R69, R70, R74, R186) -/

/-- A symbol on the cluster line (R62). -/
inductive Symbol where
  | dominant | recessive
  deriving DecidableEq, Repr

/-- A 0 bit is sent as DOMINANT and a 1 bit as RECESSIVE (R62). -/
def symbolOf (b : Bool) : Symbol := if b then .recessive else .dominant

/-- The bit that a symbol stands for. -/
def Symbol.bit : Symbol → Bool
  | .dominant => false
  | .recessive => true

/-- What the line carries in a bit time in which the given symbols are sent, one for each station that sends (R62):
DOMINANT if any of them is, else RECESSIVE; none where no station sends, and the line is quiet. -/
def lineSymbol (sent : List Symbol) : Option Symbol :=
  if sent.contains .dominant then some .dominant else sent.head?

/-- The start mark, 0x1E5B, most significant bit first (R186). -/
def startMark : List Bool :=
  [false, false, false, true, true, true, true, false, false, true, false, true, true, false, true, true]

/-- The symbols of the start mark: the first is DOMINANT, the last is the reference point (R186). -/
def startSymbols : List Symbol := startMark.map symbolOf

/-- The symbols of a frame, in the order sent: the start mark, then the body (R62, R186). The body of a beacon is fixed
where its reference point leaves (R59, R69): until then its frame is the start mark. -/
def LineFrame.symbols (f : LineFrame) : List Symbol :=
  startSymbols ++ (bytesToBits (f.body.getD [])).map symbolOf

/-- The command that a symbol read back brings about at the sender (R69, R70): COLLISION where it differs from the one
sent, a quiet line included. -/
def readBack (sent : Symbol) (carried : Option Symbol) : Option Instr :=
  if carried = some sent then none else some .collision

/-- The command that activity on a quiet line brings about at a receiver, from its first 16 symbols (R74). -/
def openingCommand (carried : List Symbol) : Instr :=
  if carried.take 16 = startSymbols then .startMarkReceived else .notAFrame

/-- The command that the symbols behind a reference point bring about once the line is quiet again (R74, R75). -/
def closingCommand (carried : List Symbol) : Instr := .frameEnd (carried.map Symbol.bit)

/-! ### Judging a body (R75, R186) -/

/-- A good frame as it is delivered (R76). -/
inductive RxFrame where
  | beacon (b : Beacon)
  | trigger (t : Trigger) (copy : Nat)
  deriving DecidableEq, Repr

/-- The check field equals the check over the body before it (R75). -/
def checkAgrees (bs : List Byte) : Bool :=
  beBytes 4 (crc32 (bs.take (bs.length - 4))).toNat == bs.drop (bs.length - 4)

/-- A BEACON body: 31 bytes, check, station number, reported-state code (R75, R186). -/
def judgeBeacon (bs : List Byte) : Option RxFrame :=
  if bs.length == 31 && checkAgrees bs then
    match station? (field bs 1 1), Reported.ofCode (field bs 2 1 % 8) with
    | some station, some reported =>
      some (.beacon
        { station := station, departing := 128 ≤ field bs 2 1, reported := reported,
          uniqueId := BitVec.ofNat 64 (field bs 3 8), sendStamp := BitVec.ofNat 64 (field bs 11 8),
          vector := BitVec.ofNat 32 (field bs 19 4), nextSequence := BitVec.ofNat 16 (field bs 23 2),
          signature := BitVec.ofNat 16 (field bs 25 2) })
    | _, _ => none
  else none

/-- The root reference of a TRIGGER body: absent without the root-present bit; bad where its origin is above 31. -/
def judgeRoot (bs : List Byte) (present : Bool) : Option (Option Root) :=
  if present then
    (station? (field bs 14 1)).map fun o => some { origin := o, sequence := BitVec.ofNat 16 (field bs 15 2) }
  else some none

/-- A TRIGGER body: length by its root-present bit, check, origin, class, copy number, root origin, and the
root-present bit against the depth (R75, R186). -/
def judgeTrigger (bs : List Byte) : Option RxFrame :=
  let flags := field bs 2 1
  let present := flags % 2 == 1
  let depth : Fin 4 := ⟨flags / 16 % 4, Nat.mod_lt _ (by decide)⟩
  let copy := flags / 64
  if bs.length == (if present then 21 else 18) && checkAgrees bs && copy != 0 && present == (depth != 0) then
    match station? (field bs 1 1), class? (field bs 3 1), judgeRoot bs present with
    | some origin, some cls, some root =>
      some (.trigger
        { origin := origin, sequence := BitVec.ofNat 16 (field bs 4 2), cls := cls,
          stamp := BitVec.ofNat 64 (field bs 6 8), depth := depth, root := root } copy)
    | _, _, _ => none
  else none

/-- The LIF's judgement of a received body (R75): the good frame, or none for a bad one. -/
def judgeFrame (body : List Bool) : Option RxFrame :=
  match bitsToBytes body with
  | none => none
  | some bs =>
    if field bs 0 1 == FrameKind.beacon.code then judgeBeacon bs
    else if field bs 0 1 == FrameKind.trigger.code then judgeTrigger bs
    else none

/-! ### Journal records (R188) -/

/-- Bytes not listed are zero. -/
def padTo (n : Nat) (bs : List Byte) : List Byte := bs ++ List.replicate (n - bs.length) 0

/-- An optional field that is absent is sent as 0. -/
def optNat {w : Nat} (x : Option (BitVec w)) : Nat := (x.map BitVec.toNat).getD 0

/-- A stored record's 24 bytes. -/
def Record.bytes : Record → List Byte
  | .capture r =>
    padTo 24 ([byte 1, byte r.line, byte r.outcome.code,
        byte (r.basis.code * 64 + bit (!r.rising) 5 + bit r.interval.isSome 1 + bit r.outcome.sequence?.isSome 0)] ++
      beBytes 8 r.stamp.toNat ++ beBytes 4 (optNat r.interval) ++ beBytes 2 (optNat r.outcome.sequence?) ++
      beBytes 2 r.eventCount.toNat)
  | .fire r =>
    padTo 24 ([byte 2, r.lines, byte r.cls, byte r.origin] ++ beBytes 2 r.sequence.toNat ++
      [byte r.index, byte (bit r.late 1 + bit r.overtaken 0)] ++ beBytes 8 r.time.toNat)
  | .state r =>
    padTo 24 ([byte 3, byte r.basis.code, byte r.old.code, byte r.new.code, byte r.reason.code,
        byte (bit r.cancelled.isSome 0), byte (r.cancelled.getD 0), byte 0] ++ beBytes 8 r.time.toNat)
  | .gap lost => padTo 24 ([byte 4] ++ beBytes 2 lost.toNat)

end Sys2Proof.Machine
end

