-- ==== Sys2Proof/Machine/Flags.lean ====
section
/-! DEFINITION. Counters, the ten sticky flags, and the attention sources and line. -/

namespace Sys2Proof.Machine

/-! ### Counters (00 "Counters") -/

/-- A 16-bit count increased by `d`, saturating at 65,535. -/
def sat16 (c : BitVec 16) (d : Nat) : BitVec 16 := BitVec.ofNat 16 (min 65535 (c.toNat + d))

/-! ### Sticky flags (R171) -/

/-- The occurrence that sets a clear flag fills the capture; one that finds it set leaves it. -/
def firstCapture {α : Type} (held : Option α) (new : α) : Option α := some (held.getD new)

def Flags.raiseSchedFull (p : Partition) (c : TrigClass) (o : Station) (f : Flags) : Flags :=
  { f with schedFull := firstCapture f.schedFull (p, c, o) }

/-- The lateness is captured as 0 to 4,294,967,295 ticks (R121). -/
def Flags.raiseLate (c : TrigClass) (o : Station) (lateness : Nat) (f : Flags) : Flags :=
  { f with late := firstCapture f.late (c, o, BitVec.ofNat 32 (min 4294967295 lateness)) }

def Flags.raiseChainLimit (c : TrigClass) (o : Station) (f : Flags) : Flags :=
  { f with chainLimit := firstCapture f.chainLimit (c, o) }

def Flags.raiseTxAbandon (k : FrameKind) (c : Option TrigClass) (f : Flags) : Flags :=
  { f with txAbandon := firstCapture f.txAbandon (k, c) }

def Flags.raiseNumberConflict (n : Station) (f : Flags) : Flags :=
  { f with numberConflict := firstCapture f.numberConflict n }

def Flags.raiseForeign (n : Station) (f : Flags) : Flags := { f with foreign := firstCapture f.foreign n }

def Flags.raiseDisagree (n : Station) (offset : Int) (f : Flags) : Flags :=
  { f with disagree := firstCapture f.disagree (n, offset) }

def Flags.raiseOverrun (l : LineNo) (k : OutKind) (c : ChanState) (f : Flags) : Flags :=
  { f with overrun := firstCapture f.overrun (l, k, c) }

def Flags.raiseJournalLost (k : LostKind) (f : Flags) : Flags :=
  { f with journalLost := firstCapture f.journalLost k }

def Flags.raiseBadFrame (f : Flags) : Flags := { f with badFrame := true }

/-- Some sticky flag is set. -/
def Flags.any (f : Flags) : Bool :=
  f.schedFull.isSome || f.late.isSome || f.chainLimit.isSome || f.txAbandon.isSome || f.numberConflict.isSome ||
    f.foreign.isSome || f.disagree.isSome || f.overrun.isSome || f.journalLost.isSome || f.badFrame

/-- Raise flags held by the Readout Port. -/
def State.raiseFlag (s : State) (f : Flags → Flags) : State := s.withRdp { s.rdp with flags := f s.rdp.flags }

/-! ### Attention (R173) -/

/-- JOURNAL: the fill is at or above the journal threshold. -/
def journalPending (s : State) : Bool :=
  match s.rdp.threshold with
  | some t => decide (t ≤ s.jnl.records.length)
  | none => false

/-- FLAGS: any sticky flag is set. -/
def flagsPending (s : State) : Bool := s.rdp.flags.any

/-- The attention line is asserted while any enabled source is pending, and released in a reset (R173, R176). -/
def attentionAsserted (s : State) : Bool :=
  !s.src.inReset &&
    ((s.rdp.mask.journal && journalPending s) || (s.rdp.mask.flags && flagsPending s) ||
      (s.rdp.mask.state && s.rdp.statePending) || (s.rdp.mask.load && s.rdp.loadPending))

end Sys2Proof.Machine
end

