-- ==== Sys2Proof/Machine/Ops.lean ====
section
/-! DEFINITION. The operations that several steps share: times, sync state views, the journal, the output channels and
firing, the schedule, the transmit queue, the change of sync state with its stand-down orders, and the reset. -/

namespace Sys2Proof.Machine

/-- What a step answers. -/
abbrev Result := Host.Outcome State Fault Refusal

/-- The effect of a step of a part that is not held in reset; in a reset every block is held in its reset state (R176). -/
def live (s : State) (f : State → State) : Result := .next (if s.src.inReset then s else f s)

/-- The effect of a step that needs the configuration. Before load READY there is none, and no such step comes about
(log 23). -/
def withCfg (s : State) (f : Cfg → State) : State :=
  match s.cfg with
  | some c => f c
  | none => s

/-! ### Times -/

/-- A 64-bit time from its exact value. Where the value does not fit, no rule states the result: it is free (log 6). -/
def time64 (z : Int) : Time :=
  if 0 ≤ z ∧ z < 2 ^ 64 then BitVec.ofNat 64 z.toNat else Config.timeOutside z

/-- A time some ticks after another. -/
def timePlus (t : Time) (n : Nat) : Time := time64 (t.toNat + n)

/-- A time some ticks on from another, where the rules bar a time before it: the clocks and cluster time, which advance or
step forward (R1, R2, R3, R15), and a derived stamp (R104). Where the exact sum does not fit in 64 bits the free value lies
at or after `t` (log 6). -/
def timeOnward (t : Time) (n : Nat) : Time :=
  let x := timePlus t n
  if t.toNat ≤ x.toNat then x else t

/-- The smallest round boundary strictly greater than a time (R5). -/
def boundaryAfter (bper : Nat) (t : Time) : Time := time64 ((t.toNat / bper + 1) * bper : Nat)

/-- The stagger: BPER divided by 32, the remainder dropped (R6). -/
def Cluster.stagger (c : Cluster) : Nat := c.bper / 32

/-- How long after a round boundary the own beacon falls due (R6, R57). -/
def Cfg.beaconLag (c : Cfg) : Nat := c.station * c.cluster.stagger

/-- The smallest time of the form k × BPER + own number × stagger strictly greater than a time (R57). -/
def beaconDueAfter (c : Cfg) (t : Time) : Time :=
  let lag := c.beaconLag
  if t.toNat < lag then time64 lag
  else time64 (((t.toNat - lag) / c.cluster.bper + 1) * c.cluster.bper + lag : Nat)

/-- The listen time (R43). -/
def Cfg.listenTime (c : Cfg) : Nat := c.cluster.listenRounds * c.cluster.bper + c.beaconLag

/-! ### Views of the sync state -/

/-- The time basis that goes with a sync state (R4). -/
def SyncState.basis : SyncState → Basis
  | .off | .listen | .clash => .localBasis
  | .founding | .tentative => .provisional
  | .sync | .stable | .holdover => .cluster

/-- SYNC, STABLE or HOLDOVER. -/
def SyncState.synced : SyncState → Bool
  | .sync | .stable | .holdover => true
  | .off | .listen | .founding | .tentative | .clash => false

/-- LISTEN or CLASH. -/
def SyncState.standsDown : SyncState → Bool
  | .listen | .clash => true
  | .off | .founding | .tentative | .sync | .stable | .holdover => false

/-- The state a beacon reports: present in FOUNDING to HOLDOVER (R39, R59). -/
def SyncState.reported : SyncState → Option Reported
  | .founding => some .founding
  | .tentative => some .tentative
  | .sync => some .sync
  | .stable => some .stable
  | .holdover => some .holdover
  | .off | .listen | .clash => none

/-- FOUNDING, TENTATIVE, SYNC, STABLE or HOLDOVER. -/
def SyncState.active (x : SyncState) : Bool := x.reported.isSome

/-- SYNC, STABLE or HOLDOVER as a peer reports it (R28). -/
def Reported.synced : Reported → Bool
  | .sync | .stable | .holdover => true
  | .founding | .tentative => false

/-- The restart leave is in progress (R184). -/
def State.leaving (s : State) : Bool := s.src.leaveTimer.isSome

/-- The time basis of the part (R4). -/
def State.basis (s : State) : Basis := s.syc.state.basis

/-- The membership vector (R37): every MEMBER record's number, and the own number in SYNC, STABLE and HOLDOVER. -/
def membershipVector (s : State) : StationSet :=
  BitVec.ofFnLE fun n : Fin 32 =>
    (s.mbu.peers.get n).kind == .member || (s.syc.state.synced && s.cfg.any fun c => c.station == n)

/-! ### Peer table updates shared by several steps -/

/-- Every record through one function. -/
def mapPeers (f : Peer → Peer) (s : State) : State := s.withMbu { s.mbu with peers := s.mbu.peers.map f }

/-- Every fresh offset becomes absent (R36). -/
def clearFresh (s : State) : State := mapPeers (fun p => { p with freshOffset := none }) s

/-! ### Cluster time set other than by a tick -/

/-- The cluster-time half of the arrival stamp of a frame in reception moves with cluster time (R7). -/
def Receiver.move (delta : Int) : Receiver → Receiver
  | .receiving l c own => .receiving l (time64 (c.toNat + delta)) own
  | .ignoring => .ignoring
  | .ready => .ready

/-- Cluster time takes a new value by a step, an adoption or a founding. -/
def moveClusterTime (new : Time) (s : State) : State :=
  (s.withTbu { s.tbu with clusterTime := new }).withLif
    { s.lif with receiver := s.lif.receiver.move (new.toNat - s.tbu.clusterTime.toNat) }

/-- What an adoption and a founding do at their tick (R9, R10, R45, R46, R57, R36). -/
def setClusterTime (c : Cfg) (new : Time) (s : State) : State :=
  let s := moveClusterTime new s
  let s := s.withTbu { s.tbu with
    slewDebt := 0, hold := false, nextBoundary := some (boundaryAfter c.cluster.bper new) }
  let s := s.withSyc { s.syc with nextBeaconDue := some (beaconDueAfter c new) }
  clearFresh s

/-! ### The journal (R163, R164) -/

/-- A record that finds no room. -/
def loseRecord (k : LostKind) (s : State) : State :=
  (s.withJnl { s.jnl with lost := sat16 s.jnl.lost 1 }).raiseFlag (Flags.raiseJournalLost k)

/-- A record handed to the JNL is written, written behind a GAP record, or lost. -/
def handRecord (r : Record) (k : LostKind) (s : State) : State :=
  let fill := s.jnl.records.length
  if s.jnl.lost = 0 then
    if fill < Config.journalPlaces then s.withJnl { s.jnl with records := s.jnl.records ++ [r] }
    else loseRecord k s
  else if fill + 2 ≤ Config.journalPlaces then
    s.withJnl { records := s.jnl.records ++ [.gap s.jnl.lost, r], lost := 0 }
  else loseRecord k s

/-! ### Output channels (R137 to R147) -/

/-- The kind of an action. -/
def Action.kind : Action → OutKind
  | .pulse _ => .pulse
  | .train _ _ _ => .train
  | .set => .set
  | .clear => .clear

/-- The state of a channel. -/
def Channel.state : Channel → ChanState
  | .idle => .idle
  | .active _ _ _ _ => .active
  | .gap _ _ _ _ => .gap
  | .held => .held

/-- How an action starts from IDLE (R140 to R143). -/
def Action.start : Action → Channel
  | .pulse w => .active w none w 0
  | .train w p n => .active w (some (p - w)) w (n - 1)
  | .set => .held
  | .clear => .idle

/-- A TRAIN taken while the sync state is LISTEN or CLASH is a train of count 1 (R141, R148). -/
def Action.limited (x : SyncState) : Action → Action
  | .train w p n => if x.standsDown then .train w p 1 else .train w p n
  | .pulse w => .pulse w
  | .set => .set
  | .clear => .clear

/-- A fire command at a channel: its new state, or none where the command is ignored (R140 to R143). -/
def Channel.take (policy : Retrigger) (a : Action) (ch : Channel) : Option Channel :=
  match a.kind, ch.state, policy with
  | .set, _, _ | .clear, _, _ => some a.start
  | .pulse, .idle, _ | .train, .idle, _ => some a.start
  | .pulse, .held, _ | .train, .held, _ => none
  | .pulse, .active, .keep | .pulse, .gap, .keep | .train, .active, .keep | .train, .gap, .keep => none
  | .pulse, .active, .restart | .pulse, .gap, .restart | .train, .active, .restart | .train, .gap, .restart =>
    some a.start

/-- A channel takes a new state. -/
def setChannel (l : LineNo) (ch : Channel) (s : State) : State :=
  s.withTlu { s.tlu with channels := s.tlu.channels.set l ch }

/-- An ignored command is an overrun (R145). -/
def countOverrun (l : LineNo) (k : OutKind) (s : State) : State :=
  (s.withTlu { s.tlu with overruns := s.tlu.overruns.set l (s.tlu.overruns.get l + 1) }).raiseFlag
    (Flags.raiseOverrun l k (s.tlu.channels.get l).state)

/-- One fire command to one line (R126). A line that is not OUTPUT takes none. -/
def fireCommand (a : Action) (s : State) (l : LineNo) : State :=
  match s.tlu.lines.get l with
  | .output _ policy =>
    match (s.tlu.channels.get l).take policy (a.limited s.syc.state) with
    | some ch => setChannel l ch s
    | none => countOverrun l a.kind s
  | .off | .input _ => s

/-- The lines of a set, in ascending order. -/
def lineList (x : LineSet) : List LineNo := (List.finRange 8).filter fun k => x.getLsbD k

/-- The level a line is driven to, or none while it is undriven (R138, R139). -/
def lineDrive (s : State) (l : LineNo) : Option Bool :=
  match s.tlu.lines.get l with
  | .output activeHigh _ =>
    if s.src.inReset then none
    else match s.tlu.channels.get l with
      | .active _ _ _ _ | .held => some activeHigh
      | .idle | .gap _ _ _ _ => some !activeHigh
  | .off | .input _ => none

/-- The train end order at one channel (R147). -/
def Channel.trainEnd : Channel → Channel
  | .active w g r _ => .active w g r 0
  | .gap _ _ _ _ => .idle
  | .idle => .idle
  | .held => .held

/-- The train end order (R56, R147). -/
def trainEnd (s : State) : State := s.withTlu { s.tlu with channels := s.tlu.channels.map Channel.trainEnd }

/-! ### The schedule (R117, R118, R123, R125 to R132) -/

/-- One entry stands ahead of another: by due time, then by map index (R117). -/
def SchedEntry.ahead (a b : SchedEntry) : Bool :=
  decide (a.due.toNat < b.due.toNat) || (a.due == b.due && decide (a.index.val < b.index.val))

/-- An entry takes its place in schedule order, behind its equals placed earlier (R117). -/
def insertEntry (e : SchedEntry) : List SchedEntry → List SchedEntry
  | [] => [e]
  | x :: xs => if e.ahead x then e :: x :: xs else x :: insertEntry e xs

/-- One more free place in a partition. -/
def freePlace (p : Partition) (space : Vector Nat 4) : Vector Nat 4 := space.set p (space.get p + 1)

/-- The FIRE record of an entry (R127); `before` is the cluster time before the forward step at which it fires. -/
def fireRecord (before : Option Time) (e : SchedEntry) (s : State) : Record :=
  .fire
    { time := s.tbu.clusterTime, lines := e.lines, cls := e.cls, origin := e.origin, sequence := e.sequence,
      index := e.index, late := e.late, overtaken := before.any fun t => decide (t.toNat < e.due.toNat) }

/-- The firing of the head `e` (R125): the entry leaves and its place returns, its commands go to its lines in ascending
order, and its FIRE record is handed to the journal if its journal flag is set. -/
def fireEntry (before : Option Time) (e : SchedEntry) (rest : List SchedEntry) (s : State) : State :=
  let s := s.withScu { s.scu with entries := rest, space := freePlace e.part s.scu.space }
  let s := (lineList e.lines).foldl (fireCommand e.action) s
  if e.journal then handRecord (fireRecord before e s) .fire s else s

/-- The entry is due: its due time is at or before cluster time (R125). One whose due time was held at the largest 64-bit
value never is: it waits until it is flushed or cancelled (R120). -/
def SchedEntry.isDue (now : Time) (e : SchedEntry) : Bool := !e.capped && decide (e.due.toNat ≤ now.toNat)

/-- The SCU fires the head while it is due (R125, R128). The head alone is looked at: an entry behind a head that waits
for its flush or cancel waits with it (log 28). -/
def fireDueFrom (before : Option Time) : List SchedEntry → State → State
  | [], s => s
  | e :: rest, s =>
    if e.isDue s.tbu.clusterTime then fireDueFrom before rest (fireEntry before e rest s) else s

/-- Every entry that is due fires, in schedule order. -/
def fireDue (before : Option Time) (s : State) : State := fireDueFrom before s.scu.entries s

/-- The head of the schedule is due. -/
def headDue (s : State) : Bool :=
  match s.scu.entries with
  | e :: _ => e.isDue s.tbu.clusterTime
  | [] => false

/-- Entries already due meet the work that follows in the same step in either order (R123, R131, R133, R148): at each one
a free choice says whether it fires now (logs 11 and 12). One that does not stays at the head. The choice is one for all the
lines of the entry: what follows, the train end order of R148 too, does not come between its commands (log 32). -/
def fireSomeFrom (before : Option Time) : List SchedEntry → State → State
  | [], s => s
  | e :: rest, s =>
    if e.isDue s.tbu.clusterTime then
      let go := Config.fireNow s.freeCount
      let s := s.withFreeCount (s.freeCount + 1)
      if go then fireSomeFrom before rest (fireEntry before e rest s) else s
    else s

/-- See `fireSomeFrom`. -/
def fireSome (before : Option Time) (s : State) : State := fireSomeFrom before s.scu.entries s

/-- Entries leave without firing: each place returns and each is counted as cancelled (R130, R132). -/
def removeUnfired (gone : SchedEntry → Bool) (s : State) : State :=
  let out := s.scu.entries.filter gone
  s.withScu { s.scu with
    entries := s.scu.entries.filter fun e => !gone e,
    space := out.foldl (fun sp e => freePlace e.part sp) s.scu.space,
    cancelled := s.scu.cancelled + BitVec.ofNat 32 out.length }

/-- The flush (R56, R130). -/
def flush (s : State) : State := removeUnfired (fun _ => true) s

/-! ### The transmit queue (R65, R66, R73) -/

/-- The purge (R56, R73): the queue and the slot empty, and a frame on the line loses its entry. -/
def purge (s : State) : State :=
  s.withLif { s.lif with queue := [], slot := none, onLine := s.lif.onLine.map fun f => { f with purged := true } }

/-- A new beacon in the slot, in place of any that waits there (R58, R66). -/
def placeBeacon (c : Cfg) (s : State) : State :=
  s.withLif { s.lif with
    slot := some { station := c.station, uniqueId := s.uniqueId, signature := c.signature, attempts := 0, backoff := 0 } }

/-! ### Change of sync state (R39 to R41, R55, R56) -/

/-- Every last-edge record becomes absent at a change of time basis (R156). -/
def clearLastEdges (s : State) : State :=
  s.withTlu { s.tlu with inputs := s.tlu.inputs.map fun ch => { ch with lastEdge := none } }

/-- The state, its counts and timers, the STATE source and the last-edge records (R39, R40, R43, R156). -/
def setSyncState (c : Cfg) (new : SyncState) (s : State) : State :=
  let old := s.syc.state
  let s := s.withSyc
    { state := new, lastSynchronizing := new.reported.or s.syc.lastSynchronizing,
      goodRounds := 0, stableRounds := 0, holdoverRounds := 0,
      listenTimer := if new = .listen then some c.listenTime else none,
      nextBeaconDue := if new.standsDown then none else s.syc.nextBeaconDue }
  let s := s.withRdp { s.rdp with statePending := true }
  if old.basis = new.basis then s else clearLastEdges s

/-- Entry to LISTEN or CLASH at the TBU and the MBU (R5, R16, R18, R36). -/
def dropTime (syncLoss : Bool) (s : State) : State :=
  clearFresh (s.withTbu { s.tbu with
    slewDebt := 0, hold := false, nextBoundary := none,
    syncLossCount := if syncLoss then sat16 s.tbu.syncLossCount 1 else s.tbu.syncLossCount })

/-- The STATE record of a change (R41). -/
def writeStateRecord (old : SyncState) (reason : Reason) (cancelled : Option Nat) (s : State) : State :=
  handRecord
    (.state
      { time := if s.basis = .localBasis then s.tbu.localClock else s.tbu.clusterTime, basis := s.basis, old := old,
        new := s.syc.state, reason := reason, cancelled := cancelled })
    .state s

/-- A change of sync state, with the three stand-down orders at a change into LISTEN or CLASH other than from OFF.
`mid` is what meets the orders between the train end order and the flush (R148): the identity, or the free firings of
log 12. -/
def changeState (c : Cfg) (new : SyncState) (reason : Reason) (mid : State → State) (s : State) : State :=
  let old := s.syc.state
  let s := setSyncState c new s
  if new.standsDown then
    let s := dropTime old.synced s
    if old = .off then writeStateRecord old reason none s
    else
      let s := purge (mid (trainEnd s))
      writeStateRecord old reason (some s.scu.entries.length) (flush s)
  else writeStateRecord old reason none s

/-! ### Reset (R176) -/

/-- Every block in its reset state, held, with the cause recorded. The unique ID, the levels outside and the commands
that wait are not the part's to reset. `hold` is the count of ticks that a PORT reset still holds. -/
def resetState (cause : ResetCause) (hold : Nat) (s : State) : State :=
  { State.reset with
    tlu := Tlu.reset s.tlu.pins
    src := { Src.reset cause with inReset := true, portHold := hold }
    uniqueId := s.uniqueId
    freeCount := s.freeCount
    pending := s.pending }

/-- The SRC resets the part on a restart (R183, R184). -/
def portReset (s : State) : State := resetState .port Config.portResetTicks s

end Sys2Proof.Machine
end

