-- ==== Sys2Proof/Machine/Triggers.lean ====
section
/-! DEFINITION. The Trigger Engine: raising, the sequence window, processing with insertion and derivation, and the
judgement of received trigger frames (05, 06, and insertion of 07). -/

namespace Sys2Proof.Machine

/-! ### Insertion (R120 to R123) -/

/-- An insertion whose partition has space is placed; one whose partition has none is refused (R122, R123). -/
def spaceCheck (e : SchedEntry) (s : State) : State :=
  if s.scu.space.get e.part = 0 then
    (s.withScu { s.scu with drops := s.scu.drops.set e.part (s.scu.drops.get e.part + 1) }).raiseFlag
      (Flags.raiseSchedFull e.part e.cls e.origin)
  else
    s.withScu { s.scu with
      entries := insertEntry e s.scu.entries, space := s.scu.space.set e.part (s.scu.space.get e.part - 1) }

/-- The schedule entry that a map entry and a trigger give (R108, R116). The due time is held at the largest 64-bit
value where the sum exceeds it, and the entry then carries the mark that it is never due (R120). -/
def schedEntryOf (t : Trigger) (i : MapIndex) (m : MapEntry) (late : Bool) : SchedEntry :=
  { due := BitVec.ofNat 64 (min (t.stamp.toNat + m.offset) (2 ^ 64 - 1)),
    capped := decide (2 ^ 64 ≤ t.stamp.toNat + m.offset), lines := m.lines, action := m.action, cls := t.cls,
    origin := t.origin, sequence := t.sequence, index := i, part := m.part, journal := m.journal, late := late }

/-- One insertion request (R120): due time, late check (R121), space check (R122). -/
def insertAction (t : Trigger) (s : State) (im : MapIndex × MapEntry) : State :=
  let m := im.2
  let due := t.stamp.toNat + m.offset
  let now := s.tbu.clusterTime.toNat
  if due ≤ now then
    let s := s.raiseFlag (Flags.raiseLate t.cls t.origin (now - due))
    match m.late with
    | .drop => s.withScu { s.scu with lateDrop := s.scu.lateDrop + 1 }
    | .fire => spaceCheck (schedEntryOf t im.1 m true) (s.withScu { s.scu with lateFire := s.scu.lateFire + 1 })
  else spaceCheck (schedEntryOf t im.1 m false) s

/-! ### Matching (R106) -/

/-- The valid entries that answer a trigger, in ascending index order. -/
def matching (amp : Vector (Option MapEntry) 64) (t : Trigger) : List (MapIndex × MapEntry) :=
  (List.finRange 64).filterMap fun i =>
    match amp.get i with
    | some m => if m.cls = t.cls ∧ m.origins.getLsbD t.origin = true then some (i, m) else none
    | none => none

/-- The deriving entry's derive part: of the matching entry of lowest index that has one (R111). -/
def deriving? (ms : List (MapIndex × MapEntry)) : Option (TrigClass × Nat) := ms.findSome? fun im => im.2.derive

/-! ### Raising (R85 to R94) -/

/-- The checks of a raise behind the hold-off (R86, orders 2 to 4): the refusal that holds first, if any.
`onCluster`: the stamp was taken on the CLUSTER basis (R91). -/
def raiseRefusal (onCluster : Bool) (s : State) : Option RaiseOutcome :=
  if s.leaving then some .leaving
  else if !(s.syc.state.synced && onCluster) then some .refusedState
  else if Config.queuePlaces ≤ s.lif.queue.length then some .refusedQueue
  else none

/-- A refused raise is counted (R86, R102). -/
def countRefused (s : State) : State := s.withTge { s.tge with refused := s.tge.refused + 1 }

/-- An accepted raise takes its sequence, is counted, and places its trigger entry (R85, R89 steps 1 to 3, R65). -/
def enqueue (c : Cfg) (t : Trigger) (s : State) : State :=
  (s.withTge { s.tge with ownSequence := s.tge.ownSequence + 1, raised := s.tge.raised + 1 }).withLif
    { s.lif with
      queue := s.lif.queue ++
        [{ trigger := t, copies := c.cluster.trigRepeat, attempts := 0, backoff := 0, onLine := false }] }

/-- The root reference of a trigger derived from a parent (R83). -/
def derivedRoot (parent : Trigger) : Root :=
  match parent.root with
  | some r => r
  | none => { origin := parent.origin, sequence := parent.sequence }

/-- The trigger derived from a parent at depth below 3 (R83, R94, R112). Its stamp is never before the parent's (R104). -/
def derivedTrigger (c : Cfg) (parent : Trigger) (cls : TrigClass) (offset : Nat) (depth : Fin 4) (s : State) : Trigger :=
  { origin := c.station, sequence := s.tge.ownSequence, cls := cls, stamp := timeOnward parent.stamp offset,
    depth := depth, root := some (derivedRoot parent) }

/-- A derivation stopped at depth 3 (R111). -/
def stopChain (t : Trigger) (s : State) : State :=
  (s.withTge { s.tge with chainLimit := s.tge.chainLimit + 1 }).raiseFlag (Flags.raiseChainLimit t.cls t.origin)

/-- The depth one below a parent's, where the parent is not at depth 3. -/
def nextDepth (d : Fin 4) : Option (Fin 4) := if h : d.val + 1 < 4 then some ⟨d.val + 1, h⟩ else none

/-- Processing (R95, R107, R111, R113): the insertions in ascending index order, then at most one derivation, which is
a raise judged and processed within its parent's. `fuel` is 4 at the root of the recursion, one for each depth. -/
def process (c : Cfg) : Nat → Trigger → State → State
  | 0, _, s => s
  | fuel + 1, t, s =>
    let ms := matching s.amp t
    let s := ms.foldl (fun s im => fireSome none (insertAction t s im)) s
    match deriving? ms with
    | none => s
    | some (cls, offset) =>
      match nextDepth t.depth with
      | none => stopChain t s
      | some depth =>
        match raiseRefusal true s with
        | some _ => countRefused s
        | none =>
          let child := derivedTrigger c t cls offset depth s
          process c fuel child (enqueue c child s)

/-- A raise at depth 0 behind the hold-off check (R86, R89). -/
def raiseTrigger (c : Cfg) (cls : TrigClass) (stamp : Time) (onCluster : Bool) (s : State) : State × RaiseOutcome :=
  match raiseRefusal onCluster s with
  | some o => (countRefused s, o)
  | none =>
    let t : Trigger :=
      { origin := c.station, sequence := s.tge.ownSequence, cls := cls, stamp := stamp, depth := 0, root := none }
    (process c 4 t (enqueue c t s), .raised t.sequence)

/-! ### Received trigger frames (R96 to R101) -/

/-- The sequence window (R100): the record after the check, and whether the trigger is new. A check on an ABSENT record
leaves it unchanged and is answered as for an absent expected sequence (R32). -/
def Peer.checkTrigger (q : Sequence) (p : Peer) : Peer × Bool :=
  if p.kind = .absent then (p, true)
  else match p.expected with
    | none => ({ p with expected := some (q + 1) }, true)
    | some e =>
      let d := (q - e).toNat
      if d ≤ 1023 then ({ p with expected := some (q + 1), lost := sat16 p.lost d }, true) else (p, false)

/-- One record takes a new value. -/
def setPeer (n : Station) (p : Peer) (s : State) : State :=
  s.withMbu { s.mbu with peers := s.mbu.peers.set n p }

/-- A delivered trigger frame (R96): SELF_NUMBERED, NOT_READY, NOT_MEMBER, ACCEPTED or DUPLICATE. Before READY, in OFF,
it is discarded. -/
def judgeTriggerFrame (c : Cfg) (t : Trigger) (s : State) : State :=
  if s.syc.state = .off then s
  else if t.origin = c.station then s.withTge { s.tge with selfNumbered := s.tge.selfNumbered + 1 }
  else
    let p := s.mbu.peers.get t.origin
    let checkedPeer := p.checkTrigger t.sequence
    if !s.syc.state.synced then
      (setPeer t.origin checkedPeer.1 s).withTge { s.tge with notReady := s.tge.notReady + 1 }
    else if p.kind ≠ .member then s.withTge { s.tge with notMember := s.tge.notMember + 1 }
    else if checkedPeer.2 then
      process c 4 t
        ((setPeer t.origin checkedPeer.1 s).withTge { s.tge with accepted := s.tge.accepted + 1 })
    else (setPeer t.origin checkedPeer.1 s).withTge { s.tge with duplicate := s.tge.duplicate + 1 }

end Sys2Proof.Machine
end

