-- ==== Sys2Proof/Machine/Inputs.lean ====
section
/-! DEFINITION. The meanings of the input channels' steps: a transition, a reversion, and a qualified edge (09). -/

namespace Sys2Proof.Machine

/-- An input channel takes a new value. -/
def setInput (l : LineNo) (ch : InputChan) (s : State) : State :=
  s.withTlu { s.tlu with inputs := s.tlu.inputs.set l ch }

/-- The stamp of the present tick in the present basis (R4, R154). -/
def stampNow (s : State) : Time := if s.basis = .localBasis then s.tbu.localClock else s.tbu.clusterTime

/-- The line shows another level than the settled one (R153). -/
def differs (l : LineNo) (s : State) : Bool :=
  (s.tlu.inputs.get l).settled.any fun level => level != s.tlu.pins.getLsbD l

/-- A step of an INPUT line in service, from load READY on (R151, R152). -/
def withInput (l : LineNo) (s : State) (f : InputCfg → State) : State :=
  match s.tlu.lines.get l with
  | .input ic => f ic
  | .off | .output _ _ => s

/-- INPUT_TRANSITION (R154): the candidate is taken. -/
def execInputTransition (l : LineNo) (s : State) : Result :=
  live s fun s => withInput l s fun _ =>
    let ch := s.tlu.inputs.get l
    if ch.candidate = none ∧ differs l s = true then
      setInput l
        { ch with candidate := some { localClock := s.tbu.localClock, stamp := stampNow s, basis := s.basis } } s
    else s

/-- INPUT_REVERSION (R153): the old level has returned, and the candidate is discarded. -/
def execInputReversion (l : LineNo) (s : State) : Result :=
  live s fun s => withInput l s fun _ =>
    if differs l s = true then s else setInput l { s.tlu.inputs.get l with candidate := none } s

/-! ### EDGE_QUALIFIED -/

/-- The line's edge select names the kind of edge (R155). -/
def EdgeSelect.names (rising : Bool) : EdgeSelect → Bool
  | .never => false
  | .rising => rising
  | .falling => !rising
  | .both => true

/-- The interval against the last-edge record (R156). -/
def intervalOf (cand : Candidate) (last : Option LastEdge) : Option (BitVec 32) :=
  match last with
  | some e =>
    if e.basis = cand.basis then
      some (BitVec.ofNat 32 (min 4294967295 (cand.localClock.toNat - e.localClock.toNat)))
    else none
  | none => none

/-- The transition falls before the line's hold-off end (R92). -/
def heldOff (l : LineNo) (cand : Candidate) (s : State) : Bool :=
  (s.tge.holdOffEnd.get l).any fun e => decide (cand.localClock.toNat < e.toNat)

/-- The hold-off end that a RAISED input raise sets (R92). -/
def startHoldOff (l : LineNo) (ic : InputCfg) (cand : Candidate) (s : State) : State :=
  s.withTge { s.tge with holdOffEnd := s.tge.holdOffEnd.set l (some (timePlus cand.localClock ic.holdOff)) }

/-- The raise request of a qualified edge on a line with a class (R86, R91, R92, R157). The hold-off is judged first in
every sync state, as R86 orders the checks; R160 gives REFUSED_STATE alone outside SYNC, STABLE and HOLDOVER. The order is
the model's choice between the two (log 29). -/
def requestRaise (c : Cfg) (l : LineNo) (ic : InputCfg) (cls : TrigClass) (cand : Candidate) (s : State) :
    State × RaiseOutcome :=
  if heldOff l cand s then (s, .heldOff)
  else
    let r := raiseTrigger c cls cand.stamp (decide (cand.basis = .cluster)) s
    match r.2 with
    | .raised q => (startHoldOff l ic cand r.1, .raised q)
    | .none | .heldOff | .leaving | .refusedState | .refusedQueue => r

/-- The raise of a qualified edge, NONE on a line without a class (R155, step 3). -/
def edgeRaise (c : Cfg) (l : LineNo) (ic : InputCfg) (cand : Candidate) (s : State) : State × RaiseOutcome :=
  match ic.cls with
  | some cls => requestRaise c l ic cls cand s
  | none => (s, .none)

/-- The CAPTURE record of an edge (R159). -/
def captureRecord (l : LineNo) (rising : Bool) (cand : Candidate) (o : RaiseOutcome) (interval : Option (BitVec 32))
    (events : Counter) : Record :=
  .capture
    { line := l, rising := rising, basis := cand.basis, outcome := o, stamp := cand.stamp, interval := interval,
      eventCount := events.setWidth 16 }

/-- A selected edge (R155): counted, measured, offered as a raise, captured. -/
def takeEdge (c : Cfg) (l : LineNo) (ic : InputCfg) (rising : Bool) (cand : Candidate) (s : State) : State :=
  let ch := s.tlu.inputs.get l
  let events := ch.events + 1
  let s := setInput l
    { ch with events := events, lastEdge := some { localClock := cand.localClock, basis := cand.basis } } s
  let r := edgeRaise c l ic cand s
  if ic.capture then
    handRecord (captureRecord l rising cand r.2 (intervalOf cand ch.lastEdge) events) .capture r.1
  else r.1

/-- An edge qualifies (R153, R155): the settled level takes the new level, and a selected edge is taken whole. -/
def qualifyEdge (c : Cfg) (l : LineNo) (ic : InputCfg) (cand : Candidate) (s : State) : State :=
  let rising := s.tlu.pins.getLsbD l
  let s := setInput l { s.tlu.inputs.get l with settled := some rising, candidate := none } s
  if ic.select.names rising then takeEdge c l ic rising cand s else s

/-- EDGE_QUALIFIED (R155): the new level has held for the qualification time (R153). -/
def execEdgeQualified (l : LineNo) (s : State) : Result :=
  live s fun s => withCfg s fun c => withInput l s fun ic =>
    match (s.tlu.inputs.get l).candidate with
    | some cand =>
      if differs l s = true ∧ ic.qualification ≤ s.tbu.localClock.toNat - cand.localClock.toNat then
        qualifyEdge c l ic cand s
      else s
    | none => s

end Sys2Proof.Machine
end

