-- ==== Sys2Proof/Machine/Membership.lean ====
section
/-! DEFINITION. The Membership Unit: a beacon taken into its record, and the counts and aging of a correction event
(02). -/

namespace Sys2Proof.Machine

/-! ### Taking a beacon (R23 to R30) -/

/-- The beacon's unique ID differs from the one the record holds; an ABSENT record is never in conflict (R25). -/
def Peer.conflicts (b : Beacon) (p : Peer) : Bool := p.kind != .absent && p.uniqueId != some b.uniqueId

/-- The record restarted at a conflict (R25). -/
def Peer.restarted (p : Peer) : Peer :=
  { p with expected := none, lost := 0, resync := 0, missed := 0, heard := false, foreign := false,
           freshOffset := none }

/-- The stored fields (R26); the offset is kept unless the basis is LOCAL. -/
def Peer.stored (b : Beacon) (arrival : Time) (basis : Basis) (offset : Int) (p : Peer) : Peer :=
  { p with uniqueId := some b.uniqueId, reported := some b.reported, lastArrival := some arrival, missed := 0,
           heard := true, freshOffset := if basis = .localBasis then p.freshOffset else some offset }

/-- The beacon disagrees (R27). -/
def disagrees (c : Cfg) (basis : Basis) (offset : Int) : Bool :=
  basis != .localBasis && decide (c.cluster.maxCorr < offset.natAbs)

/-- The record's new state (R28), by the first condition that holds; the foreign mark with it. -/
def Peer.judged (c : Cfg) (b : Beacon) (disagree : Bool) (p : Peer) : Peer :=
  if b.signature ≠ c.signature then { p with kind := .heard, foreign := true }
  else
    let kind : PeerKind :=
      if b.departing then .departed else if disagree then .heard else if b.reported.synced then .member else .heard
    { p with kind := kind, foreign := false }

/-- The announced-sequence check (R30). -/
def Peer.announced (b : Beacon) (p : Peer) : Peer :=
  match p.expected with
  | none => { p with expected := some b.nextSequence }
  | some e =>
    if (b.nextSequence - e).toNat ≤ 1023 then p
    else { p with expected := some b.nextSequence, resync := sat16 p.resync 1 }

/-- The five steps of a beacon's update of its record (R23). -/
def Peer.takeBeacon (c : Cfg) (b : Beacon) (arrival : Time) (basis : Basis) (offset : Int) (p : Peer) : Peer :=
  let p := if p.conflicts b then p.restarted else p
  let p := p.stored b arrival basis offset
  (p.judged c b (disagrees c basis offset)).announced b

/-- The sticky flags a beacon raises at its update (R25, R27, R28). -/
def beaconFlags (c : Cfg) (b : Beacon) (basis : Basis) (offset : Int) (p : Peer) (f : Flags) : Flags :=
  let f := if p.conflicts b then f.raiseNumberConflict b.station else f
  let f := if disagrees c basis offset then f.raiseDisagree b.station offset else f
  if b.signature ≠ c.signature then f.raiseForeign b.station else f

/-- A beacon from another number updates its record (R23). -/
def updateRecord (c : Cfg) (b : Beacon) (arrival : Time) (offset : Int) (s : State) : State :=
  let p := s.mbu.peers.get b.station
  (s.withMbu { s.mbu with peers := s.mbu.peers.set b.station (p.takeBeacon c b arrival s.basis offset) }).raiseFlag
    (beaconFlags c b s.basis offset p)

/-- A beacon that carries the own number (R24, R53). -/
def ownNumberBeacon (c : Cfg) (b : Beacon) (s : State) : State :=
  if b.uniqueId = s.uniqueId then s
  else match s.syc.state with
    | .listen | .founding | .tentative => changeState c .clash .clashDetected id s
    | .sync | .stable | .holdover => s.raiseFlag (Flags.raiseNumberConflict c.station)
    | .off | .clash => s

/-! ### At a correction event (R12, R33 to R36) -/

/-- The record's fresh offset counts in the agreement count (R34). -/
def Peer.agrees (c : Cfg) (p : Peer) : Bool :=
  p.kind != .self && p.kind != .absent && p.kind != .departed && !p.foreign && p.reported.isSome &&
    p.freshOffset.any fun x => decide (x.natAbs ≤ c.cluster.maxCorr)

/-- The agreement count (R34). -/
def agreementCount (c : Cfg) (s : State) : Nat := 1 + s.mbu.peers.toList.countP (Peer.agrees c)

/-- The member count (R35), of the table as it stands. -/
def memberCount (s : State) : Nat := 1 + s.mbu.peers.toList.countP fun p => p.kind == .member

/-- A record ages by one round (R33). -/
def Peer.aged (missLimit : Nat) (p : Peer) : Peer :=
  match p.kind with
  | .self | .absent => p
  | .heard | .member | .departed =>
    if p.heard then { p with heard := false }
    else if p.missed + 1 = missLimit then Peer.absentRecord
    else { p with missed := p.missed + 1 }

/-- The MBU's work at a correction event once the correction set has been taken: the agreement count is held, the
records age, the member count is taken with its extremes, and the fresh offsets become absent (R33 to R36). -/
def ageRecords (c : Cfg) (s : State) : State :=
  let agreement := agreementCount c s
  let s := mapPeers (Peer.aged c.cluster.missLimit) s
  let members := memberCount s
  let s := s.withMbu { s.mbu with
    agreement := agreement, members := members,
    minMembers := if s.syc.state.synced then min s.mbu.minMembers members else s.mbu.minMembers,
    maxMembers := if s.syc.state.synced then max s.mbu.maxMembers members else s.mbu.maxMembers }
  clearFresh s

end Sys2Proof.Machine
end

