-- ==== Sys2Proof/Machine/Sync.lean ====
section
/-! DEFINITION. The Sync Controller's decisions and the Timebase's correction (01, 03): adoption, founding, the
correction and its application, the judgement of a correction event, and what a beacon carries. -/

namespace Sys2Proof.Machine

/-! ### Adoption and founding (R9, R10, R44 to R47) -/

/-- The time an adoption sets: send stamp plus LINEDELAY, carried forward by the local ticks since arrival (R9). -/
def adoptedTime (c : Cfg) (b : Beacon) (arrivalLocal : Time) (s : State) : Time :=
  time64 (b.sendStamp.toNat + c.cluster.lineDelay + s.tbu.localClock.toNat - arrivalLocal.toNat)

/-- An adoption (R46). -/
def adopt (c : Cfg) (reason : Reason) (b : Beacon) (arrivalLocal : Time) (s : State) : State :=
  changeState c .tentative reason id (setClusterTime c (adoptedTime c b arrivalLocal s) s)

/-- A founding (R10, R45). -/
def found (c : Cfg) (s : State) : State :=
  changeState c .founding .listenTimeout id (setClusterTime c s.tbu.localClock s)

/-- The beacon may be adopted in LISTEN (R44); its number is not the own, since such a beacon is not handed on (R24). -/
def adoptable (c : Cfg) (b : Beacon) : Bool := b.signature == c.signature && b.reported != .tentative

/-- The founder yields to the beacon (R47). -/
def yieldsTo (c : Cfg) (b : Beacon) : Bool :=
  b.signature == c.signature &&
    (b.reported.synced || (b.reported == .founding && decide (b.station.val < c.station.val)))

/-- A beacon handed on by the MBU (R31, R44, R47): in the other states it adopts nothing. -/
def takeHandedBeacon (c : Cfg) (b : Beacon) (arrivalLocal : Time) (s : State) : State :=
  match s.syc.state with
  | .listen => if adoptable c b then adopt c .adopted b arrivalLocal s else s
  | .founding => if yieldsTo c b then adopt c .founderYield b arrivalLocal s else s
  | .off | .tentative | .sync | .stable | .holdover | .clash => s

/-- The offset of a delivered beacon (R8), exact. -/
def beaconOffset (c : Cfg) (b : Beacon) (arrivalCluster : Time) : Int :=
  b.sendStamp.toNat + c.cluster.lineDelay - arrivalCluster.toNat

/-- A delivered beacon (R8, R23, R24, R31). In OFF the MBU discards it. -/
def deliverBeacon (c : Cfg) (b : Beacon) (arrivalLocal arrivalCluster : Time) (s : State) : State :=
  if s.syc.state = .off then s
  else if b.station = c.station then ownNumberBeacon c b s
  else takeHandedBeacon c b arrivalLocal (updateRecord c b arrivalCluster (beaconOffset c b arrivalCluster) s)

/-! ### The correction (R11 to R17) -/

/-- The outcome of a correction event (R11). -/
inductive Outcome where
  | none
  | applied (correction : Int)
  | exceeded (correction : Int)
  deriving DecidableEq, Repr

/-- The record's fresh offset enters the correction set of a TENTATIVE station (R12). -/
def Peer.tentativeSource (p : Peer) : Option Int :=
  if p.kind != .self && !p.foreign && p.reported.any fun r => r != .tentative then p.freshOffset else Option.none

/-- The record's fresh offset enters the correction set in SYNC, STABLE and HOLDOVER (R12). -/
def Peer.memberSource (p : Peer) : Option Int := if p.kind = .member then p.freshOffset else Option.none

/-- The correction set (R12). -/
def correctionSet (s : State) : List Int :=
  match s.syc.state with
  | .tentative => s.mbu.peers.toList.filterMap Peer.tentativeSource
  | .sync | .stable | .holdover => 0 :: s.mbu.peers.toList.filterMap Peer.memberSource
  | .off | .listen | .founding | .clash => []

/-- The least value of a set, and the greatest. -/
def least (x : Int) (xs : List Int) : Int := xs.foldl min x

def greatest (x : Int) (xs : List Int) : Int := xs.foldl max x

/-- The mean of a set, rounded toward zero, one highest and one lowest value discarded where it holds 4 or more (R13). -/
def trimmedMean : List Int → Option Int
  | [] => Option.none
  | x :: xs =>
    let n := (x :: xs).length
    if 4 ≤ n then some (((x :: xs).sum - least x xs - greatest x xs).tdiv (n - 2 : Nat))
    else some ((x :: xs).sum.tdiv n)

/-- The outcome (R11, R14): none of an empty set, withheld above MAXCORR. -/
def correctionOutcome (c : Cfg) (s : State) : Outcome :=
  match trimmedMean (correctionSet s) with
  | Option.none => .none
  | some x => if x.natAbs ≤ c.cluster.maxCorr then .applied x else .exceeded x

/-- The correction statistics at an applied correction (R17). -/
def countCorrection (x : Int) (s : State) : State :=
  s.withTbu { s.tbu with
    lastCorrection := x, minCorrection := min s.tbu.minCorrection x, maxCorrection := max s.tbu.maxCorrection x,
    correctionCount := s.tbu.correctionCount + 1 }

/-- An applied correction's effect on time (R15): a forward step; in TENTATIVE a step back; elsewhere slew debt. -/
def stepTime (x : Int) (s : State) : State :=
  if 0 < x then moveClusterTime (timeOnward s.tbu.clusterTime x.natAbs) s
  else if x < 0 then
    if s.syc.state = .tentative then moveClusterTime (time64 (s.tbu.clusterTime.toNat + x)) s
    else s.withTbu { s.tbu with slewDebt := s.tbu.slewDebt + x.natAbs }
  else s

/-- The correction applied, withheld or absent (R14, R15, R17). -/
def applyOutcome (o : Outcome) (s : State) : State :=
  match o with
  | .applied x => countCorrection x (stepTime x s)
  | .none | .exceeded _ => s

/-- The outcome was a forward step. -/
def Outcome.forward : Outcome → Bool
  | .applied x => decide (0 < x)
  | .none | .exceeded _ => false

/-! ### The SYC's judgement of a correction event (R48 to R52) -/

/-- The counts that a judgement leaves where the state stays (R49 to R52). -/
structure Rounds where
  good : Nat
  stable : Nat
  holdover : Nat
  deriving DecidableEq, Repr

/-- The SYC's judgement: the change of state, if any, and the three counts where there is none. -/
def judgeEvent (c : Cfg) (o : Outcome) (agreement : Nat) (y : Syc) : Option (SyncState × Reason) × Rounds :=
  let same : Rounds := { good := y.goodRounds, stable := y.stableRounds, holdover := y.holdoverRounds }
  let quorum := decide (c.cluster.quorum ≤ agreement)
  match y.state, o with
  | .founding, _ => (if quorum then some (.sync, .quorumMet) else Option.none, same)
  | .tentative, .none => (Option.none, { same with good := 0 })
  | .tentative, .exceeded _ => (some (.listen, .boundExceeded), same)
  | .tentative, .applied _ =>
    if quorum then
      if y.goodRounds + 1 = c.cluster.tentRounds then (some (.sync, .roundsMet), same)
      else (Option.none, { same with good := y.goodRounds + 1 })
    else (Option.none, { same with good := 0 })
  | .sync, .exceeded _ | .stable, .exceeded _ | .holdover, .exceeded _ => (some (.listen, .boundExceeded), same)
  | .sync, .none => (if quorum then Option.none else some (.holdover, .quorumLost), same)
  | .sync, .applied x =>
    if !quorum then (some (.holdover, .quorumLost), same)
    else if x.natAbs ≤ c.cluster.stableBound then
      if y.stableRounds + 1 = c.cluster.stabRounds then (some (.stable, .stableMet), same)
      else (Option.none, { same with stable := y.stableRounds + 1 })
    else (Option.none, { same with stable := 0 })
  | .stable, .none => (if quorum then Option.none else some (.holdover, .quorumLost), same)
  | .stable, .applied x =>
    if !quorum then (some (.holdover, .quorumLost), same)
    else if c.cluster.stableBound < x.natAbs then (some (.sync, .correctionUnstable), same)
    else (Option.none, same)
  | .holdover, .none | .holdover, .applied _ =>
    if quorum then (some (.sync, .quorumRegained), same)
    else if y.holdoverRounds + 1 = c.cluster.holdRounds then (some (.listen, .holdoverExpired), same)
    else (Option.none, { same with holdover := y.holdoverRounds + 1 })
  | .off, _ | .listen, _ | .clash, _ => (Option.none, same)

/-- The SYC keeps its counts where the state stays. -/
def setRounds (r : Rounds) (s : State) : State :=
  s.withSyc { s.syc with goodRounds := r.good, stableRounds := r.stable, holdoverRounds := r.holdover }

/-- A change of state of a correction event that meets due entries: those that the event's forward step overtook, and a
head due at the boundary where the change stands down. Each entry's order is free (log 12): it fires before the change,
between the train end order and the flush (R148), or is met by the flush (R131). The flush can so come between two
firings, of which R131 says nothing: the model's choice (log 12). All the fire commands of one entry fall on one side of the
train end order, where R148 gives either order channel by channel: the model's choice (log 32). A change that does not stand down has no flush, and what
has not fired before it fires after it (R128). -/
def changeOvertaking (c : Cfg) (new : SyncState) (reason : Reason) (before : Time) (s : State) : State :=
  fireDue (some before) (changeState c new reason (fireSome (some before)) (fireSome (some before) s))

/-- What follows the correction and the aging: the judged change of state, and after a forward step the firing of the
entries it overtook (R128). Where the change stands down without a forward step, entries due at the boundary meet it in the
free order of R148 too: before it, between the train end order and the flush, or at the flush (log 12). -/
def settleEvent (c : Cfg) (o : Outcome) (agreement : Nat) (before : Time) (s : State) : State :=
  match judgeEvent c o agreement s.syc with
  | (Option.none, r) => setRounds r (if o.forward then fireDue (some before) s else s)
  | (some (new, reason), _) =>
    if headDue s && (o.forward || new.standsDown) then changeOvertaking c new reason before s
    else changeState c new reason id s

/-- A correction event at boundary `b` (R11). -/
def correctionAt (c : Cfg) (b : Time) (s : State) : State :=
  let before := s.tbu.clusterTime
  let o := correctionOutcome c s
  let agreement := agreementCount c s
  let s := s.withTbu { s.tbu with nextBoundary := some (timePlus b c.cluster.bper) }
  settleEvent c o agreement before (ageRecords c (applyOutcome o s))

/-! ### What a beacon carries when it leaves (R59, R60) -/

/-- The departing flag. -/
def departingFlag (s : State) : Bool := s.src.supplyWarning || s.leaving || s.syc.state.standsDown

/-- The beacon's fields taken at its reference point; none before any synchronizing state has been reached. -/
def fillBeacon (b : BeaconEntry) (s : State) : Option Beacon :=
  (s.syc.state.reported.or s.syc.lastSynchronizing).map fun r =>
    { station := b.station, departing := departingFlag s, reported := r, uniqueId := b.uniqueId,
      sendStamp := s.tbu.clusterTime, vector := membershipVector s, nextSequence := s.tge.ownSequence,
      signature := b.signature }

end Sys2Proof.Machine
end

