-- ==== Sys2Proof/Machine/Line.lean ====
section
/-! DEFINITION. The meanings of the Line Interface's steps: starting, sending, colliding, completing, and receiving
frames (04). -/

namespace Sys2Proof.Machine

/-! ### FRAME_START -/

/-- The quiet gaps (R68). -/
def triggerGap : Nat := 80

def beaconGap : Nat := 160

/-- The number of the copy now due (R69). -/
def copyNumber (c : Cfg) (e : TrigEntry) : Nat := c.cluster.trigRepeat - e.copies + 1

/-- A frame that starts: neither past its reference point nor purged. -/
def OnLine.start (f : LineFrame) : OnLine := { frame := f, refLeft := false, purged := false }

/-- The offered frame (R67) starts where its quiet gap and owed backoff have passed (R68). -/
def startOffered (c : Cfg) (s : State) : State :=
  match s.lif.queue, s.lif.slot with
  | e :: rest, _ =>
    if triggerGap + e.backoff ≤ s.lif.idleTimer then
      s.withLif { s.lif with
        queue := { e with onLine := true } :: rest,
        onLine := some (OnLine.start (.trigger e.trigger (copyNumber c e))) }
    else s
  | [], some b =>
    if beaconGap + b.backoff ≤ s.lif.idleTimer then
      s.withLif { s.lif with slot := none, onLine := some (OnLine.start (.beacon b none false)) }
    else s
  | [], none => s

/-- FRAME_START (R68). The idle timer of the last tick says that the line is quiet. -/
def execFrameStart (s : State) : Result :=
  live s fun s => withCfg s fun c =>
    if s.src.loadState = .ready ∧ s.syc.state.active = true ∧ s.lif.onLine = none then startOffered c s else s

/-! ### SEND_REFERENCE_POINT -/

/-- A frame passes its reference point: a beacon takes its fields and the leaving state there (R59, R72). -/
def LineFrame.passReference (s : State) : LineFrame → LineFrame
  | .trigger t copy => .trigger t copy
  | .beacon b _ _ => .beacon b (fillBeacon b s) s.leaving

/-- The part receives its own frame as it reads it back: a reception opens at the same reference point (R74, log 5). -/
def openReception (s : State) : State :=
  match s.lif.receiver with
  | .ready =>
    s.withLif { s.lif with receiver := .receiving s.tbu.localClock s.tbu.clusterTime false }
  | .ignoring | .receiving _ _ _ => s

/-- SEND_REFERENCE_POINT (R59, R7, R69): the last bit of the own frame's start mark leaves, the 16th of
`LineFrame.symbols`. -/
def execSendReferencePoint (s : State) : Result :=
  live s fun s =>
    match s.lif.onLine with
    | some f =>
      if f.refLeft then s
      else
        openReception
          (s.withLif { s.lif with onLine := some { f with frame := f.frame.passReference s, refLeft := true } })
    | none => s

/-! ### COLLISION -/

/-- The owed backoff after the k-th collision, in ticks (R70). -/
def owedBackoff (c : Cfg) (k : Nat) : Nat := Config.bitTime * (32 * k + c.station)

/-- The collision at which a frame is abandoned (R71). -/
def collisionLimit : Nat := 8

/-- A frame abandoned (R71). -/
def countAbandon (k : FrameKind) (cls : Option TrigClass) (s : State) : State :=
  (s.withLif { s.lif with abandons := s.lif.abandons + 1 }).raiseFlag (Flags.raiseTxAbandon k cls)

/-- The colliding copy's entry waits with its backoff, or leaves the queue at its eighth collision (R70, R71). -/
def collideTrigger (c : Cfg) (s : State) : State :=
  match s.lif.queue with
  | e :: rest =>
    let k := e.attempts + 1
    if k < collisionLimit then
      s.withLif { s.lif with
        queue := { e with attempts := k, backoff := owedBackoff c k, onLine := false } :: rest }
    else countAbandon .trigger (some e.trigger.cls) (s.withLif { s.lif with queue := rest })
  | [] => s

/-- The colliding beacon returns to the slot, or a newer one that waits there takes its attempt count and owed backoff;
at the eighth collision both leave (R70, R71). -/
def collideBeacon (c : Cfg) (b : BeaconEntry) (s : State) : State :=
  let k := b.attempts + 1
  if k < collisionLimit then
    s.withLif { s.lif with slot := some { s.lif.slot.getD b with attempts := k, backoff := owedBackoff c k } }
  else countAbandon .beacon none (s.withLif { s.lif with slot := none })

/-- COLLISION (R70): a symbol read back differs from the one sent (`readBack`). A purged frame is not offered again (R73). -/
def execCollision (s : State) : Result :=
  live s fun s => withCfg s fun c =>
    match s.lif.onLine with
    | some f =>
      let s := s.withLif { s.lif with onLine := none, collisions := s.lif.collisions + 1 }
      if f.purged then s
      else match f.frame with
        | .trigger _ _ => collideTrigger c s
        | .beacon b _ _ => collideBeacon c b s
    | none => s

/-! ### FRAME_COMPLETE -/

/-- The reception of the own frame is marked: the part does not deliver its own frames to itself (R69, R74). -/
def Receiver.markOwn : Receiver → Receiver
  | .receiving l c _ => .receiving l c true
  | .ignoring => .ignoring
  | .ready => .ready

/-- The front entry after a copy of it completed (R72). -/
def copyDone : List TrigEntry → List TrigEntry
  | e :: rest =>
    if e.copies ≤ 1 then rest
    else { e with copies := e.copies - 1, attempts := 0, backoff := 0, onLine := false } :: rest
  | [] => []

/-- A TRIGGER copy completes (R72); one whose entry was purged changes no entry. -/
def completeTrigger (purged : Bool) (s : State) : State :=
  s.withLif { s.lif with
    copiesSent := s.lif.copiesSent + 1,
    queue := if purged then s.lif.queue else copyDone s.lif.queue }

/-- A BEACON completes (R72); one whose reference point left while the leaving state was set ends the leave (R184). In a
reset that began at the same tick the frame is cut off, so that none completes (R79, log 31). -/
def completeBeacon (leavingAtRef : Bool) (s : State) : State :=
  let s := s.withLif { s.lif with beaconsSent := s.lif.beaconsSent + 1 }
  if leavingAtRef && s.leaving then portReset s else s

/-- FRAME_COMPLETE (R72): the last check bit of the frame on the line has been sent with every symbol agreed. -/
def execFrameComplete (s : State) : Result :=
  live s fun s =>
    match s.lif.onLine with
    | some f =>
      if f.refLeft then
        let s := s.withLif { s.lif with onLine := none, receiver := s.lif.receiver.markOwn }
        match f.frame with
        | .trigger _ _ => completeTrigger f.purged s
        | .beacon _ _ leavingAtRef => completeBeacon leavingAtRef s
      else s
    | none => s

/-! ### Receiving -/

/-- START_MARK_RECEIVED (R74): the reference point of a frame on the line (`openingCommand`), with its arrival stamp
(R7). -/
def execStartMarkReceived (s : State) : Result := live s fun s => openReception s

/-- A good frame is delivered and counted (R76). A beacon goes to the TBU and the MBU, a trigger frame to the TGE. Before
READY both are discarded by their blocks (R23, R96). -/
def deliver (localStamp clusterStamp : Time) (f : RxFrame) (s : State) : State :=
  let s := s.withLif { s.lif with framesReceived := s.lif.framesReceived + 1 }
  withCfg s fun c =>
    match f with
    | .beacon b => deliverBeacon c b localStamp clusterStamp s
    | .trigger t _ => judgeTriggerFrame c t s

/-- A bad frame (R75). -/
def countBadFrame (s : State) : State :=
  (s.withLif { s.lif with badFrames := s.lif.badFrames + 1 }).raiseFlag Flags.raiseBadFrame

/-- FRAME_END (R75): the frame in reception ends where the line has been quiet for 20 ticks (R74). The own frame, sent
to the end, is dropped (R69). -/
def execFrameEnd (body : List Bool) (s : State) : Result :=
  live s fun s =>
    match s.lif.receiver with
    | .receiving localStamp clusterStamp own =>
      if Config.frameEndTicks ≤ s.lif.idleTimer then
        let s := s.withLif { s.lif with receiver := .ready }
        if own then s
        else match judgeFrame body with
          | some f => deliver localStamp clusterStamp f s
          | none => countBadFrame s
      else s
    | .ignoring | .ready => s

/-- NOT_A_FRAME (R74): activity on a quiet line that does not begin with the start mark (`openingCommand`). -/
def execNotAFrame (s : State) : Result :=
  live s fun s =>
    match s.lif.receiver with
    | .ready => s.withLif { s.lif with receiver := .ignoring }
    | .ignoring | .receiving _ _ _ => s

end Sys2Proof.Machine
end

