-- ==== Sys2Proof/Machine/Outputs.lean ====
section
/-! DEFINITION. The meanings of the schedule's and the output channels' steps: an entry that falls due, and the two
expiries (07, 08). -/

namespace Sys2Proof.Machine

/-- ENTRY_DUE (R125): the head is due in SYNC, STABLE or HOLDOVER, and fires. The next head that is due is another
ENTRY_DUE (log 13). A head whose due time was held at 2^64 - 1 is never due (R120), and what stands behind it waits too
(log 28). -/
def execEntryDue (s : State) : Result :=
  live s fun s =>
    match s.scu.entries with
    | e :: rest =>
      if s.syc.state.synced = true ∧ e.isDue s.tbu.clusterTime = true then fireEntry none e rest s else s
    | [] => s

/-- The end of a width (R144): a gap where pulses are to come, else rest. -/
def Channel.widthExpiry : Channel → Channel
  | .active w (some g) 0 (n + 1) => .gap w g g (n + 1)
  | .active _ _ 0 _ => .idle
  | .active w g (r + 1) n => .active w g (r + 1) n
  | .gap w g r n => .gap w g r n
  | .idle => .idle
  | .held => .held

/-- The end of a gap (R144): the next pulse. -/
def Channel.gapExpiry : Channel → Channel
  | .gap w g 0 n => .active w (some g) w (n - 1)
  | .gap w g (r + 1) n => .gap w g (r + 1) n
  | .active w g r n => .active w g r n
  | .idle => .idle
  | .held => .held

/-- WIDTH_EXPIRY (R144): the remaining width of the line's channel has run out. -/
def execWidthExpiry (l : LineNo) (s : State) : Result :=
  live s fun s => setChannel l (s.tlu.channels.get l).widthExpiry s

/-- GAP_EXPIRY (R144): the remaining gap of the line's channel has run out. -/
def execGapExpiry (l : LineNo) (s : State) : Result :=
  live s fun s => setChannel l (s.tlu.channels.get l).gapExpiry s

end Sys2Proof.Machine
end

