-- ==== Sys2Proof/Machine/Port.lean ====
section
/-! DEFINITION. The meanings of the readout port's commands: the transaction, the status code, and each command's
response and effect (10, R189). -/

namespace Sys2Proof.Machine

/-! ### The transaction (R165) -/

/-- TRANSACTION_START (R165): the select falls. -/
def execTransactionStart (s : State) : Result :=
  live s fun s => if s.rdp.txn = .idle then s.withRdp { s.rdp with txn := .begun } else s

/-- SELECT_RISE (R165): the transaction ends; a command not yet taken has no effect. -/
def execSelectRise (s : State) : Result := live s fun s => s.withRdp { s.rdp with txn := .idle }

/-- Data out in the n-th byte behind the command's last byte; none where it is released (R165, R176). It drives 0 while
the command is clocked in, then the status and the response, then 0x00. Where the select has been low since reset release
the spec does not say what it does, and the value is free (log 30). -/
def dataOut (s : State) (n : Nat) : Option Byte :=
  if s.src.inReset then none
  else match s.rdp.txn with
    | .idle => none
    | .ignored => Config.dataOutIgnored n
    | .begun => some 0
    | .taken out _ => some (out.getD n 0)

/-- Data out at the k-th bit behind the command: bytes are sent most significant bit first (R165). -/
def dataOutBit (s : State) (k : Nat) : Option Bool := (dataOut s (k / 8)).map fun b => b.getMsbD (k % 8)

/-! ### Status (R166) -/

/-- Status codes (R189). -/
inductive Status where
  | ok | notReady | badArgument | unknownCommand | notArmed
  deriving DecidableEq, Repr

def Status.code : Status → Nat
  | .ok => 0 | .notReady => 1 | .badArgument => 2 | .unknownCommand => 3 | .notArmed => 4

/-- A command taken: its status and response fields are clocked out, and the armed flag is cleared (R166). -/
def answer (status : Status) (fields : List Byte) (s : State) : State :=
  s.withRdp { s.rdp with txn := .taken (byte status.code :: fields) false, armed := false }

/-- A command is taken in a transaction whose command has not been taken (R165, log 15). -/
def takeCommand (s : State) (f : State → State) : Result :=
  live s fun s => if s.rdp.txn = .begun then f s else s

/-- The load-state check (R166, order 2). -/
def whenReady (s : State) (f : State → State) : State :=
  if s.src.loadState = .ready then f s else answer .notReady [] s

/-- UNKNOWN_COMMAND (R166, order 1): a command byte that `commandOf` gives no other command. -/
def execUnknownCommand (code : Byte) (s : State) : Result :=
  takeCommand s fun s => if commandCodes.contains code then s else answer .unknownCommand [] s

/-! ### READ STATUS (R167) -/

/-- The condition byte. -/
def conditionByte (s : State) : Byte :=
  byte (bit s.src.supplyWarning 0 + bit s.rdp.armed 1 + bit s.leaving 2)

/-- The pending sources, enabled or not. -/
def sourcesByte (s : State) : Byte :=
  byte (bit (journalPending s) 0 + bit (flagsPending s) 1 + bit s.rdp.statePending 2 + bit s.rdp.loadPending 3)

def statusFields (s : State) : List Byte :=
  [byte s.src.loadState.code, byte ((s.src.loadResult.map LoadResult.code).getD 0)] ++
    beBytes 4 ((s.src.loadResult.map LoadResult.capture).getD 0) ++
    [byte s.syc.state.code, byte s.basis.code, byte (resetCauseCode s.src.resetCause), conditionByte s,
      byte s.jnl.records.length, sourcesByte s]

/-- READ_STATUS (R167): the snapshot, then the STATE and LOAD sources clear. -/
def execReadStatus (s : State) : Result :=
  takeCommand s fun s =>
    answer .ok (statusFields s) (s.withRdp { s.rdp with statePending := false, loadPending := false })

/-! ### Snapshots (R168) -/

def timeFields (s : State) : List Byte :=
  beBytes 8 s.tbu.clusterTime.toNat ++ beBytes 8 s.tbu.localClock.toNat ++ [byte s.basis.code]

/-- READ_TIME (R168, R4). -/
def execReadTime (s : State) : Result :=
  takeCommand s fun s => whenReady s fun s => answer .ok (timeFields s) s

/-- The capacity list (R168). -/
def capacityFields : List Byte :=
  [byte 32, byte 8, byte 64, byte Config.schedulePlaces, byte 4, byte Config.queuePlaces, byte Config.journalPlaces] ++
    beBytes 2 Config.imageBytes

/-- The own number and signature are present from READY (R168). -/
def identityFields (s : State) : List Byte :=
  beBytes 2 0x3208 ++ beBytes 8 s.uniqueId.toNat ++ [byte (bit s.cfg.isSome 0)] ++
    (match s.cfg with
      | some c => byte c.station :: beBytes 2 c.signature.toNat
      | none => byte 0 :: beBytes 2 0) ++
    capacityFields

/-- READ_IDENTITY (R168). -/
def execReadIdentity (s : State) : Result := takeCommand s fun s => answer .ok (identityFields s) s

def syncFields (s : State) : List Byte :=
  signedBytes 4 s.tbu.lastCorrection ++ signedBytes 4 s.tbu.minCorrection ++ signedBytes 4 s.tbu.maxCorrection ++
    beBytes 4 s.tbu.correctionCount.toNat ++ beBytes 2 s.tbu.syncLossCount.toNat ++
    [byte s.mbu.agreement, byte s.mbu.members] ++ beBytes 4 (membershipVector s).toNat ++
    [byte s.mbu.minMembers, byte s.mbu.maxMembers] ++ beBytes 2 s.tbu.slewDebt

/-- READ_SYNC (R168, R38). -/
def execReadSync (s : State) : Result :=
  takeCommand s fun s => whenReady s fun s => answer .ok (syncFields s) s

/-- A peer record (R38, R189): each optional field with its presence bit, absent ones as 0. -/
def peerFields (p : Peer) : List Byte :=
  [byte p.kind.code,
    byte (bit p.uniqueId.isSome 0 + bit p.reported.isSome 1 + bit p.lastArrival.isSome 2 + bit p.freshOffset.isSome 3 +
      bit p.expected.isSome 4),
    byte (bit p.foreign 0 + bit p.heard 1)] ++
    beBytes 8 (optNat p.uniqueId) ++ [byte ((p.reported.map Reported.code).getD 0)] ++
    beBytes 8 (optNat p.lastArrival) ++ offsetBytes (p.freshOffset.getD 0) ++ [byte p.missed] ++
    beBytes 2 (optNat p.expected) ++ beBytes 2 p.lost.toNat ++ beBytes 2 p.resync.toNat

/-- READ_PEER (R38, R166). -/
def execReadPeer (arg : Byte) (s : State) : Result :=
  takeCommand s fun s => whenReady s fun s =>
    match station? arg.toNat with
    | some n => answer .ok (peerFields (s.mbu.peers.get n)) s
    | none => answer .badArgument [] s

/-- One partition's counts (R136). -/
def partitionFields (u : Scu) (p : Partition) : List Byte :=
  [byte (u.quota.get p), byte (u.space.get p)] ++ beBytes 4 (u.drops.get p).toNat

def scheduleFields (u : Scu) : List Byte :=
  [byte u.entries.length, byte (bit u.entries.head?.isSome 0)] ++
    beBytes 8 (optNat (u.entries.head?.map SchedEntry.due)) ++
    (List.finRange 4).flatMap (partitionFields u) ++
    beBytes 4 u.lateDrop.toNat ++ beBytes 4 u.lateFire.toNat ++ beBytes 4 u.cancelled.toNat

/-- READ_SCHEDULE (R136). -/
def execReadSchedule (s : State) : Result :=
  takeCommand s fun s => whenReady s fun s => answer .ok (scheduleFields s.scu) s

/-- The line counters, the trigger engine counters, and each line's event and overrun counts (R77, R102, R150, R161). -/
def counterList (s : State) : List Counter :=
  [s.lif.beaconsSent, s.lif.copiesSent, s.lif.framesReceived, s.lif.badFrames, s.lif.collisions, s.lif.abandons,
    s.tge.raised, s.tge.refused, s.tge.accepted, s.tge.duplicate, s.tge.notReady, s.tge.notMember, s.tge.selfNumbered,
    s.tge.chainLimit] ++
    (List.finRange 8).flatMap fun k => [(s.tlu.inputs.get k).events, s.tlu.overruns.get k]

/-- READ_COUNTERS (R168). -/
def execReadCounters (s : State) : Result :=
  takeCommand s fun s => whenReady s fun s =>
    answer .ok ((counterList s).flatMap fun n => beBytes 4 n.toNat) s

/-! ### READ FLAGS (R172) -/

/-- The set flags, bit k for the flag in position k (R189). -/
def Flags.setBits (f : Flags) : Nat :=
  bit f.schedFull.isSome 0 + bit f.late.isSome 1 + bit f.chainLimit.isSome 2 + bit f.txAbandon.isSome 3 +
    bit f.numberConflict.isSome 4 + bit f.foreign.isSome 5 + bit f.disagree.isSome 6 + bit f.overrun.isSome 7 +
    bit f.journalLost.isSome 8 + bit f.badFrame 9

/-- A capture's bytes; that of a clear flag is sent as zeros (R189). -/
def captureBytes {α : Type} (size : Nat) (f : α → List Byte) (capture : Option α) : List Byte :=
  match capture with
  | some a => f a
  | none => List.replicate size 0

/-- Every capture in the order of the flags (R189). -/
def Flags.captures (f : Flags) : List Byte :=
  captureBytes 3 (fun x => [byte x.1, byte x.2.1, byte x.2.2]) f.schedFull ++
    captureBytes 6 (fun x => [byte x.1, byte x.2.1] ++ beBytes 4 x.2.2.toNat) f.late ++
    captureBytes 2 (fun x => [byte x.1, byte x.2]) f.chainLimit ++
    captureBytes 2 (fun x => [byte x.1.code, (x.2.map fun cls : TrigClass => byte cls).getD 0xFF]) f.txAbandon ++
    captureBytes 1 (fun n : Station => [byte n]) f.numberConflict ++
    captureBytes 1 (fun n : Station => [byte n]) f.foreign ++
    captureBytes 9 (fun x => byte x.1 :: offsetBytes x.2) f.disagree ++
    captureBytes 3 (fun x => [byte x.1, byte x.2.1.code, byte x.2.2.code]) f.overrun ++
    captureBytes 1 (fun k => [byte k.code]) f.journalLost

def Flags.fields (f : Flags) : List Byte := beBytes 2 f.setBits ++ f.captures

/-- READ_FLAGS (R172): every flag with its capture, then all clear. -/
def execReadFlags (s : State) : Result :=
  takeCommand s fun s => whenReady s fun s =>
    answer .ok s.rdp.flags.fields (s.withRdp { s.rdp with flags := Flags.clear })

/-! ### READ JOURNAL (R169) -/

/-- The fill and the head record, or NONE (R169, R188). -/
def journalFields (j : Jnl) : List Byte :=
  byte j.records.length ::
    (match j.records with
      | r :: _ => r.bytes
      | [] => [byte 0])

/-- The head record leaves at the end of the transfer; a NONE record removes nothing (R169). -/
def openTransfer (s : State) : State :=
  match s.rdp.txn with
  | .taken out _ => s.withRdp { s.rdp with txn := .taken out (!s.jnl.records.isEmpty) }
  | .idle | .ignored | .begun => s

/-- READ_JOURNAL (R169). -/
def execReadJournal (s : State) : Result :=
  takeCommand s fun s => whenReady s fun s => openTransfer (answer .ok (journalFields s.jnl) s)

/-- JOURNAL_TRANSFER_DONE (R169): the last bit of the record's last byte has been clocked out. -/
def execJournalTransferDone (s : State) : Result :=
  live s fun s =>
    match s.rdp.txn with
    | .taken out true =>
      (s.withJnl { s.jnl with records := s.jnl.records.drop 1 }).withRdp { s.rdp with txn := .taken out false }
    | .taken _ false | .idle | .ignored | .begun => s

/-! ### RAISE and CANCEL (R170) -/

/-- The response of RAISE (R189). -/
def raiseFields (o : RaiseOutcome) : List Byte := byte o.code :: beBytes 2 (optNat o.sequence?)

/-- A RAISE of class `cls` (R93): stamped with the present cluster time, without a hold-off check. -/
def raiseCommand (c : Cfg) (cls : TrigClass) (s : State) : State :=
  let r := raiseTrigger c cls s.tbu.clusterTime true s
  answer .ok (raiseFields r.2) r.1

/-- RAISE (R93, R166, R170). -/
def execRaise (arg : Byte) (s : State) : Result :=
  takeCommand s fun s => whenReady s fun s =>
    match class? arg.toNat with
    | some cls => withCfg s fun c => raiseCommand c cls s
    | none => answer .badArgument [] s

/-- A CANCEL of class `cls` (R132). -/
def cancelCommand (cls : TrigClass) (s : State) : State :=
  let gone := fun e : SchedEntry => e.cls == cls
  answer .ok [byte (s.scu.entries.filter gone).length] (removeUnfired gone s)

/-- CANCEL (R132, R166, R170). -/
def execCancel (arg : Byte) (s : State) : Result :=
  takeCommand s fun s => whenReady s fun s =>
    match class? arg.toNat with
    | some cls => cancelCommand cls s
    | none => answer .badArgument [] s

/-! ### RESTART ARM and RESTART (R174, R175, R183, R184) -/

/-- RESTART_ARM (R174). -/
def execRestartArm (s : State) : Result :=
  takeCommand s fun s =>
    let s := answer .ok [] s
    s.withRdp { s.rdp with armed := true }

/-- The restart leave begins (R184, R60): the leave timer starts and a beacon is placed in the slot. -/
def beginLeave (c : Cfg) (s : State) : State :=
  placeBeacon c (s.withSrc { s.src with leaveTimer := some (2 * c.cluster.bper) })

/-- What the SRC does with a restart handed to it (R183). -/
def restartPart (s : State) : State :=
  if s.src.loadState = .ready ∧ s.syc.state.active = true then
    if s.leaving then s else withCfg s fun c => beginLeave c s
  else portReset s

/-- RESTART (R175). In a reset that began at the same tick its transaction has ended, so that it is not taken (R165,
log 31). -/
def execRestart (s : State) : Result :=
  takeCommand s fun s =>
    if s.rdp.armed then restartPart (answer .ok [] s) else answer .notArmed [] s

end Sys2Proof.Machine
end

