-- ==== Sys2Proof/Machine/Image.lean ====
section
/-! DEFINITION. The configuration image (R178 to R182, R105, R190): the judgement of the bytes that have arrived, the
blocks' contents with their value checks, and what READY distributes. -/

namespace Sys2Proof.Machine

/-- What the bytes so far show: the load goes on, has failed, or has what is asked for. -/
inductive Verdict (α : Type) where
  | more
  | fail (r : LoadResult)
  | ok (a : α)
  deriving DecidableEq, Repr

/-- A block: its type and its payload. -/
structure Block where
  type : Nat
  payload : List Byte
  deriving DecidableEq, Repr

/-- The blocks in turn (R178, orders 4 to 8). `left` blocks are still to come, the next has number `index` and stands at
offset `pos`; `seen` holds those before it, `bs` the bytes from `pos` on. -/
def readBlocks (length : Nat) : Nat → Nat → Nat → List Block → List Byte → Verdict (List Block)
  | 0, _, pos, seen, _ => if pos + 2 = length then .ok seen else .fail (.tooLong length)
  | left + 1, index, pos, seen, bs =>
    let n := field bs 1 2
    let type := field bs 0 1
    if bs.length < 3 then .more
    else if length < pos + 5 + n + 2 then .fail (.tooLong index)
    else if bs.length < 5 + n then .more
    else if field bs (3 + n) 2 ≠ (crc16 (bs.take (3 + n))).toNat then .fail (.blockCheck index)
    else if type = 0 ∨ 5 < type then .fail (.badValue type 0)
    else if seen.any (fun b => b.type == type) then .fail (.duplicateBlock type)
    else
      readBlocks length left (index + 1) (pos + 5 + n) (seen ++ [{ type := type, payload := (bs.drop 3).take n }])
        (bs.drop (5 + n))

/-- The payload of the block of a type. -/
def payloadOf (type : Nat) (bs : List Block) : Option (List Byte) :=
  (bs.find? fun b => b.type == type).map Block.payload

/-- The lowest type of the four required that is missing (R178, order 10). -/
def missingType (bs : List Block) : Option Nat := [1, 2, 3, 4].find? fun t => (payloadOf t bs).isNone

/-! ### Values (R179, R180, R105): the number of the first item out of range, or the contents -/

/-- An item is in range, or the judgement ends with its number. -/
def need (ok : Bool) (item : Nat) : Except Nat Unit := if ok then .ok () else .error item

/-- A number within a range. -/
def within (n low high : Nat) : Bool := decide (low ≤ n) && decide (n ≤ high)

/-- The CLUSTER block (R179). -/
def readCluster (p : List Byte) : Except Nat Cluster :=
  let c : Cluster :=
    { bper := field p 0 4, quorum := field p 4 1, maxCorr := field p 5 2, stableBound := field p 7 2,
      tentRounds := field p 9 1, stabRounds := field p 10 1, holdRounds := field p 11 1, missLimit := field p 12 1,
      listenRounds := field p 13 1, lineDelay := field p 14 2, trigRepeat := field p 16 1 }
  do
    need (p.length == 17) 0
    need (within c.bper 100000 10000000) 1
    need (within c.quorum 1 32) 2
    need (within c.maxCorr 1 65535) 3
    need (within c.stableBound 0 c.maxCorr) 4
    need (within c.tentRounds 1 15) 5
    need (within c.stabRounds 1 255) 6
    need (within c.holdRounds 1 255) 7
    need (within c.missLimit 2 15) 8
    need (within c.listenRounds 1 15) 9
    need (within c.lineDelay 0 65535) 10
    need (within c.trigRepeat 1 3) 11
    return c

/-- The LOCAL block (R179): the attention mask, whose bits 7 to 4 are ignored, and the journal threshold. -/
def readLocal (p : List Byte) : Except Nat (Mask × Nat) := do
  need (p.length == 2) 0
  let m := field p 0 1
  need (within (field p 1 1) 1 128) 2
  return ({ journal := m.testBit 0, flags := m.testBit 1, state := m.testBit 2, load := m.testBit 3 }, field p 1 1)

/-- The PARTITIONS block (R179): item 4 also fails where the quotas total above 48. -/
def readPartitions (p : List Byte) : Except Nat (Vector Nat 4) := do
  need (p.length == 4) 0
  need (within (field p 0 1) 0 48) 1
  need (within (field p 1 1) 0 48) 2
  need (within (field p 2 1) 0 48) 3
  need (within (field p 3 1) 0 48 &&
    within (field p 0 1 + field p 1 1 + field p 2 1 + field p 3 1) 0 Config.schedulePlaces) 4
  return #v[field p 0 1, field p 1 1, field p 2 1, field p 3 1]

/-- Codes of the LINES block (R190). -/
def EdgeSelect.ofCode : Nat → Option EdgeSelect
  | 0 => some .never | 1 => some .rising | 2 => some .falling | 3 => some .both | _ => none

def Retrigger.ofCode : Nat → Option Retrigger
  | 0 => some .keep | 1 => some .restart | _ => none

/-- A code of 0 or 1. -/
def flag? : Nat → Option Bool
  | 0 => some false | 1 => some true | _ => none

/-- An input line's class: 0 to 63, or 0xFF for absent (R190). -/
def inputClass? (n : Nat) : Option (Option TrigClass) := if n = 255 then some none else (class? n).map some

/-- One LINES item of 9 bytes (R180, R190); none where a code or a value is out of range. -/
def readLine (p : List Byte) : Option LineCfg :=
  match field p 0 1 with
  | 0 => some .off
  | 1 =>
    match EdgeSelect.ofCode (field p 1 1), inputClass? (field p 7 1), flag? (field p 8 1) with
    | some select, some cls, some capture =>
      some (.input
        { select := select, qualification := field p 2 2, holdOff := field p 4 3, cls := cls, capture := capture })
    | _, _, _ => none
  | 2 =>
    match flag? (field p 1 1), Retrigger.ofCode (field p 2 1) with
    | some low, some policy => some (.output (!low) policy)
    | _, _ => none
  | _ => none

/-- Item `i + 1` of the LINES block: line `i`. -/
def readLineItem (p : List Byte) (i : Nat) : Except Nat LineCfg :=
  match readLine ((p.drop (9 * i)).take 9) with
  | some l => .ok l
  | none => .error (i + 1)

/-- The LINES block (R180): eight items, TL0 first. -/
def readLines (p : List Byte) : Except Nat (Vector LineCfg 8) := do
  need (p.length == 72) 0
  let l0 ← readLineItem p 0
  let l1 ← readLineItem p 1
  let l2 ← readLineItem p 2
  let l3 ← readLineItem p 3
  let l4 ← readLineItem p 4
  let l5 ← readLineItem p 5
  let l6 ← readLineItem p 6
  let l7 ← readLineItem p 7
  return #v[l0, l1, l2, l3, l4, l5, l6, l7]

/-- The kind of an ACTIONS item with the fields it carries (R104, R105); none where a code or a value breaks R104. -/
def readAction (kind width period count : Nat) : Option Action :=
  match kind with
  | 1 => if 0 < width then some (.pulse width) else none
  | 2 => if 0 < width ∧ width < period ∧ 0 < count then some (.train width period count) else none
  | 3 => some .set
  | 4 => some .clear
  | _ => none

/-- The derive part of an ACTIONS item; its fields are ignored where it is not present (R190). -/
def readDerive (present cls offset : Nat) : Option (Option (TrigClass × Nat)) :=
  match present with
  | 0 => some none
  | 1 => (class? cls).map fun c => some (c, offset)
  | _ => none

def LatePolicy.ofCode : Nat → Option LatePolicy
  | 0 => some .drop | 1 => some .fire | _ => none

/-- A line is configured OUTPUT. -/
def LineCfg.isOutput : LineCfg → Bool
  | .output _ _ => true
  | .off | .input _ => false

def mapIndex? (n : Nat) : Option MapIndex := if h : n < 64 then some ⟨n, h⟩ else none

def partition? (n : Nat) : Option Partition := if h : n < 4 then some ⟨n, h⟩ else none

/-- The checks of R105 on an item that the modes and the quotas decide. -/
def placeable (lines : Vector LineCfg 8) (quota : Vector Nat 4) (origins : StationSet) (set : LineSet)
    (part : Partition) : Bool :=
  origins != 0 && set != 0 && (List.finRange 8).all (fun k => !set.getLsbD k || (lines.get k).isOutput) &&
    decide (0 < quota.get part)

/-- One ACTIONS item of 29 bytes (R105, R190): its index and entry; none where it breaks R104. -/
def readMapEntry (lines : Vector LineCfg 8) (quota : Vector Nat 4) (p : List Byte) : Option (MapIndex × MapEntry) :=
  let origins := BitVec.ofNat 32 (field p 2 4)
  let set := BitVec.ofNat 8 (field p 6 1)
  match mapIndex? (field p 0 1), class? (field p 1 1), partition? (field p 7 1),
      readAction (field p 12 1) (field p 13 3) (field p 16 3) (field p 19 2) with
  | some index, some cls, some part, some action =>
    match LatePolicy.ofCode (field p 21 1), flag? (field p 22 1),
        readDerive (field p 23 1) (field p 24 1) (field p 25 4) with
    | some late, some journal, some derive =>
      if placeable lines quota origins set part then
        some (index,
          { cls := cls, origins := origins, lines := set, part := part, offset := field p 8 4, action := action,
            late := late, journal := journal, derive := derive })
      else none
    | _, _, _ => none
  | _, _, _, _ => none

/-- The ACTIONS items in turn: `left` are still to come and `done` stand before. An index given by two items fails at
the second. -/
def readMapItems (lines : Vector LineCfg 8) (quota : Vector Nat 4) :
    Nat → Nat → Vector (Option MapEntry) 64 → List Byte → Except Nat (Vector (Option MapEntry) 64)
  | 0, _, m, _ => .ok m
  | left + 1, done, m, bs =>
    match readMapEntry lines quota (bs.take 29) with
    | none => .error (done + 1)
    | some (index, e) =>
      if (m.get index).isSome then .error (done + 1)
      else readMapItems lines quota left (done + 1) (m.set index (some e)) (bs.drop 29)

/-- The ACTIONS block (R105). -/
def readActions (lines : Vector LineCfg 8) (quota : Vector Nat 4) (p : List Byte) :
    Except Nat (Vector (Option MapEntry) 64) := do
  need (p.length % 29 == 0 && decide (p.length ≤ 64 * 29)) 0
  readMapItems lines quota (p.length / 29) 0 (Vector.replicate 64 none) p

/-! ### The whole image -/

/-- What an image gives the blocks (R181). -/
structure ImageConfig where
  cfg : Cfg
  mask : Mask
  threshold : Nat
  lines : Vector LineCfg 8
  quota : Vector Nat 4
  amp : Vector (Option MapEntry) 64
  deriving DecidableEq, Repr

/-- A block's value check as a load result. -/
def blockValues {α : Type} (type : Nat) (r : Except Nat α) : Except LoadResult α :=
  match r with
  | .ok a => .ok a
  | .error item => .error (.badValue type item)

/-- The value checks (R178, order 11): the header, then the blocks in type order. -/
def readValues (station : Nat) (bs : List Block) : Except LoadResult ImageConfig :=
  let cluster := (payloadOf 1 bs).getD []
  do
    let own ← match station? station with
      | some n => (Except.ok n : Except LoadResult Station)
      | none => .error (.badValue 0 1)
    let c ← blockValues 1 (readCluster cluster)
    let l ← blockValues 2 (readLocal ((payloadOf 2 bs).getD []))
    let lines ← blockValues 3 (readLines ((payloadOf 3 bs).getD []))
    let quota ← blockValues 4 (readPartitions ((payloadOf 4 bs).getD []))
    let amp ← blockValues 5 (readActions lines quota ((payloadOf 5 bs).getD []))
    return { cfg := { station := own, cluster := c, signature := crc16 cluster }, mask := l.1, threshold := l.2,
             lines := lines, quota := quota, amp := amp }

/-- The checks on the whole image, once its last byte has arrived (R178, orders 9 to 11). -/
def judgeWhole (bytes : List Byte) (bs : List Block) : Verdict ImageConfig :=
  if field bytes (bytes.length - 2) 2 ≠ (crc16 (bytes.take (bytes.length - 2))).toNat then .fail .imageCheck
  else match missingType bs with
    | some t => .fail (.missingBlock t)
    | none =>
      match readValues (field bytes 4 1) bs with
      | .ok g => .ok g
      | .error r => .fail r

/-- The SRC's judgement of the bytes that have arrived (R178). -/
def judgeImage (bytes : List Byte) : Verdict ImageConfig :=
  let length := field bytes 6 2
  if bytes.length < 2 then .more
  else if field bytes 0 2 ≠ 0x4A44 then .fail (.noImage (field bytes 0 2))
  else if bytes.length < 4 then .more
  else if field bytes 2 2 ≠ 0x3208 then .fail (.wrongDevice (field bytes 2 2))
  else if bytes.length < 8 then .more
  else if !within length 10 Config.imageBytes then .fail (.tooLong length)
  else match readBlocks length (field bytes 5 1) 1 8 [] (bytes.drop 8) with
    | .more => .more
    | .fail r => .fail r
    | .ok bs => if bytes.length < length then .more else judgeWhole bytes bs

/-! ### The end of a load (R181, R182) -/

/-- The SELF record (R21). -/
def Peer.selfRecord (u : UniqueId) : Peer := { Peer.absentRecord with kind := .self, uniqueId := some u }

/-- The load ends: the state and result, and the LOAD source pending (R173, R181, R182). -/
def endLoad (state : LoadState) (result : LoadResult) (s : State) : State :=
  (s.withSrc { s.src with loadState := state, loadResult := some result }).withRdp { s.rdp with loadPending := true }

/-- An INPUT line's settled level takes the level sampled at the READY tick (R152). -/
def startInput (pins : BitVec 8) (lines : Vector LineCfg 8) (k : Fin 8) (ch : InputChan) : InputChan :=
  match lines.get k with
  | .input _ => { ch with settled := some (pins.getLsbD k) }
  | .off | .output _ _ => ch

/-- What each block takes at the tick of READY (R181), before the move to LISTEN. -/
def distribute (g : ImageConfig) (s : State) : State :=
  let s := s.withCfg (some g.cfg)
  let s := s.withMbu { s.mbu with peers := s.mbu.peers.set g.cfg.station (Peer.selfRecord s.uniqueId) }
  let s := s.withScu { s.scu with quota := g.quota, space := g.quota }
  let s := s.withAmp g.amp
  let s := s.withTlu { s.tlu with
    lines := g.lines,
    inputs := Vector.ofFn fun k => startInput s.tlu.pins g.lines k (s.tlu.inputs.get k) }
  s.withRdp { s.rdp with mask := g.mask, threshold := some g.threshold }

/-- Load READY (R181, R42). -/
def loadReady (g : ImageConfig) (s : State) : State :=
  changeState g.cfg .listen .loadDone id (distribute g (endLoad .ready .ok s))

/-- The next byte of the image (R177, R178). -/
def takeImageByte (b : Byte) (s : State) : State :=
  let bytes := s.src.image ++ [b]
  let s := s.withSrc { s.src with image := bytes }
  match judgeImage bytes with
  | .more => s
  | .fail r => endLoad .failed r s
  | .ok g => loadReady g s

end Sys2Proof.Machine
end

