-- ==== Sys2Proof/Machine/Startup.lean ====
section
/-! DEFINITION. The meanings of the Start-up and Reset Controller's steps: resets, the image load, the end of the
restart leave by its timer, and the supply monitor (11). -/

namespace Sys2Proof.Machine

/-- RESET (R176): every block in its reset state, held, with the cause recorded; a cause that arises during a reset
replaces it, and the ticks that a PORT reset still holds go on (log 27). PORT does not arise here (log 24), and none arises
in a reset: an outside cause that is taken before a PORT cause of its tick stays recorded (log 31). -/
def execReset (cause : ResetCause) (s : State) : Result :=
  .next (match cause with
    | .port => s
    | .power | .pin | .supply => resetState cause s.src.portHold s)

/-- The part starts from its reset state (R177, R185, R165); the load state LOADING drives the image port
(`imagePort`). -/
def release (supplyLow selectLow : Bool) (s : State) : State :=
  (s.withSrc { s.src with inReset := false, supplyWarning := supplyLow }).withRdp
    { s.rdp with txn := if selectLow then .ignored else .idle }

/-- RESET_RELEASE (R177): no cause holds; a PORT reset holds for its 100 ticks (R176). -/
def execResetRelease (supplyLow selectLow : Bool) (s : State) : Result :=
  .next (if s.src.inReset = true ∧ s.src.portHold = 0 then release supplyLow selectLow s else s)

/-- IMAGE_BYTE (R178). The image port is idle once the load has ended (R177). -/
def execImageByte (b : Byte) (s : State) : Result :=
  live s fun s => if s.src.loadState = .loading then takeImageByte b s else s

/-! ### The image port (R176, R177) -/

/-- What the SRC sends the memory before it clocks in image bytes: the read command and a three-byte address of 0
(R177). -/
def imageRequest : List Byte := [0x03, 0x00, 0x00, 0x00]

/-- The bits of the request on the image port: most significant bit first (R177). -/
def imageRequestBits : List Bool := bytesToBits imageRequest

/-- Ticks to a bit of the image port (R177). -/
def imageBitTicks : Nat := 4

/-- The ticks from release in which a load that passes ends (R177): the request, then the image, byte by byte. -/
def loadTicks (length : Nat) : Nat := (imageRequest.length + length) * (8 * imageBitTicks)

/-- The byte that the SRC reads where no memory answers: data in stays high (R177). -/
def absentMemoryByte : Byte := 0xFF

/-- The drive of the image port. -/
inductive ImagePort where
  /-- In a reset the port is not driven (R176). -/
  | undriven
  /-- While the load goes on the select is low, and the request with its clocks goes out ahead of the image bytes
  (R177). -/
  | selected (request : List Byte)
  /-- After the load the port is idle with the select high (R177). -/
  | idle
  deriving DecidableEq, Repr

/-- The image port follows the load state (R176, R177). -/
def imagePort (s : State) : ImagePort :=
  if s.src.inReset then .undriven
  else match s.src.loadState with
    | .loading => .selected imageRequest
    | .ready | .failed => .idle

/-! ### The leave timer and the supply monitor -/

/-- LEAVE_TIMEOUT (R184): the leave timer stands at 0. After an outside cause of the same tick the leave is gone and no
PORT cause arises, where R176 would record the one taken second: the model's choice (log 31). -/
def execLeaveTimeout (s : State) : Result :=
  live s fun s => if s.src.leaveTimer = some 0 then portReset s else s

/-- SUPPLY_WARNING_SET (R185). -/
def execSupplyWarningSet (s : State) : Result :=
  live s fun s => s.withSrc { s.src with supplyWarning := true }

/-- SUPPLY_WARNING_CLEAR (R185). -/
def execSupplyWarningClear (s : State) : Result :=
  live s fun s => s.withSrc { s.src with supplyWarning := false }

end Sys2Proof.Machine
end

