-- ==== Sys2Proof/Machine/Timebase.lean ====
section
/-! DEFINITION. The meanings of the steps that time brings: the tick, the listen timer's expiry, the correction event,
and the beacon that falls due (01, 03). -/

namespace Sys2Proof.Machine

/-! ### TICK -/

/-- The clocks at a tick (R1, R2). -/
def Tbu.tick (t : Tbu) : Tbu :=
  let clock := timeOnward t.localClock 1
  if t.hold then { t with localClock := clock, clusterTime := timeOnward t.clusterTime 1, hold := false }
  else if t.slewDebt = 0 then { t with localClock := clock, clusterTime := timeOnward t.clusterTime 1 }
  else { t with localClock := clock, slewDebt := t.slewDebt - 1, hold := true }

/-- A quiet tick of the idle timer, held at its largest value rather than wrapping (R63). The largest value lies at or
above 2,710 (log 8). -/
def idleQuiet (idle : Nat) : Nat :=
  if idle < 2710 then idle + 1 else if idle < 2710 + Config.idleTimerHeadroom then idle + 1 else idle

/-- The receiver at a tick: a line ignored until 20 quiet ticks is listened to again (R74). -/
def Receiver.tick (idle : Nat) : Receiver → Receiver
  | .ignoring => if Config.frameEndTicks ≤ idle then .ready else .ignoring
  | .ready => .ready
  | .receiving l c own => .receiving l c own

/-- The line at a tick: active while another station or this one sends (R63). -/
def Lif.tick (active : Bool) (l : Lif) : Lif :=
  let idle := if active || l.onLine.isSome then 0 else idleQuiet l.idleTimer
  { l with idleTimer := idle, receiver := l.receiver.tick idle }

/-- A channel at a tick (R144); a count that stands at 0 is an expiry not yet taken. -/
def Channel.tick : Channel → Channel
  | .active w g r n => .active w g (r - 1) n
  | .gap w g r n => .gap w g (r - 1) n
  | .idle => .idle
  | .held => .held

/-- The timing lines at a tick (R144, R153). -/
def Tlu.tick (pins : BitVec 8) (t : Tlu) : Tlu := { t with channels := t.channels.map Channel.tick, pins := pins }

/-- A timer at a tick (R39, R184); one that stands at 0 is an expiry not yet taken. -/
def timerTick (t : Option Nat) : Option Nat := t.map (· - 1)

/-- A tick of a part that runs. -/
def tick (active : Bool) (pins : BitVec 8) (s : State) : State :=
  let s := s.withTbu s.tbu.tick
  let s := s.withLif (s.lif.tick active)
  let s := s.withSyc { s.syc with listenTimer := timerTick s.syc.listenTimer }
  let s := s.withTlu (s.tlu.tick pins)
  s.withSrc { s.src with leaveTimer := timerTick s.src.leaveTimer }

/-- A tick of a part held in reset: every block stays in its reset state, and the PORT reset's ticks pass (R176). -/
def tickInReset (pins : BitVec 8) (s : State) : State :=
  (s.withTlu { s.tlu with pins := pins }).withSrc { s.src with portHold := s.src.portHold - 1 }

/-- TICK (R2). The steps that fall due at the tick are commands of their own, taken after it (log 2). -/
def execTick (active : Bool) (pins : BitVec 8) (s : State) : Result :=
  .next (if s.src.inReset then tickInReset pins s else tick active pins s)

/-! ### The steps that fall due -/

/-- LISTEN_TIMEOUT (R45): the listen timer stands at 0 in LISTEN. -/
def execListenTimeout (s : State) : Result :=
  live s fun s => withCfg s fun c =>
    if s.syc.state = .listen ∧ s.syc.listenTimer = some 0 then found c s else s

/-- CORRECTION_EVENT (R11): cluster time equals the next boundary (R5). -/
def execCorrectionEvent (s : State) : Result :=
  live s fun s => withCfg s fun c =>
    if s.tbu.nextBoundary = some s.tbu.clusterTime then correctionAt c s.tbu.clusterTime s else s

/-- A beacon falls due at `t` (R57, R58). -/
def beaconDue (c : Cfg) (t : Time) (s : State) : State :=
  (placeBeacon c s).withSyc { s.syc with nextBeaconDue := some (timePlus t c.cluster.bper) }

/-- BEACON_DUE (R58): cluster time is at or past the next beacon due (R57). -/
def execBeaconDue (s : State) : Result :=
  live s fun s => withCfg s fun c =>
    match s.syc.nextBeaconDue with
    | some t => if t.toNat ≤ s.tbu.clusterTime.toNat then beaconDue c t s else s
    | none => s

end Sys2Proof.Machine
end

