-- ==== Sys2Proof/Machine/Dispatch.lean ====
section
/-! DEFINITION. The effect of each command on everything but the queue: one arm for each row of the table. -/

namespace Sys2Proof.Machine

def exec (i : Instr) (s : State) : Host.Outcome State Fault Refusal :=
  match i with
  | .reset cause => Sys2Proof.Machine.execReset cause s
  | .resetRelease supplyLow selectLow => Sys2Proof.Machine.execResetRelease supplyLow selectLow s
  | .tick active pins => Sys2Proof.Machine.execTick active pins s
  | .imageByte b => Sys2Proof.Machine.execImageByte b s
  | .listenTimeout => Sys2Proof.Machine.execListenTimeout s
  | .correctionEvent => Sys2Proof.Machine.execCorrectionEvent s
  | .beaconDue => Sys2Proof.Machine.execBeaconDue s
  | .frameStart => Sys2Proof.Machine.execFrameStart s
  | .sendReferencePoint => Sys2Proof.Machine.execSendReferencePoint s
  | .collision => Sys2Proof.Machine.execCollision s
  | .frameComplete => Sys2Proof.Machine.execFrameComplete s
  | .startMarkReceived => Sys2Proof.Machine.execStartMarkReceived s
  | .frameEnd body => Sys2Proof.Machine.execFrameEnd body s
  | .inputTransition line => Sys2Proof.Machine.execInputTransition line s
  | .inputReversion line => Sys2Proof.Machine.execInputReversion line s
  | .edgeQualified line => Sys2Proof.Machine.execEdgeQualified line s
  | .entryDue => Sys2Proof.Machine.execEntryDue s
  | .widthExpiry line => Sys2Proof.Machine.execWidthExpiry line s
  | .gapExpiry line => Sys2Proof.Machine.execGapExpiry line s
  | .transactionStart => Sys2Proof.Machine.execTransactionStart s
  | .selectRise => Sys2Proof.Machine.execSelectRise s
  | .unknownCommand code => Sys2Proof.Machine.execUnknownCommand code s
  | .readStatus => Sys2Proof.Machine.execReadStatus s
  | .readTime => Sys2Proof.Machine.execReadTime s
  | .readIdentity => Sys2Proof.Machine.execReadIdentity s
  | .readSync => Sys2Proof.Machine.execReadSync s
  | .readPeer arg => Sys2Proof.Machine.execReadPeer arg s
  | .readSchedule => Sys2Proof.Machine.execReadSchedule s
  | .readCounters => Sys2Proof.Machine.execReadCounters s
  | .readFlags => Sys2Proof.Machine.execReadFlags s
  | .readJournal => Sys2Proof.Machine.execReadJournal s
  | .journalTransferDone => Sys2Proof.Machine.execJournalTransferDone s
  | .raise arg => Sys2Proof.Machine.execRaise arg s
  | .cancel arg => Sys2Proof.Machine.execCancel arg s
  | .restartArm => Sys2Proof.Machine.execRestartArm s
  | .restart => Sys2Proof.Machine.execRestart s
  | .leaveTimeout => Sys2Proof.Machine.execLeaveTimeout s
  | .supplyWarningSet => Sys2Proof.Machine.execSupplyWarningSet s
  | .supplyWarningClear => Sys2Proof.Machine.execSupplyWarningClear s
  | .notAFrame => Sys2Proof.Machine.execNotAFrame s

end Sys2Proof.Machine
end

