-- ==== Sys2Proof/Safety.lean ====
section
/-! DEFINITION. What the manual says always holds of the part's state: the invariants that the statements are about. -/

namespace Sys2Proof.Machine

/-! ### The transmit queue and the journal -/

/-- The transmit queue holds at most 8 trigger entries (R64). -/
def QueueBounded (s : State) : Prop := s.lif.queue.length ≤ 8

/-- A stored record is a GAP record. -/
def Record.isGap : Record → Bool
  | .gap _ => true
  | .capture _ | .fire _ | .state _ => false

/-- A GAP record carries a lost count of 1 or more (R162); any other record is as it was handed over. -/
def Record.counted : Record → Bool
  | .gap n => n != 0
  | .capture _ | .fire _ | .state _ => true

/-- The journal holds at most 128 records, its newest is never a GAP record, and every GAP record carries a count of 1 or
more (R162). -/
structure JournalFormed (s : State) : Prop where
  bounded : s.jnl.records.length ≤ 128
  newest : ∀ r, s.jnl.records.getLast? = some r → r.isGap = false
  counted : ∀ r ∈ s.jnl.records, r.counted = true

/-! ### The schedule -/

/-- The schedule stands in ascending due time, then ascending map index (R117); an entry whose exact due time exceeds the
largest 64-bit value is held there (R120). -/
def ScheduleOrdered (s : State) : Prop :=
  s.scu.entries.Pairwise (fun a b =>
    a.due.toNat < b.due.toNat ∨ (a.due = b.due ∧ a.index.val ≤ b.index.val)) ∧
  ∀ e ∈ s.scu.entries, e.capped = true → e.due.toNat = 2 ^ 64 - 1

/-- How many entries of the schedule occupy a partition's places. -/
def placesTaken (s : State) (p : Partition) : Nat := s.scu.entries.countP fun e => e.part == p

/-- In each partition the entries that the schedule holds plus the space equal the quota, and the quotas total at most
48 (R118). -/
structure PlacesCounted (s : State) : Prop where
  space : ∀ p : Partition, placesTaken s p + s.scu.space.get p = s.scu.quota.get p
  total : s.scu.quota.get 0 + s.scu.quota.get 1 + s.scu.quota.get 2 + s.scu.quota.get 3 ≤ 48

/-! ### The sync state and what goes with it -/

/-- What the sync state says of the other blocks. -/
structure Coherent (s : State) : Prop where
  /-- Configured exactly in load READY (R181, R182). -/
  configured : s.cfg.isSome = true ↔ s.src.loadState = .ready
  /-- OFF exactly while not configured (R42). -/
  off : s.syc.state = .off ↔ s.cfg = none
  /-- The listen timer runs exactly in LISTEN (R39, R43). -/
  listening : s.syc.listenTimer.isSome = true ↔ s.syc.state = .listen
  /-- The next boundary is present exactly in FOUNDING to HOLDOVER (R5). -/
  boundary : s.tbu.nextBoundary.isSome = true ↔ s.syc.state.active = true
  /-- The next beacon due is present exactly in FOUNDING to HOLDOVER (R57). -/
  beacon : s.syc.nextBeaconDue.isSome = true ↔ s.syc.state.active = true
  /-- The last synchronizing state is the present one in FOUNDING to HOLDOVER (R39). -/
  reported : s.syc.state.active = true → s.syc.lastSynchronizing = s.syc.state.reported
  /-- Slew debt arises in SYNC, STABLE and HOLDOVER alone (R15, R16). -/
  debt : s.syc.state.synced = false → s.tbu.slewDebt = 0 ∧ s.tbu.hold = false
  /-- The schedule is empty outside SYNC, STABLE and HOLDOVER (R124). -/
  schedule : s.syc.state.synced = false → s.scu.entries = []
  /-- No trigger entry is queued outside SYNC, STABLE and HOLDOVER (R79). -/
  queue : s.syc.state.synced = false → s.lif.queue = []
  /-- The beacon slot is empty in OFF, LISTEN and CLASH (R58, R64). -/
  slot : s.syc.state.active = false → s.lif.slot = none
  /-- A frame still on the line in LISTEN or CLASH is one whose entry was purged (R73). -/
  onLine : s.syc.state.active = false → ∀ f, s.lif.onLine = some f → f.purged = true

/-! ### The peer table -/

/-- A peer record is as R20 and R28 describe its state. -/
structure Peer.Formed (p : Peer) : Prop where
  /-- An ABSENT record has every optional field absent, both marks clear and the counts 0. -/
  absent : p.kind = .absent → p = Peer.absentRecord
  /-- The unique ID and the reported state are absent in ABSENT alone, of the peer records. -/
  present : p.kind = .heard ∨ p.kind = .member ∨ p.kind = .departed → p.uniqueId.isSome = true ∧ p.reported.isSome = true
  /-- Every MEMBER record has no foreign mark and a last reported state of SYNC, STABLE or HOLDOVER. -/
  member : p.kind = .member → p.foreign = false ∧ ∃ r, p.reported = some r ∧ r.synced = true

/-- Every record of the peer table is formed. -/
def PeersFormed (s : State) : Prop := ∀ n : Station, (s.mbu.peers.get n).Formed

/-- The SELF record is the one at the own number, from READY on (R21, R22). -/
structure SelfStands (s : State) : Prop where
  own : ∀ c, s.cfg = some c → s.mbu.peers.get c.station = Peer.selfRecord s.uniqueId
  others : ∀ c n, s.cfg = some c → n ≠ c.station → (s.mbu.peers.get n).kind ≠ .self
  before : s.cfg = none → ∀ n, s.mbu.peers.get n = Peer.absentRecord

/-! ### Counts and channels -/

/-- The minimum correction never rises above 0, the maximum never falls below it, and the last lies between them
(R17). -/
structure StatisticsBracketed (s : State) : Prop where
  minimum : s.tbu.minCorrection ≤ 0
  maximum : 0 ≤ s.tbu.maxCorrection
  above : s.tbu.minCorrection ≤ s.tbu.lastCorrection
  below : s.tbu.lastCorrection ≤ s.tbu.maxCorrection

/-- Each accepted raise takes one sequence and is counted once (R85, R89): the own sequence counter is the raised count
modulo 65,536. -/
def SequenceCounted (s : State) : Prop := s.tge.ownSequence = s.tge.raised.setWidth 16

/-- A channel's fields are as R137 describes its state. -/
def Channel.Formed : Channel → Prop
  | .active width _ remaining _ => remaining ≤ width
  | .gap _ gapLength remaining toCome => remaining ≤ gapLength ∧ 1 ≤ toCome
  | .idle | .held => True

/-- Every output channel is formed. -/
def ChannelsFormed (s : State) : Prop := ∀ l : LineNo, (s.tlu.channels.get l).Formed

/-! ### What a reset leaves, and what a change of sync state leaves -/

/-- Every item at the value its chapter gives after any reset; the reset cause alone is left open (R176). -/
structure AtReset (s : State) : Prop where
  /-- R19. -/
  clocks : s.tbu.localClock = 0 ∧ s.tbu.clusterTime = 0 ∧ s.tbu.slewDebt = 0 ∧ s.tbu.hold = false ∧
    s.tbu.nextBoundary = none
  /-- R17, R18, R19. -/
  corrections : s.tbu.lastCorrection = 0 ∧ s.tbu.minCorrection = 0 ∧ s.tbu.maxCorrection = 0 ∧
    s.tbu.correctionCount = 0 ∧ s.tbu.syncLossCount = 0
  /-- R4: after any reset the basis is LOCAL. -/
  basis : s.basis = .localBasis
  /-- R22: all 32 records are ABSENT. -/
  peers : ∀ n : Station, s.mbu.peers.get n = Peer.absentRecord
  /-- R22. -/
  members : s.mbu.agreement = 0 ∧ s.mbu.members = 0 ∧ s.mbu.minMembers = 32 ∧ s.mbu.maxMembers = 0 ∧
    membershipVector s = 0
  /-- R39. -/
  sync : s.syc.state = .off ∧ s.syc.lastSynchronizing = none ∧ s.syc.goodRounds = 0 ∧ s.syc.stableRounds = 0 ∧
    s.syc.holdoverRounds = 0 ∧ s.syc.listenTimer = none ∧ s.syc.nextBeaconDue = none
  /-- R64. -/
  line : s.lif.queue = [] ∧ s.lif.slot = none ∧ s.lif.onLine = none ∧ s.lif.idleTimer = 0 ∧ s.lif.receiver = .ignoring
  /-- R77. -/
  lineCounters : s.lif.beaconsSent = 0 ∧ s.lif.copiesSent = 0 ∧ s.lif.framesReceived = 0 ∧ s.lif.badFrames = 0 ∧
    s.lif.collisions = 0 ∧ s.lif.abandons = 0
  /-- R84. -/
  sequence : s.tge.ownSequence = 0 ∧ ∀ l : LineNo, s.tge.holdOffEnd.get l = none
  /-- R84, R102. -/
  triggerCounters : s.tge.raised = 0 ∧ s.tge.refused = 0 ∧ s.tge.accepted = 0 ∧ s.tge.duplicate = 0 ∧
    s.tge.notReady = 0 ∧ s.tge.notMember = 0 ∧ s.tge.selfNumbered = 0 ∧ s.tge.chainLimit = 0
  /-- R105: every one of the 64 entries is invalid. -/
  map : ∀ i : MapIndex, s.amp.get i = none
  /-- R119. -/
  schedule : s.scu.entries = [] ∧ s.scu.lateDrop = 0 ∧ s.scu.lateFire = 0 ∧ s.scu.cancelled = 0 ∧
    ∀ p : Partition, s.scu.quota.get p = 0 ∧ s.scu.space.get p = 0 ∧ s.scu.drops.get p = 0
  /-- R139: every line is undriven, every channel IDLE, every overrun count 0. -/
  outputs : ∀ l : LineNo, lineDrive s l = none ∧ s.tlu.channels.get l = .idle ∧ s.tlu.overruns.get l = 0
  /-- R152. -/
  inputs : ∀ l : LineNo,
    s.tlu.inputs.get l = { settled := none, candidate := none, lastEdge := none, events := 0 }
  /-- R162. -/
  journal : s.jnl.records = [] ∧ s.jnl.lost = 0
  /-- R171: every flag is clear and every capture absent. -/
  flags : s.rdp.flags = Flags.clear ∧ s.rdp.flags.any = false
  /-- R173, R174. -/
  port : s.rdp.armed = false ∧ s.rdp.statePending = false ∧ s.rdp.loadPending = false ∧ s.rdp.threshold = none ∧
    s.rdp.mask = { journal := false, flags := false, state := false, load := true }
  /-- R176, R181: no configuration is known before READY. -/
  load : s.src.loadState = .loading ∧ s.src.loadResult = none ∧ s.src.leaveTimer = none ∧ s.src.image = [] ∧
    s.cfg = none

/-- The journal, and the flags with JOURNAL_LOST, are as the hand-over of one record leaves them (R163, R164). -/
def Recorded (r : Record) (k : LostKind) (s t : State) : Prop :=
  t.jnl = (handRecord r k s).jnl ∧ t.rdp.flags = (handRecord r k s).rdp.flags

/-- The STATE record of a change (R41): the time in the new basis, and the cancelled count of a change into LISTEN or
CLASH. -/
def stateRecord (t : State) (old new : SyncState) (reason : Reason) (cancelled : Option Nat) : Record :=
  .state
    { time := if new.basis = .localBasis then t.tbu.localClock else t.tbu.clusterTime, basis := new.basis, old := old,
      new := new, reason := reason, cancelled := cancelled }

/-- No entry fires at a correction event from `s` to `t` (R120, R125, R128): none is due at the event's cluster time, or
the event takes no forward step and does not end in LISTEN. An entry due at the boundary then waits for its own step. -/
def NoneFires (c : Cfg) (s t : State) : Prop :=
  (∀ e ∈ s.scu.entries, e.capped = true ∨ t.tbu.clusterTime.toNat < e.due.toNat) ∨
    ((correctionOutcome c s).forward = false ∧ t.syc.state ≠ .listen)

/-- A change of sync state at a correction event (R40, R41). The record is said where no entry fires: entries that the
event's step overtakes hand over FIRE records of their own. -/
structure Moved (c : Cfg) (s t : State) (new : SyncState) (reason : Reason) : Prop where
  state : t.syc.state = new
  counts : t.syc.goodRounds = 0 ∧ t.syc.stableRounds = 0 ∧ t.syc.holdoverRounds = 0
  basis : t.basis = new.basis
  pending : t.rdp.statePending = true
  /-- The listen timer runs in LISTEN alone (R43). -/
  timer : t.syc.listenTimer =
    if new = .listen then some (c.cluster.listenRounds * c.cluster.bper + c.station * (c.cluster.bper / 32)) else none
  /-- The last synchronizing state takes a reported state, and stands in LISTEN (R39). -/
  last : t.syc.lastSynchronizing = new.reported.or s.syc.lastSynchronizing
  /-- The next beacon due goes in LISTEN, and stands otherwise (R57). -/
  beacon : t.syc.nextBeaconDue = if new = .listen then none else s.syc.nextBeaconDue
  /-- Every last-edge record becomes absent at a change of time basis; nothing else of an input channel changes (R156). -/
  edges : ∀ l : LineNo, t.tlu.inputs.get l =
    if s.basis = new.basis then s.tlu.inputs.get l else { s.tlu.inputs.get l with lastEdge := none }
  record : NoneFires c s t →
    Recorded (stateRecord t s.syc.state new reason (if new.standsDown then some s.scu.entries.length else none)) .state
      s t

/-- No change of sync state at a correction event: the state stays, with these counts, and nothing is recorded of it. -/
structure Stayed (c : Cfg) (s t : State) (good stable holdover : Nat) : Prop where
  syc : t.syc = { s.syc with goodRounds := good, stableRounds := stable, holdoverRounds := holdover }
  pending : t.rdp.statePending = s.rdp.statePending
  edges : t.tlu.inputs = s.tlu.inputs
  record : NoneFires c s t → t.jnl = s.jnl ∧ t.rdp.flags = s.rdp.flags

/-- What a correction event leaves as it was where it does not end in LISTEN. Cluster time with its boundary, slew debt and
statistics, the records and counts of the MBU and the sync state are said beside it, and so are the firings of a forward
step and the STATE record. -/
structure EventFrame (c : Cfg) (s t : State) : Prop where
  lif : t.lif = { s.lif with receiver := t.lif.receiver }
  stands : t.tge = s.tge ∧ t.amp = s.amp ∧ t.src = s.src ∧ t.cfg = s.cfg ∧ t.uniqueId = s.uniqueId ∧
    t.pending = s.pending
  rdp : t.rdp = { s.rdp with flags := t.rdp.flags, statePending := t.rdp.statePending }
  /-- R18: such an event is no sync loss. -/
  syncLosses : t.tbu.syncLossCount = s.tbu.syncLossCount
  scu : t.scu = { s.scu with entries := t.scu.entries, space := t.scu.space }
  tlu : t.tlu =
    { s.tlu with channels := t.tlu.channels, overruns := t.tlu.overruns, inputs := t.tlu.inputs }
  /-- Without a firing the schedule and every output line stand. -/
  unfired : NoneFires c s t → t.scu = s.scu ∧ t.tlu = { s.tlu with inputs := t.tlu.inputs }

/-- A change into LISTEN or CLASH that is no sync loss (R16, R39 to R41, R56, R73, R130, R147, R156): the three stand-down
orders, with what stands. -/
structure StoodDown (c : Cfg) (s t : State) (new : SyncState) (reason : Reason) : Prop where
  /-- R39, R43, R57. -/
  syc : t.syc =
    { state := new, lastSynchronizing := s.syc.lastSynchronizing, goodRounds := 0, stableRounds := 0,
      holdoverRounds := 0,
      listenTimer :=
        if new = .listen then some (c.cluster.listenRounds * c.cluster.bper + c.station * (c.cluster.bper / 32))
        else none,
      nextBeaconDue := none }
  basis : t.basis = .localBasis
  /-- R5, R16: cluster time, the local clock and the statistics stand. -/
  tbu : t.tbu = { s.tbu with slewDebt := 0, hold := false, nextBoundary := none }
  /-- The purge (R73): a frame on the line loses its entry; the idle timer, the reception and the counters stand. -/
  lif : t.lif = { s.lif with
    queue := [], slot := none, onLine := s.lif.onLine.map fun f => { f with purged := true } }
  /-- The flush (R130). -/
  scu : t.scu = { s.scu with
    entries := [], space := t.scu.space, cancelled := s.scu.cancelled + BitVec.ofNat 32 s.scu.entries.length }
  places : ∀ p : Partition, t.scu.space.get p = s.scu.space.get p + placesTaken s p
  /-- The train end order (R147), with the last-edge records gone where the time basis changes (R156). -/
  tlu : t.tlu = { s.tlu with channels := t.tlu.channels, inputs := t.tlu.inputs }
  channels : ∀ l : LineNo, t.tlu.channels.get l =
    match s.tlu.channels.get l with
    | .active w g r _ => .active w g r 0
    | .gap _ _ _ _ | .idle => .idle
    | .held => .held
  edges : ∀ l : LineNo, t.tlu.inputs.get l =
    if s.basis = .localBasis then s.tlu.inputs.get l else { s.tlu.inputs.get l with lastEdge := none }
  /-- R36. -/
  offsets : ∀ n : Station, (t.mbu.peers.get n).freshOffset = none
  /-- R40, R41. -/
  rdp : t.rdp = { s.rdp with flags := t.rdp.flags, statePending := true }
  record : Recorded (stateRecord t s.syc.state new reason (some s.scu.entries.length)) .state s t
  stands : t.tge = s.tge ∧ t.amp = s.amp ∧ t.src = s.src ∧ t.cfg = s.cfg

/-- What a step that sets cluster time does at the receiver (R7): of a frame in reception the cluster-time half of the
arrival stamp moves with cluster time, by the same signed amount; the local-clock half does not, and nothing else does. -/
structure ArrivalMoved (s t : State) : Prop where
  /-- Said where the moved stamp fits in 64 bits (log 6). -/
  moved : ∀ l k own, s.lif.receiver = .receiving l k own → ∀ z : Nat, z < 2 ^ 64 →
    (z : Int) = k.toNat + t.tbu.clusterTime.toNat - s.tbu.clusterTime.toNat →
    t.lif.receiver = .receiving l (BitVec.ofNat 64 z) own
  goesOn : ∀ l k own, s.lif.receiver = .receiving l k own → ∃ z, t.lif.receiver = .receiving l z own
  /-- With no frame in reception the receiver stands. -/
  stands : (∀ l k own, s.lif.receiver ≠ .receiving l k own) → t.lif.receiver = s.lif.receiver

/-- The smallest round boundary strictly greater than `now` (R5). -/
def IsNextBoundary (bper now b : Nat) : Prop := b % bper = 0 ∧ now < b ∧ b ≤ now + bper

/-- The smallest time of the form k × BPER + own number × stagger strictly greater than `now` (R57). -/
def IsNextDue (c : Cfg) (now d : Nat) : Prop :=
  now < d ∧ (∃ k, d = k * c.cluster.bper + c.station * (c.cluster.bper / 32)) ∧
    ∀ k, now < k * c.cluster.bper + c.station * (c.cluster.bper / 32) →
      d ≤ k * c.cluster.bper + c.station * (c.cluster.bper / 32)

/-- The part runs, is configured with `c`, and cluster time stands at the next boundary: a correction event comes about
(R5, R11). -/
structure AtEvent (c : Cfg) (s : State) : Prop where
  runs : s.src.inReset = false
  configured : s.cfg = some c
  boundary : s.tbu.nextBoundary = some s.tbu.clusterTime

/-- The port is ready to take a command, and the load has ended READY (R165, R166). -/
structure PortReady (s : State) : Prop where
  runs : s.src.inReset = false
  begun : s.rdp.txn = .begun
  ready : s.src.loadState = .ready

/-- A command answered: the status, the response, and the armed flag clear (R166, R189). -/
def answered (status : Byte) (fields : List Byte) (s : State) : State :=
  { s with rdp := { s.rdp with txn := .taken (status :: fields) false, armed := false } }

/-! ### A beacon's update of its record -/

/-- The flags after a beacon's update of the record `p` (R25, R27, R28, R171): each that it raises keeps the capture of its
first occurrence. -/
def flagsOfBeacon (c : Cfg) (b : Beacon) (basis : Basis) (offset : Int) (p : Peer) (f : Flags) : Flags :=
  { f with
    numberConflict :=
      if p.kind ≠ .absent ∧ p.uniqueId ≠ some b.uniqueId then some (f.numberConflict.getD b.station)
      else f.numberConflict,
    disagree :=
      if basis ≠ .localBasis ∧ c.cluster.maxCorr < offset.natAbs then some (f.disagree.getD (b.station, offset))
      else f.disagree,
    foreign := if b.signature ≠ c.signature then some (f.foreign.getD b.station) else f.foreign }

/-- The record `q` that the five steps of a beacon's update make of `p`, but for its fresh offset (R23, R25 to R28, R30). -/
structure TookBeacon (c : Cfg) (b : Beacon) (arrival : Time) (basis : Basis) (offset : Int) (p q : Peer) : Prop where
  /-- R26. -/
  stored : q.uniqueId = some b.uniqueId ∧ q.reported = some b.reported ∧ q.lastArrival = some arrival ∧ q.missed = 0 ∧
    q.heard = true
  /-- R27, R28, by the first condition that holds. -/
  kind : q.kind =
    (if b.signature ≠ c.signature then PeerKind.heard
     else if b.departing = true then .departed
     else if basis ≠ .localBasis ∧ c.cluster.maxCorr < offset.natAbs then .heard
     else if b.reported = .founding ∨ b.reported = .tentative then .heard
     else .member)
  foreign : q.foreign = true ↔ b.signature ≠ c.signature
  /-- A record in conflict is restarted (R25). -/
  conflict : p.kind ≠ .absent → p.uniqueId ≠ some b.uniqueId →
    q.expected = some b.nextSequence ∧ q.lost = 0 ∧ q.resync = 0
  /-- The announced sequence (R30). -/
  announced : p.kind = .absent ∨ p.uniqueId = some b.uniqueId →
    q.lost = p.lost ∧ (p.expected = none → q.expected = some b.nextSequence ∧ q.resync = p.resync) ∧
      ∀ e, p.expected = some e →
        ((b.nextSequence - e).toNat ≤ 1023 → q.expected = some e ∧ q.resync = p.resync) ∧
        (1024 ≤ (b.nextSequence - e).toNat → q.expected = some b.nextSequence ∧
          q.resync.toNat = min 65535 (p.resync.toNat + 1))

/-! ### Firing, and what the schedule is asked at a step -/

/-- A line's channel ignores an action (R140, R141, R145): a PULSE or a TRAIN at an OUTPUT line that is HELD, or under KEEP
not IDLE. -/
def Ignores (s : State) (a : Action) (l : LineNo) : Prop :=
  (a.kind = .pulse ∨ a.kind = .train) ∧ ∃ h policy, s.tlu.lines.get l = .output h policy ∧
    (s.tlu.channels.get l = .held ∨ (s.tlu.channels.get l ≠ .idle ∧ policy = .keep))

/-- The commands and the FIRE record of an entry that fires at a correction event, cluster time having stood at `before`
ahead of the event's step (R125 to R128): the overtaken mark is set where its due time lies above that. -/
def fireAtEvent (before : Time) (s : State) (e : SchedEntry) : State :=
  let s := (lineList e.lines).foldl (fireCommand e.action) s
  if e.journal then
    handRecord
      (.fire
        { time := s.tbu.clusterTime, lines := e.lines, cls := e.cls, origin := e.origin, sequence := e.sequence,
          index := e.index, late := e.late, overtaken := decide (before.toNat < e.due.toNat) }) .fire s
  else s

/-- An applied correction of `x` leaves the sync state as it is, in SYNC, STABLE or HOLDOVER (R50 to R52). -/
def KeepsState (c : Cfg) (x : Int) (agreement : Nat) (y : Syc) : Prop :=
  (y.state = .sync ∧ c.cluster.quorum ≤ agreement ∧
    (x.natAbs ≤ c.cluster.stableBound → y.stableRounds + 1 ≠ c.cluster.stabRounds)) ∨
  (y.state = .stable ∧ c.cluster.quorum ≤ agreement ∧ x.natAbs ≤ c.cluster.stableBound) ∨
  (y.state = .holdover ∧ agreement < c.cluster.quorum ∧ y.holdoverRounds + 1 ≠ c.cluster.holdRounds)

/-- Holdover expires at an event with this agreement count, where the event's correction is not EXCEEDED (R52). -/
def Expires (c : Cfg) (agreement : Nat) (y : Syc) : Prop :=
  y.state = .holdover ∧ agreement < c.cluster.quorum ∧ y.holdoverRounds + 1 = c.cluster.holdRounds

/-! ### What a trigger's processing does -/

/-- A map entry answers a trigger (R106). -/
def Answers (m : MapEntry) (tr : Trigger) : Prop := m.cls = tr.cls ∧ m.origins.getLsbD tr.origin = true

/-- No map entry that answers the trigger has a derive part (R111). -/
def NoneDerives (s : State) (tr : Trigger) : Prop :=
  ∀ i m, s.amp.get i = some m → Answers m tr → m.derive = none

/-- The answering entry of lowest index that has a derive part derives class `k` at offset `o` (R111). -/
def LowestDerives (s : State) (tr : Trigger) (k : TrigClass) (o : Nat) : Prop :=
  ∃ i m, s.amp.get i = some m ∧ Answers m tr ∧ m.derive = some (k, o) ∧
    ∀ j m', j < i → s.amp.get j = some m' → Answers m' tr → m'.derive = none

/-- Some of the entries at the head of the schedule that are due fire, in schedule order; how many is free (R123,
log 11). -/
inductive HeadsFire : State → State → Prop where
  | done (s : State) (n : Nat) : HeadsFire s { s with freeCount := n }
  | fire (s t : State) (e : SchedEntry) (rest : List SchedEntry) (n : Nat) : s.scu.entries = e :: rest →
      e.capped = false → e.due.toNat ≤ s.tbu.clusterTime.toNat →
      HeadsFire (fireEntry none e rest { s with freeCount := n }) t → HeadsFire s t

/-- The insertions of a trigger, one after another (R95, R107); an entry placed already due, and one due before it, may
fire behind each (R123). -/
inductive Inserts (tr : Trigger) : List (MapIndex × MapEntry) → State → State → Prop where
  | done (s : State) : Inserts tr [] s s
  | insert (im : MapIndex × MapEntry) (ims : List (MapIndex × MapEntry)) (s r t : State) :
      HeadsFire (insertAction tr s im) r → Inserts tr ims r t → Inserts tr (im :: ims) s t

/-- Nothing is due at the schedule, and no insertion of the trigger places an entry already due (R120, R121, R123). -/
structure NothingDue (tr : Trigger) (s : State) : Prop where
  head : ∀ e rest, s.scu.entries = e :: rest → e.capped = true ∨ s.tbu.clusterTime.toNat < e.due.toNat
  late : ∀ i m, s.amp.get i = some m → Answers m tr → tr.stamp.toNat + m.offset ≤ s.tbu.clusterTime.toNat →
    m.late = .drop

/-- The insertions of a trigger's processing have been made (R95, R106, R107): each answering entry, in ascending index
order; where nothing is due, that is all. Of a trigger that derives nothing this is the whole processing. -/
structure Processed (tr : Trigger) (s t : State) : Prop where
  inserted : Inserts tr (matching s.amp tr) s t
  plain : NothingDue tr s → t = (matching s.amp tr).foldl (insertAction tr) s

/-- The trigger that a parent derives, as it is raised (R83, R94, R112): the stamp is the parent's plus the derive offset,
and never before the parent's (R104), even where the sum does not fit in 64 bits (log 6). -/
structure ChildOf (c : Cfg) (s : State) (parent : Trigger) (k : TrigClass) (o : Nat) (child : Trigger) : Prop where
  origin : child.origin = c.station
  sequence : child.sequence = s.tge.ownSequence
  cls : child.cls = k
  stamp : parent.stamp.toNat + o < 2 ^ 64 → child.stamp.toNat = parent.stamp.toNat + o
  onward : parent.stamp.toNat ≤ child.stamp.toNat
  depth : child.depth.val = parent.depth.val + 1
  root : child.root = some (parent.root.getD { origin := parent.origin, sequence := parent.sequence })

/-- A raise has been accepted (R65, R85, R89): it has taken its sequence, is counted, and its entry stands at the back of
the transmit queue. -/
def raisedWith (c : Cfg) (tr : Trigger) (s : State) : State :=
  { s with
    lif := { s.lif with
      queue := s.lif.queue ++
        [{ trigger := tr, copies := c.cluster.trigRepeat, attempts := 0, backoff := 0, onLine := false }] },
    tge := { s.tge with ownSequence := s.tge.ownSequence + 1, raised := s.tge.raised + 1 } }

/-- The whole processing of a trigger, from `s` to `t` (R95, R111, R113): its insertions, and then what it derives, depth
first. -/
inductive Processing (c : Cfg) : Trigger → State → State → Prop where
  /-- No answering entry derives. -/
  | plain (tr : Trigger) (s t : State) : NoneDerives s tr → Processed tr s t → Processing c tr s t
  /-- A parent at depth 3 derives nothing: CHAIN_LIMIT (R111). -/
  | stopped (tr : Trigger) (s r : State) (k : TrigClass) (o : Nat) : LowestDerives s tr k o → Processed tr s r →
      tr.depth = 3 →
      Processing c tr s { r with
        tge := { r.tge with chainLimit := r.tge.chainLimit + 1 },
        rdp := { r.rdp with flags := { r.rdp.flags with
          chainLimit := some (r.rdp.flags.chainLimit.getD (tr.cls, tr.origin)) } } }
  /-- The derived raise is refused: it is counted, and the parent's insertions stand (R94, R113). -/
  | refused (tr : Trigger) (s r : State) (k : TrigClass) (o : Nat) : LowestDerives s tr k o → Processed tr s r →
      tr.depth ≠ 3 → (r.src.leaveTimer.isSome = true ∨ r.syc.state.synced = false ∨ 8 ≤ r.lif.queue.length) →
      Processing c tr s { r with tge := { r.tge with refused := r.tge.refused + 1 } }
  /-- The child is raised, and processed within its parent's processing (R89, R113). -/
  | raised (tr child : Trigger) (s r t : State) (k : TrigClass) (o : Nat) : LowestDerives s tr k o → Processed tr s r →
      tr.depth ≠ 3 → r.src.leaveTimer = none → r.syc.state.synced = true → r.lif.queue.length < 8 →
      ChildOf c r tr k o child → Processing c child (raisedWith c child r) t → Processing c tr s t

/-! ### The image as R178 judges it -/

/-- The header has arrived and passed (R178, orders 1 to 3). -/
structure HeaderPassed (bytes : List Byte) : Prop where
  arrived : 8 ≤ bytes.length
  magic : field bytes 0 2 = 0x4A44
  device : field bytes 2 2 = 0x3208
  length : 10 ≤ field bytes 6 2 ∧ field bytes 6 2 ≤ 4096

/-- The blocks of `seen` have arrived and passed (R178, orders 4 to 7); the next has number `index` and stands at
`pos`. -/
inductive BlocksPassed (bytes : List Byte) : Nat → Nat → List Block → Prop where
  | none : BlocksPassed bytes 1 8 []
  | block (index pos n : Nat) (seen : List Block) : BlocksPassed bytes index pos seen → index ≤ field bytes 5 1 →
      n = field bytes (pos + 1) 2 → pos + 5 + n ≤ bytes.length → pos + 5 + n + 2 ≤ field bytes 6 2 →
      field bytes (pos + 3 + n) 2 = (crc16 ((bytes.drop pos).take (3 + n))).toNat →
      1 ≤ field bytes pos 1 → field bytes pos 1 ≤ 5 → (∀ b ∈ seen, b.type ≠ field bytes pos 1) →
      BlocksPassed bytes (index + 1) (pos + 5 + n)
        (seen ++ [{ type := field bytes pos 1, payload := (bytes.drop (pos + 3)).take n }])

/-- The header and every block have passed, and exactly 2 bytes of the image remain (R178, orders 1 to 8). -/
structure PartsPassed (bytes : List Byte) (pos : Nat) (seen : List Block) : Prop where
  header : HeaderPassed bytes
  blocks : BlocksPassed bytes (field bytes 5 1 + 1) pos seen
  remain : pos + 2 = field bytes 6 2

/-- The whole image has arrived and passed but for its values (R178, orders 1 to 10): `p1` to `p4` are the payloads of its
CLUSTER, LOCAL, LINES and PARTITIONS blocks, and `p5` that of its ACTIONS block, empty where there is none. -/
structure ImagePassed (bytes : List Byte) (p1 p2 p3 p4 p5 : List Byte) : Prop where
  parts : ∃ pos seen, PartsPassed bytes pos seen ∧ { type := 1, payload := p1 } ∈ seen ∧
    { type := 2, payload := p2 } ∈ seen ∧ { type := 3, payload := p3 } ∈ seen ∧ { type := 4, payload := p4 } ∈ seen ∧
    ({ type := 5, payload := p5 } ∈ seen ∨ (p5 = [] ∧ ∀ b ∈ seen, b.type ≠ 5))
  arrived : bytes.length = field bytes 6 2
  check : field bytes (bytes.length - 2) 2 = (crc16 (bytes.take (bytes.length - 2))).toNat

/-- The first of the checks that fails is the one with number `k`. -/
def FirstFails (checks : List Bool) (k : Nat) : Prop :=
  checks[k]? = some false ∧ ∀ j, j < k → checks[j]? = some true

/-- Every check passes. -/
def AllPass (checks : List Bool) : Prop := ∀ ok ∈ checks, ok = true

/-- A number lies from `low` to `high`. -/
def inRange (low high n : Nat) : Bool := decide (low ≤ n ∧ n ≤ high)

/-- The checks of the CLUSTER payload, item 0 the length (R179, R190). -/
def clusterChecks (p : List Byte) : List Bool :=
  [decide (p.length = 17), inRange 100000 10000000 (field p 0 4), inRange 1 32 (field p 4 1),
    inRange 1 65535 (field p 5 2), inRange 0 (field p 5 2) (field p 7 2), inRange 1 15 (field p 9 1),
    inRange 1 255 (field p 10 1), inRange 1 255 (field p 11 1), inRange 2 15 (field p 12 1), inRange 1 15 (field p 13 1),
    inRange 0 65535 (field p 14 2), inRange 1 3 (field p 16 1)]

/-- The checks of the LOCAL payload: its length, any mask, the threshold (R179, R190). -/
def localChecks (p : List Byte) : List Bool := [decide (p.length = 2), true, inRange 1 128 (field p 1 1)]

/-- The checks of the LINES payload: its length, and the eight items (R180, R190). -/
def lineChecks (p : List Byte) : List Bool :=
  decide (p.length = 72) :: (List.range 8).map fun i =>
    let item := (p.drop (9 * i)).take 9
    (field item 0 1 == 0) ||
      (field item 0 1 == 1 && inRange 0 3 (field item 1 1) && (inRange 0 63 (field item 7 1) || field item 7 1 == 255) &&
        inRange 0 1 (field item 8 1)) ||
      (field item 0 1 == 2 && inRange 0 1 (field item 1 1) && inRange 0 1 (field item 2 1))

/-- The checks of the PARTITIONS payload: its length, and the four quotas, item 4 with their total (R179, R190). -/
def partitionChecks (p : List Byte) : List Bool :=
  [decide (p.length = 4), inRange 0 48 (field p 0 1), inRange 0 48 (field p 1 1), inRange 0 48 (field p 2 1),
    inRange 0 48 (field p 3 1) && inRange 0 48 (field p 0 1 + field p 1 1 + field p 2 1 + field p 3 1)]

/-- The checks of one ACTIONS item that its own bytes decide, with the modes and the quotas (R104, R105, R190). -/
def actionCheck (p3 p4 item : List Byte) : Bool :=
  inRange 0 63 (field item 0 1) && inRange 0 63 (field item 1 1) && field item 2 4 != 0 && field item 6 1 != 0 &&
    (List.range 8).all (fun k => !(field item 6 1).testBit k || field p3 (9 * k) 1 == 2) &&
    inRange 0 3 (field item 7 1) && field p4 (field item 7 1) 1 != 0 &&
    ((field item 12 1 == 1 && field item 13 3 != 0) ||
      (field item 12 1 == 2 && field item 13 3 != 0 && decide (field item 13 3 < field item 16 3) &&
        field item 19 2 != 0) ||
      field item 12 1 == 3 || field item 12 1 == 4) &&
    inRange 0 1 (field item 21 1) && inRange 0 1 (field item 22 1) &&
    (field item 23 1 == 0 || (field item 23 1 == 1 && inRange 0 63 (field item 24 1)))

/-- The checks of the ACTIONS payload: its length, and each item with its index given by no earlier one (R105, R190). -/
def actionChecks (p3 p4 p : List Byte) : List Bool :=
  decide (p.length % 29 = 0 ∧ p.length ≤ 1856) :: (List.range (p.length / 29)).map fun i =>
    actionCheck p3 p4 ((p.drop (29 * i)).take 29) &&
      (List.range i).all fun j => field p (29 * j) 1 != field p (29 * i) 1

/-- What a LINES item of 9 bytes makes of its timing line (R180, R190). -/
structure LineFields (item : List Byte) (x : LineCfg) : Prop where
  off : field item 0 1 = 0 → x = .off
  input : field item 0 1 = 1 → ∃ i, x = .input i ∧
    [EdgeSelect.never, .rising, .falling, .both][field item 1 1]? = some i.select ∧
    i.qualification = field item 2 2 ∧ i.holdOff = field item 4 3 ∧
    (field item 7 1 = 255 → i.cls = none) ∧
    (field item 7 1 ≠ 255 → ∃ k : TrigClass, i.cls = some k ∧ k.val = field item 7 1) ∧
    (i.capture = true ↔ field item 8 1 = 1)
  output : field item 0 1 = 2 →
    x = .output (decide (field item 1 1 = 0)) (if field item 2 1 = 0 then .keep else .restart)

/-- What an ACTIONS item of 29 bytes makes of the map entry at its index (R104, R105, R190). -/
structure MapFields (item : List Byte) (m : MapEntry) : Prop where
  cls : m.cls.val = field item 1 1
  origins : ∀ n : Station, m.origins.getLsbD n = (field item 2 4).testBit n
  lines : ∀ l : LineNo, m.lines.getLsbD l = (field item 6 1).testBit l
  part : m.part.val = field item 7 1
  offset : m.offset = field item 8 4
  action : (field item 12 1 = 1 → m.action = .pulse (field item 13 3)) ∧
    (field item 12 1 = 2 → m.action = .train (field item 13 3) (field item 16 3) (field item 19 2)) ∧
    (field item 12 1 = 3 → m.action = .set) ∧ (field item 12 1 = 4 → m.action = .clear)
  late : (field item 21 1 = 0 → m.late = .drop) ∧ (field item 21 1 = 1 → m.late = .fire)
  journal : m.journal = true ↔ field item 22 1 = 1
  derive : (field item 23 1 = 0 → m.derive = none) ∧
    (field item 23 1 = 1 → ∃ k : TrigClass, m.derive = some (k, field item 25 4) ∧ k.val = field item 24 1)

/-! ### Bytes, checks and frame bodies as 12 lays them out -/

/-- The 2 bytes of a number, most significant first (12, first paragraph). -/
def twoBytes (x : BitVec 16) : List Byte := [x.extractLsb' 8 8, x.extractLsb' 0 8]

/-- The 4 bytes of a number, most significant first. -/
def fourBytes (x : BitVec 32) : List Byte :=
  [x.extractLsb' 24 8, x.extractLsb' 16 8, x.extractLsb' 8 8, x.extractLsb' 0 8]

/-- The 8 bytes of a number, most significant first. -/
def eightBytes (x : BitVec 64) : List Byte :=
  [x.extractLsb' 56 8, x.extractLsb' 48 8, x.extractLsb' 40 8, x.extractLsb' 32 8, x.extractLsb' 24 8,
    x.extractLsb' 16 8, x.extractLsb' 8 8, x.extractLsb' 0 8]

/-- The value of the byte at an offset of a body, 0 behind its end. -/
def byteAt (bs : List Byte) (i : Nat) : Nat := (bs.getD i 0).toNat

/-- The reported-state codes (R186). -/
def reportedCode : Reported → Nat
  | .founding => 1
  | .tentative => 2
  | .sync => 3
  | .stable => 4
  | .holdover => 5

/-- A BEACON body before its check, by offset (R186). -/
def beaconLayout (b : Beacon) : List Byte :=
  [0x01, BitVec.ofNat 8 b.station.val, BitVec.ofNat 8 ((if b.departing then 128 else 0) + reportedCode b.reported)] ++
    eightBytes b.uniqueId ++ eightBytes b.sendStamp ++ fourBytes b.vector ++ twoBytes b.nextSequence ++
    twoBytes b.signature

/-- A TRIGGER body before its check, by offset (R186). -/
def triggerLayout (t : Trigger) (copy : Nat) : List Byte :=
  [0x02, BitVec.ofNat 8 t.origin.val,
    BitVec.ofNat 8 (64 * copy + 16 * t.depth.val + if t.root.isSome then 1 else 0), BitVec.ofNat 8 t.cls.val] ++
    twoBytes t.sequence ++ eightBytes t.stamp ++
    match t.root with
      | some r => BitVec.ofNat 8 r.origin.val :: twoBytes r.sequence
      | none => []

/-- A received body of whole bytes is bad, by the cases of R75 at the offsets of R186. -/
inductive BadBody (bs : List Byte) : Prop where
  /-- Unknown kind, or too short to hold a kind. -/
  | tooShort : bs = [] → BadBody bs
  | kind : byteAt bs 0 ≠ 1 → byteAt bs 0 ≠ 2 → BadBody bs
  /-- Wrong length. -/
  | beaconLength : byteAt bs 0 = 1 → bs.length ≠ 31 → BadBody bs
  | triggerLength : byteAt bs 0 = 2 → bs.length ≠ (if byteAt bs 2 % 2 = 1 then 21 else 18) → BadBody bs
  /-- Check failure. -/
  | check : bs.drop (bs.length - 4) ≠ fourBytes (crc32 (bs.take (bs.length - 4))) → BadBody bs
  /-- Station number out of range: a BEACON's station or a TRIGGER's origin, and a root origin that is present. -/
  | station : 31 < byteAt bs 1 → BadBody bs
  | rootOrigin : byteAt bs 0 = 2 → byteAt bs 2 % 2 = 1 → 31 < byteAt bs 14 → BadBody bs
  /-- Field out of range. -/
  | reported : byteAt bs 0 = 1 → byteAt bs 2 % 8 = 0 ∨ 5 < byteAt bs 2 % 8 → BadBody bs
  | cls : byteAt bs 0 = 2 → 63 < byteAt bs 3 → BadBody bs
  | copy : byteAt bs 0 = 2 → byteAt bs 2 / 64 = 0 → BadBody bs
  /-- Root mismatch: the root-present bit differs from whether the depth is above 0. -/
  | root : byteAt bs 0 = 2 → ¬(byteAt bs 2 % 2 = 1 ↔ 0 < byteAt bs 2 / 16 % 4) → BadBody bs

/-- The fields of a BEACON stand in the body at their offsets; the flag byte's other bits are not judged (R186). -/
structure ReadsBeacon (bs : List Byte) (b : Beacon) : Prop where
  kind : byteAt bs 0 = 1
  station : b.station.val = byteAt bs 1
  departing : b.departing = true ↔ 128 ≤ byteAt bs 2
  reported : reportedCode b.reported = byteAt bs 2 % 8
  uniqueId : eightBytes b.uniqueId = (bs.drop 3).take 8
  sendStamp : eightBytes b.sendStamp = (bs.drop 11).take 8
  vector : fourBytes b.vector = (bs.drop 19).take 4
  nextSequence : twoBytes b.nextSequence = (bs.drop 23).take 2
  signature : twoBytes b.signature = (bs.drop 25).take 2

/-- The fields of a TRIGGER stand in the body at their offsets; the flag byte's other bits are not judged (R186). -/
structure ReadsTrigger (bs : List Byte) (t : Trigger) (copy : Nat) : Prop where
  kind : byteAt bs 0 = 2
  origin : t.origin.val = byteAt bs 1
  copy : copy = byteAt bs 2 / 64
  depth : t.depth.val = byteAt bs 2 / 16 % 4
  cls : t.cls.val = byteAt bs 3
  sequence : twoBytes t.sequence = (bs.drop 4).take 2
  stamp : eightBytes t.stamp = (bs.drop 6).take 8
  absent : byteAt bs 2 % 2 = 0 → t.root = none
  present : byteAt bs 2 % 2 = 1 →
    ∃ r, t.root = some r ∧ r.origin.val = byteAt bs 14 ∧ twoBytes r.sequence = (bs.drop 15).take 2

/-- Numbers in the given sizes in bytes, one behind the other, each most significant byte first (12, R188, R189). -/
def laid (fields : List (Nat × Nat)) : List Byte := fields.flatMap fun f => beBytes f.1 f.2

end Sys2Proof.Machine
end

