-- ==== Sys2Proof/Certificates/Slice0/Obligations.lean ====
section
/-! DEFINITION. The statements for the provers, in the order of OBLIGATIONS.json: the queue and the resets, the image,
time and the sync state, the line, triggers, inputs and outputs, the readout port, and the invariants. -/

section

open Sys2Proof Sys2Proof.Machine

/-! ### The queue, the resets, the supply -/

/-- A step runs the command at the front of the queue on the queue's rest. The queue is the model's (log 2), and so is
idling on an empty one (log 16). -/
def Obligations.StepRunsTheFrontCommand : Prop :=
  (∀ (c : Instr) (rest : List Instr) (s : State), s.pending = c :: rest → step s = exec c { s with pending := rest }) ∧
    ∀ s : State, s.pending = [] → step s = .next s

/-- Every command answers a next state, and touches neither the commands that wait nor the unique ID. That commands wait
in a queue, which a command and a reset keep, is the model's (logs 2 and 27); so is that a command whose condition does
not hold, RESET with cause PORT among them, answers a next state, the same one (logs 1 and 24). -/
def Obligations.EveryCommandAnswersNext : Prop :=
  ∀ (c : Instr) (s : State), ∃ t, exec c s = .next t ∧ t.pending = s.pending ∧ t.uniqueId = s.uniqueId

/-- The state after reset has every item at the value of its chapter's reset table, and every invariant below. That the
power-on reset has just been released, with the supply warning clear, is the model's choice (log 9). -/
def Obligations.ResetStateStands : Prop :=
  AtReset State.reset ∧ State.reset.src.resetCause = .power ∧ State.reset.src.supplyWarning = false ∧
    State.reset.src.inReset = false ∧ QueueBounded State.reset ∧ JournalFormed State.reset ∧
    ScheduleOrdered State.reset ∧ PlacesCounted State.reset ∧ Coherent State.reset ∧ PeersFormed State.reset ∧
    SelfStands State.reset ∧ StatisticsBracketed State.reset ∧ SequenceCounted State.reset ∧
    ChannelsFormed State.reset

/-- RESET puts every block into its reset state and records the cause. While the part is held, no command but RESET,
RESET_RELEASE and TICK changes anything, a tick leaves every block in its reset state, the attention line and data out are
released and neither a line nor the image port is driven. That the levels outside and the commands that wait are kept
is the model's choice (log 27). So is that in a reset LEAVE_TIMEOUT, FRAME_COMPLETE and RESTART change nothing, where R176
records the cause taken second of one tick and R184, R79 and R165 end the leave, the frame and the command (log 31). That
SUPPLY_WARNING_SET and SUPPLY_WARNING_CLEAR change nothing there (log 21), and what a tick does there (log 18), is the
model's reading. -/
def Obligations.ResetHoldsThePart : Prop :=
  (∀ (cause : ResetCause) (s : State), cause ≠ .port →
    ∃ t, exec (.reset cause) s = .next t ∧ AtReset t ∧ t.src.inReset = true ∧ t.src.resetCause = cause ∧
      t.src.portHold = s.src.portHold ∧ t.tlu.pins = s.tlu.pins ∧ t.uniqueId = s.uniqueId ∧ t.pending = s.pending) ∧
  (∀ (c : Instr) (s : State), s.src.inReset = true → (∀ k, c ≠ .reset k) → (∀ a b, c ≠ .resetRelease a b) →
    (∀ a p, c ≠ .tick a p) → exec c s = .next s) ∧
  (∀ (a : Bool) (p : BitVec 8) (s : State), s.src.inReset = true → AtReset s →
    ∃ t, exec (.tick a p) s = .next t ∧ AtReset t ∧ t.src.inReset = true ∧ t.src.resetCause = s.src.resetCause ∧
      t.src.portHold = s.src.portHold - 1 ∧ t.tlu.pins = p) ∧
  ∀ s : State, s.src.inReset = true →
    attentionAsserted s = false ∧ (∀ l : LineNo, lineDrive s l = none) ∧ imagePort s = .undriven ∧
      ∀ n, dataOut s n = none

/-- RESET_RELEASE, once the ticks of a PORT reset have passed: the part starts from its reset state, the supply warning
as the supply stands, and a select that is low is ignored until it has risen. The load then begins: the memory select is
low, and the read command 0x03 with a three-byte address of 0 goes out, most significant bit first; once the load has
ended the image port is idle (R177). Before, nothing happens. -/
def Obligations.ReleaseStartsThePart : Prop :=
  ∀ (supplyLow selectLow : Bool) (s : State), s.src.inReset = true →
    (s.src.portHold = 0 →
      exec (.resetRelease supplyLow selectLow) s = .next { s with
        src := { s.src with inReset := false, supplyWarning := supplyLow },
        rdp := { s.rdp with txn := if selectLow then .ignored else .idle } }) ∧
    (s.src.portHold = 0 → s.src.loadState = .loading →
      ∃ t, exec (.resetRelease supplyLow selectLow) s = .next t ∧ imagePort t = .selected [0x03, 0x00, 0x00, 0x00]) ∧
    (s.src.portHold ≠ 0 → exec (.resetRelease supplyLow selectLow) s = .next s) ∧
    (∀ u : State, u.src.inReset = false → u.src.loadState ≠ .loading → imagePort u = .idle) ∧
    imageRequestBits = [false, false, false, false, false, false, true, true] ++ List.replicate 24 false ∧
    ∀ n, loadTicks n = (4 + n) * 32

/-- SUPPLY_WARNING_SET and SUPPLY_WARNING_CLEAR: the warning is set, or clear, and nothing else changes; the next
beacon's departing flag reads it. -/
def Obligations.SupplyWarningIsSetAndCleared : Prop :=
  ∀ s : State, s.src.inReset = false →
    exec .supplyWarningSet s = .next { s with src := { s.src with supplyWarning := true } } ∧
    exec .supplyWarningClear s = .next { s with src := { s.src with supplyWarning := false } } ∧
    (s.src.supplyWarning = true → departingFlag s = true)

/-- The leave ends with a PORT reset: by LEAVE_TIMEOUT, and by a FRAME_COMPLETE of a beacon whose reference point left
while the leaving state was set. The reset is held for 100 ticks. -/
def Obligations.LeaveEndsWithAPortReset : Prop :=
  (∀ s : State, s.src.inReset = false → s.src.leaveTimer = some 0 →
    ∃ t, exec .leaveTimeout s = .next t ∧ AtReset t ∧ t.src.inReset = true ∧ t.src.resetCause = .port ∧
      t.src.portHold = 100) ∧
  (∀ s : State, s.src.inReset = false → s.src.leaveTimer ≠ some 0 → exec .leaveTimeout s = .next s) ∧
  ∀ (f : OnLine) (b : BeaconEntry) (x : Option Beacon) (s : State), s.src.inReset = false → s.lif.onLine = some f →
    f.refLeft = true → f.frame = .beacon b x true → s.src.leaveTimer.isSome = true →
    ∃ t, exec .frameComplete s = .next t ∧ AtReset t ∧ t.src.inReset = true ∧ t.src.resetCause = .port ∧
      t.src.portHold = 100

/-! ### The tick -/

/-- A tick's three courses (R2), with the local clock (R1); and a debt of k that starts with the hold marker clear is paid
in 2k − 1 ticks, over which cluster time advances k − 1, and the tick after that advances. The two counts are taken
below their largest value: 2^64 ticks do not pass in service (log 6). -/
def Obligations.TickRunsTheClocks : Prop :=
  (∀ (a : Bool) (p : BitVec 8) (s : State), s.src.inReset = false → s.tbu.localClock.toNat + 1 < 2 ^ 64 →
    s.tbu.clusterTime.toNat + 1 < 2 ^ 64 →
    ∃ t, exec (.tick a p) s = .next t ∧ t.tbu.localClock.toNat = s.tbu.localClock.toNat + 1 ∧
      (s.tbu.hold = false → s.tbu.slewDebt = 0 →
        t.tbu.clusterTime.toNat = s.tbu.clusterTime.toNat + 1 ∧ t.tbu.slewDebt = 0 ∧ t.tbu.hold = false) ∧
      (s.tbu.hold = false → 0 < s.tbu.slewDebt →
        t.tbu.clusterTime = s.tbu.clusterTime ∧ t.tbu.slewDebt = s.tbu.slewDebt - 1 ∧ t.tbu.hold = true) ∧
      (s.tbu.hold = true →
        t.tbu.clusterTime.toNat = s.tbu.clusterTime.toNat + 1 ∧ t.tbu.slewDebt = s.tbu.slewDebt ∧
          t.tbu.hold = false)) ∧
  ∀ (k : Nat) (x : Tbu), 0 < k → x.hold = false → x.slewDebt = k → x.localClock.toNat + 2 * k < 2 ^ 64 →
    x.clusterTime.toNat + k < 2 ^ 64 →
    (Tbu.tick^[2 * k - 1] x).slewDebt = 0 ∧
      (Tbu.tick^[2 * k - 1] x).clusterTime.toNat = x.clusterTime.toNat + (k - 1) ∧
      (Tbu.tick^[2 * k] x).clusterTime.toNat = x.clusterTime.toNat + k

/-- Everything else a tick does: the idle timer (R63; its largest value is free, at or above 2,710, so from there it
stands or rises by one, log 8), a line ignored until 20 quiet ticks, the channels' counts (R144), the listen and leave
timers, the levels sampled; and nothing more. That a tick takes none of the steps that fall due, and leaves a timer or a
count that has run out at 0, is the model's choice (log 2); so is that every tick with the own frame on the line counts
as active (log 20). -/
def Obligations.TickRunsTheTimers : Prop :=
  ∀ (a : Bool) (p : BitVec 8) (s : State), s.src.inReset = false →
    ∃ t, exec (.tick a p) s = .next t ∧
      t = { s with
        tbu := { s.tbu with
          localClock := t.tbu.localClock, clusterTime := t.tbu.clusterTime, slewDebt := t.tbu.slewDebt,
          hold := t.tbu.hold },
        lif := { s.lif with idleTimer := t.lif.idleTimer, receiver := t.lif.receiver },
        syc := { s.syc with listenTimer := s.syc.listenTimer.map (· - 1) },
        tlu := { s.tlu with channels := t.tlu.channels, pins := p },
        src := { s.src with leaveTimer := s.src.leaveTimer.map (· - 1) } } ∧
      (a = true ∨ s.lif.onLine.isSome = true → t.lif.idleTimer = 0) ∧
      (a = false → s.lif.onLine = none → s.lif.idleTimer < 2710 → t.lif.idleTimer = s.lif.idleTimer + 1) ∧
      (a = false → s.lif.onLine = none → 2710 ≤ s.lif.idleTimer →
        t.lif.idleTimer = s.lif.idleTimer ∨ t.lif.idleTimer = s.lif.idleTimer + 1) ∧
      (t.lif.receiver =
        if s.lif.receiver = .ignoring ∧ 20 ≤ t.lif.idleTimer then .ready else s.lif.receiver) ∧
      ∀ l : LineNo,
        (∀ w g r n, s.tlu.channels.get l = .active w g r n → t.tlu.channels.get l = .active w g (r - 1) n) ∧
        (∀ w g r n, s.tlu.channels.get l = .gap w g r n → t.tlu.channels.get l = .gap w g (r - 1) n) ∧
        (s.tlu.channels.get l = .idle → t.tlu.channels.get l = .idle) ∧
        (s.tlu.channels.get l = .held → t.tlu.channels.get l = .held)

/-! ### The image -/

/-- IMAGE_BYTE while the load goes on, and at its first failure: the byte is gathered; at a failure the load ends FAILED
with its result, and the LOAD source becomes pending. After the load nothing is read. Which result each failing check
gives (R178, orders 1 to 10): the header's as its bytes arrive, a block's as the block arrives, the image's at its last
byte. A memory that does not answer gives NO_IMAGE (R177). That each check is made where the bytes it reads have arrived
is log 14. -/
def Obligations.ImageByteGathersOrFails : Prop :=
  (∀ (b : Byte) (s : State), s.src.inReset = false →
    (s.src.loadState = .loading → judgeImage (s.src.image ++ [b]) = .more →
      exec (.imageByte b) s = .next { s with src := { s.src with image := s.src.image ++ [b] } }) ∧
    (∀ r, s.src.loadState = .loading → judgeImage (s.src.image ++ [b]) = .fail r →
      exec (.imageByte b) s = .next { s with
        src := { s.src with image := s.src.image ++ [b], loadState := .failed, loadResult := some r },
        rdp := { s.rdp with loadPending := true } }) ∧
    (s.src.loadState ≠ .loading → exec (.imageByte b) s = .next s)) ∧
  (∀ bytes : List Byte,
    (2 ≤ bytes.length → field bytes 0 2 ≠ 0x4A44 → judgeImage bytes = .fail (.noImage (field bytes 0 2))) ∧
    (4 ≤ bytes.length → field bytes 0 2 = 0x4A44 → field bytes 2 2 ≠ 0x3208 →
      judgeImage bytes = .fail (.wrongDevice (field bytes 2 2))) ∧
    (8 ≤ bytes.length → field bytes 0 2 = 0x4A44 → field bytes 2 2 = 0x3208 →
      (field bytes 6 2 < 10 ∨ 4096 < field bytes 6 2) → judgeImage bytes = .fail (.tooLong (field bytes 6 2)))) ∧
  (∀ (bytes : List Byte) (index pos n : Nat) (seen : List Block), HeaderPassed bytes →
    BlocksPassed bytes index pos seen → index ≤ field bytes 5 1 → n = field bytes (pos + 1) 2 → pos + 3 ≤ bytes.length →
    (field bytes 6 2 < pos + 5 + n + 2 → judgeImage bytes = .fail (.tooLong index)) ∧
    (pos + 5 + n + 2 ≤ field bytes 6 2 → pos + 5 + n ≤ bytes.length →
      (field bytes (pos + 3 + n) 2 ≠ (crc16 ((bytes.drop pos).take (3 + n))).toNat →
        judgeImage bytes = .fail (.blockCheck index)) ∧
      (field bytes (pos + 3 + n) 2 = (crc16 ((bytes.drop pos).take (3 + n))).toNat →
        (field bytes pos 1 = 0 ∨ 5 < field bytes pos 1 → judgeImage bytes = .fail (.badValue (field bytes pos 1) 0)) ∧
        (1 ≤ field bytes pos 1 → field bytes pos 1 ≤ 5 → (∃ b ∈ seen, b.type = field bytes pos 1) →
          judgeImage bytes = .fail (.duplicateBlock (field bytes pos 1)))))) ∧
  (∀ (bytes : List Byte) (pos : Nat) (seen : List Block), HeaderPassed bytes →
    BlocksPassed bytes (field bytes 5 1 + 1) pos seen →
    (pos + 2 ≠ field bytes 6 2 → judgeImage bytes = .fail (.tooLong (field bytes 6 2))) ∧
    (pos + 2 = field bytes 6 2 → bytes.length = field bytes 6 2 →
      (field bytes (bytes.length - 2) 2 ≠ (crc16 (bytes.take (bytes.length - 2))).toNat →
        judgeImage bytes = .fail .imageCheck) ∧
      (field bytes (bytes.length - 2) 2 = (crc16 (bytes.take (bytes.length - 2))).toNat →
        ∀ type, 1 ≤ type → type ≤ 4 → (∀ b ∈ seen, b.type ≠ type) →
          (∀ lower, 1 ≤ lower → lower < type → ∃ b ∈ seen, b.type = lower) →
          judgeImage bytes = .fail (.missingBlock type)))) ∧
  judgeImage [absentMemoryByte, absentMemoryByte] = .fail (.noImage 0xFFFF)

/-- IMAGE_BYTE with the last byte of a good image: what each block takes at READY (R181, R21, R152), and the move from
OFF to LISTEN with its STATE record LOAD_DONE (R42). What no block takes there stands. -/
def Obligations.LastImageByteMakesReady : Prop :=
  ∀ (b : Byte) (g : ImageConfig) (s : State), s.src.inReset = false → s.src.loadState = .loading →
    judgeImage (s.src.image ++ [b]) = .ok g → Coherent s → SelfStands s →
    ∃ t, exec (.imageByte b) s = .next t ∧
      t.src = { s.src with image := s.src.image ++ [b], loadState := .ready, loadResult := some .ok } ∧
      t.cfg = some g.cfg ∧ t.mbu.peers.get g.cfg.station = Peer.selfRecord s.uniqueId ∧
      (∀ n : Station, n ≠ g.cfg.station → t.mbu.peers.get n = Peer.absentRecord) ∧
      t.mbu = { s.mbu with peers := t.mbu.peers } ∧
      t.scu = { s.scu with quota := g.quota, space := g.quota } ∧ t.amp = g.amp ∧
      t.tlu = { s.tlu with lines := g.lines, inputs := t.tlu.inputs } ∧
      (∀ (l : LineNo) (i : InputCfg), g.lines.get l = .input i →
        t.tlu.inputs.get l = { s.tlu.inputs.get l with settled := some (s.tlu.pins.getLsbD l) }) ∧
      (∀ l : LineNo, (∀ i, g.lines.get l ≠ .input i) → t.tlu.inputs.get l = s.tlu.inputs.get l) ∧
      (∀ (l : LineNo) (h : Bool) (q : Retrigger), s.tlu.channels.get l = .idle → g.lines.get l = .output h q →
        lineDrive t l = some !h) ∧
      t.rdp = { s.rdp with
        mask := g.mask, threshold := some g.threshold, loadPending := true, statePending := true,
        flags := t.rdp.flags } ∧
      t.syc =
        { state := .listen, lastSynchronizing := s.syc.lastSynchronizing, goodRounds := 0, stableRounds := 0,
          holdoverRounds := 0,
          listenTimer :=
            some (g.cfg.cluster.listenRounds * g.cfg.cluster.bper + g.cfg.station * (g.cfg.cluster.bper / 32)),
          nextBeaconDue := none } ∧
      t.basis = .localBasis ∧ Recorded (stateRecord t .off .listen .loadDone none) .state s t ∧ t.tbu = s.tbu ∧
      t.lif = s.lif ∧ t.tge = s.tge

/-- The values (R178, order 11): the first out of range, the header first and then the blocks in type order, ends the
load BAD_VALUE with its block type and item; where every one is in range, the image passes. An image that passes gives
the station number, the CRC-16 of its CLUSTER payload as the signature (R181, R187), the CLUSTER, LOCAL and PARTITIONS
items, each timing line's mode and fields, and each map entry's fields, as the payloads hold them (R104, R105, R180,
R190); values within the ranges of R179, R180 and R104, and map entries that drive OUTPUT lines from a partition with
places (R105). -/
def Obligations.AcceptedImageIsInRange : Prop :=
  (∀ (bytes p1 p2 p3 p4 p5 : List Byte) (k : Nat), ImagePassed bytes p1 p2 p3 p4 p5 →
    (31 < field bytes 4 1 → judgeImage bytes = .fail (.badValue 0 1)) ∧
    (field bytes 4 1 ≤ 31 →
      (FirstFails (clusterChecks p1) k → judgeImage bytes = .fail (.badValue 1 k)) ∧
      (AllPass (clusterChecks p1) →
        (FirstFails (localChecks p2) k → judgeImage bytes = .fail (.badValue 2 k)) ∧
        (AllPass (localChecks p2) →
          (FirstFails (lineChecks p3) k → judgeImage bytes = .fail (.badValue 3 k)) ∧
          (AllPass (lineChecks p3) →
            (FirstFails (partitionChecks p4) k → judgeImage bytes = .fail (.badValue 4 k)) ∧
            (AllPass (partitionChecks p4) →
              (FirstFails (actionChecks p3 p4 p5) k → judgeImage bytes = .fail (.badValue 5 k)) ∧
              (AllPass (actionChecks p3 p4 p5) → ∃ g, judgeImage bytes = .ok g))))))) ∧
  (∀ (bytes p1 p2 p3 p4 p5 : List Byte) (g : ImageConfig), ImagePassed bytes p1 p2 p3 p4 p5 → judgeImage bytes = .ok g →
    g.cfg.station.val = field bytes 4 1 ∧ g.cfg.signature = crc16 p1 ∧
      g.cfg.cluster =
        { bper := field p1 0 4, quorum := field p1 4 1, maxCorr := field p1 5 2, stableBound := field p1 7 2,
          tentRounds := field p1 9 1, stabRounds := field p1 10 1, holdRounds := field p1 11 1,
          missLimit := field p1 12 1, listenRounds := field p1 13 1, lineDelay := field p1 14 2,
          trigRepeat := field p1 16 1 } ∧
      g.mask =
        { journal := (field p2 0 1).testBit 0, flags := (field p2 0 1).testBit 1, state := (field p2 0 1).testBit 2,
          load := (field p2 0 1).testBit 3 } ∧
      g.threshold = field p2 1 1 ∧ (∀ q : Partition, g.quota.get q = field p4 q 1) ∧
      (∀ l : LineNo, LineFields ((p3.drop (9 * l)).take 9) (g.lines.get l)) ∧
      (∀ (n : Nat) (i : MapIndex), n < p5.length / 29 → i.val = field p5 (29 * n) 1 →
        ∃ m, g.amp.get i = some m ∧ MapFields ((p5.drop (29 * n)).take 29) m) ∧
      ∀ i : MapIndex, (∀ n, n < p5.length / 29 → i.val ≠ field p5 (29 * n) 1) → g.amp.get i = none) ∧
  ∀ (bytes : List Byte) (g : ImageConfig), judgeImage bytes = .ok g →
    (100000 ≤ g.cfg.cluster.bper ∧ g.cfg.cluster.bper ≤ 10000000) ∧
    (1 ≤ g.cfg.cluster.quorum ∧ g.cfg.cluster.quorum ≤ 32) ∧
    (1 ≤ g.cfg.cluster.maxCorr ∧ g.cfg.cluster.maxCorr ≤ 65535) ∧
    g.cfg.cluster.stableBound ≤ g.cfg.cluster.maxCorr ∧
    (1 ≤ g.cfg.cluster.tentRounds ∧ g.cfg.cluster.tentRounds ≤ 15) ∧
    (1 ≤ g.cfg.cluster.stabRounds ∧ g.cfg.cluster.stabRounds ≤ 255) ∧
    (1 ≤ g.cfg.cluster.holdRounds ∧ g.cfg.cluster.holdRounds ≤ 255) ∧
    (2 ≤ g.cfg.cluster.missLimit ∧ g.cfg.cluster.missLimit ≤ 15) ∧
    (1 ≤ g.cfg.cluster.listenRounds ∧ g.cfg.cluster.listenRounds ≤ 15) ∧
    g.cfg.cluster.lineDelay ≤ 65535 ∧ (1 ≤ g.cfg.cluster.trigRepeat ∧ g.cfg.cluster.trigRepeat ≤ 3) ∧
    (1 ≤ g.threshold ∧ g.threshold ≤ 128) ∧
    g.quota.get 0 + g.quota.get 1 + g.quota.get 2 + g.quota.get 3 ≤ 48 ∧
    (∀ (l : LineNo) (i : InputCfg), g.lines.get l = .input i →
      i.qualification ≤ 65535 ∧ i.holdOff ≤ 16777215) ∧
    ∀ (i : MapIndex) (m : MapEntry), g.amp.get i = some m →
      m.origins ≠ 0 ∧ m.lines ≠ 0 ∧ 0 < g.quota.get m.part ∧ m.offset ≤ 4294967295 ∧
      (∀ l : LineNo, m.lines.getLsbD l = true → ∃ h q, g.lines.get l = .output h q) ∧
      (∀ w, m.action = .pulse w → 1 ≤ w ∧ w ≤ 16777215) ∧
      (∀ w p n, m.action = .train w p n → 1 ≤ w ∧ w < p ∧ p ≤ 16777215 ∧ 1 ≤ n ∧ n ≤ 65535) ∧
      ∀ k o, m.derive = some (k, o) → o ≤ 4294967295

/-! ### Time and the sync state -/

/-- LISTEN_TIMEOUT: the founding (R10, R45), the arrival stamp of a frame in reception moved with it (R7), the next beacon
due (R57), the fresh offsets (R36) and the STATE record (R41); what else stands, the receiver too where no frame is in
reception. -/
def Obligations.ListenTimeoutFounds : Prop :=
  ∀ (c : Cfg) (s : State), s.src.inReset = false → s.cfg = some c → s.syc.state = .listen →
    s.syc.listenTimer = some 0 → 0 < c.cluster.bper → s.tbu.localClock.toNat + c.cluster.bper < 2 ^ 64 →
    ∃ t, exec .listenTimeout s = .next t ∧ t.tbu.clusterTime = s.tbu.localClock ∧
      t.tbu.localClock = s.tbu.localClock ∧ t.tbu.slewDebt = 0 ∧ t.tbu.hold = false ∧
      (∃ b, t.tbu.nextBoundary = some b ∧ IsNextBoundary c.cluster.bper s.tbu.localClock.toNat b.toNat) ∧
      (∃ d, t.syc.nextBeaconDue = some d ∧ IsNextDue c s.tbu.localClock.toNat d.toNat) ∧
      t.syc.state = .founding ∧ t.basis = .provisional ∧ t.syc.lastSynchronizing = some .founding ∧
      t.syc.listenTimer = none ∧ (t.syc.goodRounds = 0 ∧ t.syc.stableRounds = 0 ∧ t.syc.holdoverRounds = 0) ∧
      t.rdp.statePending = true ∧
      Recorded (stateRecord t .listen .founding .listenTimeout none) .state s t ∧
      (∀ n : Station, t.mbu.peers.get n = { s.mbu.peers.get n with freshOffset := none }) ∧
      (∀ l : LineNo, t.tlu.inputs.get l = { s.tlu.inputs.get l with lastEdge := none }) ∧
      (t.tbu.lastCorrection = s.tbu.lastCorrection ∧ t.tbu.minCorrection = s.tbu.minCorrection ∧
        t.tbu.maxCorrection = s.tbu.maxCorrection ∧ t.tbu.correctionCount = s.tbu.correctionCount ∧
        t.tbu.syncLossCount = s.tbu.syncLossCount) ∧
      ArrivalMoved s t ∧ t.lif.queue = s.lif.queue ∧ t.lif.slot = s.lif.slot ∧ t.lif.onLine = s.lif.onLine ∧
      t.lif.idleTimer = s.lif.idleTimer ∧ t.lif = { s.lif with receiver := t.lif.receiver } ∧
      t.tlu = { s.tlu with inputs := t.tlu.inputs } ∧ t.mbu = { s.mbu with peers := t.mbu.peers } ∧
      t.rdp = { s.rdp with flags := t.rdp.flags, statePending := true } ∧ t.amp = s.amp ∧ t.scu = s.scu ∧
      t.tge = s.tge ∧ t.src = s.src ∧ t.cfg = s.cfg

/-- The correction (R13): of the correction set, with fewer than four values, their mean rounded toward zero; with four
or more, the mean of what is left when one highest and one lowest value are discarded, in whatever order the values
stand; and its magnitude compared with MAXCORR gives the outcome (R11). The correction set (R12): in TENTATIVE the fresh
offset of every peer record without the foreign mark whose last reported state is not TENTATIVE; in SYNC, STABLE and
HOLDOVER the own 0 and the fresh offset of every MEMBER record; in the other states none. -/
def Obligations.CorrectionIsTheTrimmedMean : Prop :=
  trimmedMean [] = none ∧
  (∀ xs : List Int, 1 ≤ xs.length → xs.length ≤ 3 → trimmedMean xs = some (xs.sum.tdiv xs.length)) ∧
  (∀ (xs middle : List Int) (low high : Int), 2 ≤ middle.length → xs.Perm (low :: high :: middle) →
    (∀ x ∈ middle, low ≤ x ∧ x ≤ high) → low ≤ high → trimmedMean xs = some (middle.sum.tdiv middle.length)) ∧
  (∀ s : State,
    (s.syc.state = .tentative →
      correctionSet s = s.mbu.peers.toList.filterMap fun p =>
        if p.kind ≠ .self ∧ p.foreign = false ∧
            (p.reported = some .founding ∨ p.reported = some .sync ∨ p.reported = some .stable ∨
              p.reported = some .holdover) then p.freshOffset
        else none) ∧
    (s.syc.state = .sync ∨ s.syc.state = .stable ∨ s.syc.state = .holdover →
      correctionSet s = 0 :: s.mbu.peers.toList.filterMap fun p => if p.kind = .member then p.freshOffset else none) ∧
    (s.syc.state = .off ∨ s.syc.state = .listen ∨ s.syc.state = .founding ∨ s.syc.state = .clash →
      correctionSet s = [])) ∧
  ∀ (c : Cfg) (s : State),
    (trimmedMean (correctionSet s) = none → correctionOutcome c s = .none) ∧
    ∀ x, trimmedMean (correctionSet s) = some x →
      correctionOutcome c s = if x.natAbs ≤ c.cluster.maxCorr then .applied x else .exceeded x

/-- CORRECTION_EVENT, the records (R33, R36) and the counts (R34, R35): the agreement count is taken of the table as it
stood, the member count after the aging, and every fresh offset becomes absent. -/
def Obligations.EventAgesAndCounts : Prop :=
  ∀ (c : Cfg) (s : State), AtEvent c s →
    ∃ t, exec .correctionEvent s = .next t ∧
      t.mbu.agreement = 1 + s.mbu.peers.toList.countP (fun p =>
        p.kind != .self && p.kind != .absent && p.kind != .departed && !p.foreign && p.reported.isSome &&
          p.freshOffset.any fun x => decide (x.natAbs ≤ c.cluster.maxCorr)) ∧
      t.mbu.members = 1 + t.mbu.peers.toList.countP (fun p => p.kind == .member) ∧
      (s.syc.state.synced = true →
        t.mbu.minMembers = min s.mbu.minMembers t.mbu.members ∧
          t.mbu.maxMembers = max s.mbu.maxMembers t.mbu.members) ∧
      (s.syc.state.synced = false →
        t.mbu.minMembers = s.mbu.minMembers ∧ t.mbu.maxMembers = s.mbu.maxMembers) ∧
      ∀ n : Station,
        (((s.mbu.peers.get n).kind = .self ∨ (s.mbu.peers.get n).kind = .absent) →
          t.mbu.peers.get n = { s.mbu.peers.get n with freshOffset := none }) ∧
        ((s.mbu.peers.get n).kind ≠ .self → (s.mbu.peers.get n).kind ≠ .absent →
          ((s.mbu.peers.get n).heard = true →
            t.mbu.peers.get n = { s.mbu.peers.get n with heard := false, freshOffset := none }) ∧
          ((s.mbu.peers.get n).heard = false → (s.mbu.peers.get n).missed + 1 ≠ c.cluster.missLimit →
            t.mbu.peers.get n =
              { s.mbu.peers.get n with missed := (s.mbu.peers.get n).missed + 1, freshOffset := none }) ∧
          ((s.mbu.peers.get n).heard = false → (s.mbu.peers.get n).missed + 1 = c.cluster.missLimit →
            t.mbu.peers.get n = Peer.absentRecord))

/-- CORRECTION_EVENT in FOUNDING (R48): no correction, and SYNC where the agreement count is at least QUORUM. -/
def Obligations.EventInFounding : Prop :=
  ∀ (c : Cfg) (s : State), AtEvent c s → s.syc.state = .founding →
    correctionOutcome c s = .none ∧
    ∃ t, exec .correctionEvent s = .next t ∧
      (c.cluster.quorum ≤ agreementCount c s → Moved c s t .sync .quorumMet) ∧
      (agreementCount c s < c.cluster.quorum →
        Stayed c s t s.syc.goodRounds s.syc.stableRounds s.syc.holdoverRounds)

/-- CORRECTION_EVENT in TENTATIVE (R49), by the outcome and the agreement count; the move to LISTEN with its stand-down
orders and the listen timer (R43, R56, R73, R147). A TENTATIVE station's schedule is empty
(R124), which Coherent says. -/
def Obligations.EventInTentative : Prop :=
  ∀ (c : Cfg) (s : State), AtEvent c s → Coherent s → s.syc.state = .tentative →
    ∃ t, exec .correctionEvent s = .next t ∧
      (correctionOutcome c s = .none → Stayed c s t 0 s.syc.stableRounds s.syc.holdoverRounds) ∧
      (∀ x, correctionOutcome c s = .exceeded x →
        Moved c s t .listen .boundExceeded ∧ t.tbu.syncLossCount = s.tbu.syncLossCount ∧
          StoodDown c s t .listen .boundExceeded) ∧
      (∀ x, correctionOutcome c s = .applied x → c.cluster.quorum ≤ agreementCount c s →
        (s.syc.goodRounds + 1 = c.cluster.tentRounds → Moved c s t .sync .roundsMet) ∧
        (s.syc.goodRounds + 1 ≠ c.cluster.tentRounds →
          Stayed c s t (s.syc.goodRounds + 1) s.syc.stableRounds s.syc.holdoverRounds)) ∧
      ∀ x, correctionOutcome c s = .applied x → agreementCount c s < c.cluster.quorum →
        Stayed c s t 0 s.syc.stableRounds s.syc.holdoverRounds

/-- CORRECTION_EVENT in SYNC (R50), in the order of its steps. -/
def Obligations.EventInSync : Prop :=
  ∀ (c : Cfg) (s : State), AtEvent c s → s.syc.state = .sync →
    correctionOutcome c s ≠ .none ∧
    ∃ t, exec .correctionEvent s = .next t ∧
      (∀ x, correctionOutcome c s = .exceeded x → Moved c s t .listen .boundExceeded) ∧
      ∀ x, correctionOutcome c s = .applied x →
        (agreementCount c s < c.cluster.quorum → Moved c s t .holdover .quorumLost) ∧
        (c.cluster.quorum ≤ agreementCount c s →
          (x.natAbs ≤ c.cluster.stableBound → s.syc.stableRounds + 1 = c.cluster.stabRounds →
            Moved c s t .stable .stableMet) ∧
          (x.natAbs ≤ c.cluster.stableBound → s.syc.stableRounds + 1 ≠ c.cluster.stabRounds →
            Stayed c s t s.syc.goodRounds (s.syc.stableRounds + 1) s.syc.holdoverRounds) ∧
          (c.cluster.stableBound < x.natAbs → Stayed c s t s.syc.goodRounds 0 s.syc.holdoverRounds))

/-- CORRECTION_EVENT in STABLE (R51), in the order of its steps. -/
def Obligations.EventInStable : Prop :=
  ∀ (c : Cfg) (s : State), AtEvent c s → s.syc.state = .stable →
    ∃ t, exec .correctionEvent s = .next t ∧
      (∀ x, correctionOutcome c s = .exceeded x → Moved c s t .listen .boundExceeded) ∧
      ∀ x, correctionOutcome c s = .applied x →
        (agreementCount c s < c.cluster.quorum → Moved c s t .holdover .quorumLost) ∧
        (c.cluster.quorum ≤ agreementCount c s → c.cluster.stableBound < x.natAbs →
          Moved c s t .sync .correctionUnstable ∧ t.tbu.syncLossCount = s.tbu.syncLossCount) ∧
        (c.cluster.quorum ≤ agreementCount c s → x.natAbs ≤ c.cluster.stableBound →
          Stayed c s t s.syc.goodRounds s.syc.stableRounds s.syc.holdoverRounds)

/-- CORRECTION_EVENT in HOLDOVER (R52), in the order of its steps. Where an expiring event meets entries that are due,
they fire or are flushed in a free order (log 12); Moved says the record where none is due. -/
def Obligations.EventInHoldover : Prop :=
  ∀ (c : Cfg) (s : State), AtEvent c s → s.syc.state = .holdover →
    ∃ t, exec .correctionEvent s = .next t ∧
      (∀ x, correctionOutcome c s = .exceeded x → Moved c s t .listen .boundExceeded) ∧
      ∀ x, correctionOutcome c s = .applied x →
        (c.cluster.quorum ≤ agreementCount c s → Moved c s t .sync .quorumRegained) ∧
        (agreementCount c s < c.cluster.quorum →
          (s.syc.holdoverRounds + 1 = c.cluster.holdRounds → Moved c s t .listen .holdoverExpired) ∧
          (s.syc.holdoverRounds + 1 ≠ c.cluster.holdRounds →
            Stayed c s t s.syc.goodRounds s.syc.stableRounds (s.syc.holdoverRounds + 1)))

/-- CORRECTION_EVENT, the correction's effect on time and its statistics (R14, R15, R17): a forward step, a step back in
TENTATIVE, slew debt elsewhere; withheld above MAXCORR; the arrival stamp of a frame in reception moves with it (R7).
The next boundary is one round after the event's (R5, R11), and absent where the event ends in LISTEN. Everything else
stands where the event does not end in LISTEN, the sync-loss count too (R18): EventFrame. Steps of cluster time are taken
away from the ends of its range (log 6). -/
def Obligations.CorrectionIsApplied : Prop :=
  ∀ (c : Cfg) (s : State), AtEvent c s →
    ∃ t, exec .correctionEvent s = .next t ∧ t.tbu.localClock = s.tbu.localClock ∧ ArrivalMoved s t ∧
      (t.syc.state ≠ .listen → EventFrame c s t) ∧
      (t.syc.state ≠ .listen → s.tbu.clusterTime.toNat + c.cluster.bper < 2 ^ 64 →
        ∃ b, t.tbu.nextBoundary = some b ∧ b.toNat = s.tbu.clusterTime.toNat + c.cluster.bper) ∧
      (s.syc.state ≠ .listen → t.syc.state = .listen → t.tbu.nextBoundary = none) ∧
      ((correctionOutcome c s = .none ∨ ∃ x, correctionOutcome c s = .exceeded x) →
        t.tbu.clusterTime = s.tbu.clusterTime ∧ t.tbu.lastCorrection = s.tbu.lastCorrection ∧
          t.tbu.minCorrection = s.tbu.minCorrection ∧ t.tbu.maxCorrection = s.tbu.maxCorrection ∧
          t.tbu.correctionCount = s.tbu.correctionCount ∧
          (t.syc.state ≠ .listen → t.tbu.slewDebt = s.tbu.slewDebt ∧ t.tbu.hold = s.tbu.hold)) ∧
      ∀ x, correctionOutcome c s = .applied x →
        x.natAbs ≤ c.cluster.maxCorr ∧ t.tbu.lastCorrection = x ∧
          t.tbu.minCorrection = min s.tbu.minCorrection x ∧ t.tbu.maxCorrection = max s.tbu.maxCorrection x ∧
          t.tbu.correctionCount = s.tbu.correctionCount + 1 ∧
          (0 < x → s.tbu.clusterTime.toNat + c.cluster.maxCorr < 2 ^ 64 →
            t.tbu.clusterTime.toNat = s.tbu.clusterTime.toNat + x.natAbs) ∧
          (x = 0 → t.tbu.clusterTime = s.tbu.clusterTime) ∧
          (x < 0 → s.syc.state = .tentative → c.cluster.maxCorr ≤ s.tbu.clusterTime.toNat →
            t.tbu.clusterTime.toNat = s.tbu.clusterTime.toNat - x.natAbs) ∧
          (x < 0 → s.syc.state ≠ .tentative → t.tbu.clusterTime = s.tbu.clusterTime) ∧
          (t.syc.state ≠ .listen →
            t.tbu.slewDebt =
              (if x < 0 ∧ s.syc.state ≠ .tentative then s.tbu.slewDebt + x.natAbs else s.tbu.slewDebt) ∧
            t.tbu.hold = s.tbu.hold)

/-- CORRECTION_EVENT that loses sync (R18, R55, R56, R73, R130, R131, R147, R148), with its cause: EXCEEDED, or an expired
holdover. The stand-down orders, the flush with its counts, the receiver with no stamp moved but of a frame in reception
(R7), and the STATE record. Of the entries that are due at the event (overtaken by its step, or due at the boundary) the
first `k` fire before the change, the next `m` between the train end order and the flush, and the flush takes the rest;
which is free (log 12). That all the commands of one entry fall on one side of the train end order is the model's choice
(log 32). -/
def Obligations.SyncLossStandsDown : Prop :=
  ∀ (c : Cfg) (s : State), AtEvent c s → s.syc.state.synced = true →
    ((∃ x, correctionOutcome c s = .exceeded x) ∨ Expires c (agreementCount c s) s.syc) →
    ∃ t reason k m, exec .correctionEvent s = .next t ∧
      ((∃ x, correctionOutcome c s = .exceeded x) → reason = .boundExceeded) ∧
      ((∀ x, correctionOutcome c s ≠ .exceeded x) → reason = .holdoverExpired) ∧
      t.syc.state = .listen ∧ t.basis = .localBasis ∧
      t.syc.listenTimer =
        some (c.cluster.listenRounds * c.cluster.bper + c.station * (c.cluster.bper / 32)) ∧
      t.syc.nextBeaconDue = none ∧ t.syc.lastSynchronizing = s.syc.lastSynchronizing ∧
      (t.syc.goodRounds = 0 ∧ t.syc.stableRounds = 0 ∧ t.syc.holdoverRounds = 0) ∧
      t.rdp = { s.rdp with flags := t.rdp.flags, statePending := true } ∧
      t.tbu.syncLossCount.toNat = min 65535 (s.tbu.syncLossCount.toNat + 1) ∧ t.tbu.slewDebt = 0 ∧
      t.tbu.hold = false ∧ t.tbu.nextBoundary = none ∧
      (∀ n : Station, (t.mbu.peers.get n).freshOffset = none) ∧
      (∀ n : Station, (membershipVector t).getLsbD n = ((t.mbu.peers.get n).kind == .member)) ∧
      t.lif = { s.lif with
        receiver := t.lif.receiver, queue := [], slot := none,
        onLine := s.lif.onLine.map fun f => { f with purged := true } } ∧
      ArrivalMoved s t ∧ ((correctionOutcome c s).forward = false → t.lif.receiver = s.lif.receiver) ∧
      k + m ≤ s.scu.entries.length ∧
      (∀ e ∈ s.scu.entries.take (k + m), e.capped = false ∧ e.due.toNat ≤ t.tbu.clusterTime.toNat) ∧
      t.scu.entries = [] ∧
      (∀ p : Partition, t.scu.space.get p = s.scu.space.get p + placesTaken s p) ∧
      t.scu.cancelled = s.scu.cancelled + BitVec.ofNat 32 (s.scu.entries.length - (k + m)) ∧
      t.scu.quota = s.scu.quota ∧ t.scu.drops = s.scu.drops ∧ t.scu.lateDrop = s.scu.lateDrop ∧
      t.scu.lateFire = s.scu.lateFire ∧
      (∀ u v : State,
        u = (s.scu.entries.take k).foldl (fireAtEvent s.tbu.clusterTime)
          { s with tbu := { s.tbu with clusterTime := t.tbu.clusterTime } } →
        v = ((s.scu.entries.drop k).take m).foldl (fireAtEvent s.tbu.clusterTime)
          { u with
            syc := { u.syc with state := .listen },
            tlu := { u.tlu with channels := u.tlu.channels.map fun ch => match ch with
              | .active w g r _ => .active w g r 0
              | .gap _ _ _ _ | .idle => .idle
              | .held => .held } } →
        t.tlu.channels = v.tlu.channels ∧ t.tlu.overruns = v.tlu.overruns ∧
          Recorded (stateRecord t s.syc.state .listen reason (some (s.scu.entries.length - (k + m)))) .state v t) ∧
      (k + m = 0 →
        (∀ l : LineNo, t.tlu.channels.get l =
          match s.tlu.channels.get l with
          | .active w g r _ => .active w g r 0
          | .gap _ _ _ _ | .idle => .idle
          | .held => .held) ∧
        t.tlu.overruns = s.tlu.overruns ∧
        Recorded (stateRecord t s.syc.state .listen reason (some s.scu.entries.length)) .state s t) ∧
      t.tlu.lines = s.tlu.lines ∧ t.tlu.pins = s.tlu.pins ∧
      (∀ l : LineNo, t.tlu.inputs.get l = { s.tlu.inputs.get l with lastEdge := none }) ∧
      t.tge = s.tge ∧ t.amp = s.amp ∧ t.src = s.src ∧ t.cfg = s.cfg

/-- BEACON_DUE (R57, R58): a new beacon is in the slot, in place of any that waited there, and the next falls due a round
later. Nothing falls due before. -/
def Obligations.BeaconDuePlacesABeacon : Prop :=
  ∀ (c : Cfg) (d : Time) (s : State), s.src.inReset = false → s.cfg = some c → s.syc.nextBeaconDue = some d →
    (d.toNat ≤ s.tbu.clusterTime.toNat → d.toNat + c.cluster.bper < 2 ^ 64 →
      exec .beaconDue s = .next { s with
        lif := { s.lif with
          slot := some { station := c.station, uniqueId := s.uniqueId, signature := c.signature, attempts := 0,
                         backoff := 0 } },
        syc := { s.syc with nextBeaconDue := some (d + BitVec.ofNat 64 c.cluster.bper) } }) ∧
    (s.tbu.clusterTime.toNat < d.toNat → exec .beaconDue s = .next s)

/-- Cluster time does not decrease over a step that begins and ends in SYNC, STABLE or HOLDOVER (R3). It is taken below
the end of its range (log 6). -/
def Obligations.ClusterTimeNeverFallsInSync : Prop :=
  ∀ (c : Cfg) (s t : State), s.cfg = some c → s.tbu.clusterTime.toNat + c.cluster.maxCorr + 1 < 2 ^ 64 →
    s.syc.state.synced = true → step s = .next t → t.syc.state.synced = true →
    s.tbu.clusterTime.toNat ≤ t.tbu.clusterTime.toNat

/-! ### The cluster line -/

/-- FRAME_START (R67, R68): the trigger entry at the front, else the beacon in the slot, starts once its quiet gap and its
owed backoff have passed; otherwise nothing starts. -/
def Obligations.FrameStartSendsTheOfferedFrame : Prop :=
  (∀ (c : Cfg) (s : State), s.src.inReset = false → s.cfg = some c → s.src.loadState = .ready →
    s.syc.state.active = true → s.lif.onLine = none →
    (∀ e rest, s.lif.queue = e :: rest →
      (80 + e.backoff ≤ s.lif.idleTimer →
        exec .frameStart s = .next { s with lif := { s.lif with
          queue := { e with onLine := true } :: rest,
          onLine := some
            { frame := .trigger e.trigger (c.cluster.trigRepeat - e.copies + 1), refLeft := false,
              purged := false } } }) ∧
      (s.lif.idleTimer < 80 + e.backoff → exec .frameStart s = .next s)) ∧
    (∀ b, s.lif.queue = [] → s.lif.slot = some b →
      (160 + b.backoff ≤ s.lif.idleTimer →
        exec .frameStart s = .next { s with lif := { s.lif with
          slot := none,
          onLine := some { frame := .beacon b none false, refLeft := false, purged := false } } }) ∧
      (s.lif.idleTimer < 160 + b.backoff → exec .frameStart s = .next s)) ∧
    (s.lif.queue = [] → s.lif.slot = none → exec .frameStart s = .next s)) ∧
  ∀ s : State, (s.src.loadState ≠ .ready ∨ s.syc.state.active = false ∨ s.lif.onLine ≠ none) →
    exec .frameStart s = .next s

/-- SEND_REFERENCE_POINT (R59): a beacon takes its reported state, departing flag, send stamp, vector and next sequence
there; a trigger copy takes nothing. That the reception of the own frame opens at the same tick is log 5. -/
def Obligations.ReferencePointFillsTheBeacon : Prop :=
  ∀ (f : OnLine) (s : State), s.src.inReset = false → s.lif.onLine = some f → f.refLeft = false →
    ∃ t, exec .sendReferencePoint s = .next t ∧
      t = { s with lif := { s.lif with onLine := t.lif.onLine, receiver := t.lif.receiver } } ∧
      (s.lif.receiver = .ready →
        t.lif.receiver = .receiving s.tbu.localClock s.tbu.clusterTime false) ∧
      (s.lif.receiver ≠ .ready → t.lif.receiver = s.lif.receiver) ∧
      (∀ tr n, f.frame = .trigger tr n → t.lif.onLine = some { f with refLeft := true }) ∧
      ∀ b x l r, f.frame = .beacon b x l →
        (s.syc.state.reported = some r ∨ (s.syc.state.reported = none ∧ s.syc.lastSynchronizing = some r)) →
        t.lif.onLine = some
          { frame := .beacon b
              (some
                { station := b.station,
                  departing := s.src.supplyWarning || s.src.leaveTimer.isSome || s.syc.state == .listen ||
                    s.syc.state == .clash,
                  reported := r, uniqueId := b.uniqueId, sendStamp := s.tbu.clusterTime,
                  vector := membershipVector s, nextSequence := s.tge.ownSequence, signature := b.signature })
              s.src.leaveTimer.isSome,
            refLeft := true, purged := f.purged }

/-- COLLISION (R70, R71, R73): the count rises and the frame leaves the line. Below the eighth collision it waits with its
owed backoff, a newer beacon taking the collided one's; at the eighth it is abandoned; a purged frame is neither. -/
def Obligations.CollisionBacksOffOrAbandons : Prop :=
  ∀ (c : Cfg) (f : OnLine) (s : State), s.src.inReset = false → s.cfg = some c → s.lif.onLine = some f →
    (f.purged = true →
      exec .collision s = .next
        { s with lif := { s.lif with onLine := none, collisions := s.lif.collisions + 1 } }) ∧
    (∀ tr n e rest, f.purged = false → f.frame = .trigger tr n → s.lif.queue = e :: rest →
      (e.attempts + 1 < 8 →
        exec .collision s = .next { s with lif := { s.lif with
          onLine := none, collisions := s.lif.collisions + 1,
          queue := { e with
            attempts := e.attempts + 1, backoff := 10 * (32 * (e.attempts + 1) + c.station), onLine := false } ::
              rest } }) ∧
      (8 ≤ e.attempts + 1 →
        exec .collision s = .next { s with
          lif := { s.lif with
            onLine := none, collisions := s.lif.collisions + 1, queue := rest, abandons := s.lif.abandons + 1 },
          rdp := { s.rdp with flags := { s.rdp.flags with
            txAbandon := some (s.rdp.flags.txAbandon.getD (.trigger, some e.trigger.cls)) } } })) ∧
    ∀ b x l, f.purged = false → f.frame = .beacon b x l →
      (b.attempts + 1 < 8 → s.lif.slot = none →
        exec .collision s = .next { s with lif := { s.lif with
          onLine := none, collisions := s.lif.collisions + 1,
          slot := some { b with
            attempts := b.attempts + 1, backoff := 10 * (32 * (b.attempts + 1) + c.station) } } }) ∧
      (∀ newer, b.attempts + 1 < 8 → s.lif.slot = some newer →
        exec .collision s = .next { s with lif := { s.lif with
          onLine := none, collisions := s.lif.collisions + 1,
          slot := some { newer with
            attempts := b.attempts + 1, backoff := 10 * (32 * (b.attempts + 1) + c.station) } } }) ∧
      (8 ≤ b.attempts + 1 →
        exec .collision s = .next { s with
          lif := { s.lif with
            onLine := none, collisions := s.lif.collisions + 1, slot := none, abandons := s.lif.abandons + 1 },
          rdp := { s.rdp with flags := { s.rdp.flags with
            txAbandon := some (s.rdp.flags.txAbandon.getD (.beacon, none)) } } })

/-- FRAME_COMPLETE (R72, R73): a copy or a beacon is counted; the front entry sends its next copy or leaves, and a copy
whose entry was purged changes none; a beacon that does not end a leave changes nothing more. The own reception under way
is marked, so that it is dropped at its end (R69); that it is the own frame's is the model's reading (log 5). -/
def Obligations.FrameCompleteCounts : Prop :=
  ∀ (f : OnLine) (s : State) (receiver : Receiver), s.src.inReset = false → s.lif.onLine = some f → f.refLeft = true →
    (∀ l k own, s.lif.receiver = .receiving l k own → receiver = .receiving l k true) →
    ((∀ l k own, s.lif.receiver ≠ .receiving l k own) → receiver = s.lif.receiver) →
    (∀ tr n, f.frame = .trigger tr n →
      ∃ t, exec .frameComplete s = .next t ∧
        t = { s with lif := { s.lif with
          onLine := none, copiesSent := s.lif.copiesSent + 1, queue := t.lif.queue, receiver := receiver } } ∧
        (f.purged = true → t.lif.queue = s.lif.queue) ∧
        (f.purged = false → s.lif.queue = [] → t.lif.queue = []) ∧
        ∀ e rest, f.purged = false → s.lif.queue = e :: rest →
          t.lif.queue =
            if e.copies ≤ 1 then rest
            else { e with copies := e.copies - 1, attempts := 0, backoff := 0, onLine := false } :: rest) ∧
    ∀ b x l, f.frame = .beacon b x l → (l = false ∨ s.src.leaveTimer = none) →
      exec .frameComplete s = .next { s with lif := { s.lif with
        onLine := none, beaconsSent := s.lif.beaconsSent + 1, receiver := receiver } }

/-- START_MARK_RECEIVED, NOT_A_FRAME and a FRAME_END that delivers nothing (R7, R74, R75, R69): the arrival stamp is
taken; activity that is no frame makes the line ignored; a bad frame is counted and raises BAD_FRAME; the own frame, sent
to the end, is dropped. Which bodies are bad: those that are not whole bytes, and those that meet a case of R75, and no
others. -/
def Obligations.ReceptionOpensAndEnds : Prop :=
  (∀ body : List Bool, body.length % 8 ≠ 0 → judgeFrame body = none) ∧
  (∀ bs : List Byte, judgeFrame (bytesToBits bs) = none ↔ BadBody bs) ∧
  (∀ body : List Bool, body.length % 8 = 0 → ∃ bs : List Byte, bytesToBits bs = body) ∧
  ∀ s : State, s.src.inReset = false →
    (s.lif.receiver = .ready →
      exec .startMarkReceived s = .next { s with lif := { s.lif with
        receiver := .receiving s.tbu.localClock s.tbu.clusterTime false } } ∧
      exec .notAFrame s = .next { s with lif := { s.lif with receiver := .ignoring } }) ∧
    (∀ body l k, s.lif.receiver = .receiving l k true → 20 ≤ s.lif.idleTimer →
      exec (.frameEnd body) s = .next { s with lif := { s.lif with receiver := .ready } }) ∧
    (∀ body l k, s.lif.receiver = .receiving l k false → 20 ≤ s.lif.idleTimer → judgeFrame body = none →
      exec (.frameEnd body) s = .next { s with
        lif := { s.lif with receiver := .ready, badFrames := s.lif.badFrames + 1 },
        rdp := { s.rdp with flags := { s.rdp.flags with badFrame := true } } }) ∧
    ∀ body l k own, s.lif.receiver = .receiving l k own → s.lif.idleTimer < 20 →
      exec (.frameEnd body) s = .next s

/-- The two checks of R187, bit by bit, with their values of the bytes "123456789". The bodies, byte by byte as R186 lays
them out, the CRC-32 behind them; and what a good body is read as, at the same offsets. Every frame that the part builds
goes out as the start mark 0x1E5B and its body, a 0 bit DOMINANT and a 1 bit RECESSIVE, and is judged good where it
arrives whole, every field of it as it was sent (R62, R75). The line
carries DOMINANT where any station sends it; a symbol that comes back otherwise is a collision (R69, R70), and activity
that does not open with the start mark is no frame (R74). -/
def Obligations.FramesSurviveTheLine : Prop :=
  (crc32 [0x31, 0x32, 0x33, 0x34, 0x35, 0x36, 0x37, 0x38, 0x39] = 0x0376E6E7 ∧
    crc16 [0x31, 0x32, 0x33, 0x34, 0x35, 0x36, 0x37, 0x38, 0x39] = 0x29B1 ∧
    bytesToBits [] = [] ∧
    (∀ (x : Byte) (bs : List Byte), bytesToBits (x :: bs) =
      [x.getLsbD 7, x.getLsbD 6, x.getLsbD 5, x.getLsbD 4, x.getLsbD 3, x.getLsbD 2, x.getLsbD 1, x.getLsbD 0] ++
        bytesToBits bs) ∧
    ∀ bs : List Byte,
      crc32 bs = (bytesToBits bs).foldl
        (fun (c : BitVec 32) b => if c.msb = b then c <<< 1 else (c <<< 1) ^^^ 0x04C11DB7#32) 0xFFFFFFFF#32 ∧
      crc16 bs = (bytesToBits bs).foldl
        (fun (c : BitVec 16) b => if c.msb = b then c <<< 1 else (c <<< 1) ^^^ 0x1021#16) 0xFFFF#16) ∧
  (∀ b : Beacon, beaconBody b = beaconLayout b ++ fourBytes (crc32 (beaconLayout b))) ∧
  (∀ (t : Trigger) (n : Nat), 1 ≤ n → n ≤ 3 →
    triggerBody t n = triggerLayout t n ++ fourBytes (crc32 (triggerLayout t n))) ∧
  (∀ (bs : List Byte) (b : Beacon), judgeFrame (bytesToBits bs) = some (.beacon b) → ReadsBeacon bs b) ∧
  (∀ (bs : List Byte) (t : Trigger) (n : Nat), judgeFrame (bytesToBits bs) = some (.trigger t n) →
    ReadsTrigger bs t n) ∧
  (∀ b : Beacon, judgeFrame (bytesToBits (beaconBody b)) = some (.beacon b) ∧ (beaconBody b).length = 31) ∧
  (∀ (t : Trigger) (n : Nat), 1 ≤ n → n ≤ 3 → (t.root.isSome = true ↔ t.depth ≠ 0) →
    judgeFrame (bytesToBits (triggerBody t n)) = some (.trigger t n) ∧
      (triggerBody t n).length = if t.depth = 0 then 18 else 21) ∧
  (∀ (f : LineFrame) (body : List Byte),
    ((∃ t n, f = .trigger t n ∧ body = triggerBody t n) ∨ ∃ e b l, f = .beacon e (some b) l ∧ body = beaconBody b) →
    f.symbols =
      ([false, false, false, true, true, true, true, false, false, true, false, true, true, false, true, true] ++
        bytesToBits body).map (fun bit => if bit then Symbol.recessive else Symbol.dominant) ∧
      openingCommand f.symbols = .startMarkReceived ∧
      closingCommand (f.symbols.drop 16) = .frameEnd (bytesToBits body)) ∧
  (∀ carried : List Symbol, 16 ≤ carried.length →
    (openingCommand carried = .startMarkReceived ∨ openingCommand carried = .notAFrame) ∧
    (openingCommand carried = .startMarkReceived ↔
      (carried.take 16).map (fun x => x == Symbol.recessive) =
        [false, false, false, true, true, true, true, false, false, true, false, true, true, false, true, true])) ∧
  (∀ sent : List Symbol,
    (Symbol.dominant ∈ sent → lineSymbol sent = some .dominant) ∧
    (sent ≠ [] → Symbol.dominant ∉ sent → lineSymbol sent = some .recessive) ∧
    (sent = [] → lineSymbol sent = none)) ∧
  ∀ (x : Symbol) (y : Option Symbol),
    (y = some x → readBack x y = none) ∧ (y ≠ some x → readBack x y = some .collision)

/-- FRAME_END with a good beacon of another station, where no adoption is taken: in TENTATIVE, SYNC, STABLE, HOLDOVER
and CLASH, and in LISTEN and FOUNDING of a beacon that R44 and R47 do not adopt. The five steps of its record's update
(R25 to R28, R30), the fresh offset (R8, R26; kept in LOCAL, and absent after a conflict there), the flags it raises
(R25, R27, R28), the other records, and what else stands. -/
def Obligations.BeaconUpdatesItsRecord : Prop :=
  ∀ (c : Cfg) (b : Beacon) (body : List Bool) (l k : Time) (offset : Int) (s : State), s.src.inReset = false →
    s.cfg = some c → s.lif.receiver = .receiving l k false → 20 ≤ s.lif.idleTimer →
    judgeFrame body = some (.beacon b) → b.station ≠ c.station →
    offset = (b.sendStamp.toNat : Int) + c.cluster.lineDelay - k.toNat →
    (s.syc.state = .tentative ∨ s.syc.state = .clash ∨ s.syc.state.synced = true ∨
      (s.syc.state = .listen ∧ (b.signature ≠ c.signature ∨ b.reported = .tentative)) ∨
      (s.syc.state = .founding ∧ (b.signature ≠ c.signature ∨ b.reported = .tentative ∨
        (b.reported = .founding ∧ c.station.val < b.station.val)))) →
    ∃ t p q, exec (.frameEnd body) s = .next t ∧ p = s.mbu.peers.get b.station ∧ q = t.mbu.peers.get b.station ∧
      t = { s with
        lif := { s.lif with receiver := .ready, framesReceived := s.lif.framesReceived + 1 },
        mbu := { s.mbu with peers := t.mbu.peers },
        rdp := { s.rdp with flags := flagsOfBeacon c b s.basis offset p s.rdp.flags } } ∧
      (∀ n : Station, n ≠ b.station → t.mbu.peers.get n = s.mbu.peers.get n) ∧
      TookBeacon c b k s.basis offset p q ∧
      (s.basis ≠ .localBasis → q.freshOffset = some offset) ∧
      (s.basis = .localBasis →
        q.freshOffset = if p.kind ≠ .absent ∧ p.uniqueId ≠ some b.uniqueId then none else p.freshOffset)

/-- FRAME_END with a beacon that is adopted, in LISTEN (R44) or by a founder that yields (R47): its record's update with
the flags it raises (R23), the adoption (R9, R46), the fresh offsets gone (R36), the last-edge records gone where the
basis changes (R156), and the STATE record; no correction statistic changes, and what else stands. Times are taken
within 64 bits (log 6). -/
def Obligations.AdoptionTakesTheBeaconsTime : Prop :=
  ∀ (c : Cfg) (b : Beacon) (body : List Bool) (l k : Time) (offset : Int) (s : State), s.src.inReset = false →
    s.cfg = some c → s.lif.receiver = .receiving l k false → 20 ≤ s.lif.idleTimer →
    judgeFrame body = some (.beacon b) → b.station ≠ c.station → b.signature = c.signature →
    0 < c.cluster.bper → l.toNat ≤ s.tbu.localClock.toNat →
    b.sendStamp.toNat + c.cluster.lineDelay + (s.tbu.localClock.toNat - l.toNat) + c.cluster.bper < 2 ^ 64 →
    offset = (b.sendStamp.toNat : Int) + c.cluster.lineDelay - k.toNat →
    ((s.syc.state = .listen ∧ b.reported ≠ .tentative) ∨
      (s.syc.state = .founding ∧
        ((b.reported = .founding ∧ b.station.val < c.station.val) ∨ b.reported.synced = true))) →
    ∃ t, exec (.frameEnd body) s = .next t ∧
      t.tbu.clusterTime.toNat =
        b.sendStamp.toNat + c.cluster.lineDelay + (s.tbu.localClock.toNat - l.toNat) ∧
      t.tbu.localClock = s.tbu.localClock ∧ t.tbu.slewDebt = 0 ∧ t.tbu.hold = false ∧
      (∃ x, t.tbu.nextBoundary = some x ∧ IsNextBoundary c.cluster.bper t.tbu.clusterTime.toNat x.toNat) ∧
      (t.tbu.lastCorrection = s.tbu.lastCorrection ∧ t.tbu.minCorrection = s.tbu.minCorrection ∧
        t.tbu.maxCorrection = s.tbu.maxCorrection ∧ t.tbu.correctionCount = s.tbu.correctionCount ∧
        t.tbu.syncLossCount = s.tbu.syncLossCount) ∧
      (∃ d, t.syc.nextBeaconDue = some d ∧ IsNextDue c t.tbu.clusterTime.toNat d.toNat) ∧
      t.syc.state = .tentative ∧ t.basis = .provisional ∧
      (t.syc.goodRounds = 0 ∧ t.syc.stableRounds = 0 ∧ t.syc.holdoverRounds = 0) ∧ t.syc.listenTimer = none ∧
      t.syc.lastSynchronizing = some .tentative ∧
      (∀ n : Station, (t.mbu.peers.get n).freshOffset = none) ∧
      (∀ n : Station, n ≠ b.station → t.mbu.peers.get n = { s.mbu.peers.get n with freshOffset := none }) ∧
      TookBeacon c b k s.basis offset (s.mbu.peers.get b.station) (t.mbu.peers.get b.station) ∧
      t.mbu = { s.mbu with peers := t.mbu.peers } ∧
      Recorded (stateRecord t s.syc.state .tentative (if s.syc.state = .listen then .adopted else .founderYield) none)
        .state
        { s with rdp := { s.rdp with
          flags := flagsOfBeacon c b s.basis offset (s.mbu.peers.get b.station) s.rdp.flags } } t ∧
      t.rdp = { s.rdp with flags := t.rdp.flags, statePending := true } ∧
      (∀ n : LineNo, t.tlu.inputs.get n =
        if s.syc.state = .listen then { s.tlu.inputs.get n with lastEdge := none } else s.tlu.inputs.get n) ∧
      t.tlu = { s.tlu with inputs := t.tlu.inputs } ∧
      t.lif = { s.lif with receiver := .ready, framesReceived := s.lif.framesReceived + 1 } ∧
      t.scu = s.scu ∧ t.tge = s.tge ∧ t.amp = s.amp ∧ t.src = s.src ∧ t.cfg = s.cfg

/-- FRAME_END with a beacon that carries the own number (R24, R53): one with the own unique ID, and one in CLASH, has no
effect beyond its count; another unique ID moves LISTEN, FOUNDING and TENTATIVE to CLASH with the stand-down orders
(R56, R73, R130, R147), and raises NUMBER_CONFLICT in SYNC, STABLE and HOLDOVER. In OFF, before READY, any beacon is
discarded (R23) and counted as received (R76). -/
def Obligations.OwnNumberBeaconClashes : Prop :=
  (∀ (b : Beacon) (body : List Bool) (l k : Time) (s : State), s.src.inReset = false → s.cfg = none →
    s.lif.receiver = .receiving l k false → 20 ≤ s.lif.idleTimer → judgeFrame body = some (.beacon b) →
    exec (.frameEnd body) s = .next { s with lif := { s.lif with
      receiver := .ready, framesReceived := s.lif.framesReceived + 1 } }) ∧
  ∀ (c : Cfg) (b : Beacon) (body : List Bool) (l k : Time) (s r : State), s.src.inReset = false → s.cfg = some c →
    s.lif.receiver = .receiving l k false → 20 ≤ s.lif.idleTimer → judgeFrame body = some (.beacon b) →
    b.station = c.station →
    r = { s with lif := { s.lif with receiver := .ready, framesReceived := s.lif.framesReceived + 1 } } →
    ((b.uniqueId = s.uniqueId ∨ s.syc.state = .clash ∨ s.syc.state = .off) →
      exec (.frameEnd body) s = .next { s with lif := { s.lif with
        receiver := .ready, framesReceived := s.lif.framesReceived + 1 } }) ∧
    (b.uniqueId ≠ s.uniqueId → s.syc.state.synced = true →
      exec (.frameEnd body) s = .next { s with
        lif := { s.lif with receiver := .ready, framesReceived := s.lif.framesReceived + 1 },
        rdp := { s.rdp with flags := { s.rdp.flags with
          numberConflict := some (s.rdp.flags.numberConflict.getD c.station) } } }) ∧
    (b.uniqueId ≠ s.uniqueId →
      (s.syc.state = .listen ∨ s.syc.state = .founding ∨ s.syc.state = .tentative) →
      ∃ t, exec (.frameEnd body) s = .next t ∧ t.syc.state = .clash ∧ t.syc.listenTimer = none ∧
        t.tbu.syncLossCount = s.tbu.syncLossCount ∧ StoodDown c r t .clash .clashDetected ∧
        t.mbu = { s.mbu with peers := t.mbu.peers } ∧
        ∀ n : Station, t.mbu.peers.get n = { s.mbu.peers.get n with freshOffset := none })

/-! ### Triggers -/

/-- FRAME_END with a good trigger frame that is not accepted (R96 to R99, R101, R32): discarded in OFF, before READY,
SELF_NUMBERED, NOT_READY with the sequence check, NOT_MEMBER without one, DUPLICATE. -/
def Obligations.TriggerFrameIsTurnedAway : Prop :=
  (∀ (tr : Trigger) (n : Nat) (body : List Bool) (l k : Time) (s : State), s.src.inReset = false → s.cfg = none →
    s.lif.receiver = .receiving l k false → 20 ≤ s.lif.idleTimer → judgeFrame body = some (.trigger tr n) →
    exec (.frameEnd body) s = .next { s with lif := { s.lif with
      receiver := .ready, framesReceived := s.lif.framesReceived + 1 } }) ∧
  ∀ (c : Cfg) (tr : Trigger) (n : Nat) (body : List Bool) (l k : Time) (s r : State), s.src.inReset = false →
    s.cfg = some c → s.lif.receiver = .receiving l k false → 20 ≤ s.lif.idleTimer →
    judgeFrame body = some (.trigger tr n) →
    r = { s with lif := { s.lif with receiver := .ready, framesReceived := s.lif.framesReceived + 1 } } →
    (s.syc.state = .off → exec (.frameEnd body) s = .next r) ∧
    (s.syc.state ≠ .off → tr.origin = c.station →
      exec (.frameEnd body) s =
        .next { r with tge := { s.tge with selfNumbered := s.tge.selfNumbered + 1 } }) ∧
    (s.syc.state ≠ .off → s.syc.state.synced = false → tr.origin ≠ c.station →
      exec (.frameEnd body) s = .next { r with
        mbu := { s.mbu with
          peers := s.mbu.peers.set tr.origin ((s.mbu.peers.get tr.origin).checkTrigger tr.sequence).1 },
        tge := { s.tge with notReady := s.tge.notReady + 1 } }) ∧
    (s.syc.state.synced = true → tr.origin ≠ c.station → (s.mbu.peers.get tr.origin).kind ≠ .member →
      exec (.frameEnd body) s = .next { r with tge := { s.tge with notMember := s.tge.notMember + 1 } }) ∧
    (s.syc.state.synced = true → tr.origin ≠ c.station → (s.mbu.peers.get tr.origin).kind = .member →
      ((s.mbu.peers.get tr.origin).checkTrigger tr.sequence).2 = false →
      exec (.frameEnd body) s = .next { r with tge := { s.tge with duplicate := s.tge.duplicate + 1 } })

/-- The sequence window (R100), with an ABSENT record left unchanged (R32). -/
def Obligations.SequenceWindowJudges : Prop :=
  ∀ (q : Sequence) (p : Peer),
    (p.kind = .absent → p.checkTrigger q = (p, true)) ∧
    (p.kind ≠ .absent → p.expected = none → p.checkTrigger q = ({ p with expected := some (q + 1) }, true)) ∧
    ∀ e, p.kind ≠ .absent → p.expected = some e →
      (q = e → p.checkTrigger q = ({ p with expected := some (q + 1) }, true)) ∧
      (1 ≤ (q - e).toNat → (q - e).toNat ≤ 1023 →
        (p.checkTrigger q).2 = true ∧
        (p.checkTrigger q).1 = { p with
          expected := some (q + 1), lost := BitVec.ofNat 16 (min 65535 (p.lost.toNat + (q - e).toNat)) }) ∧
      (1024 ≤ (q - e).toNat → p.checkTrigger q = (p, false))

/-- FRAME_END with an accepted trigger (R101, R95): the record, the accepted count and the frame count; the whole
processing, its derivations with it (R111, R113); where no map entry that answers the trigger derives, the insertions of
the answering entries in ascending index order (R106, R107), with entries already due firing in a free order (R123, log
11), and nothing else. -/
def Obligations.TriggerFrameIsAccepted : Prop :=
  (∀ (amp : Vector (Option MapEntry) 64) (tr : Trigger),
    (∀ i m, (i, m) ∈ matching amp tr ↔ amp.get i = some m ∧ m.cls = tr.cls ∧ m.origins.getLsbD tr.origin = true) ∧
      (matching amp tr).Pairwise fun x y => x.1 < y.1) ∧
  ∀ (c : Cfg) (tr : Trigger) (n : Nat) (body : List Bool) (l k : Time) (s : State), s.src.inReset = false →
    s.cfg = some c → s.lif.receiver = .receiving l k false → 20 ≤ s.lif.idleTimer →
    judgeFrame body = some (.trigger tr n) → s.syc.state.synced = true → tr.origin ≠ c.station →
    (s.mbu.peers.get tr.origin).kind = .member →
    ((s.mbu.peers.get tr.origin).checkTrigger tr.sequence).2 = true →
    ∃ t, exec (.frameEnd body) s = .next t ∧ t.tge.accepted = s.tge.accepted + 1 ∧
      t.tge.duplicate = s.tge.duplicate ∧ t.tge.notReady = s.tge.notReady ∧ t.tge.notMember = s.tge.notMember ∧
      t.tge.selfNumbered = s.tge.selfNumbered ∧ t.lif.framesReceived = s.lif.framesReceived + 1 ∧
      t.mbu = { s.mbu with
        peers := s.mbu.peers.set tr.origin ((s.mbu.peers.get tr.origin).checkTrigger tr.sequence).1 } ∧
      t.tbu = s.tbu ∧ t.syc = s.syc ∧ t.amp = s.amp ∧ t.src = s.src ∧ t.cfg = s.cfg ∧
      Processing c tr
        { s with
          lif := { s.lif with receiver := .ready, framesReceived := s.lif.framesReceived + 1 },
          mbu := t.mbu,
          tge := { s.tge with accepted := s.tge.accepted + 1 } } t ∧
      (NoneDerives s tr →
        Processed tr { s with
          lif := { s.lif with receiver := .ready, framesReceived := s.lif.framesReceived + 1 },
          mbu := t.mbu,
          tge := { s.tge with accepted := s.tge.accepted + 1 } } t) ∧
      (matching s.amp tr = [] →
        t = { s with
          lif := { s.lif with receiver := .ready, framesReceived := s.lif.framesReceived + 1 },
          mbu := t.mbu,
          tge := { s.tge with accepted := s.tge.accepted + 1 } })

/-- One insertion (R120 to R123): the late check with its policy, then the space check; a placed entry carries the
trigger's identity and the map entry's action, and its due time, held at 2^64 - 1 and marked where it exceeds that; it
stands behind every entry of an
earlier due time, of the same due time and a lower index, and of the same both, placed earlier (R117). -/
def Obligations.InsertionIsJudged : Prop :=
  ∀ (tr : Trigger) (i : MapIndex) (m : MapEntry) (s : State) (late : Bool) (e : SchedEntry) (f : Flags),
    (late = true ↔ tr.stamp.toNat + m.offset ≤ s.tbu.clusterTime.toNat) →
    e = { due := BitVec.ofNat 64 (min (tr.stamp.toNat + m.offset) 18446744073709551615),
          capped := decide (18446744073709551615 < tr.stamp.toNat + m.offset), lines := m.lines,
          action := m.action, cls := tr.cls, origin := tr.origin, sequence := tr.sequence, index := i,
          part := m.part, journal := m.journal, late := late } →
    f = (if late then
        { s.rdp.flags with late := some (s.rdp.flags.late.getD (tr.cls, tr.origin,
          BitVec.ofNat 32 (min 4294967295 (s.tbu.clusterTime.toNat - (tr.stamp.toNat + m.offset))))) }
      else s.rdp.flags) →
    (late = true → m.late = .drop →
      insertAction tr s (i, m) =
        { s with scu := { s.scu with lateDrop := s.scu.lateDrop + 1 }, rdp := { s.rdp with flags := f } }) ∧
    ((late = false ∨ m.late = .fire) →
      (s.scu.space.get m.part = 0 →
        insertAction tr s (i, m) = { s with
          scu := { s.scu with
            lateFire := if late then s.scu.lateFire + 1 else s.scu.lateFire,
            drops := s.scu.drops.set m.part (s.scu.drops.get m.part + 1) },
          rdp := { s.rdp with flags := { f with
            schedFull := some (s.rdp.flags.schedFull.getD (m.part, tr.cls, tr.origin)) } } }) ∧
      (s.scu.space.get m.part ≠ 0 →
        ∃ ahead behind, s.scu.entries = ahead ++ behind ∧
          (ScheduleOrdered s →
            (∀ x ∈ ahead, x.due.toNat < e.due.toNat ∨ (x.due = e.due ∧ x.index.val ≤ i.val)) ∧
            ∀ x ∈ behind, e.due.toNat < x.due.toNat ∨ (x.due = e.due ∧ i.val < x.index.val)) ∧
          insertAction tr s (i, m) = { s with
            scu := { s.scu with
              lateFire := if late then s.scu.lateFire + 1 else s.scu.lateFire,
              entries := ahead ++ e :: behind,
              space := s.scu.space.set m.part (s.scu.space.get m.part - 1) },
            rdp := { s.rdp with flags := f } }))

/-- Derivation (R83, R94, R111, R112), from the answering entry of lowest index that has a derive part; where none has
one, nothing is derived: of a parent at depth 3 nothing is raised, the chain-limit count rises and CHAIN_LIMIT is
raised; of a shallower parent the child takes the own next sequence, the parent's stamp plus the derive offset, one more
depth and the root reference, and its entry goes to the back of the queue. And the whole of it (R104, R107, R113): the
parent's insertions, the child's raise with its counts, and the child's own processing, depth first. -/
def Obligations.DerivationRaisesOrStops : Prop :=
  (∀ (c : Cfg) (fuel : Nat) (tr : Trigger) (s : State), NoneDerives s tr →
    Processed tr s (process c (fuel + 1) tr s) ∧ (process c (fuel + 1) tr s).lif = s.lif ∧
      (process c (fuel + 1) tr s).tge = s.tge ∧
      (process c (fuel + 1) tr s).rdp.flags.chainLimit = s.rdp.flags.chainLimit) ∧
  (∀ (c : Cfg) (tr : Trigger) (s : State), Processing c tr s (process c 4 tr s)) ∧
  ∀ (c : Cfg) (fuel : Nat) (tr : Trigger) (k : TrigClass) (o : Nat) (s : State), LowestDerives s tr k o →
    (tr.depth = 3 →
      (process c (fuel + 1) tr s).lif = s.lif ∧
      (process c (fuel + 1) tr s).tge = { s.tge with chainLimit := s.tge.chainLimit + 1 } ∧
      (process c (fuel + 1) tr s).rdp.flags.chainLimit = some (s.rdp.flags.chainLimit.getD (tr.cls, tr.origin))) ∧
    (∀ d : Fin 4, d.val = tr.depth.val + 1 →
      (s.src.leaveTimer.isSome = true ∨ 8 ≤ s.lif.queue.length ∨ s.syc.state.synced = false →
        (process c (fuel + 1) tr s).lif = s.lif ∧
        (process c (fuel + 1) tr s).tge = { s.tge with refused := s.tge.refused + 1 }) ∧
      (s.src.leaveTimer = none → s.syc.state.synced = true → s.lif.queue.length < 8 →
        tr.stamp.toNat + o < 2 ^ 64 →
        ∃ rest, (process c (fuel + 1) tr s).lif.queue =
          s.lif.queue ++
            { trigger :=
                { origin := c.station, sequence := s.tge.ownSequence, cls := k,
                  stamp := tr.stamp + BitVec.ofNat 64 o, depth := d,
                  root := some (tr.root.getD { origin := tr.origin, sequence := tr.sequence }) },
              copies := c.cluster.trigRepeat, attempts := 0, backoff := 0, onLine := false } :: rest))

/-- RAISE that is refused (R86 to R88, R93, R170): LEAVING, then REFUSED_STATE, then REFUSED_QUEUE; it takes no sequence
and places no entry, the refused count rises, and the answer is OK with the outcome and no sequence. -/
def Obligations.RaiseIsRefused : Prop :=
  ∀ (c : Cfg) (arg : Byte) (s : State) (code : Byte), PortReady s → s.cfg = some c → arg.toNat ≤ 63 →
    ((s.src.leaveTimer.isSome = true ∧ code = 0x03) ∨
      (s.src.leaveTimer = none ∧ s.syc.state.synced = false ∧ code = 0x04) ∨
      (s.src.leaveTimer = none ∧ s.syc.state.synced = true ∧ 8 ≤ s.lif.queue.length ∧ code = 0x05)) →
    exec (.raise arg) s =
      .next (answered 0x00 [code, 0, 0] { s with tge := { s.tge with refused := s.tge.refused + 1 } })

/-- RAISE that is accepted (R85, R89, R93): the sequence, the counts, the trigger entry stamped with the present cluster
time, its processing at this station with what it derives (R95, R111, R113), and the answer with the sequence taken. -/
def Obligations.RaiseTakesASequence : Prop :=
  ∀ (c : Cfg) (k : TrigClass) (arg : Byte) (s : State) (tr : Trigger), PortReady s → s.cfg = some c → arg.toNat = k.val →
    s.src.leaveTimer = none → s.syc.state.synced = true → s.lif.queue.length < 8 →
    tr = { origin := c.station, sequence := s.tge.ownSequence, cls := k, stamp := s.tbu.clusterTime, depth := 0,
           root := none } →
    ∃ t rest, exec (.raise arg) s = .next t ∧
      t.lif.queue = s.lif.queue ++
        { trigger := tr, copies := c.cluster.trigRepeat, attempts := 0, backoff := 0, onLine := false } :: rest ∧
      t.rdp.txn = .taken ([0x00, 0x01] ++ beBytes 2 s.tge.ownSequence.toNat) false ∧ t.rdp.armed = false ∧
      t.tge.holdOffEnd = s.tge.holdOffEnd ∧ t.tge.accepted = s.tge.accepted ∧ t.tbu = s.tbu ∧ t.mbu = s.mbu ∧
      t.syc = s.syc ∧ t.amp = s.amp ∧ t.src = s.src ∧ t.cfg = s.cfg ∧
      (∃ u, Processing c tr (raisedWith c tr s) u ∧
        t = answered 0x00 ([0x01] ++ beBytes 2 s.tge.ownSequence.toNat) u) ∧
      (NoneDerives s tr → rest = [] ∧
        ∃ u, Processed tr
            { s with
              lif := { s.lif with queue := t.lif.queue },
              tge := { s.tge with ownSequence := s.tge.ownSequence + 1, raised := s.tge.raised + 1 } } u ∧
          t = answered 0x00 ([0x01] ++ beBytes 2 s.tge.ownSequence.toNat) u) ∧
      (matching s.amp tr = [] →
        rest = [] ∧ t.tge = { s.tge with ownSequence := s.tge.ownSequence + 1, raised := s.tge.raised + 1 } ∧
          t.scu = s.scu ∧ t.tlu = s.tlu ∧ t.jnl = s.jnl ∧ t.rdp.flags = s.rdp.flags)

/-! ### Inputs -/

/-- INPUT_TRANSITION and INPUT_REVERSION (R153, R154): the candidate holds the local clock, the stamp and the basis of its
tick; the old level's return discards it; nothing else changes. -/
def Obligations.CandidateIsTakenAndDiscarded : Prop :=
  ∀ (l : LineNo) (i : InputCfg) (level : Bool) (s : State), s.src.inReset = false → s.tlu.lines.get l = .input i →
    (s.tlu.inputs.get l).settled = some level →
    ((s.tlu.inputs.get l).candidate = none → s.tlu.pins.getLsbD l ≠ level →
      exec (.inputTransition l) s = .next { s with tlu := { s.tlu with
        inputs := s.tlu.inputs.set l { s.tlu.inputs.get l with
          candidate := some
            { localClock := s.tbu.localClock,
              stamp := if s.basis = .localBasis then s.tbu.localClock else s.tbu.clusterTime,
              basis := s.basis } } } }) ∧
    (s.tlu.pins.getLsbD l = level →
      exec (.inputReversion l) s = .next { s with tlu := { s.tlu with
        inputs := s.tlu.inputs.set l { s.tlu.inputs.get l with candidate := none } } } ∧
      exec (.inputTransition l) s = .next s)

/-- EDGE_QUALIFIED before the qualification time has passed, of an edge that is not selected, and of a selected edge on a
line without a class (R153, R155, R156, R159): the settled level, the event count, the last-edge record, the CAPTURE
record with outcome NONE. -/
def Obligations.EdgeIsCountedAndCaptured : Prop :=
  ∀ (c : Cfg) (l : LineNo) (i : InputCfg) (x : Candidate) (level : Bool) (s : State), s.src.inReset = false →
    s.cfg = some c → s.tlu.lines.get l = .input i → (s.tlu.inputs.get l).settled = some (!level) →
    (s.tlu.inputs.get l).candidate = some x → s.tlu.pins.getLsbD l = level →
    (s.tbu.localClock.toNat - x.localClock.toNat < i.qualification → exec (.edgeQualified l) s = .next s) ∧
    (i.qualification ≤ s.tbu.localClock.toNat - x.localClock.toNat →
      ((i.select = .never ∨ (i.select = .rising ∧ level = false) ∨ (i.select = .falling ∧ level = true)) →
        exec (.edgeQualified l) s = .next { s with tlu := { s.tlu with
          inputs := s.tlu.inputs.set l
            { s.tlu.inputs.get l with settled := some level, candidate := none } } }) ∧
      ((i.select = .both ∨ (i.select = .rising ∧ level = true) ∨ (i.select = .falling ∧ level = false)) →
        i.cls = none →
        ∃ t, exec (.edgeQualified l) s = .next t ∧
          t = { s with
            tlu := { s.tlu with
              inputs := s.tlu.inputs.set l
                { settled := some level, candidate := none,
                  lastEdge := some { localClock := x.localClock, basis := x.basis },
                  events := (s.tlu.inputs.get l).events + 1 } },
            jnl := t.jnl, rdp := { s.rdp with flags := t.rdp.flags } } ∧
          (i.capture = false → t.jnl = s.jnl ∧ t.rdp.flags = s.rdp.flags) ∧
          (i.capture = true →
            Recorded (.capture
              { line := l, rising := level, basis := x.basis, outcome := .none, stamp := x.stamp,
                interval := (s.tlu.inputs.get l).lastEdge.bind fun e =>
                  if e.basis = x.basis then
                    some (BitVec.ofNat 32 (min 4294967295 (x.localClock.toNat - e.localClock.toNat)))
                  else none,
                eventCount := ((s.tlu.inputs.get l).events + 1).setWidth 16 }) .capture s t)))

/-- EDGE_QUALIFIED of a selected edge on a line with a class (R86, R91, R92, R155 to R157, R159): the raise's outcome,
its effect `u` at the Trigger Engine, and the CAPTURE record that carries the outcome. HELD_OFF changes nothing there; a
refusal, the first of LEAVING, REFUSED_STATE and REFUSED_QUEUE that holds, is counted; an accepted raise takes the
sequence, places its entry with the edge's stamp, is processed with what it derives (R111, R113), and sets the hold-off
end. That the hold-off is judged first in every sync state is the model's choice between R86 and R160 (log 29). -/
def Obligations.EdgeRaisesATrigger : Prop :=
  ∀ (c : Cfg) (l : LineNo) (i : InputCfg) (k : TrigClass) (x : Candidate) (level : Bool) (s e : State) (tr : Trigger),
    s.src.inReset = false → s.cfg = some c → s.tlu.lines.get l = .input i →
    (s.tlu.inputs.get l).settled = some (!level) → (s.tlu.inputs.get l).candidate = some x →
    s.tlu.pins.getLsbD l = level → i.qualification ≤ s.tbu.localClock.toNat - x.localClock.toNat →
    (i.select = .both ∨ (i.select = .rising ∧ level = true) ∨ (i.select = .falling ∧ level = false)) →
    i.cls = some k →
    e = { s with tlu := { s.tlu with
      inputs := s.tlu.inputs.set l
        { settled := some level, candidate := none,
          lastEdge := some { localClock := x.localClock, basis := x.basis },
          events := (s.tlu.inputs.get l).events + 1 } } } →
    tr = { origin := c.station, sequence := s.tge.ownSequence, cls := k, stamp := x.stamp, depth := 0, root := none } →
    ∃ t u outcome, exec (.edgeQualified l) s = .next t ∧
      t = { u with jnl := t.jnl, rdp := { u.rdp with flags := t.rdp.flags } } ∧
      (i.capture = false → t = u) ∧
      (i.capture = true →
        Recorded (.capture
          { line := l, rising := level, basis := x.basis, outcome := outcome, stamp := x.stamp,
            interval := (s.tlu.inputs.get l).lastEdge.bind fun last =>
              if last.basis = x.basis then
                some (BitVec.ofNat 32 (min 4294967295 (x.localClock.toNat - last.localClock.toNat)))
              else none,
            eventCount := ((s.tlu.inputs.get l).events + 1).setWidth 16 }) .capture u t) ∧
      t.tlu.inputs = e.tlu.inputs ∧ t.tbu = s.tbu ∧ t.mbu = s.mbu ∧ t.syc = s.syc ∧ t.src = s.src ∧
      (∀ h, s.tge.holdOffEnd.get l = some h → x.localClock.toNat < h.toNat → outcome = .heldOff ∧ u = e) ∧
      ((∀ h, s.tge.holdOffEnd.get l = some h → h.toNat ≤ x.localClock.toNat) →
        (s.src.leaveTimer.isSome = true → outcome = .leaving) ∧
        (s.src.leaveTimer = none → (s.syc.state.synced = false ∨ x.basis ≠ .cluster) → outcome = .refusedState) ∧
        (s.src.leaveTimer = none → s.syc.state.synced = true → x.basis = .cluster → 8 ≤ s.lif.queue.length →
          outcome = .refusedQueue) ∧
        (s.src.leaveTimer.isSome = true ∨ s.syc.state.synced = false ∨ x.basis ≠ .cluster ∨
            8 ≤ s.lif.queue.length →
          u = { e with tge := { s.tge with refused := s.tge.refused + 1 } }) ∧
        (s.src.leaveTimer = none → s.syc.state.synced = true → x.basis = .cluster → s.lif.queue.length < 8 →
          x.localClock.toNat + i.holdOff < 2 ^ 64 →
          outcome = .raised s.tge.ownSequence ∧
          (∃ rest, t.lif.queue = s.lif.queue ++
            { trigger := tr, copies := c.cluster.trigRepeat, attempts := 0, backoff := 0, onLine := false } :: rest ∧
            (NoneDerives s tr → rest = [] ∧
              ∃ v, Processed tr
                  { e with
                    lif := { s.lif with queue := t.lif.queue },
                    tge := { s.tge with ownSequence := s.tge.ownSequence + 1, raised := s.tge.raised + 1 } } v ∧
                u = { v with tge := { v.tge with
                  holdOffEnd := s.tge.holdOffEnd.set l (some (x.localClock + BitVec.ofNat 64 i.holdOff)) } })) ∧
          (∃ v, Processing c tr (raisedWith c tr e) v ∧
            u = { v with tge := { v.tge with
              holdOffEnd := s.tge.holdOffEnd.set l (some (x.localClock + BitVec.ofNat 64 i.holdOff)) } }) ∧
          t.tge.holdOffEnd = s.tge.holdOffEnd.set l (some (x.localClock + BitVec.ofNat 64 i.holdOff)) ∧
          t.tge.accepted = s.tge.accepted))

/-! ### The schedule and the output lines -/

/-- ENTRY_DUE (R125 to R127): the head leaves and its place returns; each line of its set takes its command; OVERRUN
names the lowest line that ignores it (R126, R145); its FIRE record is handed over where its journal flag is set; the
other lines and everything else stand. Where the head is not due nothing fires, and a head whose due time was held at
2^64 - 1 is never due (R120); that what stands behind such a head waits with it is the model's choice (log 28). One head
a step is the model's form (log 13). And R128: a forward step of CORRECTION_EVENT that does not
end in a sync loss fires every entry that is then due, in schedule order, an entry that the step passed over with the
overtaken mark; where the sync state changes too, the order of its record among the FIRE records is free (log 12). -/
def Obligations.EntryDueFiresTheHead : Prop :=
  (∀ (e : SchedEntry) (rest : List SchedEntry) (s : State), s.src.inReset = false → s.scu.entries = e :: rest →
    (s.syc.state.synced = true → e.capped = false → e.due.toNat ≤ s.tbu.clusterTime.toNat →
      ∃ t, exec .entryDue s = .next t ∧
        t = { s with
          scu := { s.scu with
            entries := rest, space := s.scu.space.set e.part (s.scu.space.get e.part + 1) },
          tlu := { s.tlu with channels := t.tlu.channels, overruns := t.tlu.overruns },
          jnl := t.jnl,
          rdp := { s.rdp with flags := { s.rdp.flags with
            overrun := t.rdp.flags.overrun, journalLost := t.rdp.flags.journalLost } } } ∧
        (∀ l : LineNo, e.lines.getLsbD l = true →
          t.tlu.channels.get l = (fireCommand e.action s l).tlu.channels.get l ∧
            t.tlu.overruns.get l = (fireCommand e.action s l).tlu.overruns.get l) ∧
        (∀ l : LineNo, e.lines.getLsbD l = false →
          t.tlu.channels.get l = s.tlu.channels.get l ∧ t.tlu.overruns.get l = s.tlu.overruns.get l) ∧
        (∀ l : LineNo, e.lines.getLsbD l = true → Ignores s e.action l →
          (∀ j : LineNo, j < l → e.lines.getLsbD j = true → ¬Ignores s e.action j) →
          t.rdp.flags.overrun =
            some (s.rdp.flags.overrun.getD (l, e.action.kind, (s.tlu.channels.get l).state))) ∧
        ((∀ l : LineNo, e.lines.getLsbD l = true → ¬Ignores s e.action l) →
          t.rdp.flags.overrun = s.rdp.flags.overrun) ∧
        (e.journal = false → t.jnl = s.jnl ∧ t.rdp.flags.journalLost = s.rdp.flags.journalLost) ∧
        (∀ r : Record, e.journal = true →
          r = .fire
            { time := s.tbu.clusterTime, lines := e.lines, cls := e.cls, origin := e.origin,
              sequence := e.sequence, index := e.index, late := e.late, overtaken := false } →
          t.jnl = (handRecord r .fire s).jnl ∧
            t.rdp.flags.journalLost = (handRecord r .fire s).rdp.flags.journalLost)) ∧
    (e.capped = true ∨ s.tbu.clusterTime.toNat < e.due.toNat → exec .entryDue s = .next s)) ∧
  ∀ (c : Cfg) (x : Int) (s : State), AtEvent c s → s.syc.state.synced = true → correctionOutcome c s = .applied x →
    0 < x → s.tbu.clusterTime.toNat + c.cluster.maxCorr < 2 ^ 64 → ¬Expires c (agreementCount c s) s.syc →
    ∃ t u fired, exec .correctionEvent s = .next t ∧
      t.tbu.clusterTime.toNat = s.tbu.clusterTime.toNat + x.natAbs ∧
      fired = s.scu.entries.takeWhile (fun e => !e.capped && decide (e.due.toNat ≤ t.tbu.clusterTime.toNat)) ∧
      u = fired.foldl (fireAtEvent s.tbu.clusterTime)
        { s with tbu := { s.tbu with clusterTime := t.tbu.clusterTime } } ∧
      t.scu = { s.scu with entries := s.scu.entries.drop fired.length, space := t.scu.space } ∧
      (∀ p : Partition, t.scu.space.get p = s.scu.space.get p + fired.countP fun e => e.part == p) ∧
      t.tlu = { s.tlu with channels := u.tlu.channels, overruns := u.tlu.overruns } ∧
      t.rdp.flags = { u.rdp.flags with journalLost := t.rdp.flags.journalLost } ∧
      (KeepsState c x (agreementCount c s) s.syc → t.jnl = u.jnl ∧ t.rdp.flags = u.rdp.flags) ∧
      (ScheduleOrdered s → (t.tbu.clusterTime.toNat < 2 ^ 64 - 1 ∨ ∀ e ∈ s.scu.entries, e.capped = false) →
        ∀ e, e ∈ t.scu.entries ↔ e ∈ s.scu.entries ∧ t.tbu.clusterTime.toNat < e.due.toNat)

/-- One fire command at an OUTPUT line's channel (R140 to R143, R145): SET and CLEAR are never ignored; PULSE and TRAIN
start from IDLE, are ignored in HELD and under KEEP, and start anew under RESTART; an ignored command is an overrun with
its capture. A TRAIN in LISTEN or CLASH has count 1 (R148). The line shows its active level in ACTIVE and HELD, and
rests in IDLE and GAP (R137). -/
def Obligations.ChannelTakesAFireCommand : Prop :=
  ∀ (l : LineNo) (h : Bool) (policy : Retrigger) (a : Action) (s : State), s.tlu.lines.get l = .output h policy →
    (s.src.inReset = false →
      lineDrive s l =
        some (if (s.tlu.channels.get l).state = .active ∨ (s.tlu.channels.get l).state = .held then h else !h)) ∧
    (a = .set → fireCommand a s l = { s with tlu := { s.tlu with channels := s.tlu.channels.set l .held } }) ∧
    (a = .clear → fireCommand a s l = { s with tlu := { s.tlu with channels := s.tlu.channels.set l .idle } }) ∧
    ((s.tlu.channels.get l = .idle ∨ (s.tlu.channels.get l ≠ .held ∧ policy = .restart)) →
      (∀ w, a = .pulse w →
        fireCommand a s l =
          { s with tlu := { s.tlu with channels := s.tlu.channels.set l (.active w none w 0) } }) ∧
      ∀ w p n, a = .train w p n →
        fireCommand a s l = { s with
          tlu := { s.tlu with
            channels := s.tlu.channels.set l
              (.active w (some (p - w)) w
                (if s.syc.state = .listen ∨ s.syc.state = .clash then 0 else n - 1)) } }) ∧
    ((s.tlu.channels.get l = .held ∨ (s.tlu.channels.get l ≠ .idle ∧ policy = .keep)) →
      ((∃ w, a = .pulse w) ∨ ∃ w p n, a = .train w p n) →
      fireCommand a s l = { s with
        tlu := { s.tlu with overruns := s.tlu.overruns.set l (s.tlu.overruns.get l + 1) },
        rdp := { s.rdp with flags := { s.rdp.flags with
          overrun := some (s.rdp.flags.overrun.getD (l, a.kind, (s.tlu.channels.get l).state)) } } })

/-- The countdown and its ends, WIDTH_EXPIRY and GAP_EXPIRY (R144): a channel counts down by 1 on every tick; at the end
of a width the channel rests, or goes into its gap where pulses are to come; at the end of a gap the next pulse starts.
Where no such count has run out nothing changes. That the tick which brings a count to 0 leaves it there, for the expiry
that follows as a command of its own, is the model's choice (log 2). -/
def Obligations.ExpiryMovesTheChannel : Prop :=
  ∀ (l : LineNo) (s : State), s.src.inReset = false →
    (∀ w g, s.tlu.channels.get l = .active w g 0 0 →
      exec (.widthExpiry l) s =
        .next { s with tlu := { s.tlu with channels := s.tlu.channels.set l .idle } }) ∧
    (∀ w g n, s.tlu.channels.get l = .active w (some g) 0 (n + 1) →
      exec (.widthExpiry l) s =
        .next { s with tlu := { s.tlu with channels := s.tlu.channels.set l (.gap w g g (n + 1)) } }) ∧
    (∀ w g n, s.tlu.channels.get l = .gap w g 0 (n + 1) →
      exec (.gapExpiry l) s =
        .next { s with tlu := { s.tlu with channels := s.tlu.channels.set l (.active w (some g) w n) } }) ∧
    ((s.tlu.channels.get l).state = .idle ∨ (s.tlu.channels.get l).state = .held →
      exec (.widthExpiry l) s = .next s ∧ exec (.gapExpiry l) s = .next s) ∧
    (∀ w g r n, s.tlu.channels.get l = .active w g (r + 1) n →
      exec (.widthExpiry l) s = .next s ∧ exec (.gapExpiry l) s = .next s ∧
      ∀ a p, ∃ t, exec (.tick a p) s = .next t ∧ t.tlu.channels.get l = .active w g r n) ∧
    ∀ w g r n, s.tlu.channels.get l = .gap w g (r + 1) n →
      exec (.gapExpiry l) s = .next s ∧ exec (.widthExpiry l) s = .next s ∧
      ∀ a p, ∃ t, exec (.tick a p) s = .next t ∧ t.tlu.channels.get l = .gap w g r n

/-! ### The journal and the readout port -/

/-- A record handed to the journal (R163, R164): written, written behind a GAP record, or lost with JOURNAL_LOST, by the
pending lost count and the free places; nothing else changes. -/
def Obligations.JournalWritesOrLoses : Prop :=
  ∀ (r : Record) (k : LostKind) (s : State), s.jnl.records.length ≤ 128 →
    (s.jnl.lost = 0 → 1 ≤ 128 - s.jnl.records.length →
      handRecord r k s = { s with jnl := { s.jnl with records := s.jnl.records ++ [r] } }) ∧
    (s.jnl.lost ≠ 0 → 2 ≤ 128 - s.jnl.records.length →
      handRecord r k s = { s with jnl := { records := s.jnl.records ++ [.gap s.jnl.lost, r], lost := 0 } }) ∧
    ((s.jnl.lost = 0 ∧ 128 - s.jnl.records.length = 0) ∨ (s.jnl.lost ≠ 0 ∧ 128 - s.jnl.records.length ≤ 1) →
      handRecord r k s = { s with
        jnl := { s.jnl with lost := BitVec.ofNat 16 (min 65535 (s.jnl.lost.toNat + 1)) },
        rdp := { s.rdp with flags := { s.rdp.flags with
          journalLost := some (s.rdp.flags.journalLost.getD k) } } })

/-- TRANSACTION_START and SELECT_RISE (R165): the select's fall begins a transaction, one that has been low since
release begins none; its rise ends the transaction, and a command not yet taken has no effect. Data out: released while
the select is high and in a reset, 0 while the command comes in, then the status, the response and 0x00, most
significant bit first; what it does while a select that has been low since release is ignored is free (log 30). The
command that the bytes spell (R165, R166). -/
def Obligations.TransactionBeginsAndEnds : Prop :=
  (∀ s : State, s.src.inReset = false →
    (s.rdp.txn = .idle → exec .transactionStart s = .next { s with rdp := { s.rdp with txn := .begun } }) ∧
    (s.rdp.txn ≠ .idle → exec .transactionStart s = .next s) ∧
    exec .selectRise s = .next { s with rdp := { s.rdp with txn := .idle } }) ∧
  (∀ (s : State) (n : Nat),
    ((s.src.inReset = true ∨ s.rdp.txn = .idle) → dataOut s n = none) ∧
    (s.src.inReset = false → s.rdp.txn = .begun → dataOut s n = some 0x00) ∧
    (∀ out transfer, s.src.inReset = false → s.rdp.txn = .taken out transfer →
      (∀ h : n < out.length, dataOut s n = some out[n]) ∧ (out.length ≤ n → dataOut s n = some 0x00)) ∧
    ∀ b, dataOut s n = some b → (List.range 8).map (fun i => dataOutBit s (8 * n + i)) = (byteBits b).map some) ∧
  (∀ (arg : Byte) (rest : List Byte),
    portCommand (0x10 :: rest) = some .readStatus ∧ portCommand (0x11 :: rest) = some .readTime ∧
    portCommand (0x12 :: rest) = some .readIdentity ∧ portCommand (0x13 :: rest) = some .readSync ∧
    portCommand (0x14 :: arg :: rest) = some (.readPeer arg) ∧ portCommand (0x15 :: rest) = some .readSchedule ∧
    portCommand (0x16 :: rest) = some .readCounters ∧ portCommand (0x17 :: rest) = some .readFlags ∧
    portCommand (0x20 :: rest) = some .readJournal ∧ portCommand (0x30 :: arg :: rest) = some (.raise arg) ∧
    portCommand (0x31 :: arg :: rest) = some (.cancel arg) ∧ portCommand (0x5A :: rest) = some .restartArm ∧
    portCommand (0xA5 :: rest) = some .restart) ∧
  (portCommand [] = none ∧ portCommand [0x14] = none ∧ portCommand [0x30] = none ∧ portCommand [0x31] = none) ∧
  ∀ (code : Byte) (rest : List Byte),
    code ∉ [0x10, 0x11, 0x12, 0x13, 0x14, 0x15, 0x16, 0x17, 0x20, 0x30, 0x31, 0x5A, 0xA5] →
    portCommand (code :: rest) = some (.unknownCommand code)

/-- The refusals of the port, in their order (R166): UNKNOWN_COMMAND, NOT_READY, BAD_ARGUMENT, NOT_ARMED. Each clears the
armed flag and has no other effect. -/
def Obligations.PortTurnsCommandsAway : Prop :=
  ∀ s : State, s.src.inReset = false → s.rdp.txn = .begun →
    (∀ code, code ∉ [0x10, 0x11, 0x12, 0x13, 0x14, 0x15, 0x16, 0x17, 0x20, 0x30, 0x31, 0x5A, 0xA5] →
      exec (.unknownCommand code) s = .next (answered 0x03 [] s)) ∧
    (∀ i arg, s.src.loadState ≠ .ready →
      i ∈ [Instr.readTime, .readSync, .readPeer arg, .readSchedule, .readCounters, .readFlags, .readJournal,
        .raise arg, .cancel arg] → exec i s = .next (answered 0x01 [] s)) ∧
    (∀ arg, s.src.loadState = .ready → 32 ≤ arg.toNat → exec (.readPeer arg) s = .next (answered 0x02 [] s)) ∧
    (∀ arg, s.src.loadState = .ready → 64 ≤ arg.toNat →
      exec (.raise arg) s = .next (answered 0x02 [] s) ∧ exec (.cancel arg) s = .next (answered 0x02 [] s)) ∧
    (s.rdp.armed = false → exec .restart s = .next (answered 0x04 [] s))

/-- The six snapshots (R168, R189): READ_TIME, READ_IDENTITY, READ_SYNC, READ_PEER, READ_SCHEDULE and READ_COUNTERS return
what they name, laid out as R189 gives, and change nothing but the port's own answer. -/
def Obligations.SnapshotsChangeNothing : Prop :=
  (∀ s : State, PortReady s →
    exec .readTime s = .next (answered 0x00
      (beBytes 8 s.tbu.clusterTime.toNat ++ beBytes 8 s.tbu.localClock.toNat ++ [byte s.basis.code]) s) ∧
    exec .readSync s = .next (answered 0x00
      (signedBytes 4 s.tbu.lastCorrection ++ signedBytes 4 s.tbu.minCorrection ++
        signedBytes 4 s.tbu.maxCorrection ++ beBytes 4 s.tbu.correctionCount.toNat ++
        beBytes 2 s.tbu.syncLossCount.toNat ++ [byte s.mbu.agreement, byte s.mbu.members] ++
        beBytes 4 (membershipVector s).toNat ++ [byte s.mbu.minMembers, byte s.mbu.maxMembers] ++
        beBytes 2 s.tbu.slewDebt) s) ∧
    (∀ (arg : Byte) (n : Station) (p : Peer), arg.toNat = n.val → p = s.mbu.peers.get n →
      exec (.readPeer arg) s = .next (answered 0x00
        (laid [(1, p.kind.code),
            (1, bit p.uniqueId.isSome 0 + bit p.reported.isSome 1 + bit p.lastArrival.isSome 2 +
              bit p.freshOffset.isSome 3 + bit p.expected.isSome 4),
            (1, bit p.foreign 0 + bit p.heard 1), (8, (p.uniqueId.getD 0).toNat),
            (1, (p.reported.map Reported.code).getD 0), (8, (p.lastArrival.getD 0).toNat)] ++
          signedBytes 8 (max (-9223372036854775808) (min (p.freshOffset.getD 0) 9223372036854775807)) ++
          laid [(1, p.missed), (2, (p.expected.getD 0).toNat), (2, p.lost.toNat), (2, p.resync.toNat)]) s)) ∧
    exec .readSchedule s = .next (answered 0x00
      (laid [(1, s.scu.entries.length), (1, bit (!s.scu.entries.isEmpty) 0),
          (8, (s.scu.entries.map fun e => e.due.toNat).headD 0)] ++
        laid [(1, s.scu.quota.get 0), (1, s.scu.space.get 0), (4, (s.scu.drops.get 0).toNat),
          (1, s.scu.quota.get 1), (1, s.scu.space.get 1), (4, (s.scu.drops.get 1).toNat),
          (1, s.scu.quota.get 2), (1, s.scu.space.get 2), (4, (s.scu.drops.get 2).toNat),
          (1, s.scu.quota.get 3), (1, s.scu.space.get 3), (4, (s.scu.drops.get 3).toNat)] ++
        laid [(4, s.scu.lateDrop.toNat), (4, s.scu.lateFire.toNat), (4, s.scu.cancelled.toNat)]) s) ∧
    exec .readCounters s = .next (answered 0x00
      (laid [(4, s.lif.beaconsSent.toNat), (4, s.lif.copiesSent.toNat), (4, s.lif.framesReceived.toNat),
          (4, s.lif.badFrames.toNat), (4, s.lif.collisions.toNat), (4, s.lif.abandons.toNat), (4, s.tge.raised.toNat),
          (4, s.tge.refused.toNat), (4, s.tge.accepted.toNat), (4, s.tge.duplicate.toNat), (4, s.tge.notReady.toNat),
          (4, s.tge.notMember.toNat), (4, s.tge.selfNumbered.toNat), (4, s.tge.chainLimit.toNat)] ++
        laid ((List.finRange 8).flatMap fun k : LineNo =>
          [(4, (s.tlu.inputs.get k).events.toNat), (4, (s.tlu.overruns.get k).toNat)])) s)) ∧
  ∀ s : State, s.src.inReset = false → s.rdp.txn = .begun →
    exec .readIdentity s = .next (answered 0x00
      ([0x32, 0x08] ++ beBytes 8 s.uniqueId.toNat ++
        (match s.cfg with
          | some c => [0x01, byte c.station] ++ beBytes 2 c.signature.toNat
          | none => [0x00, 0x00, 0x00, 0x00]) ++
        [32, 8, 64, 48, 4, 8, 128, 0x10, 0x00]) s)

/-- READ_STATUS (R167): the part's condition, with the armed flag as it stood, and the STATE and LOAD sources clear after
it; it is answered in every load state. READ_FLAGS (R172): every flag with its capture as it stood, and then all clear, in
one step. The codes in the two answers, and a load result's capture, are those of R189; numbers go out most significant
byte first, signed ones in two's complement. -/
def Obligations.StatusAndFlagsClearOnRead : Prop :=
  ([LoadState.loading, .ready, .failed].map LoadState.code = [0, 1, 2] ∧
    (∀ n t i : Nat,
      [LoadResult.ok, .noImage n, .wrongDevice n, .tooLong n, .blockCheck n, .missingBlock n, .duplicateBlock n,
        .imageCheck, .badValue t i].map LoadResult.code = [1, 2, 3, 4, 5, 6, 7, 8, 9] ∧
      [LoadResult.ok, .noImage n, .wrongDevice n, .tooLong n, .blockCheck n, .missingBlock n, .duplicateBlock n,
        .imageCheck].map LoadResult.capture = [0, n, n, n, n, n, n, 0] ∧
      (t < 256 → i < 256 →
        beBytes 4 (LoadResult.badValue t i).capture = [0x00, 0x00, BitVec.ofNat 8 t, BitVec.ofNat 8 i])) ∧
    [ResetCause.power, .pin, .supply, .port].map resetCauseCode = [1, 2, 3, 4] ∧
    [FrameKind.beacon, .trigger].map FrameKind.code = [1, 2] ∧
    [LostKind.capture, .fire, .state].map LostKind.code = [1, 2, 3] ∧
    (∀ x : BitVec 16, beBytes 2 x.toNat = twoBytes x) ∧ (∀ x : BitVec 32, beBytes 4 x.toNat = fourBytes x) ∧
    (∀ x : BitVec 64, beBytes 8 x.toNat = eightBytes x) ∧
    (∀ z : Int, signedBytes 4 z = fourBytes (BitVec.ofInt 32 z) ∧ signedBytes 8 z = eightBytes (BitVec.ofInt 64 z)) ∧
    ∀ b k, bit b k = if b then 2 ^ k else 0) ∧
  (∀ s : State, s.src.inReset = false → s.rdp.txn = .begun →
    ∃ fields, exec .readStatus s = .next
        (answered 0x00 fields { s with rdp := { s.rdp with statePending := false, loadPending := false } }) ∧
      fields =
        [byte s.src.loadState.code, byte ((s.src.loadResult.map LoadResult.code).getD 0)] ++
          beBytes 4 ((s.src.loadResult.map LoadResult.capture).getD 0) ++
          [byte s.syc.state.code, byte s.basis.code, byte (resetCauseCode s.src.resetCause),
            byte (bit s.src.supplyWarning 0 + bit s.rdp.armed 1 + bit s.src.leaveTimer.isSome 2),
            byte s.jnl.records.length,
            byte (bit (s.rdp.threshold.any fun n => decide (n ≤ s.jnl.records.length)) 0 + bit s.rdp.flags.any 1 +
              bit s.rdp.statePending 2 + bit s.rdp.loadPending 3)]) ∧
  ∀ s : State, PortReady s →
    ∃ t, exec .readFlags s = .next t ∧
      t = answered 0x00
        (laid [(2, bit s.rdp.flags.schedFull.isSome 0 + bit s.rdp.flags.late.isSome 1 +
            bit s.rdp.flags.chainLimit.isSome 2 + bit s.rdp.flags.txAbandon.isSome 3 +
            bit s.rdp.flags.numberConflict.isSome 4 + bit s.rdp.flags.foreign.isSome 5 +
            bit s.rdp.flags.disagree.isSome 6 + bit s.rdp.flags.overrun.isSome 7 +
            bit s.rdp.flags.journalLost.isSome 8 + bit s.rdp.flags.badFrame 9)] ++
          (match s.rdp.flags.schedFull with
            | some (part, cls, origin) => laid [(1, part), (1, cls), (1, origin)]
            | none => List.replicate 3 0x00) ++
          (match s.rdp.flags.late with
            | some (cls, origin, lateness) => laid [(1, cls), (1, origin), (4, lateness.toNat)]
            | none => List.replicate 6 0x00) ++
          (match s.rdp.flags.chainLimit with
            | some (cls, origin) => laid [(1, cls), (1, origin)]
            | none => List.replicate 2 0x00) ++
          (match s.rdp.flags.txAbandon with
            | some (kind, some cls) => laid [(1, kind.code), (1, cls)]
            | some (kind, none) => laid [(1, kind.code), (1, 255)]
            | none => List.replicate 2 0x00) ++
          (match s.rdp.flags.numberConflict with
            | some station => laid [(1, station)]
            | none => [0x00]) ++
          (match s.rdp.flags.foreign with
            | some station => laid [(1, station)]
            | none => [0x00]) ++
          (match s.rdp.flags.disagree with
            | some (station, offset) => laid [(1, station)] ++
              signedBytes 8 (max (-9223372036854775808) (min offset 9223372036854775807))
            | none => List.replicate 9 0x00) ++
          (match s.rdp.flags.overrun with
            | some (line, kind, state) => laid [(1, line), (1, kind.code), (1, state.code)]
            | none => List.replicate 3 0x00) ++
          (match s.rdp.flags.journalLost with
            | some kind => laid [(1, kind.code)]
            | none => [0x00]))
        { s with rdp := { s.rdp with flags := Flags.clear } } ∧
      t.rdp.flags.any = false ∧ flagsPending t = false

/-- READ_JOURNAL and JOURNAL_TRANSFER_DONE (R169): the fill and the head record are sent, and the head leaves when its
last bit has been clocked out; a NONE record removes nothing, and a transfer cut short leaves the head. Each record's 24
bytes and the codes in them are those of R188. -/
def Obligations.JournalIsReadRecordByRecord : Prop :=
  (∀ r : CaptureRec, (Record.capture r).bytes =
    laid [(1, 1), (1, r.line), (1, r.outcome.code),
      (1, r.basis.code * 64 + bit (!r.rising) 5 + bit r.interval.isSome 1 + bit r.outcome.sequence?.isSome 0),
      (8, r.stamp.toNat), (4, (r.interval.getD 0).toNat), (2, (r.outcome.sequence?.getD 0).toNat),
      (2, r.eventCount.toNat), (4, 0)]) ∧
  (∀ r : FireRec, (Record.fire r).bytes =
    laid [(1, 2), (1, r.lines.toNat), (1, r.cls), (1, r.origin), (2, r.sequence.toNat), (1, r.index),
      (1, bit r.late 1 + bit r.overtaken 0), (8, r.time.toNat), (8, 0)]) ∧
  (∀ r : StateRec, (Record.state r).bytes =
    laid [(1, 3), (1, r.basis.code), (1, r.old.code), (1, r.new.code), (1, r.reason.code),
      (1, bit r.cancelled.isSome 0), (1, r.cancelled.getD 0), (1, 0), (8, r.time.toNat), (8, 0)]) ∧
  (∀ n : BitVec 16, (Record.gap n).bytes = laid [(1, 4), (2, n.toNat), (21, 0)]) ∧
  ([SyncState.off, .founding, .tentative, .sync, .stable, .holdover, .listen, .clash].map SyncState.code =
      [0, 1, 2, 3, 4, 5, 6, 7] ∧
    [Basis.localBasis, .provisional, .cluster].map Basis.code = [0, 1, 2] ∧
    [Reason.loadDone, .listenTimeout, .adopted, .founderYield, .quorumMet, .roundsMet, .stableMet, .correctionUnstable,
      .quorumLost, .quorumRegained, .boundExceeded, .holdoverExpired, .clashDetected].map Reason.code =
        [1, 2, 3, 4, 5, 6, 7, 8, 9, 10, 11, 12, 13] ∧
    (∀ q, [RaiseOutcome.none, .raised q, .heldOff, .leaving, .refusedState, .refusedQueue].map RaiseOutcome.code =
      [0, 1, 2, 3, 4, 5]) ∧
    (∀ (o : RaiseOutcome) (q : Sequence), o.sequence? = some q ↔ o = .raised q) ∧
    [OutKind.pulse, .train, .set, .clear].map OutKind.code = [1, 2, 3, 4] ∧
    [ChanState.idle, .active, .gap, .held].map ChanState.code = [0, 1, 2, 3] ∧
    [PeerKind.self, .absent, .heard, .member, .departed].map PeerKind.code = [0, 1, 2, 3, 4] ∧
    [Reported.founding, .tentative, .sync, .stable, .holdover].map Reported.code = [1, 2, 3, 4, 5]) ∧
  (∀ s : State, PortReady s →
    (s.jnl.records = [] →
      exec .readJournal s = .next (answered 0x00 [0x00, 0x00] s)) ∧
    ∀ r rest, s.jnl.records = r :: rest →
      exec .readJournal s = .next { s with rdp := { s.rdp with
        txn := .taken (0x00 :: byte (rest.length + 1) :: r.bytes) true, armed := false } }) ∧
  (∀ (out : List Byte) (s : State), s.src.inReset = false → s.rdp.txn = .taken out true →
    exec .journalTransferDone s = .next { s with
      jnl := { s.jnl with records := s.jnl.records.drop 1 }, rdp := { s.rdp with txn := .taken out false } }) ∧
  ∀ s : State, s.src.inReset = false → (∀ out, s.rdp.txn ≠ .taken out true) →
    exec .journalTransferDone s = .next s

/-- CANCEL (R132, R170): every entry of the class leaves without firing, its place returns, it is counted, and the rest
keep their order; the answer is the number removed. No line, record or flag is touched. -/
def Obligations.CancelRemovesTheClass : Prop :=
  ∀ (k : TrigClass) (arg : Byte) (s : State), PortReady s → arg.toNat = k.val →
    ∃ t, exec (.cancel arg) s = .next t ∧
      t = answered 0x00 [byte (s.scu.entries.countP fun e => e.cls == k)]
        { s with scu := { s.scu with
          entries := s.scu.entries.filter fun e => e.cls != k,
          space := t.scu.space,
          cancelled := s.scu.cancelled + BitVec.ofNat 32 (s.scu.entries.countP fun e => e.cls == k) } } ∧
      ∀ p : Partition,
        t.scu.space.get p = s.scu.space.get p + s.scu.entries.countP fun e => e.cls == k && e.part == p

/-- RESTART_ARM and RESTART (R174, R175, R183, R184): the armed flag; a restart that resets the part at once with cause
PORT, one that begins the leave with its beacon in the slot, and one that finds the leave under way. -/
def Obligations.RestartResetsOrLeaves : Prop :=
  ∀ s : State, s.src.inReset = false → s.rdp.txn = .begun →
    exec .restartArm s =
      .next { s with rdp := { s.rdp with txn := .taken [0x00] false, armed := true } } ∧
    (s.rdp.armed = true → (s.src.loadState ≠ .ready ∨ s.syc.state.active = false) →
      ∃ t, exec .restart s = .next t ∧ AtReset t ∧ t.src.inReset = true ∧ t.src.resetCause = .port ∧
        t.src.portHold = 100) ∧
    (∀ c, s.rdp.armed = true → s.src.loadState = .ready → s.syc.state.active = true → s.cfg = some c →
      (s.src.leaveTimer = none →
        exec .restart s = .next (answered 0x00 [] { s with
          src := { s.src with leaveTimer := some (2 * c.cluster.bper) },
          lif := { s.lif with
            slot := some { station := c.station, uniqueId := s.uniqueId, signature := c.signature, attempts := 0,
                           backoff := 0 } } })) ∧
      (s.src.leaveTimer ≠ none → exec .restart s = .next (answered 0x00 [] s)))

/-- What follows other state at every tick: the attention line its enabled sources (R173), the membership vector the
MEMBER records and the sync state (R37), the time basis the sync state (R4). -/
def Obligations.AttentionVectorAndBasisFollowTheState : Prop :=
  ∀ s : State, s.src.inReset = false →
    (attentionAsserted s = true ↔
      (s.rdp.mask.journal = true ∧ ∃ n, s.rdp.threshold = some n ∧ n ≤ s.jnl.records.length) ∨
        (s.rdp.mask.flags = true ∧ s.rdp.flags.any = true) ∨ (s.rdp.mask.state = true ∧ s.rdp.statePending = true) ∨
        (s.rdp.mask.load = true ∧ s.rdp.loadPending = true)) ∧
    (∀ n : Station, (membershipVector s).getLsbD n = true ↔
      (s.mbu.peers.get n).kind = .member ∨ (s.syc.state.synced = true ∧ ∃ c, s.cfg = some c ∧ c.station = n)) ∧
    (s.basis = .localBasis ↔ s.syc.state = .off ∨ s.syc.state = .listen ∨ s.syc.state = .clash) ∧
    (s.basis = .provisional ↔ s.syc.state = .founding ∨ s.syc.state = .tentative) ∧
    (s.basis = .cluster ↔ s.syc.state = .sync ∨ s.syc.state = .stable ∨ s.syc.state = .holdover)

/-! ### The invariants -/

/-- The transmit queue stays within its 8 places (R64), and the journal stays as R162 describes it. -/
def Obligations.QueueAndJournalStayBounded : Prop :=
  ∀ s t : State, step s = .next t → (QueueBounded s → QueueBounded t) ∧ (JournalFormed s → JournalFormed t)

/-- The schedule stays in its order (R117), and in each partition the entries plus the space equal the quota (R118). -/
def Obligations.ScheduleStaysFormed : Prop :=
  ∀ s t : State, step s = .next t →
    (ScheduleOrdered s → ScheduleOrdered t) ∧ (Coherent s → PlacesCounted s → PlacesCounted t)

/-- What the sync state says of the other blocks stays true (R5, R15, R39, R42, R57, R58, R73, R79, R124). -/
def Obligations.SyncStateStaysCoherent : Prop :=
  ∀ s t : State, step s = .next t → Coherent s → Coherent t

/-- Every peer record stays as R20 and R28 describe its state, and the SELF record stays the one at the own number
(R21, R22). -/
def Obligations.PeerTableStaysFormed : Prop :=
  ∀ s t : State, step s = .next t → (PeersFormed s → PeersFormed t) ∧ (Coherent s → SelfStands s → SelfStands t)

/-- The minimum correction never rises above 0, the maximum never falls below it (R17); the own sequence counter counts
the accepted raises (R85, R89); and every output channel's fields stay as R137 describes its state. -/
def Obligations.CountsAndChannelsStayTrue : Prop :=
  ∀ s t : State, step s = .next t →
    (StatisticsBracketed s → StatisticsBracketed t) ∧ (SequenceCounted s → SequenceCounted t) ∧
      (ChannelsFormed s → ChannelsFormed t)

end
end

