-- ==== Sys2Proof/Laws/State.lean ====
section
/-! SUPPORT. One lemma per field per update of State. -/

set_option Elab.async false

namespace Sys2Proof.Machine.State

variable (s : State)

section
variable (x : Tbu)
@[simp] theorem withTbu_tbu : (s.withTbu x).tbu = x := rfl
@[simp] theorem withTbu_mbu : (s.withTbu x).mbu = s.mbu := rfl
@[simp] theorem withTbu_syc : (s.withTbu x).syc = s.syc := rfl
@[simp] theorem withTbu_lif : (s.withTbu x).lif = s.lif := rfl
@[simp] theorem withTbu_tge : (s.withTbu x).tge = s.tge := rfl
@[simp] theorem withTbu_amp : (s.withTbu x).amp = s.amp := rfl
@[simp] theorem withTbu_scu : (s.withTbu x).scu = s.scu := rfl
@[simp] theorem withTbu_tlu : (s.withTbu x).tlu = s.tlu := rfl
@[simp] theorem withTbu_jnl : (s.withTbu x).jnl = s.jnl := rfl
@[simp] theorem withTbu_rdp : (s.withTbu x).rdp = s.rdp := rfl
@[simp] theorem withTbu_src : (s.withTbu x).src = s.src := rfl
@[simp] theorem withTbu_cfg : (s.withTbu x).cfg = s.cfg := rfl
@[simp] theorem withTbu_freeCount : (s.withTbu x).freeCount = s.freeCount := rfl
@[simp] theorem withTbu_pending : (s.withTbu x).pending = s.pending := rfl
@[simp] theorem withTbu_uniqueId : (s.withTbu x).uniqueId = s.uniqueId := rfl
end

section
variable (x : Mbu)
@[simp] theorem withMbu_tbu : (s.withMbu x).tbu = s.tbu := rfl
@[simp] theorem withMbu_mbu : (s.withMbu x).mbu = x := rfl
@[simp] theorem withMbu_syc : (s.withMbu x).syc = s.syc := rfl
@[simp] theorem withMbu_lif : (s.withMbu x).lif = s.lif := rfl
@[simp] theorem withMbu_tge : (s.withMbu x).tge = s.tge := rfl
@[simp] theorem withMbu_amp : (s.withMbu x).amp = s.amp := rfl
@[simp] theorem withMbu_scu : (s.withMbu x).scu = s.scu := rfl
@[simp] theorem withMbu_tlu : (s.withMbu x).tlu = s.tlu := rfl
@[simp] theorem withMbu_jnl : (s.withMbu x).jnl = s.jnl := rfl
@[simp] theorem withMbu_rdp : (s.withMbu x).rdp = s.rdp := rfl
@[simp] theorem withMbu_src : (s.withMbu x).src = s.src := rfl
@[simp] theorem withMbu_cfg : (s.withMbu x).cfg = s.cfg := rfl
@[simp] theorem withMbu_freeCount : (s.withMbu x).freeCount = s.freeCount := rfl
@[simp] theorem withMbu_pending : (s.withMbu x).pending = s.pending := rfl
@[simp] theorem withMbu_uniqueId : (s.withMbu x).uniqueId = s.uniqueId := rfl
end

section
variable (x : Syc)
@[simp] theorem withSyc_tbu : (s.withSyc x).tbu = s.tbu := rfl
@[simp] theorem withSyc_mbu : (s.withSyc x).mbu = s.mbu := rfl
@[simp] theorem withSyc_syc : (s.withSyc x).syc = x := rfl
@[simp] theorem withSyc_lif : (s.withSyc x).lif = s.lif := rfl
@[simp] theorem withSyc_tge : (s.withSyc x).tge = s.tge := rfl
@[simp] theorem withSyc_amp : (s.withSyc x).amp = s.amp := rfl
@[simp] theorem withSyc_scu : (s.withSyc x).scu = s.scu := rfl
@[simp] theorem withSyc_tlu : (s.withSyc x).tlu = s.tlu := rfl
@[simp] theorem withSyc_jnl : (s.withSyc x).jnl = s.jnl := rfl
@[simp] theorem withSyc_rdp : (s.withSyc x).rdp = s.rdp := rfl
@[simp] theorem withSyc_src : (s.withSyc x).src = s.src := rfl
@[simp] theorem withSyc_cfg : (s.withSyc x).cfg = s.cfg := rfl
@[simp] theorem withSyc_freeCount : (s.withSyc x).freeCount = s.freeCount := rfl
@[simp] theorem withSyc_pending : (s.withSyc x).pending = s.pending := rfl
@[simp] theorem withSyc_uniqueId : (s.withSyc x).uniqueId = s.uniqueId := rfl
end

section
variable (x : Lif)
@[simp] theorem withLif_tbu : (s.withLif x).tbu = s.tbu := rfl
@[simp] theorem withLif_mbu : (s.withLif x).mbu = s.mbu := rfl
@[simp] theorem withLif_syc : (s.withLif x).syc = s.syc := rfl
@[simp] theorem withLif_lif : (s.withLif x).lif = x := rfl
@[simp] theorem withLif_tge : (s.withLif x).tge = s.tge := rfl
@[simp] theorem withLif_amp : (s.withLif x).amp = s.amp := rfl
@[simp] theorem withLif_scu : (s.withLif x).scu = s.scu := rfl
@[simp] theorem withLif_tlu : (s.withLif x).tlu = s.tlu := rfl
@[simp] theorem withLif_jnl : (s.withLif x).jnl = s.jnl := rfl
@[simp] theorem withLif_rdp : (s.withLif x).rdp = s.rdp := rfl
@[simp] theorem withLif_src : (s.withLif x).src = s.src := rfl
@[simp] theorem withLif_cfg : (s.withLif x).cfg = s.cfg := rfl
@[simp] theorem withLif_freeCount : (s.withLif x).freeCount = s.freeCount := rfl
@[simp] theorem withLif_pending : (s.withLif x).pending = s.pending := rfl
@[simp] theorem withLif_uniqueId : (s.withLif x).uniqueId = s.uniqueId := rfl
end

section
variable (x : Tge)
@[simp] theorem withTge_tbu : (s.withTge x).tbu = s.tbu := rfl
@[simp] theorem withTge_mbu : (s.withTge x).mbu = s.mbu := rfl
@[simp] theorem withTge_syc : (s.withTge x).syc = s.syc := rfl
@[simp] theorem withTge_lif : (s.withTge x).lif = s.lif := rfl
@[simp] theorem withTge_tge : (s.withTge x).tge = x := rfl
@[simp] theorem withTge_amp : (s.withTge x).amp = s.amp := rfl
@[simp] theorem withTge_scu : (s.withTge x).scu = s.scu := rfl
@[simp] theorem withTge_tlu : (s.withTge x).tlu = s.tlu := rfl
@[simp] theorem withTge_jnl : (s.withTge x).jnl = s.jnl := rfl
@[simp] theorem withTge_rdp : (s.withTge x).rdp = s.rdp := rfl
@[simp] theorem withTge_src : (s.withTge x).src = s.src := rfl
@[simp] theorem withTge_cfg : (s.withTge x).cfg = s.cfg := rfl
@[simp] theorem withTge_freeCount : (s.withTge x).freeCount = s.freeCount := rfl
@[simp] theorem withTge_pending : (s.withTge x).pending = s.pending := rfl
@[simp] theorem withTge_uniqueId : (s.withTge x).uniqueId = s.uniqueId := rfl
end

section
variable (x : Vector (Option MapEntry) 64)
@[simp] theorem withAmp_tbu : (s.withAmp x).tbu = s.tbu := rfl
@[simp] theorem withAmp_mbu : (s.withAmp x).mbu = s.mbu := rfl
@[simp] theorem withAmp_syc : (s.withAmp x).syc = s.syc := rfl
@[simp] theorem withAmp_lif : (s.withAmp x).lif = s.lif := rfl
@[simp] theorem withAmp_tge : (s.withAmp x).tge = s.tge := rfl
@[simp] theorem withAmp_amp : (s.withAmp x).amp = x := rfl
@[simp] theorem withAmp_scu : (s.withAmp x).scu = s.scu := rfl
@[simp] theorem withAmp_tlu : (s.withAmp x).tlu = s.tlu := rfl
@[simp] theorem withAmp_jnl : (s.withAmp x).jnl = s.jnl := rfl
@[simp] theorem withAmp_rdp : (s.withAmp x).rdp = s.rdp := rfl
@[simp] theorem withAmp_src : (s.withAmp x).src = s.src := rfl
@[simp] theorem withAmp_cfg : (s.withAmp x).cfg = s.cfg := rfl
@[simp] theorem withAmp_freeCount : (s.withAmp x).freeCount = s.freeCount := rfl
@[simp] theorem withAmp_pending : (s.withAmp x).pending = s.pending := rfl
@[simp] theorem withAmp_uniqueId : (s.withAmp x).uniqueId = s.uniqueId := rfl
end

section
variable (x : Scu)
@[simp] theorem withScu_tbu : (s.withScu x).tbu = s.tbu := rfl
@[simp] theorem withScu_mbu : (s.withScu x).mbu = s.mbu := rfl
@[simp] theorem withScu_syc : (s.withScu x).syc = s.syc := rfl
@[simp] theorem withScu_lif : (s.withScu x).lif = s.lif := rfl
@[simp] theorem withScu_tge : (s.withScu x).tge = s.tge := rfl
@[simp] theorem withScu_amp : (s.withScu x).amp = s.amp := rfl
@[simp] theorem withScu_scu : (s.withScu x).scu = x := rfl
@[simp] theorem withScu_tlu : (s.withScu x).tlu = s.tlu := rfl
@[simp] theorem withScu_jnl : (s.withScu x).jnl = s.jnl := rfl
@[simp] theorem withScu_rdp : (s.withScu x).rdp = s.rdp := rfl
@[simp] theorem withScu_src : (s.withScu x).src = s.src := rfl
@[simp] theorem withScu_cfg : (s.withScu x).cfg = s.cfg := rfl
@[simp] theorem withScu_freeCount : (s.withScu x).freeCount = s.freeCount := rfl
@[simp] theorem withScu_pending : (s.withScu x).pending = s.pending := rfl
@[simp] theorem withScu_uniqueId : (s.withScu x).uniqueId = s.uniqueId := rfl
end

section
variable (x : Tlu)
@[simp] theorem withTlu_tbu : (s.withTlu x).tbu = s.tbu := rfl
@[simp] theorem withTlu_mbu : (s.withTlu x).mbu = s.mbu := rfl
@[simp] theorem withTlu_syc : (s.withTlu x).syc = s.syc := rfl
@[simp] theorem withTlu_lif : (s.withTlu x).lif = s.lif := rfl
@[simp] theorem withTlu_tge : (s.withTlu x).tge = s.tge := rfl
@[simp] theorem withTlu_amp : (s.withTlu x).amp = s.amp := rfl
@[simp] theorem withTlu_scu : (s.withTlu x).scu = s.scu := rfl
@[simp] theorem withTlu_tlu : (s.withTlu x).tlu = x := rfl
@[simp] theorem withTlu_jnl : (s.withTlu x).jnl = s.jnl := rfl
@[simp] theorem withTlu_rdp : (s.withTlu x).rdp = s.rdp := rfl
@[simp] theorem withTlu_src : (s.withTlu x).src = s.src := rfl
@[simp] theorem withTlu_cfg : (s.withTlu x).cfg = s.cfg := rfl
@[simp] theorem withTlu_freeCount : (s.withTlu x).freeCount = s.freeCount := rfl
@[simp] theorem withTlu_pending : (s.withTlu x).pending = s.pending := rfl
@[simp] theorem withTlu_uniqueId : (s.withTlu x).uniqueId = s.uniqueId := rfl
end

section
variable (x : Jnl)
@[simp] theorem withJnl_tbu : (s.withJnl x).tbu = s.tbu := rfl
@[simp] theorem withJnl_mbu : (s.withJnl x).mbu = s.mbu := rfl
@[simp] theorem withJnl_syc : (s.withJnl x).syc = s.syc := rfl
@[simp] theorem withJnl_lif : (s.withJnl x).lif = s.lif := rfl
@[simp] theorem withJnl_tge : (s.withJnl x).tge = s.tge := rfl
@[simp] theorem withJnl_amp : (s.withJnl x).amp = s.amp := rfl
@[simp] theorem withJnl_scu : (s.withJnl x).scu = s.scu := rfl
@[simp] theorem withJnl_tlu : (s.withJnl x).tlu = s.tlu := rfl
@[simp] theorem withJnl_jnl : (s.withJnl x).jnl = x := rfl
@[simp] theorem withJnl_rdp : (s.withJnl x).rdp = s.rdp := rfl
@[simp] theorem withJnl_src : (s.withJnl x).src = s.src := rfl
@[simp] theorem withJnl_cfg : (s.withJnl x).cfg = s.cfg := rfl
@[simp] theorem withJnl_freeCount : (s.withJnl x).freeCount = s.freeCount := rfl
@[simp] theorem withJnl_pending : (s.withJnl x).pending = s.pending := rfl
@[simp] theorem withJnl_uniqueId : (s.withJnl x).uniqueId = s.uniqueId := rfl
end

section
variable (x : Rdp)
@[simp] theorem withRdp_tbu : (s.withRdp x).tbu = s.tbu := rfl
@[simp] theorem withRdp_mbu : (s.withRdp x).mbu = s.mbu := rfl
@[simp] theorem withRdp_syc : (s.withRdp x).syc = s.syc := rfl
@[simp] theorem withRdp_lif : (s.withRdp x).lif = s.lif := rfl
@[simp] theorem withRdp_tge : (s.withRdp x).tge = s.tge := rfl
@[simp] theorem withRdp_amp : (s.withRdp x).amp = s.amp := rfl
@[simp] theorem withRdp_scu : (s.withRdp x).scu = s.scu := rfl
@[simp] theorem withRdp_tlu : (s.withRdp x).tlu = s.tlu := rfl
@[simp] theorem withRdp_jnl : (s.withRdp x).jnl = s.jnl := rfl
@[simp] theorem withRdp_rdp : (s.withRdp x).rdp = x := rfl
@[simp] theorem withRdp_src : (s.withRdp x).src = s.src := rfl
@[simp] theorem withRdp_cfg : (s.withRdp x).cfg = s.cfg := rfl
@[simp] theorem withRdp_freeCount : (s.withRdp x).freeCount = s.freeCount := rfl
@[simp] theorem withRdp_pending : (s.withRdp x).pending = s.pending := rfl
@[simp] theorem withRdp_uniqueId : (s.withRdp x).uniqueId = s.uniqueId := rfl
end

section
variable (x : Src)
@[simp] theorem withSrc_tbu : (s.withSrc x).tbu = s.tbu := rfl
@[simp] theorem withSrc_mbu : (s.withSrc x).mbu = s.mbu := rfl
@[simp] theorem withSrc_syc : (s.withSrc x).syc = s.syc := rfl
@[simp] theorem withSrc_lif : (s.withSrc x).lif = s.lif := rfl
@[simp] theorem withSrc_tge : (s.withSrc x).tge = s.tge := rfl
@[simp] theorem withSrc_amp : (s.withSrc x).amp = s.amp := rfl
@[simp] theorem withSrc_scu : (s.withSrc x).scu = s.scu := rfl
@[simp] theorem withSrc_tlu : (s.withSrc x).tlu = s.tlu := rfl
@[simp] theorem withSrc_jnl : (s.withSrc x).jnl = s.jnl := rfl
@[simp] theorem withSrc_rdp : (s.withSrc x).rdp = s.rdp := rfl
@[simp] theorem withSrc_src : (s.withSrc x).src = x := rfl
@[simp] theorem withSrc_cfg : (s.withSrc x).cfg = s.cfg := rfl
@[simp] theorem withSrc_freeCount : (s.withSrc x).freeCount = s.freeCount := rfl
@[simp] theorem withSrc_pending : (s.withSrc x).pending = s.pending := rfl
@[simp] theorem withSrc_uniqueId : (s.withSrc x).uniqueId = s.uniqueId := rfl
end

section
variable (x : Option Cfg)
@[simp] theorem withCfg_tbu : (s.withCfg x).tbu = s.tbu := rfl
@[simp] theorem withCfg_mbu : (s.withCfg x).mbu = s.mbu := rfl
@[simp] theorem withCfg_syc : (s.withCfg x).syc = s.syc := rfl
@[simp] theorem withCfg_lif : (s.withCfg x).lif = s.lif := rfl
@[simp] theorem withCfg_tge : (s.withCfg x).tge = s.tge := rfl
@[simp] theorem withCfg_amp : (s.withCfg x).amp = s.amp := rfl
@[simp] theorem withCfg_scu : (s.withCfg x).scu = s.scu := rfl
@[simp] theorem withCfg_tlu : (s.withCfg x).tlu = s.tlu := rfl
@[simp] theorem withCfg_jnl : (s.withCfg x).jnl = s.jnl := rfl
@[simp] theorem withCfg_rdp : (s.withCfg x).rdp = s.rdp := rfl
@[simp] theorem withCfg_src : (s.withCfg x).src = s.src := rfl
@[simp] theorem withCfg_cfg : (s.withCfg x).cfg = x := rfl
@[simp] theorem withCfg_freeCount : (s.withCfg x).freeCount = s.freeCount := rfl
@[simp] theorem withCfg_pending : (s.withCfg x).pending = s.pending := rfl
@[simp] theorem withCfg_uniqueId : (s.withCfg x).uniqueId = s.uniqueId := rfl
end

section
variable (x : Nat)
@[simp] theorem withFreeCount_tbu : (s.withFreeCount x).tbu = s.tbu := rfl
@[simp] theorem withFreeCount_mbu : (s.withFreeCount x).mbu = s.mbu := rfl
@[simp] theorem withFreeCount_syc : (s.withFreeCount x).syc = s.syc := rfl
@[simp] theorem withFreeCount_lif : (s.withFreeCount x).lif = s.lif := rfl
@[simp] theorem withFreeCount_tge : (s.withFreeCount x).tge = s.tge := rfl
@[simp] theorem withFreeCount_amp : (s.withFreeCount x).amp = s.amp := rfl
@[simp] theorem withFreeCount_scu : (s.withFreeCount x).scu = s.scu := rfl
@[simp] theorem withFreeCount_tlu : (s.withFreeCount x).tlu = s.tlu := rfl
@[simp] theorem withFreeCount_jnl : (s.withFreeCount x).jnl = s.jnl := rfl
@[simp] theorem withFreeCount_rdp : (s.withFreeCount x).rdp = s.rdp := rfl
@[simp] theorem withFreeCount_src : (s.withFreeCount x).src = s.src := rfl
@[simp] theorem withFreeCount_cfg : (s.withFreeCount x).cfg = s.cfg := rfl
@[simp] theorem withFreeCount_freeCount : (s.withFreeCount x).freeCount = x := rfl
@[simp] theorem withFreeCount_pending : (s.withFreeCount x).pending = s.pending := rfl
@[simp] theorem withFreeCount_uniqueId : (s.withFreeCount x).uniqueId = s.uniqueId := rfl
end

section
variable (x : List Instr)
@[simp] theorem withPending_tbu : (s.withPending x).tbu = s.tbu := rfl
@[simp] theorem withPending_mbu : (s.withPending x).mbu = s.mbu := rfl
@[simp] theorem withPending_syc : (s.withPending x).syc = s.syc := rfl
@[simp] theorem withPending_lif : (s.withPending x).lif = s.lif := rfl
@[simp] theorem withPending_tge : (s.withPending x).tge = s.tge := rfl
@[simp] theorem withPending_amp : (s.withPending x).amp = s.amp := rfl
@[simp] theorem withPending_scu : (s.withPending x).scu = s.scu := rfl
@[simp] theorem withPending_tlu : (s.withPending x).tlu = s.tlu := rfl
@[simp] theorem withPending_jnl : (s.withPending x).jnl = s.jnl := rfl
@[simp] theorem withPending_rdp : (s.withPending x).rdp = s.rdp := rfl
@[simp] theorem withPending_src : (s.withPending x).src = s.src := rfl
@[simp] theorem withPending_cfg : (s.withPending x).cfg = s.cfg := rfl
@[simp] theorem withPending_freeCount : (s.withPending x).freeCount = s.freeCount := rfl
@[simp] theorem withPending_pending : (s.withPending x).pending = x := rfl
@[simp] theorem withPending_uniqueId : (s.withPending x).uniqueId = s.uniqueId := rfl
end

end Sys2Proof.Machine.State
end

