-- ==== Sys2Proof/Laws/Ops.lean ====
section
/-! SUPPORT. What each shared operation leaves unchanged: one lemma for each operation and each part of State that it
does not touch. -/

set_option Elab.async false

namespace Sys2Proof.Machine

/-! ### raiseFlag -/

@[simp] theorem State.raiseFlag_tbu (f : Flags → Flags) (s : State) :
    (s.raiseFlag f).tbu = s.tbu := rfl
@[simp] theorem State.raiseFlag_mbu (f : Flags → Flags) (s : State) :
    (s.raiseFlag f).mbu = s.mbu := rfl
@[simp] theorem State.raiseFlag_syc (f : Flags → Flags) (s : State) :
    (s.raiseFlag f).syc = s.syc := rfl
@[simp] theorem State.raiseFlag_lif (f : Flags → Flags) (s : State) :
    (s.raiseFlag f).lif = s.lif := rfl
@[simp] theorem State.raiseFlag_tge (f : Flags → Flags) (s : State) :
    (s.raiseFlag f).tge = s.tge := rfl
@[simp] theorem State.raiseFlag_amp (f : Flags → Flags) (s : State) :
    (s.raiseFlag f).amp = s.amp := rfl
@[simp] theorem State.raiseFlag_scu (f : Flags → Flags) (s : State) :
    (s.raiseFlag f).scu = s.scu := rfl
@[simp] theorem State.raiseFlag_tlu (f : Flags → Flags) (s : State) :
    (s.raiseFlag f).tlu = s.tlu := rfl
@[simp] theorem State.raiseFlag_jnl (f : Flags → Flags) (s : State) :
    (s.raiseFlag f).jnl = s.jnl := rfl
@[simp] theorem State.raiseFlag_src (f : Flags → Flags) (s : State) :
    (s.raiseFlag f).src = s.src := rfl
@[simp] theorem State.raiseFlag_cfg (f : Flags → Flags) (s : State) :
    (s.raiseFlag f).cfg = s.cfg := rfl
@[simp] theorem State.raiseFlag_uniqueId (f : Flags → Flags) (s : State) :
    (s.raiseFlag f).uniqueId = s.uniqueId := rfl
@[simp] theorem State.raiseFlag_freeCount (f : Flags → Flags) (s : State) :
    (s.raiseFlag f).freeCount = s.freeCount := rfl
@[simp] theorem State.raiseFlag_pending (f : Flags → Flags) (s : State) :
    (s.raiseFlag f).pending = s.pending := rfl
@[simp] theorem State.raiseFlag_rdp_txn (f : Flags → Flags) (s : State) :
    (s.raiseFlag f).rdp.txn = s.rdp.txn := rfl
@[simp] theorem State.raiseFlag_rdp_armed (f : Flags → Flags) (s : State) :
    (s.raiseFlag f).rdp.armed = s.rdp.armed := rfl
@[simp] theorem State.raiseFlag_rdp_statePending (f : Flags → Flags) (s : State) :
    (s.raiseFlag f).rdp.statePending = s.rdp.statePending := rfl
@[simp] theorem State.raiseFlag_rdp_loadPending (f : Flags → Flags) (s : State) :
    (s.raiseFlag f).rdp.loadPending = s.rdp.loadPending := rfl
@[simp] theorem State.raiseFlag_rdp_mask (f : Flags → Flags) (s : State) :
    (s.raiseFlag f).rdp.mask = s.rdp.mask := rfl
@[simp] theorem State.raiseFlag_rdp_threshold (f : Flags → Flags) (s : State) :
    (s.raiseFlag f).rdp.threshold = s.rdp.threshold := rfl

@[simp] theorem State.raiseFlag_flags (f : Flags → Flags) (s : State) :
    (s.raiseFlag f).rdp.flags = f s.rdp.flags := rfl

/-! ### loseRecord -/

@[simp] theorem loseRecord_tbu (k : LostKind) (s : State) :
    (loseRecord k s).tbu = s.tbu := rfl
@[simp] theorem loseRecord_mbu (k : LostKind) (s : State) :
    (loseRecord k s).mbu = s.mbu := rfl
@[simp] theorem loseRecord_syc (k : LostKind) (s : State) :
    (loseRecord k s).syc = s.syc := rfl
@[simp] theorem loseRecord_lif (k : LostKind) (s : State) :
    (loseRecord k s).lif = s.lif := rfl
@[simp] theorem loseRecord_tge (k : LostKind) (s : State) :
    (loseRecord k s).tge = s.tge := rfl
@[simp] theorem loseRecord_amp (k : LostKind) (s : State) :
    (loseRecord k s).amp = s.amp := rfl
@[simp] theorem loseRecord_scu (k : LostKind) (s : State) :
    (loseRecord k s).scu = s.scu := rfl
@[simp] theorem loseRecord_tlu (k : LostKind) (s : State) :
    (loseRecord k s).tlu = s.tlu := rfl
@[simp] theorem loseRecord_src (k : LostKind) (s : State) :
    (loseRecord k s).src = s.src := rfl
@[simp] theorem loseRecord_cfg (k : LostKind) (s : State) :
    (loseRecord k s).cfg = s.cfg := rfl
@[simp] theorem loseRecord_uniqueId (k : LostKind) (s : State) :
    (loseRecord k s).uniqueId = s.uniqueId := rfl
@[simp] theorem loseRecord_freeCount (k : LostKind) (s : State) :
    (loseRecord k s).freeCount = s.freeCount := rfl
@[simp] theorem loseRecord_pending (k : LostKind) (s : State) :
    (loseRecord k s).pending = s.pending := rfl
@[simp] theorem loseRecord_rdp_txn (k : LostKind) (s : State) :
    (loseRecord k s).rdp.txn = s.rdp.txn := rfl
@[simp] theorem loseRecord_rdp_armed (k : LostKind) (s : State) :
    (loseRecord k s).rdp.armed = s.rdp.armed := rfl
@[simp] theorem loseRecord_rdp_statePending (k : LostKind) (s : State) :
    (loseRecord k s).rdp.statePending = s.rdp.statePending := rfl
@[simp] theorem loseRecord_rdp_loadPending (k : LostKind) (s : State) :
    (loseRecord k s).rdp.loadPending = s.rdp.loadPending := rfl
@[simp] theorem loseRecord_rdp_mask (k : LostKind) (s : State) :
    (loseRecord k s).rdp.mask = s.rdp.mask := rfl
@[simp] theorem loseRecord_rdp_threshold (k : LostKind) (s : State) :
    (loseRecord k s).rdp.threshold = s.rdp.threshold := rfl

/-! ### handRecord -/

@[simp] theorem handRecord_tbu (r : Record) (k : LostKind) (s : State) :
    (handRecord r k s).tbu = s.tbu := by
  unfold handRecord; dsimp only; split <;> split <;> rfl
@[simp] theorem handRecord_mbu (r : Record) (k : LostKind) (s : State) :
    (handRecord r k s).mbu = s.mbu := by
  unfold handRecord; dsimp only; split <;> split <;> rfl
@[simp] theorem handRecord_syc (r : Record) (k : LostKind) (s : State) :
    (handRecord r k s).syc = s.syc := by
  unfold handRecord; dsimp only; split <;> split <;> rfl
@[simp] theorem handRecord_lif (r : Record) (k : LostKind) (s : State) :
    (handRecord r k s).lif = s.lif := by
  unfold handRecord; dsimp only; split <;> split <;> rfl
@[simp] theorem handRecord_tge (r : Record) (k : LostKind) (s : State) :
    (handRecord r k s).tge = s.tge := by
  unfold handRecord; dsimp only; split <;> split <;> rfl
@[simp] theorem handRecord_amp (r : Record) (k : LostKind) (s : State) :
    (handRecord r k s).amp = s.amp := by
  unfold handRecord; dsimp only; split <;> split <;> rfl
@[simp] theorem handRecord_scu (r : Record) (k : LostKind) (s : State) :
    (handRecord r k s).scu = s.scu := by
  unfold handRecord; dsimp only; split <;> split <;> rfl
@[simp] theorem handRecord_tlu (r : Record) (k : LostKind) (s : State) :
    (handRecord r k s).tlu = s.tlu := by
  unfold handRecord; dsimp only; split <;> split <;> rfl
@[simp] theorem handRecord_src (r : Record) (k : LostKind) (s : State) :
    (handRecord r k s).src = s.src := by
  unfold handRecord; dsimp only; split <;> split <;> rfl
@[simp] theorem handRecord_cfg (r : Record) (k : LostKind) (s : State) :
    (handRecord r k s).cfg = s.cfg := by
  unfold handRecord; dsimp only; split <;> split <;> rfl
@[simp] theorem handRecord_uniqueId (r : Record) (k : LostKind) (s : State) :
    (handRecord r k s).uniqueId = s.uniqueId := by
  unfold handRecord; dsimp only; split <;> split <;> rfl
@[simp] theorem handRecord_freeCount (r : Record) (k : LostKind) (s : State) :
    (handRecord r k s).freeCount = s.freeCount := by
  unfold handRecord; dsimp only; split <;> split <;> rfl
@[simp] theorem handRecord_pending (r : Record) (k : LostKind) (s : State) :
    (handRecord r k s).pending = s.pending := by
  unfold handRecord; dsimp only; split <;> split <;> rfl
@[simp] theorem handRecord_rdp_txn (r : Record) (k : LostKind) (s : State) :
    (handRecord r k s).rdp.txn = s.rdp.txn := by
  unfold handRecord; dsimp only; split <;> split <;> rfl
@[simp] theorem handRecord_rdp_armed (r : Record) (k : LostKind) (s : State) :
    (handRecord r k s).rdp.armed = s.rdp.armed := by
  unfold handRecord; dsimp only; split <;> split <;> rfl
@[simp] theorem handRecord_rdp_statePending (r : Record) (k : LostKind) (s : State) :
    (handRecord r k s).rdp.statePending = s.rdp.statePending := by
  unfold handRecord; dsimp only; split <;> split <;> rfl
@[simp] theorem handRecord_rdp_loadPending (r : Record) (k : LostKind) (s : State) :
    (handRecord r k s).rdp.loadPending = s.rdp.loadPending := by
  unfold handRecord; dsimp only; split <;> split <;> rfl
@[simp] theorem handRecord_rdp_mask (r : Record) (k : LostKind) (s : State) :
    (handRecord r k s).rdp.mask = s.rdp.mask := by
  unfold handRecord; dsimp only; split <;> split <;> rfl
@[simp] theorem handRecord_rdp_threshold (r : Record) (k : LostKind) (s : State) :
    (handRecord r k s).rdp.threshold = s.rdp.threshold := by
  unfold handRecord; dsimp only; split <;> split <;> rfl

/-! ### writeStateRecord -/

@[simp] theorem writeStateRecord_tbu (x : SyncState) (r : Reason) (n : Option Nat) (s : State) :
    (writeStateRecord x r n s).tbu = s.tbu := by
  simp [writeStateRecord]
@[simp] theorem writeStateRecord_mbu (x : SyncState) (r : Reason) (n : Option Nat) (s : State) :
    (writeStateRecord x r n s).mbu = s.mbu := by
  simp [writeStateRecord]
@[simp] theorem writeStateRecord_syc (x : SyncState) (r : Reason) (n : Option Nat) (s : State) :
    (writeStateRecord x r n s).syc = s.syc := by
  simp [writeStateRecord]
@[simp] theorem writeStateRecord_lif (x : SyncState) (r : Reason) (n : Option Nat) (s : State) :
    (writeStateRecord x r n s).lif = s.lif := by
  simp [writeStateRecord]
@[simp] theorem writeStateRecord_tge (x : SyncState) (r : Reason) (n : Option Nat) (s : State) :
    (writeStateRecord x r n s).tge = s.tge := by
  simp [writeStateRecord]
@[simp] theorem writeStateRecord_amp (x : SyncState) (r : Reason) (n : Option Nat) (s : State) :
    (writeStateRecord x r n s).amp = s.amp := by
  simp [writeStateRecord]
@[simp] theorem writeStateRecord_scu (x : SyncState) (r : Reason) (n : Option Nat) (s : State) :
    (writeStateRecord x r n s).scu = s.scu := by
  simp [writeStateRecord]
@[simp] theorem writeStateRecord_tlu (x : SyncState) (r : Reason) (n : Option Nat) (s : State) :
    (writeStateRecord x r n s).tlu = s.tlu := by
  simp [writeStateRecord]
@[simp] theorem writeStateRecord_src (x : SyncState) (r : Reason) (n : Option Nat) (s : State) :
    (writeStateRecord x r n s).src = s.src := by
  simp [writeStateRecord]
@[simp] theorem writeStateRecord_cfg (x : SyncState) (r : Reason) (n : Option Nat) (s : State) :
    (writeStateRecord x r n s).cfg = s.cfg := by
  simp [writeStateRecord]
@[simp] theorem writeStateRecord_uniqueId (x : SyncState) (r : Reason) (n : Option Nat) (s : State) :
    (writeStateRecord x r n s).uniqueId = s.uniqueId := by
  simp [writeStateRecord]
@[simp] theorem writeStateRecord_freeCount (x : SyncState) (r : Reason) (n : Option Nat) (s : State) :
    (writeStateRecord x r n s).freeCount = s.freeCount := by
  simp [writeStateRecord]
@[simp] theorem writeStateRecord_pending (x : SyncState) (r : Reason) (n : Option Nat) (s : State) :
    (writeStateRecord x r n s).pending = s.pending := by
  simp [writeStateRecord]
@[simp] theorem writeStateRecord_rdp_txn (x : SyncState) (r : Reason) (n : Option Nat) (s : State) :
    (writeStateRecord x r n s).rdp.txn = s.rdp.txn := by
  simp [writeStateRecord]
@[simp] theorem writeStateRecord_rdp_armed (x : SyncState) (r : Reason) (n : Option Nat) (s : State) :
    (writeStateRecord x r n s).rdp.armed = s.rdp.armed := by
  simp [writeStateRecord]
@[simp] theorem writeStateRecord_rdp_statePending (x : SyncState) (r : Reason) (n : Option Nat) (s : State) :
    (writeStateRecord x r n s).rdp.statePending = s.rdp.statePending := by
  simp [writeStateRecord]
@[simp] theorem writeStateRecord_rdp_loadPending (x : SyncState) (r : Reason) (n : Option Nat) (s : State) :
    (writeStateRecord x r n s).rdp.loadPending = s.rdp.loadPending := by
  simp [writeStateRecord]
@[simp] theorem writeStateRecord_rdp_mask (x : SyncState) (r : Reason) (n : Option Nat) (s : State) :
    (writeStateRecord x r n s).rdp.mask = s.rdp.mask := by
  simp [writeStateRecord]
@[simp] theorem writeStateRecord_rdp_threshold (x : SyncState) (r : Reason) (n : Option Nat) (s : State) :
    (writeStateRecord x r n s).rdp.threshold = s.rdp.threshold := by
  simp [writeStateRecord]

/-! ### setChannel -/

@[simp] theorem setChannel_tbu (l : LineNo) (ch : Channel) (s : State) :
    (setChannel l ch s).tbu = s.tbu := rfl
@[simp] theorem setChannel_mbu (l : LineNo) (ch : Channel) (s : State) :
    (setChannel l ch s).mbu = s.mbu := rfl
@[simp] theorem setChannel_syc (l : LineNo) (ch : Channel) (s : State) :
    (setChannel l ch s).syc = s.syc := rfl
@[simp] theorem setChannel_lif (l : LineNo) (ch : Channel) (s : State) :
    (setChannel l ch s).lif = s.lif := rfl
@[simp] theorem setChannel_tge (l : LineNo) (ch : Channel) (s : State) :
    (setChannel l ch s).tge = s.tge := rfl
@[simp] theorem setChannel_amp (l : LineNo) (ch : Channel) (s : State) :
    (setChannel l ch s).amp = s.amp := rfl
@[simp] theorem setChannel_scu (l : LineNo) (ch : Channel) (s : State) :
    (setChannel l ch s).scu = s.scu := rfl
@[simp] theorem setChannel_jnl (l : LineNo) (ch : Channel) (s : State) :
    (setChannel l ch s).jnl = s.jnl := rfl
@[simp] theorem setChannel_rdp (l : LineNo) (ch : Channel) (s : State) :
    (setChannel l ch s).rdp = s.rdp := rfl
@[simp] theorem setChannel_src (l : LineNo) (ch : Channel) (s : State) :
    (setChannel l ch s).src = s.src := rfl
@[simp] theorem setChannel_cfg (l : LineNo) (ch : Channel) (s : State) :
    (setChannel l ch s).cfg = s.cfg := rfl
@[simp] theorem setChannel_uniqueId (l : LineNo) (ch : Channel) (s : State) :
    (setChannel l ch s).uniqueId = s.uniqueId := rfl
@[simp] theorem setChannel_freeCount (l : LineNo) (ch : Channel) (s : State) :
    (setChannel l ch s).freeCount = s.freeCount := rfl
@[simp] theorem setChannel_pending (l : LineNo) (ch : Channel) (s : State) :
    (setChannel l ch s).pending = s.pending := rfl
@[simp] theorem setChannel_tlu_lines (l : LineNo) (ch : Channel) (s : State) :
    (setChannel l ch s).tlu.lines = s.tlu.lines := rfl
@[simp] theorem setChannel_tlu_inputs (l : LineNo) (ch : Channel) (s : State) :
    (setChannel l ch s).tlu.inputs = s.tlu.inputs := rfl
@[simp] theorem setChannel_tlu_pins (l : LineNo) (ch : Channel) (s : State) :
    (setChannel l ch s).tlu.pins = s.tlu.pins := rfl
@[simp] theorem setChannel_tlu_overruns (l : LineNo) (ch : Channel) (s : State) :
    (setChannel l ch s).tlu.overruns = s.tlu.overruns := rfl

/-! ### countOverrun -/

@[simp] theorem countOverrun_tbu (l : LineNo) (k : OutKind) (s : State) :
    (countOverrun l k s).tbu = s.tbu := rfl
@[simp] theorem countOverrun_mbu (l : LineNo) (k : OutKind) (s : State) :
    (countOverrun l k s).mbu = s.mbu := rfl
@[simp] theorem countOverrun_syc (l : LineNo) (k : OutKind) (s : State) :
    (countOverrun l k s).syc = s.syc := rfl
@[simp] theorem countOverrun_lif (l : LineNo) (k : OutKind) (s : State) :
    (countOverrun l k s).lif = s.lif := rfl
@[simp] theorem countOverrun_tge (l : LineNo) (k : OutKind) (s : State) :
    (countOverrun l k s).tge = s.tge := rfl
@[simp] theorem countOverrun_amp (l : LineNo) (k : OutKind) (s : State) :
    (countOverrun l k s).amp = s.amp := rfl
@[simp] theorem countOverrun_scu (l : LineNo) (k : OutKind) (s : State) :
    (countOverrun l k s).scu = s.scu := rfl
@[simp] theorem countOverrun_jnl (l : LineNo) (k : OutKind) (s : State) :
    (countOverrun l k s).jnl = s.jnl := rfl
@[simp] theorem countOverrun_src (l : LineNo) (k : OutKind) (s : State) :
    (countOverrun l k s).src = s.src := rfl
@[simp] theorem countOverrun_cfg (l : LineNo) (k : OutKind) (s : State) :
    (countOverrun l k s).cfg = s.cfg := rfl
@[simp] theorem countOverrun_uniqueId (l : LineNo) (k : OutKind) (s : State) :
    (countOverrun l k s).uniqueId = s.uniqueId := rfl
@[simp] theorem countOverrun_freeCount (l : LineNo) (k : OutKind) (s : State) :
    (countOverrun l k s).freeCount = s.freeCount := rfl
@[simp] theorem countOverrun_pending (l : LineNo) (k : OutKind) (s : State) :
    (countOverrun l k s).pending = s.pending := rfl
@[simp] theorem countOverrun_tlu_lines (l : LineNo) (k : OutKind) (s : State) :
    (countOverrun l k s).tlu.lines = s.tlu.lines := rfl
@[simp] theorem countOverrun_tlu_inputs (l : LineNo) (k : OutKind) (s : State) :
    (countOverrun l k s).tlu.inputs = s.tlu.inputs := rfl
@[simp] theorem countOverrun_tlu_pins (l : LineNo) (k : OutKind) (s : State) :
    (countOverrun l k s).tlu.pins = s.tlu.pins := rfl
@[simp] theorem countOverrun_tlu_channels (l : LineNo) (k : OutKind) (s : State) :
    (countOverrun l k s).tlu.channels = s.tlu.channels := rfl
@[simp] theorem countOverrun_rdp_txn (l : LineNo) (k : OutKind) (s : State) :
    (countOverrun l k s).rdp.txn = s.rdp.txn := rfl
@[simp] theorem countOverrun_rdp_armed (l : LineNo) (k : OutKind) (s : State) :
    (countOverrun l k s).rdp.armed = s.rdp.armed := rfl
@[simp] theorem countOverrun_rdp_statePending (l : LineNo) (k : OutKind) (s : State) :
    (countOverrun l k s).rdp.statePending = s.rdp.statePending := rfl
@[simp] theorem countOverrun_rdp_loadPending (l : LineNo) (k : OutKind) (s : State) :
    (countOverrun l k s).rdp.loadPending = s.rdp.loadPending := rfl
@[simp] theorem countOverrun_rdp_mask (l : LineNo) (k : OutKind) (s : State) :
    (countOverrun l k s).rdp.mask = s.rdp.mask := rfl
@[simp] theorem countOverrun_rdp_threshold (l : LineNo) (k : OutKind) (s : State) :
    (countOverrun l k s).rdp.threshold = s.rdp.threshold := rfl

/-! ### fireCommand -/

@[simp] theorem fireCommand_tbu (a : Action) (s : State) (l : LineNo) :
    (fireCommand a s l).tbu = s.tbu := by
  unfold fireCommand; split
  · split <;> rfl
  · rfl
  · rfl
@[simp] theorem fireCommand_mbu (a : Action) (s : State) (l : LineNo) :
    (fireCommand a s l).mbu = s.mbu := by
  unfold fireCommand; split
  · split <;> rfl
  · rfl
  · rfl
@[simp] theorem fireCommand_syc (a : Action) (s : State) (l : LineNo) :
    (fireCommand a s l).syc = s.syc := by
  unfold fireCommand; split
  · split <;> rfl
  · rfl
  · rfl
@[simp] theorem fireCommand_lif (a : Action) (s : State) (l : LineNo) :
    (fireCommand a s l).lif = s.lif := by
  unfold fireCommand; split
  · split <;> rfl
  · rfl
  · rfl
@[simp] theorem fireCommand_tge (a : Action) (s : State) (l : LineNo) :
    (fireCommand a s l).tge = s.tge := by
  unfold fireCommand; split
  · split <;> rfl
  · rfl
  · rfl
@[simp] theorem fireCommand_amp (a : Action) (s : State) (l : LineNo) :
    (fireCommand a s l).amp = s.amp := by
  unfold fireCommand; split
  · split <;> rfl
  · rfl
  · rfl
@[simp] theorem fireCommand_scu (a : Action) (s : State) (l : LineNo) :
    (fireCommand a s l).scu = s.scu := by
  unfold fireCommand; split
  · split <;> rfl
  · rfl
  · rfl
@[simp] theorem fireCommand_jnl (a : Action) (s : State) (l : LineNo) :
    (fireCommand a s l).jnl = s.jnl := by
  unfold fireCommand; split
  · split <;> rfl
  · rfl
  · rfl
@[simp] theorem fireCommand_src (a : Action) (s : State) (l : LineNo) :
    (fireCommand a s l).src = s.src := by
  unfold fireCommand; split
  · split <;> rfl
  · rfl
  · rfl
@[simp] theorem fireCommand_cfg (a : Action) (s : State) (l : LineNo) :
    (fireCommand a s l).cfg = s.cfg := by
  unfold fireCommand; split
  · split <;> rfl
  · rfl
  · rfl
@[simp] theorem fireCommand_uniqueId (a : Action) (s : State) (l : LineNo) :
    (fireCommand a s l).uniqueId = s.uniqueId := by
  unfold fireCommand; split
  · split <;> rfl
  · rfl
  · rfl
@[simp] theorem fireCommand_freeCount (a : Action) (s : State) (l : LineNo) :
    (fireCommand a s l).freeCount = s.freeCount := by
  unfold fireCommand; split
  · split <;> rfl
  · rfl
  · rfl
@[simp] theorem fireCommand_pending (a : Action) (s : State) (l : LineNo) :
    (fireCommand a s l).pending = s.pending := by
  unfold fireCommand; split
  · split <;> rfl
  · rfl
  · rfl
@[simp] theorem fireCommand_tlu_lines (a : Action) (s : State) (l : LineNo) :
    (fireCommand a s l).tlu.lines = s.tlu.lines := by
  unfold fireCommand; split
  · split <;> rfl
  · rfl
  · rfl
@[simp] theorem fireCommand_tlu_inputs (a : Action) (s : State) (l : LineNo) :
    (fireCommand a s l).tlu.inputs = s.tlu.inputs := by
  unfold fireCommand; split
  · split <;> rfl
  · rfl
  · rfl
@[simp] theorem fireCommand_tlu_pins (a : Action) (s : State) (l : LineNo) :
    (fireCommand a s l).tlu.pins = s.tlu.pins := by
  unfold fireCommand; split
  · split <;> rfl
  · rfl
  · rfl
@[simp] theorem fireCommand_rdp_txn (a : Action) (s : State) (l : LineNo) :
    (fireCommand a s l).rdp.txn = s.rdp.txn := by
  unfold fireCommand; split
  · split <;> rfl
  · rfl
  · rfl
@[simp] theorem fireCommand_rdp_armed (a : Action) (s : State) (l : LineNo) :
    (fireCommand a s l).rdp.armed = s.rdp.armed := by
  unfold fireCommand; split
  · split <;> rfl
  · rfl
  · rfl
@[simp] theorem fireCommand_rdp_statePending (a : Action) (s : State) (l : LineNo) :
    (fireCommand a s l).rdp.statePending = s.rdp.statePending := by
  unfold fireCommand; split
  · split <;> rfl
  · rfl
  · rfl
@[simp] theorem fireCommand_rdp_loadPending (a : Action) (s : State) (l : LineNo) :
    (fireCommand a s l).rdp.loadPending = s.rdp.loadPending := by
  unfold fireCommand; split
  · split <;> rfl
  · rfl
  · rfl
@[simp] theorem fireCommand_rdp_mask (a : Action) (s : State) (l : LineNo) :
    (fireCommand a s l).rdp.mask = s.rdp.mask := by
  unfold fireCommand; split
  · split <;> rfl
  · rfl
  · rfl
@[simp] theorem fireCommand_rdp_threshold (a : Action) (s : State) (l : LineNo) :
    (fireCommand a s l).rdp.threshold = s.rdp.threshold := by
  unfold fireCommand; split
  · split <;> rfl
  · rfl
  · rfl

/-! ### the commands of one entry -/

@[simp] theorem foldl_fireCommand_tbu (a : Action) (ls : List LineNo) (s : State) :
    (ls.foldl (fireCommand a) s).tbu = s.tbu := by
  induction ls generalizing s with
  | nil => rfl
  | cons l ls ih => simp [ih]
@[simp] theorem foldl_fireCommand_mbu (a : Action) (ls : List LineNo) (s : State) :
    (ls.foldl (fireCommand a) s).mbu = s.mbu := by
  induction ls generalizing s with
  | nil => rfl
  | cons l ls ih => simp [ih]
@[simp] theorem foldl_fireCommand_syc (a : Action) (ls : List LineNo) (s : State) :
    (ls.foldl (fireCommand a) s).syc = s.syc := by
  induction ls generalizing s with
  | nil => rfl
  | cons l ls ih => simp [ih]
@[simp] theorem foldl_fireCommand_lif (a : Action) (ls : List LineNo) (s : State) :
    (ls.foldl (fireCommand a) s).lif = s.lif := by
  induction ls generalizing s with
  | nil => rfl
  | cons l ls ih => simp [ih]
@[simp] theorem foldl_fireCommand_tge (a : Action) (ls : List LineNo) (s : State) :
    (ls.foldl (fireCommand a) s).tge = s.tge := by
  induction ls generalizing s with
  | nil => rfl
  | cons l ls ih => simp [ih]
@[simp] theorem foldl_fireCommand_amp (a : Action) (ls : List LineNo) (s : State) :
    (ls.foldl (fireCommand a) s).amp = s.amp := by
  induction ls generalizing s with
  | nil => rfl
  | cons l ls ih => simp [ih]
@[simp] theorem foldl_fireCommand_scu (a : Action) (ls : List LineNo) (s : State) :
    (ls.foldl (fireCommand a) s).scu = s.scu := by
  induction ls generalizing s with
  | nil => rfl
  | cons l ls ih => simp [ih]
@[simp] theorem foldl_fireCommand_jnl (a : Action) (ls : List LineNo) (s : State) :
    (ls.foldl (fireCommand a) s).jnl = s.jnl := by
  induction ls generalizing s with
  | nil => rfl
  | cons l ls ih => simp [ih]
@[simp] theorem foldl_fireCommand_src (a : Action) (ls : List LineNo) (s : State) :
    (ls.foldl (fireCommand a) s).src = s.src := by
  induction ls generalizing s with
  | nil => rfl
  | cons l ls ih => simp [ih]
@[simp] theorem foldl_fireCommand_cfg (a : Action) (ls : List LineNo) (s : State) :
    (ls.foldl (fireCommand a) s).cfg = s.cfg := by
  induction ls generalizing s with
  | nil => rfl
  | cons l ls ih => simp [ih]
@[simp] theorem foldl_fireCommand_uniqueId (a : Action) (ls : List LineNo) (s : State) :
    (ls.foldl (fireCommand a) s).uniqueId = s.uniqueId := by
  induction ls generalizing s with
  | nil => rfl
  | cons l ls ih => simp [ih]
@[simp] theorem foldl_fireCommand_freeCount (a : Action) (ls : List LineNo) (s : State) :
    (ls.foldl (fireCommand a) s).freeCount = s.freeCount := by
  induction ls generalizing s with
  | nil => rfl
  | cons l ls ih => simp [ih]
@[simp] theorem foldl_fireCommand_pending (a : Action) (ls : List LineNo) (s : State) :
    (ls.foldl (fireCommand a) s).pending = s.pending := by
  induction ls generalizing s with
  | nil => rfl
  | cons l ls ih => simp [ih]
@[simp] theorem foldl_fireCommand_tlu_lines (a : Action) (ls : List LineNo) (s : State) :
    (ls.foldl (fireCommand a) s).tlu.lines = s.tlu.lines := by
  induction ls generalizing s with
  | nil => rfl
  | cons l ls ih => simp [ih]
@[simp] theorem foldl_fireCommand_tlu_inputs (a : Action) (ls : List LineNo) (s : State) :
    (ls.foldl (fireCommand a) s).tlu.inputs = s.tlu.inputs := by
  induction ls generalizing s with
  | nil => rfl
  | cons l ls ih => simp [ih]
@[simp] theorem foldl_fireCommand_tlu_pins (a : Action) (ls : List LineNo) (s : State) :
    (ls.foldl (fireCommand a) s).tlu.pins = s.tlu.pins := by
  induction ls generalizing s with
  | nil => rfl
  | cons l ls ih => simp [ih]
@[simp] theorem foldl_fireCommand_rdp_txn (a : Action) (ls : List LineNo) (s : State) :
    (ls.foldl (fireCommand a) s).rdp.txn = s.rdp.txn := by
  induction ls generalizing s with
  | nil => rfl
  | cons l ls ih => simp [ih]
@[simp] theorem foldl_fireCommand_rdp_armed (a : Action) (ls : List LineNo) (s : State) :
    (ls.foldl (fireCommand a) s).rdp.armed = s.rdp.armed := by
  induction ls generalizing s with
  | nil => rfl
  | cons l ls ih => simp [ih]
@[simp] theorem foldl_fireCommand_rdp_statePending (a : Action) (ls : List LineNo) (s : State) :
    (ls.foldl (fireCommand a) s).rdp.statePending = s.rdp.statePending := by
  induction ls generalizing s with
  | nil => rfl
  | cons l ls ih => simp [ih]
@[simp] theorem foldl_fireCommand_rdp_loadPending (a : Action) (ls : List LineNo) (s : State) :
    (ls.foldl (fireCommand a) s).rdp.loadPending = s.rdp.loadPending := by
  induction ls generalizing s with
  | nil => rfl
  | cons l ls ih => simp [ih]
@[simp] theorem foldl_fireCommand_rdp_mask (a : Action) (ls : List LineNo) (s : State) :
    (ls.foldl (fireCommand a) s).rdp.mask = s.rdp.mask := by
  induction ls generalizing s with
  | nil => rfl
  | cons l ls ih => simp [ih]
@[simp] theorem foldl_fireCommand_rdp_threshold (a : Action) (ls : List LineNo) (s : State) :
    (ls.foldl (fireCommand a) s).rdp.threshold = s.rdp.threshold := by
  induction ls generalizing s with
  | nil => rfl
  | cons l ls ih => simp [ih]

/-! ### fireEntry -/

@[simp] theorem fireEntry_tbu (b : Option Time) (e : SchedEntry) (r : List SchedEntry) (s : State) :
    (fireEntry b e r s).tbu = s.tbu := by
  unfold fireEntry; dsimp only; split <;> simp
@[simp] theorem fireEntry_mbu (b : Option Time) (e : SchedEntry) (r : List SchedEntry) (s : State) :
    (fireEntry b e r s).mbu = s.mbu := by
  unfold fireEntry; dsimp only; split <;> simp
@[simp] theorem fireEntry_syc (b : Option Time) (e : SchedEntry) (r : List SchedEntry) (s : State) :
    (fireEntry b e r s).syc = s.syc := by
  unfold fireEntry; dsimp only; split <;> simp
@[simp] theorem fireEntry_lif (b : Option Time) (e : SchedEntry) (r : List SchedEntry) (s : State) :
    (fireEntry b e r s).lif = s.lif := by
  unfold fireEntry; dsimp only; split <;> simp
@[simp] theorem fireEntry_tge (b : Option Time) (e : SchedEntry) (r : List SchedEntry) (s : State) :
    (fireEntry b e r s).tge = s.tge := by
  unfold fireEntry; dsimp only; split <;> simp
@[simp] theorem fireEntry_amp (b : Option Time) (e : SchedEntry) (r : List SchedEntry) (s : State) :
    (fireEntry b e r s).amp = s.amp := by
  unfold fireEntry; dsimp only; split <;> simp
@[simp] theorem fireEntry_src (b : Option Time) (e : SchedEntry) (r : List SchedEntry) (s : State) :
    (fireEntry b e r s).src = s.src := by
  unfold fireEntry; dsimp only; split <;> simp
@[simp] theorem fireEntry_cfg (b : Option Time) (e : SchedEntry) (r : List SchedEntry) (s : State) :
    (fireEntry b e r s).cfg = s.cfg := by
  unfold fireEntry; dsimp only; split <;> simp
@[simp] theorem fireEntry_uniqueId (b : Option Time) (e : SchedEntry) (r : List SchedEntry) (s : State) :
    (fireEntry b e r s).uniqueId = s.uniqueId := by
  unfold fireEntry; dsimp only; split <;> simp
@[simp] theorem fireEntry_freeCount (b : Option Time) (e : SchedEntry) (r : List SchedEntry) (s : State) :
    (fireEntry b e r s).freeCount = s.freeCount := by
  unfold fireEntry; dsimp only; split <;> simp
@[simp] theorem fireEntry_pending (b : Option Time) (e : SchedEntry) (r : List SchedEntry) (s : State) :
    (fireEntry b e r s).pending = s.pending := by
  unfold fireEntry; dsimp only; split <;> simp
@[simp] theorem fireEntry_tlu_lines (b : Option Time) (e : SchedEntry) (r : List SchedEntry) (s : State) :
    (fireEntry b e r s).tlu.lines = s.tlu.lines := by
  unfold fireEntry; dsimp only; split <;> simp
@[simp] theorem fireEntry_tlu_inputs (b : Option Time) (e : SchedEntry) (r : List SchedEntry) (s : State) :
    (fireEntry b e r s).tlu.inputs = s.tlu.inputs := by
  unfold fireEntry; dsimp only; split <;> simp
@[simp] theorem fireEntry_tlu_pins (b : Option Time) (e : SchedEntry) (r : List SchedEntry) (s : State) :
    (fireEntry b e r s).tlu.pins = s.tlu.pins := by
  unfold fireEntry; dsimp only; split <;> simp
@[simp] theorem fireEntry_rdp_txn (b : Option Time) (e : SchedEntry) (r : List SchedEntry) (s : State) :
    (fireEntry b e r s).rdp.txn = s.rdp.txn := by
  unfold fireEntry; dsimp only; split <;> simp
@[simp] theorem fireEntry_rdp_armed (b : Option Time) (e : SchedEntry) (r : List SchedEntry) (s : State) :
    (fireEntry b e r s).rdp.armed = s.rdp.armed := by
  unfold fireEntry; dsimp only; split <;> simp
@[simp] theorem fireEntry_rdp_statePending (b : Option Time) (e : SchedEntry) (r : List SchedEntry) (s : State) :
    (fireEntry b e r s).rdp.statePending = s.rdp.statePending := by
  unfold fireEntry; dsimp only; split <;> simp
@[simp] theorem fireEntry_rdp_loadPending (b : Option Time) (e : SchedEntry) (r : List SchedEntry) (s : State) :
    (fireEntry b e r s).rdp.loadPending = s.rdp.loadPending := by
  unfold fireEntry; dsimp only; split <;> simp
@[simp] theorem fireEntry_rdp_mask (b : Option Time) (e : SchedEntry) (r : List SchedEntry) (s : State) :
    (fireEntry b e r s).rdp.mask = s.rdp.mask := by
  unfold fireEntry; dsimp only; split <;> simp
@[simp] theorem fireEntry_rdp_threshold (b : Option Time) (e : SchedEntry) (r : List SchedEntry) (s : State) :
    (fireEntry b e r s).rdp.threshold = s.rdp.threshold := by
  unfold fireEntry; dsimp only; split <;> simp
@[simp] theorem fireEntry_scu_quota (b : Option Time) (e : SchedEntry) (r : List SchedEntry) (s : State) :
    (fireEntry b e r s).scu.quota = s.scu.quota := by
  unfold fireEntry; dsimp only; split <;> simp
@[simp] theorem fireEntry_scu_drops (b : Option Time) (e : SchedEntry) (r : List SchedEntry) (s : State) :
    (fireEntry b e r s).scu.drops = s.scu.drops := by
  unfold fireEntry; dsimp only; split <;> simp
@[simp] theorem fireEntry_scu_lateDrop (b : Option Time) (e : SchedEntry) (r : List SchedEntry) (s : State) :
    (fireEntry b e r s).scu.lateDrop = s.scu.lateDrop := by
  unfold fireEntry; dsimp only; split <;> simp
@[simp] theorem fireEntry_scu_lateFire (b : Option Time) (e : SchedEntry) (r : List SchedEntry) (s : State) :
    (fireEntry b e r s).scu.lateFire = s.scu.lateFire := by
  unfold fireEntry; dsimp only; split <;> simp
@[simp] theorem fireEntry_scu_cancelled (b : Option Time) (e : SchedEntry) (r : List SchedEntry) (s : State) :
    (fireEntry b e r s).scu.cancelled = s.scu.cancelled := by
  unfold fireEntry; dsimp only; split <;> simp

/-! ### fireDueFrom -/

@[simp] theorem fireDueFrom_tbu (b : Option Time) (es : List SchedEntry) (s : State) :
    (fireDueFrom b es s).tbu = s.tbu := by
  induction es generalizing s with
  | nil => rfl
  | cons e es ih => simp only [fireDueFrom]; split <;> simp [ih]
@[simp] theorem fireDueFrom_mbu (b : Option Time) (es : List SchedEntry) (s : State) :
    (fireDueFrom b es s).mbu = s.mbu := by
  induction es generalizing s with
  | nil => rfl
  | cons e es ih => simp only [fireDueFrom]; split <;> simp [ih]
@[simp] theorem fireDueFrom_syc (b : Option Time) (es : List SchedEntry) (s : State) :
    (fireDueFrom b es s).syc = s.syc := by
  induction es generalizing s with
  | nil => rfl
  | cons e es ih => simp only [fireDueFrom]; split <;> simp [ih]
@[simp] theorem fireDueFrom_lif (b : Option Time) (es : List SchedEntry) (s : State) :
    (fireDueFrom b es s).lif = s.lif := by
  induction es generalizing s with
  | nil => rfl
  | cons e es ih => simp only [fireDueFrom]; split <;> simp [ih]
@[simp] theorem fireDueFrom_tge (b : Option Time) (es : List SchedEntry) (s : State) :
    (fireDueFrom b es s).tge = s.tge := by
  induction es generalizing s with
  | nil => rfl
  | cons e es ih => simp only [fireDueFrom]; split <;> simp [ih]
@[simp] theorem fireDueFrom_amp (b : Option Time) (es : List SchedEntry) (s : State) :
    (fireDueFrom b es s).amp = s.amp := by
  induction es generalizing s with
  | nil => rfl
  | cons e es ih => simp only [fireDueFrom]; split <;> simp [ih]
@[simp] theorem fireDueFrom_src (b : Option Time) (es : List SchedEntry) (s : State) :
    (fireDueFrom b es s).src = s.src := by
  induction es generalizing s with
  | nil => rfl
  | cons e es ih => simp only [fireDueFrom]; split <;> simp [ih]
@[simp] theorem fireDueFrom_cfg (b : Option Time) (es : List SchedEntry) (s : State) :
    (fireDueFrom b es s).cfg = s.cfg := by
  induction es generalizing s with
  | nil => rfl
  | cons e es ih => simp only [fireDueFrom]; split <;> simp [ih]
@[simp] theorem fireDueFrom_uniqueId (b : Option Time) (es : List SchedEntry) (s : State) :
    (fireDueFrom b es s).uniqueId = s.uniqueId := by
  induction es generalizing s with
  | nil => rfl
  | cons e es ih => simp only [fireDueFrom]; split <;> simp [ih]
@[simp] theorem fireDueFrom_freeCount (b : Option Time) (es : List SchedEntry) (s : State) :
    (fireDueFrom b es s).freeCount = s.freeCount := by
  induction es generalizing s with
  | nil => rfl
  | cons e es ih => simp only [fireDueFrom]; split <;> simp [ih]
@[simp] theorem fireDueFrom_pending (b : Option Time) (es : List SchedEntry) (s : State) :
    (fireDueFrom b es s).pending = s.pending := by
  induction es generalizing s with
  | nil => rfl
  | cons e es ih => simp only [fireDueFrom]; split <;> simp [ih]
@[simp] theorem fireDueFrom_tlu_lines (b : Option Time) (es : List SchedEntry) (s : State) :
    (fireDueFrom b es s).tlu.lines = s.tlu.lines := by
  induction es generalizing s with
  | nil => rfl
  | cons e es ih => simp only [fireDueFrom]; split <;> simp [ih]
@[simp] theorem fireDueFrom_tlu_inputs (b : Option Time) (es : List SchedEntry) (s : State) :
    (fireDueFrom b es s).tlu.inputs = s.tlu.inputs := by
  induction es generalizing s with
  | nil => rfl
  | cons e es ih => simp only [fireDueFrom]; split <;> simp [ih]
@[simp] theorem fireDueFrom_tlu_pins (b : Option Time) (es : List SchedEntry) (s : State) :
    (fireDueFrom b es s).tlu.pins = s.tlu.pins := by
  induction es generalizing s with
  | nil => rfl
  | cons e es ih => simp only [fireDueFrom]; split <;> simp [ih]
@[simp] theorem fireDueFrom_rdp_txn (b : Option Time) (es : List SchedEntry) (s : State) :
    (fireDueFrom b es s).rdp.txn = s.rdp.txn := by
  induction es generalizing s with
  | nil => rfl
  | cons e es ih => simp only [fireDueFrom]; split <;> simp [ih]
@[simp] theorem fireDueFrom_rdp_armed (b : Option Time) (es : List SchedEntry) (s : State) :
    (fireDueFrom b es s).rdp.armed = s.rdp.armed := by
  induction es generalizing s with
  | nil => rfl
  | cons e es ih => simp only [fireDueFrom]; split <;> simp [ih]
@[simp] theorem fireDueFrom_rdp_statePending (b : Option Time) (es : List SchedEntry) (s : State) :
    (fireDueFrom b es s).rdp.statePending = s.rdp.statePending := by
  induction es generalizing s with
  | nil => rfl
  | cons e es ih => simp only [fireDueFrom]; split <;> simp [ih]
@[simp] theorem fireDueFrom_rdp_loadPending (b : Option Time) (es : List SchedEntry) (s : State) :
    (fireDueFrom b es s).rdp.loadPending = s.rdp.loadPending := by
  induction es generalizing s with
  | nil => rfl
  | cons e es ih => simp only [fireDueFrom]; split <;> simp [ih]
@[simp] theorem fireDueFrom_rdp_mask (b : Option Time) (es : List SchedEntry) (s : State) :
    (fireDueFrom b es s).rdp.mask = s.rdp.mask := by
  induction es generalizing s with
  | nil => rfl
  | cons e es ih => simp only [fireDueFrom]; split <;> simp [ih]
@[simp] theorem fireDueFrom_rdp_threshold (b : Option Time) (es : List SchedEntry) (s : State) :
    (fireDueFrom b es s).rdp.threshold = s.rdp.threshold := by
  induction es generalizing s with
  | nil => rfl
  | cons e es ih => simp only [fireDueFrom]; split <;> simp [ih]
@[simp] theorem fireDueFrom_scu_quota (b : Option Time) (es : List SchedEntry) (s : State) :
    (fireDueFrom b es s).scu.quota = s.scu.quota := by
  induction es generalizing s with
  | nil => rfl
  | cons e es ih => simp only [fireDueFrom]; split <;> simp [ih]
@[simp] theorem fireDueFrom_scu_drops (b : Option Time) (es : List SchedEntry) (s : State) :
    (fireDueFrom b es s).scu.drops = s.scu.drops := by
  induction es generalizing s with
  | nil => rfl
  | cons e es ih => simp only [fireDueFrom]; split <;> simp [ih]
@[simp] theorem fireDueFrom_scu_lateDrop (b : Option Time) (es : List SchedEntry) (s : State) :
    (fireDueFrom b es s).scu.lateDrop = s.scu.lateDrop := by
  induction es generalizing s with
  | nil => rfl
  | cons e es ih => simp only [fireDueFrom]; split <;> simp [ih]
@[simp] theorem fireDueFrom_scu_lateFire (b : Option Time) (es : List SchedEntry) (s : State) :
    (fireDueFrom b es s).scu.lateFire = s.scu.lateFire := by
  induction es generalizing s with
  | nil => rfl
  | cons e es ih => simp only [fireDueFrom]; split <;> simp [ih]
@[simp] theorem fireDueFrom_scu_cancelled (b : Option Time) (es : List SchedEntry) (s : State) :
    (fireDueFrom b es s).scu.cancelled = s.scu.cancelled := by
  induction es generalizing s with
  | nil => rfl
  | cons e es ih => simp only [fireDueFrom]; split <;> simp [ih]

/-! ### fireDue -/

@[simp] theorem fireDue_tbu (b : Option Time) (s : State) :
    (fireDue b s).tbu = s.tbu := by
  simp [fireDue]
@[simp] theorem fireDue_mbu (b : Option Time) (s : State) :
    (fireDue b s).mbu = s.mbu := by
  simp [fireDue]
@[simp] theorem fireDue_syc (b : Option Time) (s : State) :
    (fireDue b s).syc = s.syc := by
  simp [fireDue]
@[simp] theorem fireDue_lif (b : Option Time) (s : State) :
    (fireDue b s).lif = s.lif := by
  simp [fireDue]
@[simp] theorem fireDue_tge (b : Option Time) (s : State) :
    (fireDue b s).tge = s.tge := by
  simp [fireDue]
@[simp] theorem fireDue_amp (b : Option Time) (s : State) :
    (fireDue b s).amp = s.amp := by
  simp [fireDue]
@[simp] theorem fireDue_src (b : Option Time) (s : State) :
    (fireDue b s).src = s.src := by
  simp [fireDue]
@[simp] theorem fireDue_cfg (b : Option Time) (s : State) :
    (fireDue b s).cfg = s.cfg := by
  simp [fireDue]
@[simp] theorem fireDue_uniqueId (b : Option Time) (s : State) :
    (fireDue b s).uniqueId = s.uniqueId := by
  simp [fireDue]
@[simp] theorem fireDue_freeCount (b : Option Time) (s : State) :
    (fireDue b s).freeCount = s.freeCount := by
  simp [fireDue]
@[simp] theorem fireDue_pending (b : Option Time) (s : State) :
    (fireDue b s).pending = s.pending := by
  simp [fireDue]
@[simp] theorem fireDue_tlu_lines (b : Option Time) (s : State) :
    (fireDue b s).tlu.lines = s.tlu.lines := by
  simp [fireDue]
@[simp] theorem fireDue_tlu_inputs (b : Option Time) (s : State) :
    (fireDue b s).tlu.inputs = s.tlu.inputs := by
  simp [fireDue]
@[simp] theorem fireDue_tlu_pins (b : Option Time) (s : State) :
    (fireDue b s).tlu.pins = s.tlu.pins := by
  simp [fireDue]
@[simp] theorem fireDue_rdp_txn (b : Option Time) (s : State) :
    (fireDue b s).rdp.txn = s.rdp.txn := by
  simp [fireDue]
@[simp] theorem fireDue_rdp_armed (b : Option Time) (s : State) :
    (fireDue b s).rdp.armed = s.rdp.armed := by
  simp [fireDue]
@[simp] theorem fireDue_rdp_statePending (b : Option Time) (s : State) :
    (fireDue b s).rdp.statePending = s.rdp.statePending := by
  simp [fireDue]
@[simp] theorem fireDue_rdp_loadPending (b : Option Time) (s : State) :
    (fireDue b s).rdp.loadPending = s.rdp.loadPending := by
  simp [fireDue]
@[simp] theorem fireDue_rdp_mask (b : Option Time) (s : State) :
    (fireDue b s).rdp.mask = s.rdp.mask := by
  simp [fireDue]
@[simp] theorem fireDue_rdp_threshold (b : Option Time) (s : State) :
    (fireDue b s).rdp.threshold = s.rdp.threshold := by
  simp [fireDue]
@[simp] theorem fireDue_scu_quota (b : Option Time) (s : State) :
    (fireDue b s).scu.quota = s.scu.quota := by
  simp [fireDue]
@[simp] theorem fireDue_scu_drops (b : Option Time) (s : State) :
    (fireDue b s).scu.drops = s.scu.drops := by
  simp [fireDue]
@[simp] theorem fireDue_scu_lateDrop (b : Option Time) (s : State) :
    (fireDue b s).scu.lateDrop = s.scu.lateDrop := by
  simp [fireDue]
@[simp] theorem fireDue_scu_lateFire (b : Option Time) (s : State) :
    (fireDue b s).scu.lateFire = s.scu.lateFire := by
  simp [fireDue]
@[simp] theorem fireDue_scu_cancelled (b : Option Time) (s : State) :
    (fireDue b s).scu.cancelled = s.scu.cancelled := by
  simp [fireDue]

/-! ### fireSomeFrom -/

@[simp] theorem fireSomeFrom_tbu (b : Option Time) (es : List SchedEntry) (s : State) :
    (fireSomeFrom b es s).tbu = s.tbu := by
  induction es generalizing s with
  | nil => rfl
  | cons e es ih =>
    simp only [fireSomeFrom]
    split
    · split <;> simp [ih]
    · rfl
@[simp] theorem fireSomeFrom_mbu (b : Option Time) (es : List SchedEntry) (s : State) :
    (fireSomeFrom b es s).mbu = s.mbu := by
  induction es generalizing s with
  | nil => rfl
  | cons e es ih =>
    simp only [fireSomeFrom]
    split
    · split <;> simp [ih]
    · rfl
@[simp] theorem fireSomeFrom_syc (b : Option Time) (es : List SchedEntry) (s : State) :
    (fireSomeFrom b es s).syc = s.syc := by
  induction es generalizing s with
  | nil => rfl
  | cons e es ih =>
    simp only [fireSomeFrom]
    split
    · split <;> simp [ih]
    · rfl
@[simp] theorem fireSomeFrom_lif (b : Option Time) (es : List SchedEntry) (s : State) :
    (fireSomeFrom b es s).lif = s.lif := by
  induction es generalizing s with
  | nil => rfl
  | cons e es ih =>
    simp only [fireSomeFrom]
    split
    · split <;> simp [ih]
    · rfl
@[simp] theorem fireSomeFrom_tge (b : Option Time) (es : List SchedEntry) (s : State) :
    (fireSomeFrom b es s).tge = s.tge := by
  induction es generalizing s with
  | nil => rfl
  | cons e es ih =>
    simp only [fireSomeFrom]
    split
    · split <;> simp [ih]
    · rfl
@[simp] theorem fireSomeFrom_amp (b : Option Time) (es : List SchedEntry) (s : State) :
    (fireSomeFrom b es s).amp = s.amp := by
  induction es generalizing s with
  | nil => rfl
  | cons e es ih =>
    simp only [fireSomeFrom]
    split
    · split <;> simp [ih]
    · rfl
@[simp] theorem fireSomeFrom_src (b : Option Time) (es : List SchedEntry) (s : State) :
    (fireSomeFrom b es s).src = s.src := by
  induction es generalizing s with
  | nil => rfl
  | cons e es ih =>
    simp only [fireSomeFrom]
    split
    · split <;> simp [ih]
    · rfl
@[simp] theorem fireSomeFrom_cfg (b : Option Time) (es : List SchedEntry) (s : State) :
    (fireSomeFrom b es s).cfg = s.cfg := by
  induction es generalizing s with
  | nil => rfl
  | cons e es ih =>
    simp only [fireSomeFrom]
    split
    · split <;> simp [ih]
    · rfl
@[simp] theorem fireSomeFrom_uniqueId (b : Option Time) (es : List SchedEntry) (s : State) :
    (fireSomeFrom b es s).uniqueId = s.uniqueId := by
  induction es generalizing s with
  | nil => rfl
  | cons e es ih =>
    simp only [fireSomeFrom]
    split
    · split <;> simp [ih]
    · rfl
@[simp] theorem fireSomeFrom_pending (b : Option Time) (es : List SchedEntry) (s : State) :
    (fireSomeFrom b es s).pending = s.pending := by
  induction es generalizing s with
  | nil => rfl
  | cons e es ih =>
    simp only [fireSomeFrom]
    split
    · split <;> simp [ih]
    · rfl
@[simp] theorem fireSomeFrom_tlu_lines (b : Option Time) (es : List SchedEntry) (s : State) :
    (fireSomeFrom b es s).tlu.lines = s.tlu.lines := by
  induction es generalizing s with
  | nil => rfl
  | cons e es ih =>
    simp only [fireSomeFrom]
    split
    · split <;> simp [ih]
    · rfl
@[simp] theorem fireSomeFrom_tlu_inputs (b : Option Time) (es : List SchedEntry) (s : State) :
    (fireSomeFrom b es s).tlu.inputs = s.tlu.inputs := by
  induction es generalizing s with
  | nil => rfl
  | cons e es ih =>
    simp only [fireSomeFrom]
    split
    · split <;> simp [ih]
    · rfl
@[simp] theorem fireSomeFrom_tlu_pins (b : Option Time) (es : List SchedEntry) (s : State) :
    (fireSomeFrom b es s).tlu.pins = s.tlu.pins := by
  induction es generalizing s with
  | nil => rfl
  | cons e es ih =>
    simp only [fireSomeFrom]
    split
    · split <;> simp [ih]
    · rfl
@[simp] theorem fireSomeFrom_rdp_txn (b : Option Time) (es : List SchedEntry) (s : State) :
    (fireSomeFrom b es s).rdp.txn = s.rdp.txn := by
  induction es generalizing s with
  | nil => rfl
  | cons e es ih =>
    simp only [fireSomeFrom]
    split
    · split <;> simp [ih]
    · rfl
@[simp] theorem fireSomeFrom_rdp_armed (b : Option Time) (es : List SchedEntry) (s : State) :
    (fireSomeFrom b es s).rdp.armed = s.rdp.armed := by
  induction es generalizing s with
  | nil => rfl
  | cons e es ih =>
    simp only [fireSomeFrom]
    split
    · split <;> simp [ih]
    · rfl
@[simp] theorem fireSomeFrom_rdp_statePending (b : Option Time) (es : List SchedEntry) (s : State) :
    (fireSomeFrom b es s).rdp.statePending = s.rdp.statePending := by
  induction es generalizing s with
  | nil => rfl
  | cons e es ih =>
    simp only [fireSomeFrom]
    split
    · split <;> simp [ih]
    · rfl
@[simp] theorem fireSomeFrom_rdp_loadPending (b : Option Time) (es : List SchedEntry) (s : State) :
    (fireSomeFrom b es s).rdp.loadPending = s.rdp.loadPending := by
  induction es generalizing s with
  | nil => rfl
  | cons e es ih =>
    simp only [fireSomeFrom]
    split
    · split <;> simp [ih]
    · rfl
@[simp] theorem fireSomeFrom_rdp_mask (b : Option Time) (es : List SchedEntry) (s : State) :
    (fireSomeFrom b es s).rdp.mask = s.rdp.mask := by
  induction es generalizing s with
  | nil => rfl
  | cons e es ih =>
    simp only [fireSomeFrom]
    split
    · split <;> simp [ih]
    · rfl
@[simp] theorem fireSomeFrom_rdp_threshold (b : Option Time) (es : List SchedEntry) (s : State) :
    (fireSomeFrom b es s).rdp.threshold = s.rdp.threshold := by
  induction es generalizing s with
  | nil => rfl
  | cons e es ih =>
    simp only [fireSomeFrom]
    split
    · split <;> simp [ih]
    · rfl
@[simp] theorem fireSomeFrom_scu_quota (b : Option Time) (es : List SchedEntry) (s : State) :
    (fireSomeFrom b es s).scu.quota = s.scu.quota := by
  induction es generalizing s with
  | nil => rfl
  | cons e es ih =>
    simp only [fireSomeFrom]
    split
    · split <;> simp [ih]
    · rfl
@[simp] theorem fireSomeFrom_scu_drops (b : Option Time) (es : List SchedEntry) (s : State) :
    (fireSomeFrom b es s).scu.drops = s.scu.drops := by
  induction es generalizing s with
  | nil => rfl
  | cons e es ih =>
    simp only [fireSomeFrom]
    split
    · split <;> simp [ih]
    · rfl
@[simp] theorem fireSomeFrom_scu_lateDrop (b : Option Time) (es : List SchedEntry) (s : State) :
    (fireSomeFrom b es s).scu.lateDrop = s.scu.lateDrop := by
  induction es generalizing s with
  | nil => rfl
  | cons e es ih =>
    simp only [fireSomeFrom]
    split
    · split <;> simp [ih]
    · rfl
@[simp] theorem fireSomeFrom_scu_lateFire (b : Option Time) (es : List SchedEntry) (s : State) :
    (fireSomeFrom b es s).scu.lateFire = s.scu.lateFire := by
  induction es generalizing s with
  | nil => rfl
  | cons e es ih =>
    simp only [fireSomeFrom]
    split
    · split <;> simp [ih]
    · rfl
@[simp] theorem fireSomeFrom_scu_cancelled (b : Option Time) (es : List SchedEntry) (s : State) :
    (fireSomeFrom b es s).scu.cancelled = s.scu.cancelled := by
  induction es generalizing s with
  | nil => rfl
  | cons e es ih =>
    simp only [fireSomeFrom]
    split
    · split <;> simp [ih]
    · rfl

/-! ### fireSome -/

@[simp] theorem fireSome_tbu (b : Option Time) (s : State) :
    (fireSome b s).tbu = s.tbu := by
  simp [fireSome]
@[simp] theorem fireSome_mbu (b : Option Time) (s : State) :
    (fireSome b s).mbu = s.mbu := by
  simp [fireSome]
@[simp] theorem fireSome_syc (b : Option Time) (s : State) :
    (fireSome b s).syc = s.syc := by
  simp [fireSome]
@[simp] theorem fireSome_lif (b : Option Time) (s : State) :
    (fireSome b s).lif = s.lif := by
  simp [fireSome]
@[simp] theorem fireSome_tge (b : Option Time) (s : State) :
    (fireSome b s).tge = s.tge := by
  simp [fireSome]
@[simp] theorem fireSome_amp (b : Option Time) (s : State) :
    (fireSome b s).amp = s.amp := by
  simp [fireSome]
@[simp] theorem fireSome_src (b : Option Time) (s : State) :
    (fireSome b s).src = s.src := by
  simp [fireSome]
@[simp] theorem fireSome_cfg (b : Option Time) (s : State) :
    (fireSome b s).cfg = s.cfg := by
  simp [fireSome]
@[simp] theorem fireSome_uniqueId (b : Option Time) (s : State) :
    (fireSome b s).uniqueId = s.uniqueId := by
  simp [fireSome]
@[simp] theorem fireSome_pending (b : Option Time) (s : State) :
    (fireSome b s).pending = s.pending := by
  simp [fireSome]
@[simp] theorem fireSome_tlu_lines (b : Option Time) (s : State) :
    (fireSome b s).tlu.lines = s.tlu.lines := by
  simp [fireSome]
@[simp] theorem fireSome_tlu_inputs (b : Option Time) (s : State) :
    (fireSome b s).tlu.inputs = s.tlu.inputs := by
  simp [fireSome]
@[simp] theorem fireSome_tlu_pins (b : Option Time) (s : State) :
    (fireSome b s).tlu.pins = s.tlu.pins := by
  simp [fireSome]
@[simp] theorem fireSome_rdp_txn (b : Option Time) (s : State) :
    (fireSome b s).rdp.txn = s.rdp.txn := by
  simp [fireSome]
@[simp] theorem fireSome_rdp_armed (b : Option Time) (s : State) :
    (fireSome b s).rdp.armed = s.rdp.armed := by
  simp [fireSome]
@[simp] theorem fireSome_rdp_statePending (b : Option Time) (s : State) :
    (fireSome b s).rdp.statePending = s.rdp.statePending := by
  simp [fireSome]
@[simp] theorem fireSome_rdp_loadPending (b : Option Time) (s : State) :
    (fireSome b s).rdp.loadPending = s.rdp.loadPending := by
  simp [fireSome]
@[simp] theorem fireSome_rdp_mask (b : Option Time) (s : State) :
    (fireSome b s).rdp.mask = s.rdp.mask := by
  simp [fireSome]
@[simp] theorem fireSome_rdp_threshold (b : Option Time) (s : State) :
    (fireSome b s).rdp.threshold = s.rdp.threshold := by
  simp [fireSome]
@[simp] theorem fireSome_scu_quota (b : Option Time) (s : State) :
    (fireSome b s).scu.quota = s.scu.quota := by
  simp [fireSome]
@[simp] theorem fireSome_scu_drops (b : Option Time) (s : State) :
    (fireSome b s).scu.drops = s.scu.drops := by
  simp [fireSome]
@[simp] theorem fireSome_scu_lateDrop (b : Option Time) (s : State) :
    (fireSome b s).scu.lateDrop = s.scu.lateDrop := by
  simp [fireSome]
@[simp] theorem fireSome_scu_lateFire (b : Option Time) (s : State) :
    (fireSome b s).scu.lateFire = s.scu.lateFire := by
  simp [fireSome]
@[simp] theorem fireSome_scu_cancelled (b : Option Time) (s : State) :
    (fireSome b s).scu.cancelled = s.scu.cancelled := by
  simp [fireSome]

/-! ### removeUnfired -/

@[simp] theorem removeUnfired_tbu (g : SchedEntry → Bool) (s : State) :
    (removeUnfired g s).tbu = s.tbu := rfl
@[simp] theorem removeUnfired_mbu (g : SchedEntry → Bool) (s : State) :
    (removeUnfired g s).mbu = s.mbu := rfl
@[simp] theorem removeUnfired_syc (g : SchedEntry → Bool) (s : State) :
    (removeUnfired g s).syc = s.syc := rfl
@[simp] theorem removeUnfired_lif (g : SchedEntry → Bool) (s : State) :
    (removeUnfired g s).lif = s.lif := rfl
@[simp] theorem removeUnfired_tge (g : SchedEntry → Bool) (s : State) :
    (removeUnfired g s).tge = s.tge := rfl
@[simp] theorem removeUnfired_amp (g : SchedEntry → Bool) (s : State) :
    (removeUnfired g s).amp = s.amp := rfl
@[simp] theorem removeUnfired_tlu (g : SchedEntry → Bool) (s : State) :
    (removeUnfired g s).tlu = s.tlu := rfl
@[simp] theorem removeUnfired_jnl (g : SchedEntry → Bool) (s : State) :
    (removeUnfired g s).jnl = s.jnl := rfl
@[simp] theorem removeUnfired_rdp (g : SchedEntry → Bool) (s : State) :
    (removeUnfired g s).rdp = s.rdp := rfl
@[simp] theorem removeUnfired_src (g : SchedEntry → Bool) (s : State) :
    (removeUnfired g s).src = s.src := rfl
@[simp] theorem removeUnfired_cfg (g : SchedEntry → Bool) (s : State) :
    (removeUnfired g s).cfg = s.cfg := rfl
@[simp] theorem removeUnfired_uniqueId (g : SchedEntry → Bool) (s : State) :
    (removeUnfired g s).uniqueId = s.uniqueId := rfl
@[simp] theorem removeUnfired_freeCount (g : SchedEntry → Bool) (s : State) :
    (removeUnfired g s).freeCount = s.freeCount := rfl
@[simp] theorem removeUnfired_pending (g : SchedEntry → Bool) (s : State) :
    (removeUnfired g s).pending = s.pending := rfl
@[simp] theorem removeUnfired_scu_quota (g : SchedEntry → Bool) (s : State) :
    (removeUnfired g s).scu.quota = s.scu.quota := rfl
@[simp] theorem removeUnfired_scu_drops (g : SchedEntry → Bool) (s : State) :
    (removeUnfired g s).scu.drops = s.scu.drops := rfl
@[simp] theorem removeUnfired_scu_lateDrop (g : SchedEntry → Bool) (s : State) :
    (removeUnfired g s).scu.lateDrop = s.scu.lateDrop := rfl
@[simp] theorem removeUnfired_scu_lateFire (g : SchedEntry → Bool) (s : State) :
    (removeUnfired g s).scu.lateFire = s.scu.lateFire := rfl

/-! ### flush -/

@[simp] theorem flush_tbu (s : State) :
    (flush s).tbu = s.tbu := rfl
@[simp] theorem flush_mbu (s : State) :
    (flush s).mbu = s.mbu := rfl
@[simp] theorem flush_syc (s : State) :
    (flush s).syc = s.syc := rfl
@[simp] theorem flush_lif (s : State) :
    (flush s).lif = s.lif := rfl
@[simp] theorem flush_tge (s : State) :
    (flush s).tge = s.tge := rfl
@[simp] theorem flush_amp (s : State) :
    (flush s).amp = s.amp := rfl
@[simp] theorem flush_tlu (s : State) :
    (flush s).tlu = s.tlu := rfl
@[simp] theorem flush_jnl (s : State) :
    (flush s).jnl = s.jnl := rfl
@[simp] theorem flush_rdp (s : State) :
    (flush s).rdp = s.rdp := rfl
@[simp] theorem flush_src (s : State) :
    (flush s).src = s.src := rfl
@[simp] theorem flush_cfg (s : State) :
    (flush s).cfg = s.cfg := rfl
@[simp] theorem flush_uniqueId (s : State) :
    (flush s).uniqueId = s.uniqueId := rfl
@[simp] theorem flush_freeCount (s : State) :
    (flush s).freeCount = s.freeCount := rfl
@[simp] theorem flush_pending (s : State) :
    (flush s).pending = s.pending := rfl
@[simp] theorem flush_scu_quota (s : State) :
    (flush s).scu.quota = s.scu.quota := rfl
@[simp] theorem flush_scu_drops (s : State) :
    (flush s).scu.drops = s.scu.drops := rfl
@[simp] theorem flush_scu_lateDrop (s : State) :
    (flush s).scu.lateDrop = s.scu.lateDrop := rfl
@[simp] theorem flush_scu_lateFire (s : State) :
    (flush s).scu.lateFire = s.scu.lateFire := rfl

/-! ### purge -/

@[simp] theorem purge_tbu (s : State) :
    (purge s).tbu = s.tbu := rfl
@[simp] theorem purge_mbu (s : State) :
    (purge s).mbu = s.mbu := rfl
@[simp] theorem purge_syc (s : State) :
    (purge s).syc = s.syc := rfl
@[simp] theorem purge_tge (s : State) :
    (purge s).tge = s.tge := rfl
@[simp] theorem purge_amp (s : State) :
    (purge s).amp = s.amp := rfl
@[simp] theorem purge_scu (s : State) :
    (purge s).scu = s.scu := rfl
@[simp] theorem purge_tlu (s : State) :
    (purge s).tlu = s.tlu := rfl
@[simp] theorem purge_jnl (s : State) :
    (purge s).jnl = s.jnl := rfl
@[simp] theorem purge_rdp (s : State) :
    (purge s).rdp = s.rdp := rfl
@[simp] theorem purge_src (s : State) :
    (purge s).src = s.src := rfl
@[simp] theorem purge_cfg (s : State) :
    (purge s).cfg = s.cfg := rfl
@[simp] theorem purge_uniqueId (s : State) :
    (purge s).uniqueId = s.uniqueId := rfl
@[simp] theorem purge_freeCount (s : State) :
    (purge s).freeCount = s.freeCount := rfl
@[simp] theorem purge_pending (s : State) :
    (purge s).pending = s.pending := rfl
@[simp] theorem purge_lif_idleTimer (s : State) :
    (purge s).lif.idleTimer = s.lif.idleTimer := rfl
@[simp] theorem purge_lif_receiver (s : State) :
    (purge s).lif.receiver = s.lif.receiver := rfl
@[simp] theorem purge_lif_beaconsSent (s : State) :
    (purge s).lif.beaconsSent = s.lif.beaconsSent := rfl
@[simp] theorem purge_lif_copiesSent (s : State) :
    (purge s).lif.copiesSent = s.lif.copiesSent := rfl
@[simp] theorem purge_lif_framesReceived (s : State) :
    (purge s).lif.framesReceived = s.lif.framesReceived := rfl
@[simp] theorem purge_lif_badFrames (s : State) :
    (purge s).lif.badFrames = s.lif.badFrames := rfl
@[simp] theorem purge_lif_collisions (s : State) :
    (purge s).lif.collisions = s.lif.collisions := rfl
@[simp] theorem purge_lif_abandons (s : State) :
    (purge s).lif.abandons = s.lif.abandons := rfl

/-! ### placeBeacon -/

@[simp] theorem placeBeacon_tbu (c : Cfg) (s : State) :
    (placeBeacon c s).tbu = s.tbu := rfl
@[simp] theorem placeBeacon_mbu (c : Cfg) (s : State) :
    (placeBeacon c s).mbu = s.mbu := rfl
@[simp] theorem placeBeacon_syc (c : Cfg) (s : State) :
    (placeBeacon c s).syc = s.syc := rfl
@[simp] theorem placeBeacon_tge (c : Cfg) (s : State) :
    (placeBeacon c s).tge = s.tge := rfl
@[simp] theorem placeBeacon_amp (c : Cfg) (s : State) :
    (placeBeacon c s).amp = s.amp := rfl
@[simp] theorem placeBeacon_scu (c : Cfg) (s : State) :
    (placeBeacon c s).scu = s.scu := rfl
@[simp] theorem placeBeacon_tlu (c : Cfg) (s : State) :
    (placeBeacon c s).tlu = s.tlu := rfl
@[simp] theorem placeBeacon_jnl (c : Cfg) (s : State) :
    (placeBeacon c s).jnl = s.jnl := rfl
@[simp] theorem placeBeacon_rdp (c : Cfg) (s : State) :
    (placeBeacon c s).rdp = s.rdp := rfl
@[simp] theorem placeBeacon_src (c : Cfg) (s : State) :
    (placeBeacon c s).src = s.src := rfl
@[simp] theorem placeBeacon_cfg (c : Cfg) (s : State) :
    (placeBeacon c s).cfg = s.cfg := rfl
@[simp] theorem placeBeacon_uniqueId (c : Cfg) (s : State) :
    (placeBeacon c s).uniqueId = s.uniqueId := rfl
@[simp] theorem placeBeacon_freeCount (c : Cfg) (s : State) :
    (placeBeacon c s).freeCount = s.freeCount := rfl
@[simp] theorem placeBeacon_pending (c : Cfg) (s : State) :
    (placeBeacon c s).pending = s.pending := rfl
@[simp] theorem placeBeacon_lif_queue (c : Cfg) (s : State) :
    (placeBeacon c s).lif.queue = s.lif.queue := rfl
@[simp] theorem placeBeacon_lif_onLine (c : Cfg) (s : State) :
    (placeBeacon c s).lif.onLine = s.lif.onLine := rfl
@[simp] theorem placeBeacon_lif_idleTimer (c : Cfg) (s : State) :
    (placeBeacon c s).lif.idleTimer = s.lif.idleTimer := rfl
@[simp] theorem placeBeacon_lif_receiver (c : Cfg) (s : State) :
    (placeBeacon c s).lif.receiver = s.lif.receiver := rfl
@[simp] theorem placeBeacon_lif_beaconsSent (c : Cfg) (s : State) :
    (placeBeacon c s).lif.beaconsSent = s.lif.beaconsSent := rfl
@[simp] theorem placeBeacon_lif_copiesSent (c : Cfg) (s : State) :
    (placeBeacon c s).lif.copiesSent = s.lif.copiesSent := rfl
@[simp] theorem placeBeacon_lif_framesReceived (c : Cfg) (s : State) :
    (placeBeacon c s).lif.framesReceived = s.lif.framesReceived := rfl
@[simp] theorem placeBeacon_lif_badFrames (c : Cfg) (s : State) :
    (placeBeacon c s).lif.badFrames = s.lif.badFrames := rfl
@[simp] theorem placeBeacon_lif_collisions (c : Cfg) (s : State) :
    (placeBeacon c s).lif.collisions = s.lif.collisions := rfl
@[simp] theorem placeBeacon_lif_abandons (c : Cfg) (s : State) :
    (placeBeacon c s).lif.abandons = s.lif.abandons := rfl

/-! ### mapPeers -/

@[simp] theorem mapPeers_tbu (f : Peer → Peer) (s : State) :
    (mapPeers f s).tbu = s.tbu := rfl
@[simp] theorem mapPeers_syc (f : Peer → Peer) (s : State) :
    (mapPeers f s).syc = s.syc := rfl
@[simp] theorem mapPeers_lif (f : Peer → Peer) (s : State) :
    (mapPeers f s).lif = s.lif := rfl
@[simp] theorem mapPeers_tge (f : Peer → Peer) (s : State) :
    (mapPeers f s).tge = s.tge := rfl
@[simp] theorem mapPeers_amp (f : Peer → Peer) (s : State) :
    (mapPeers f s).amp = s.amp := rfl
@[simp] theorem mapPeers_scu (f : Peer → Peer) (s : State) :
    (mapPeers f s).scu = s.scu := rfl
@[simp] theorem mapPeers_tlu (f : Peer → Peer) (s : State) :
    (mapPeers f s).tlu = s.tlu := rfl
@[simp] theorem mapPeers_jnl (f : Peer → Peer) (s : State) :
    (mapPeers f s).jnl = s.jnl := rfl
@[simp] theorem mapPeers_rdp (f : Peer → Peer) (s : State) :
    (mapPeers f s).rdp = s.rdp := rfl
@[simp] theorem mapPeers_src (f : Peer → Peer) (s : State) :
    (mapPeers f s).src = s.src := rfl
@[simp] theorem mapPeers_cfg (f : Peer → Peer) (s : State) :
    (mapPeers f s).cfg = s.cfg := rfl
@[simp] theorem mapPeers_uniqueId (f : Peer → Peer) (s : State) :
    (mapPeers f s).uniqueId = s.uniqueId := rfl
@[simp] theorem mapPeers_freeCount (f : Peer → Peer) (s : State) :
    (mapPeers f s).freeCount = s.freeCount := rfl
@[simp] theorem mapPeers_pending (f : Peer → Peer) (s : State) :
    (mapPeers f s).pending = s.pending := rfl
@[simp] theorem mapPeers_mbu_agreement (f : Peer → Peer) (s : State) :
    (mapPeers f s).mbu.agreement = s.mbu.agreement := rfl
@[simp] theorem mapPeers_mbu_members (f : Peer → Peer) (s : State) :
    (mapPeers f s).mbu.members = s.mbu.members := rfl
@[simp] theorem mapPeers_mbu_minMembers (f : Peer → Peer) (s : State) :
    (mapPeers f s).mbu.minMembers = s.mbu.minMembers := rfl
@[simp] theorem mapPeers_mbu_maxMembers (f : Peer → Peer) (s : State) :
    (mapPeers f s).mbu.maxMembers = s.mbu.maxMembers := rfl

/-! ### clearFresh -/

@[simp] theorem clearFresh_tbu (s : State) :
    (clearFresh s).tbu = s.tbu := rfl
@[simp] theorem clearFresh_syc (s : State) :
    (clearFresh s).syc = s.syc := rfl
@[simp] theorem clearFresh_lif (s : State) :
    (clearFresh s).lif = s.lif := rfl
@[simp] theorem clearFresh_tge (s : State) :
    (clearFresh s).tge = s.tge := rfl
@[simp] theorem clearFresh_amp (s : State) :
    (clearFresh s).amp = s.amp := rfl
@[simp] theorem clearFresh_scu (s : State) :
    (clearFresh s).scu = s.scu := rfl
@[simp] theorem clearFresh_tlu (s : State) :
    (clearFresh s).tlu = s.tlu := rfl
@[simp] theorem clearFresh_jnl (s : State) :
    (clearFresh s).jnl = s.jnl := rfl
@[simp] theorem clearFresh_rdp (s : State) :
    (clearFresh s).rdp = s.rdp := rfl
@[simp] theorem clearFresh_src (s : State) :
    (clearFresh s).src = s.src := rfl
@[simp] theorem clearFresh_cfg (s : State) :
    (clearFresh s).cfg = s.cfg := rfl
@[simp] theorem clearFresh_uniqueId (s : State) :
    (clearFresh s).uniqueId = s.uniqueId := rfl
@[simp] theorem clearFresh_freeCount (s : State) :
    (clearFresh s).freeCount = s.freeCount := rfl
@[simp] theorem clearFresh_pending (s : State) :
    (clearFresh s).pending = s.pending := rfl
@[simp] theorem clearFresh_mbu_agreement (s : State) :
    (clearFresh s).mbu.agreement = s.mbu.agreement := rfl
@[simp] theorem clearFresh_mbu_members (s : State) :
    (clearFresh s).mbu.members = s.mbu.members := rfl
@[simp] theorem clearFresh_mbu_minMembers (s : State) :
    (clearFresh s).mbu.minMembers = s.mbu.minMembers := rfl
@[simp] theorem clearFresh_mbu_maxMembers (s : State) :
    (clearFresh s).mbu.maxMembers = s.mbu.maxMembers := rfl

/-! ### moveClusterTime -/

@[simp] theorem moveClusterTime_mbu (t : Time) (s : State) :
    (moveClusterTime t s).mbu = s.mbu := rfl
@[simp] theorem moveClusterTime_syc (t : Time) (s : State) :
    (moveClusterTime t s).syc = s.syc := rfl
@[simp] theorem moveClusterTime_tge (t : Time) (s : State) :
    (moveClusterTime t s).tge = s.tge := rfl
@[simp] theorem moveClusterTime_amp (t : Time) (s : State) :
    (moveClusterTime t s).amp = s.amp := rfl
@[simp] theorem moveClusterTime_scu (t : Time) (s : State) :
    (moveClusterTime t s).scu = s.scu := rfl
@[simp] theorem moveClusterTime_tlu (t : Time) (s : State) :
    (moveClusterTime t s).tlu = s.tlu := rfl
@[simp] theorem moveClusterTime_jnl (t : Time) (s : State) :
    (moveClusterTime t s).jnl = s.jnl := rfl
@[simp] theorem moveClusterTime_rdp (t : Time) (s : State) :
    (moveClusterTime t s).rdp = s.rdp := rfl
@[simp] theorem moveClusterTime_src (t : Time) (s : State) :
    (moveClusterTime t s).src = s.src := rfl
@[simp] theorem moveClusterTime_cfg (t : Time) (s : State) :
    (moveClusterTime t s).cfg = s.cfg := rfl
@[simp] theorem moveClusterTime_uniqueId (t : Time) (s : State) :
    (moveClusterTime t s).uniqueId = s.uniqueId := rfl
@[simp] theorem moveClusterTime_freeCount (t : Time) (s : State) :
    (moveClusterTime t s).freeCount = s.freeCount := rfl
@[simp] theorem moveClusterTime_pending (t : Time) (s : State) :
    (moveClusterTime t s).pending = s.pending := rfl
@[simp] theorem moveClusterTime_tbu_localClock (t : Time) (s : State) :
    (moveClusterTime t s).tbu.localClock = s.tbu.localClock := rfl
@[simp] theorem moveClusterTime_tbu_slewDebt (t : Time) (s : State) :
    (moveClusterTime t s).tbu.slewDebt = s.tbu.slewDebt := rfl
@[simp] theorem moveClusterTime_tbu_hold (t : Time) (s : State) :
    (moveClusterTime t s).tbu.hold = s.tbu.hold := rfl
@[simp] theorem moveClusterTime_tbu_nextBoundary (t : Time) (s : State) :
    (moveClusterTime t s).tbu.nextBoundary = s.tbu.nextBoundary := rfl
@[simp] theorem moveClusterTime_tbu_lastCorrection (t : Time) (s : State) :
    (moveClusterTime t s).tbu.lastCorrection = s.tbu.lastCorrection := rfl
@[simp] theorem moveClusterTime_tbu_minCorrection (t : Time) (s : State) :
    (moveClusterTime t s).tbu.minCorrection = s.tbu.minCorrection := rfl
@[simp] theorem moveClusterTime_tbu_maxCorrection (t : Time) (s : State) :
    (moveClusterTime t s).tbu.maxCorrection = s.tbu.maxCorrection := rfl
@[simp] theorem moveClusterTime_tbu_correctionCount (t : Time) (s : State) :
    (moveClusterTime t s).tbu.correctionCount = s.tbu.correctionCount := rfl
@[simp] theorem moveClusterTime_tbu_syncLossCount (t : Time) (s : State) :
    (moveClusterTime t s).tbu.syncLossCount = s.tbu.syncLossCount := rfl
@[simp] theorem moveClusterTime_lif_queue (t : Time) (s : State) :
    (moveClusterTime t s).lif.queue = s.lif.queue := rfl
@[simp] theorem moveClusterTime_lif_slot (t : Time) (s : State) :
    (moveClusterTime t s).lif.slot = s.lif.slot := rfl
@[simp] theorem moveClusterTime_lif_onLine (t : Time) (s : State) :
    (moveClusterTime t s).lif.onLine = s.lif.onLine := rfl
@[simp] theorem moveClusterTime_lif_idleTimer (t : Time) (s : State) :
    (moveClusterTime t s).lif.idleTimer = s.lif.idleTimer := rfl
@[simp] theorem moveClusterTime_lif_beaconsSent (t : Time) (s : State) :
    (moveClusterTime t s).lif.beaconsSent = s.lif.beaconsSent := rfl
@[simp] theorem moveClusterTime_lif_copiesSent (t : Time) (s : State) :
    (moveClusterTime t s).lif.copiesSent = s.lif.copiesSent := rfl
@[simp] theorem moveClusterTime_lif_framesReceived (t : Time) (s : State) :
    (moveClusterTime t s).lif.framesReceived = s.lif.framesReceived := rfl
@[simp] theorem moveClusterTime_lif_badFrames (t : Time) (s : State) :
    (moveClusterTime t s).lif.badFrames = s.lif.badFrames := rfl
@[simp] theorem moveClusterTime_lif_collisions (t : Time) (s : State) :
    (moveClusterTime t s).lif.collisions = s.lif.collisions := rfl
@[simp] theorem moveClusterTime_lif_abandons (t : Time) (s : State) :
    (moveClusterTime t s).lif.abandons = s.lif.abandons := rfl

/-! ### setClusterTime -/

@[simp] theorem setClusterTime_tge (c : Cfg) (t : Time) (s : State) :
    (setClusterTime c t s).tge = s.tge := rfl
@[simp] theorem setClusterTime_amp (c : Cfg) (t : Time) (s : State) :
    (setClusterTime c t s).amp = s.amp := rfl
@[simp] theorem setClusterTime_scu (c : Cfg) (t : Time) (s : State) :
    (setClusterTime c t s).scu = s.scu := rfl
@[simp] theorem setClusterTime_tlu (c : Cfg) (t : Time) (s : State) :
    (setClusterTime c t s).tlu = s.tlu := rfl
@[simp] theorem setClusterTime_jnl (c : Cfg) (t : Time) (s : State) :
    (setClusterTime c t s).jnl = s.jnl := rfl
@[simp] theorem setClusterTime_rdp (c : Cfg) (t : Time) (s : State) :
    (setClusterTime c t s).rdp = s.rdp := rfl
@[simp] theorem setClusterTime_src (c : Cfg) (t : Time) (s : State) :
    (setClusterTime c t s).src = s.src := rfl
@[simp] theorem setClusterTime_cfg (c : Cfg) (t : Time) (s : State) :
    (setClusterTime c t s).cfg = s.cfg := rfl
@[simp] theorem setClusterTime_uniqueId (c : Cfg) (t : Time) (s : State) :
    (setClusterTime c t s).uniqueId = s.uniqueId := rfl
@[simp] theorem setClusterTime_freeCount (c : Cfg) (t : Time) (s : State) :
    (setClusterTime c t s).freeCount = s.freeCount := rfl
@[simp] theorem setClusterTime_pending (c : Cfg) (t : Time) (s : State) :
    (setClusterTime c t s).pending = s.pending := rfl
@[simp] theorem setClusterTime_tbu_localClock (c : Cfg) (t : Time) (s : State) :
    (setClusterTime c t s).tbu.localClock = s.tbu.localClock := rfl
@[simp] theorem setClusterTime_tbu_lastCorrection (c : Cfg) (t : Time) (s : State) :
    (setClusterTime c t s).tbu.lastCorrection = s.tbu.lastCorrection := rfl
@[simp] theorem setClusterTime_tbu_minCorrection (c : Cfg) (t : Time) (s : State) :
    (setClusterTime c t s).tbu.minCorrection = s.tbu.minCorrection := rfl
@[simp] theorem setClusterTime_tbu_maxCorrection (c : Cfg) (t : Time) (s : State) :
    (setClusterTime c t s).tbu.maxCorrection = s.tbu.maxCorrection := rfl
@[simp] theorem setClusterTime_tbu_correctionCount (c : Cfg) (t : Time) (s : State) :
    (setClusterTime c t s).tbu.correctionCount = s.tbu.correctionCount := rfl
@[simp] theorem setClusterTime_tbu_syncLossCount (c : Cfg) (t : Time) (s : State) :
    (setClusterTime c t s).tbu.syncLossCount = s.tbu.syncLossCount := rfl
@[simp] theorem setClusterTime_lif_queue (c : Cfg) (t : Time) (s : State) :
    (setClusterTime c t s).lif.queue = s.lif.queue := rfl
@[simp] theorem setClusterTime_lif_slot (c : Cfg) (t : Time) (s : State) :
    (setClusterTime c t s).lif.slot = s.lif.slot := rfl
@[simp] theorem setClusterTime_lif_onLine (c : Cfg) (t : Time) (s : State) :
    (setClusterTime c t s).lif.onLine = s.lif.onLine := rfl
@[simp] theorem setClusterTime_lif_idleTimer (c : Cfg) (t : Time) (s : State) :
    (setClusterTime c t s).lif.idleTimer = s.lif.idleTimer := rfl
@[simp] theorem setClusterTime_lif_beaconsSent (c : Cfg) (t : Time) (s : State) :
    (setClusterTime c t s).lif.beaconsSent = s.lif.beaconsSent := rfl
@[simp] theorem setClusterTime_lif_copiesSent (c : Cfg) (t : Time) (s : State) :
    (setClusterTime c t s).lif.copiesSent = s.lif.copiesSent := rfl
@[simp] theorem setClusterTime_lif_framesReceived (c : Cfg) (t : Time) (s : State) :
    (setClusterTime c t s).lif.framesReceived = s.lif.framesReceived := rfl
@[simp] theorem setClusterTime_lif_badFrames (c : Cfg) (t : Time) (s : State) :
    (setClusterTime c t s).lif.badFrames = s.lif.badFrames := rfl
@[simp] theorem setClusterTime_lif_collisions (c : Cfg) (t : Time) (s : State) :
    (setClusterTime c t s).lif.collisions = s.lif.collisions := rfl
@[simp] theorem setClusterTime_lif_abandons (c : Cfg) (t : Time) (s : State) :
    (setClusterTime c t s).lif.abandons = s.lif.abandons := rfl
@[simp] theorem setClusterTime_mbu_agreement (c : Cfg) (t : Time) (s : State) :
    (setClusterTime c t s).mbu.agreement = s.mbu.agreement := rfl
@[simp] theorem setClusterTime_mbu_members (c : Cfg) (t : Time) (s : State) :
    (setClusterTime c t s).mbu.members = s.mbu.members := rfl
@[simp] theorem setClusterTime_mbu_minMembers (c : Cfg) (t : Time) (s : State) :
    (setClusterTime c t s).mbu.minMembers = s.mbu.minMembers := rfl
@[simp] theorem setClusterTime_mbu_maxMembers (c : Cfg) (t : Time) (s : State) :
    (setClusterTime c t s).mbu.maxMembers = s.mbu.maxMembers := rfl
@[simp] theorem setClusterTime_syc_state (c : Cfg) (t : Time) (s : State) :
    (setClusterTime c t s).syc.state = s.syc.state := rfl
@[simp] theorem setClusterTime_syc_lastSynchronizing (c : Cfg) (t : Time) (s : State) :
    (setClusterTime c t s).syc.lastSynchronizing = s.syc.lastSynchronizing := rfl
@[simp] theorem setClusterTime_syc_listenTimer (c : Cfg) (t : Time) (s : State) :
    (setClusterTime c t s).syc.listenTimer = s.syc.listenTimer := rfl
@[simp] theorem setClusterTime_syc_goodRounds (c : Cfg) (t : Time) (s : State) :
    (setClusterTime c t s).syc.goodRounds = s.syc.goodRounds := rfl
@[simp] theorem setClusterTime_syc_stableRounds (c : Cfg) (t : Time) (s : State) :
    (setClusterTime c t s).syc.stableRounds = s.syc.stableRounds := rfl
@[simp] theorem setClusterTime_syc_holdoverRounds (c : Cfg) (t : Time) (s : State) :
    (setClusterTime c t s).syc.holdoverRounds = s.syc.holdoverRounds := rfl

/-! ### setSyncState -/

@[simp] theorem setSyncState_tbu (c : Cfg) (x : SyncState) (s : State) :
    (setSyncState c x s).tbu = s.tbu := by
  unfold setSyncState clearLastEdges; dsimp only; split <;> rfl
@[simp] theorem setSyncState_mbu (c : Cfg) (x : SyncState) (s : State) :
    (setSyncState c x s).mbu = s.mbu := by
  unfold setSyncState clearLastEdges; dsimp only; split <;> rfl
@[simp] theorem setSyncState_lif (c : Cfg) (x : SyncState) (s : State) :
    (setSyncState c x s).lif = s.lif := by
  unfold setSyncState clearLastEdges; dsimp only; split <;> rfl
@[simp] theorem setSyncState_tge (c : Cfg) (x : SyncState) (s : State) :
    (setSyncState c x s).tge = s.tge := by
  unfold setSyncState clearLastEdges; dsimp only; split <;> rfl
@[simp] theorem setSyncState_amp (c : Cfg) (x : SyncState) (s : State) :
    (setSyncState c x s).amp = s.amp := by
  unfold setSyncState clearLastEdges; dsimp only; split <;> rfl
@[simp] theorem setSyncState_scu (c : Cfg) (x : SyncState) (s : State) :
    (setSyncState c x s).scu = s.scu := by
  unfold setSyncState clearLastEdges; dsimp only; split <;> rfl
@[simp] theorem setSyncState_jnl (c : Cfg) (x : SyncState) (s : State) :
    (setSyncState c x s).jnl = s.jnl := by
  unfold setSyncState clearLastEdges; dsimp only; split <;> rfl
@[simp] theorem setSyncState_src (c : Cfg) (x : SyncState) (s : State) :
    (setSyncState c x s).src = s.src := by
  unfold setSyncState clearLastEdges; dsimp only; split <;> rfl
@[simp] theorem setSyncState_cfg (c : Cfg) (x : SyncState) (s : State) :
    (setSyncState c x s).cfg = s.cfg := by
  unfold setSyncState clearLastEdges; dsimp only; split <;> rfl
@[simp] theorem setSyncState_uniqueId (c : Cfg) (x : SyncState) (s : State) :
    (setSyncState c x s).uniqueId = s.uniqueId := by
  unfold setSyncState clearLastEdges; dsimp only; split <;> rfl
@[simp] theorem setSyncState_freeCount (c : Cfg) (x : SyncState) (s : State) :
    (setSyncState c x s).freeCount = s.freeCount := by
  unfold setSyncState clearLastEdges; dsimp only; split <;> rfl
@[simp] theorem setSyncState_pending (c : Cfg) (x : SyncState) (s : State) :
    (setSyncState c x s).pending = s.pending := by
  unfold setSyncState clearLastEdges; dsimp only; split <;> rfl
@[simp] theorem setSyncState_tlu_lines (c : Cfg) (x : SyncState) (s : State) :
    (setSyncState c x s).tlu.lines = s.tlu.lines := by
  unfold setSyncState clearLastEdges; dsimp only; split <;> rfl
@[simp] theorem setSyncState_tlu_channels (c : Cfg) (x : SyncState) (s : State) :
    (setSyncState c x s).tlu.channels = s.tlu.channels := by
  unfold setSyncState clearLastEdges; dsimp only; split <;> rfl
@[simp] theorem setSyncState_tlu_overruns (c : Cfg) (x : SyncState) (s : State) :
    (setSyncState c x s).tlu.overruns = s.tlu.overruns := by
  unfold setSyncState clearLastEdges; dsimp only; split <;> rfl
@[simp] theorem setSyncState_tlu_pins (c : Cfg) (x : SyncState) (s : State) :
    (setSyncState c x s).tlu.pins = s.tlu.pins := by
  unfold setSyncState clearLastEdges; dsimp only; split <;> rfl
@[simp] theorem setSyncState_rdp_txn (c : Cfg) (x : SyncState) (s : State) :
    (setSyncState c x s).rdp.txn = s.rdp.txn := by
  unfold setSyncState clearLastEdges; dsimp only; split <;> rfl
@[simp] theorem setSyncState_rdp_armed (c : Cfg) (x : SyncState) (s : State) :
    (setSyncState c x s).rdp.armed = s.rdp.armed := by
  unfold setSyncState clearLastEdges; dsimp only; split <;> rfl
@[simp] theorem setSyncState_rdp_flags (c : Cfg) (x : SyncState) (s : State) :
    (setSyncState c x s).rdp.flags = s.rdp.flags := by
  unfold setSyncState clearLastEdges; dsimp only; split <;> rfl
@[simp] theorem setSyncState_rdp_loadPending (c : Cfg) (x : SyncState) (s : State) :
    (setSyncState c x s).rdp.loadPending = s.rdp.loadPending := by
  unfold setSyncState clearLastEdges; dsimp only; split <;> rfl
@[simp] theorem setSyncState_rdp_mask (c : Cfg) (x : SyncState) (s : State) :
    (setSyncState c x s).rdp.mask = s.rdp.mask := by
  unfold setSyncState clearLastEdges; dsimp only; split <;> rfl
@[simp] theorem setSyncState_rdp_threshold (c : Cfg) (x : SyncState) (s : State) :
    (setSyncState c x s).rdp.threshold = s.rdp.threshold := by
  unfold setSyncState clearLastEdges; dsimp only; split <;> rfl

/-! ### dropTime -/

@[simp] theorem dropTime_syc (b : Bool) (s : State) :
    (dropTime b s).syc = s.syc := rfl
@[simp] theorem dropTime_lif (b : Bool) (s : State) :
    (dropTime b s).lif = s.lif := rfl
@[simp] theorem dropTime_tge (b : Bool) (s : State) :
    (dropTime b s).tge = s.tge := rfl
@[simp] theorem dropTime_amp (b : Bool) (s : State) :
    (dropTime b s).amp = s.amp := rfl
@[simp] theorem dropTime_scu (b : Bool) (s : State) :
    (dropTime b s).scu = s.scu := rfl
@[simp] theorem dropTime_tlu (b : Bool) (s : State) :
    (dropTime b s).tlu = s.tlu := rfl
@[simp] theorem dropTime_jnl (b : Bool) (s : State) :
    (dropTime b s).jnl = s.jnl := rfl
@[simp] theorem dropTime_rdp (b : Bool) (s : State) :
    (dropTime b s).rdp = s.rdp := rfl
@[simp] theorem dropTime_src (b : Bool) (s : State) :
    (dropTime b s).src = s.src := rfl
@[simp] theorem dropTime_cfg (b : Bool) (s : State) :
    (dropTime b s).cfg = s.cfg := rfl
@[simp] theorem dropTime_uniqueId (b : Bool) (s : State) :
    (dropTime b s).uniqueId = s.uniqueId := rfl
@[simp] theorem dropTime_freeCount (b : Bool) (s : State) :
    (dropTime b s).freeCount = s.freeCount := rfl
@[simp] theorem dropTime_pending (b : Bool) (s : State) :
    (dropTime b s).pending = s.pending := rfl
@[simp] theorem dropTime_tbu_localClock (b : Bool) (s : State) :
    (dropTime b s).tbu.localClock = s.tbu.localClock := rfl
@[simp] theorem dropTime_tbu_clusterTime (b : Bool) (s : State) :
    (dropTime b s).tbu.clusterTime = s.tbu.clusterTime := rfl
@[simp] theorem dropTime_tbu_lastCorrection (b : Bool) (s : State) :
    (dropTime b s).tbu.lastCorrection = s.tbu.lastCorrection := rfl
@[simp] theorem dropTime_tbu_minCorrection (b : Bool) (s : State) :
    (dropTime b s).tbu.minCorrection = s.tbu.minCorrection := rfl
@[simp] theorem dropTime_tbu_maxCorrection (b : Bool) (s : State) :
    (dropTime b s).tbu.maxCorrection = s.tbu.maxCorrection := rfl
@[simp] theorem dropTime_tbu_correctionCount (b : Bool) (s : State) :
    (dropTime b s).tbu.correctionCount = s.tbu.correctionCount := rfl
@[simp] theorem dropTime_mbu_agreement (b : Bool) (s : State) :
    (dropTime b s).mbu.agreement = s.mbu.agreement := rfl
@[simp] theorem dropTime_mbu_members (b : Bool) (s : State) :
    (dropTime b s).mbu.members = s.mbu.members := rfl
@[simp] theorem dropTime_mbu_minMembers (b : Bool) (s : State) :
    (dropTime b s).mbu.minMembers = s.mbu.minMembers := rfl
@[simp] theorem dropTime_mbu_maxMembers (b : Bool) (s : State) :
    (dropTime b s).mbu.maxMembers = s.mbu.maxMembers := rfl

/-! ### trainEnd -/

@[simp] theorem trainEnd_tbu (s : State) :
    (trainEnd s).tbu = s.tbu := rfl
@[simp] theorem trainEnd_mbu (s : State) :
    (trainEnd s).mbu = s.mbu := rfl
@[simp] theorem trainEnd_syc (s : State) :
    (trainEnd s).syc = s.syc := rfl
@[simp] theorem trainEnd_lif (s : State) :
    (trainEnd s).lif = s.lif := rfl
@[simp] theorem trainEnd_tge (s : State) :
    (trainEnd s).tge = s.tge := rfl
@[simp] theorem trainEnd_amp (s : State) :
    (trainEnd s).amp = s.amp := rfl
@[simp] theorem trainEnd_scu (s : State) :
    (trainEnd s).scu = s.scu := rfl
@[simp] theorem trainEnd_jnl (s : State) :
    (trainEnd s).jnl = s.jnl := rfl
@[simp] theorem trainEnd_rdp (s : State) :
    (trainEnd s).rdp = s.rdp := rfl
@[simp] theorem trainEnd_src (s : State) :
    (trainEnd s).src = s.src := rfl
@[simp] theorem trainEnd_cfg (s : State) :
    (trainEnd s).cfg = s.cfg := rfl
@[simp] theorem trainEnd_uniqueId (s : State) :
    (trainEnd s).uniqueId = s.uniqueId := rfl
@[simp] theorem trainEnd_freeCount (s : State) :
    (trainEnd s).freeCount = s.freeCount := rfl
@[simp] theorem trainEnd_pending (s : State) :
    (trainEnd s).pending = s.pending := rfl
@[simp] theorem trainEnd_tlu_lines (s : State) :
    (trainEnd s).tlu.lines = s.tlu.lines := rfl
@[simp] theorem trainEnd_tlu_inputs (s : State) :
    (trainEnd s).tlu.inputs = s.tlu.inputs := rfl
@[simp] theorem trainEnd_tlu_pins (s : State) :
    (trainEnd s).tlu.pins = s.tlu.pins := rfl
@[simp] theorem trainEnd_tlu_overruns (s : State) :
    (trainEnd s).tlu.overruns = s.tlu.overruns := rfl

/-! ### spaceCheck -/

@[simp] theorem spaceCheck_tbu (e : SchedEntry) (s : State) :
    (spaceCheck e s).tbu = s.tbu := by
  unfold spaceCheck; split <;> rfl
@[simp] theorem spaceCheck_mbu (e : SchedEntry) (s : State) :
    (spaceCheck e s).mbu = s.mbu := by
  unfold spaceCheck; split <;> rfl
@[simp] theorem spaceCheck_syc (e : SchedEntry) (s : State) :
    (spaceCheck e s).syc = s.syc := by
  unfold spaceCheck; split <;> rfl
@[simp] theorem spaceCheck_lif (e : SchedEntry) (s : State) :
    (spaceCheck e s).lif = s.lif := by
  unfold spaceCheck; split <;> rfl
@[simp] theorem spaceCheck_tge (e : SchedEntry) (s : State) :
    (spaceCheck e s).tge = s.tge := by
  unfold spaceCheck; split <;> rfl
@[simp] theorem spaceCheck_amp (e : SchedEntry) (s : State) :
    (spaceCheck e s).amp = s.amp := by
  unfold spaceCheck; split <;> rfl
@[simp] theorem spaceCheck_tlu (e : SchedEntry) (s : State) :
    (spaceCheck e s).tlu = s.tlu := by
  unfold spaceCheck; split <;> rfl
@[simp] theorem spaceCheck_jnl (e : SchedEntry) (s : State) :
    (spaceCheck e s).jnl = s.jnl := by
  unfold spaceCheck; split <;> rfl
@[simp] theorem spaceCheck_src (e : SchedEntry) (s : State) :
    (spaceCheck e s).src = s.src := by
  unfold spaceCheck; split <;> rfl
@[simp] theorem spaceCheck_cfg (e : SchedEntry) (s : State) :
    (spaceCheck e s).cfg = s.cfg := by
  unfold spaceCheck; split <;> rfl
@[simp] theorem spaceCheck_uniqueId (e : SchedEntry) (s : State) :
    (spaceCheck e s).uniqueId = s.uniqueId := by
  unfold spaceCheck; split <;> rfl
@[simp] theorem spaceCheck_freeCount (e : SchedEntry) (s : State) :
    (spaceCheck e s).freeCount = s.freeCount := by
  unfold spaceCheck; split <;> rfl
@[simp] theorem spaceCheck_pending (e : SchedEntry) (s : State) :
    (spaceCheck e s).pending = s.pending := by
  unfold spaceCheck; split <;> rfl
@[simp] theorem spaceCheck_scu_quota (e : SchedEntry) (s : State) :
    (spaceCheck e s).scu.quota = s.scu.quota := by
  unfold spaceCheck; split <;> rfl
@[simp] theorem spaceCheck_scu_lateDrop (e : SchedEntry) (s : State) :
    (spaceCheck e s).scu.lateDrop = s.scu.lateDrop := by
  unfold spaceCheck; split <;> rfl
@[simp] theorem spaceCheck_scu_lateFire (e : SchedEntry) (s : State) :
    (spaceCheck e s).scu.lateFire = s.scu.lateFire := by
  unfold spaceCheck; split <;> rfl
@[simp] theorem spaceCheck_scu_cancelled (e : SchedEntry) (s : State) :
    (spaceCheck e s).scu.cancelled = s.scu.cancelled := by
  unfold spaceCheck; split <;> rfl
@[simp] theorem spaceCheck_rdp_txn (e : SchedEntry) (s : State) :
    (spaceCheck e s).rdp.txn = s.rdp.txn := by
  unfold spaceCheck; split <;> rfl
@[simp] theorem spaceCheck_rdp_armed (e : SchedEntry) (s : State) :
    (spaceCheck e s).rdp.armed = s.rdp.armed := by
  unfold spaceCheck; split <;> rfl
@[simp] theorem spaceCheck_rdp_statePending (e : SchedEntry) (s : State) :
    (spaceCheck e s).rdp.statePending = s.rdp.statePending := by
  unfold spaceCheck; split <;> rfl
@[simp] theorem spaceCheck_rdp_loadPending (e : SchedEntry) (s : State) :
    (spaceCheck e s).rdp.loadPending = s.rdp.loadPending := by
  unfold spaceCheck; split <;> rfl
@[simp] theorem spaceCheck_rdp_mask (e : SchedEntry) (s : State) :
    (spaceCheck e s).rdp.mask = s.rdp.mask := by
  unfold spaceCheck; split <;> rfl
@[simp] theorem spaceCheck_rdp_threshold (e : SchedEntry) (s : State) :
    (spaceCheck e s).rdp.threshold = s.rdp.threshold := by
  unfold spaceCheck; split <;> rfl

/-! ### insertAction -/

@[simp] theorem insertAction_tbu (t : Trigger) (s : State) (im : MapIndex × MapEntry) :
    (insertAction t s im).tbu = s.tbu := by
  unfold insertAction; dsimp only; split
  · split <;> simp
  · simp
@[simp] theorem insertAction_mbu (t : Trigger) (s : State) (im : MapIndex × MapEntry) :
    (insertAction t s im).mbu = s.mbu := by
  unfold insertAction; dsimp only; split
  · split <;> simp
  · simp
@[simp] theorem insertAction_syc (t : Trigger) (s : State) (im : MapIndex × MapEntry) :
    (insertAction t s im).syc = s.syc := by
  unfold insertAction; dsimp only; split
  · split <;> simp
  · simp
@[simp] theorem insertAction_lif (t : Trigger) (s : State) (im : MapIndex × MapEntry) :
    (insertAction t s im).lif = s.lif := by
  unfold insertAction; dsimp only; split
  · split <;> simp
  · simp
@[simp] theorem insertAction_tge (t : Trigger) (s : State) (im : MapIndex × MapEntry) :
    (insertAction t s im).tge = s.tge := by
  unfold insertAction; dsimp only; split
  · split <;> simp
  · simp
@[simp] theorem insertAction_amp (t : Trigger) (s : State) (im : MapIndex × MapEntry) :
    (insertAction t s im).amp = s.amp := by
  unfold insertAction; dsimp only; split
  · split <;> simp
  · simp
@[simp] theorem insertAction_tlu (t : Trigger) (s : State) (im : MapIndex × MapEntry) :
    (insertAction t s im).tlu = s.tlu := by
  unfold insertAction; dsimp only; split
  · split <;> simp
  · simp
@[simp] theorem insertAction_jnl (t : Trigger) (s : State) (im : MapIndex × MapEntry) :
    (insertAction t s im).jnl = s.jnl := by
  unfold insertAction; dsimp only; split
  · split <;> simp
  · simp
@[simp] theorem insertAction_src (t : Trigger) (s : State) (im : MapIndex × MapEntry) :
    (insertAction t s im).src = s.src := by
  unfold insertAction; dsimp only; split
  · split <;> simp
  · simp
@[simp] theorem insertAction_cfg (t : Trigger) (s : State) (im : MapIndex × MapEntry) :
    (insertAction t s im).cfg = s.cfg := by
  unfold insertAction; dsimp only; split
  · split <;> simp
  · simp
@[simp] theorem insertAction_uniqueId (t : Trigger) (s : State) (im : MapIndex × MapEntry) :
    (insertAction t s im).uniqueId = s.uniqueId := by
  unfold insertAction; dsimp only; split
  · split <;> simp
  · simp
@[simp] theorem insertAction_freeCount (t : Trigger) (s : State) (im : MapIndex × MapEntry) :
    (insertAction t s im).freeCount = s.freeCount := by
  unfold insertAction; dsimp only; split
  · split <;> simp
  · simp
@[simp] theorem insertAction_pending (t : Trigger) (s : State) (im : MapIndex × MapEntry) :
    (insertAction t s im).pending = s.pending := by
  unfold insertAction; dsimp only; split
  · split <;> simp
  · simp
@[simp] theorem insertAction_scu_quota (t : Trigger) (s : State) (im : MapIndex × MapEntry) :
    (insertAction t s im).scu.quota = s.scu.quota := by
  unfold insertAction; dsimp only; split
  · split <;> simp
  · simp
@[simp] theorem insertAction_scu_cancelled (t : Trigger) (s : State) (im : MapIndex × MapEntry) :
    (insertAction t s im).scu.cancelled = s.scu.cancelled := by
  unfold insertAction; dsimp only; split
  · split <;> simp
  · simp
@[simp] theorem insertAction_rdp_txn (t : Trigger) (s : State) (im : MapIndex × MapEntry) :
    (insertAction t s im).rdp.txn = s.rdp.txn := by
  unfold insertAction; dsimp only; split
  · split <;> simp
  · simp
@[simp] theorem insertAction_rdp_armed (t : Trigger) (s : State) (im : MapIndex × MapEntry) :
    (insertAction t s im).rdp.armed = s.rdp.armed := by
  unfold insertAction; dsimp only; split
  · split <;> simp
  · simp
@[simp] theorem insertAction_rdp_statePending (t : Trigger) (s : State) (im : MapIndex × MapEntry) :
    (insertAction t s im).rdp.statePending = s.rdp.statePending := by
  unfold insertAction; dsimp only; split
  · split <;> simp
  · simp
@[simp] theorem insertAction_rdp_loadPending (t : Trigger) (s : State) (im : MapIndex × MapEntry) :
    (insertAction t s im).rdp.loadPending = s.rdp.loadPending := by
  unfold insertAction; dsimp only; split
  · split <;> simp
  · simp
@[simp] theorem insertAction_rdp_mask (t : Trigger) (s : State) (im : MapIndex × MapEntry) :
    (insertAction t s im).rdp.mask = s.rdp.mask := by
  unfold insertAction; dsimp only; split
  · split <;> simp
  · simp
@[simp] theorem insertAction_rdp_threshold (t : Trigger) (s : State) (im : MapIndex × MapEntry) :
    (insertAction t s im).rdp.threshold = s.rdp.threshold := by
  unfold insertAction; dsimp only; split
  · split <;> simp
  · simp

/-! ### the insertions of one trigger -/

@[simp] theorem foldl_insertAction_tbu (t : Trigger) (ms : List (MapIndex × MapEntry)) (s : State) :
    (ms.foldl (fun s im => fireSome none (insertAction t s im)) s).tbu = s.tbu := by
  induction ms generalizing s with
  | nil => rfl
  | cons m ms ih => simp [ih]
@[simp] theorem foldl_insertAction_mbu (t : Trigger) (ms : List (MapIndex × MapEntry)) (s : State) :
    (ms.foldl (fun s im => fireSome none (insertAction t s im)) s).mbu = s.mbu := by
  induction ms generalizing s with
  | nil => rfl
  | cons m ms ih => simp [ih]
@[simp] theorem foldl_insertAction_syc (t : Trigger) (ms : List (MapIndex × MapEntry)) (s : State) :
    (ms.foldl (fun s im => fireSome none (insertAction t s im)) s).syc = s.syc := by
  induction ms generalizing s with
  | nil => rfl
  | cons m ms ih => simp [ih]
@[simp] theorem foldl_insertAction_lif (t : Trigger) (ms : List (MapIndex × MapEntry)) (s : State) :
    (ms.foldl (fun s im => fireSome none (insertAction t s im)) s).lif = s.lif := by
  induction ms generalizing s with
  | nil => rfl
  | cons m ms ih => simp [ih]
@[simp] theorem foldl_insertAction_tge (t : Trigger) (ms : List (MapIndex × MapEntry)) (s : State) :
    (ms.foldl (fun s im => fireSome none (insertAction t s im)) s).tge = s.tge := by
  induction ms generalizing s with
  | nil => rfl
  | cons m ms ih => simp [ih]
@[simp] theorem foldl_insertAction_amp (t : Trigger) (ms : List (MapIndex × MapEntry)) (s : State) :
    (ms.foldl (fun s im => fireSome none (insertAction t s im)) s).amp = s.amp := by
  induction ms generalizing s with
  | nil => rfl
  | cons m ms ih => simp [ih]
@[simp] theorem foldl_insertAction_src (t : Trigger) (ms : List (MapIndex × MapEntry)) (s : State) :
    (ms.foldl (fun s im => fireSome none (insertAction t s im)) s).src = s.src := by
  induction ms generalizing s with
  | nil => rfl
  | cons m ms ih => simp [ih]
@[simp] theorem foldl_insertAction_cfg (t : Trigger) (ms : List (MapIndex × MapEntry)) (s : State) :
    (ms.foldl (fun s im => fireSome none (insertAction t s im)) s).cfg = s.cfg := by
  induction ms generalizing s with
  | nil => rfl
  | cons m ms ih => simp [ih]
@[simp] theorem foldl_insertAction_uniqueId (t : Trigger) (ms : List (MapIndex × MapEntry)) (s : State) :
    (ms.foldl (fun s im => fireSome none (insertAction t s im)) s).uniqueId = s.uniqueId := by
  induction ms generalizing s with
  | nil => rfl
  | cons m ms ih => simp [ih]
@[simp] theorem foldl_insertAction_pending (t : Trigger) (ms : List (MapIndex × MapEntry)) (s : State) :
    (ms.foldl (fun s im => fireSome none (insertAction t s im)) s).pending = s.pending := by
  induction ms generalizing s with
  | nil => rfl
  | cons m ms ih => simp [ih]
@[simp] theorem foldl_insertAction_tlu_lines (t : Trigger) (ms : List (MapIndex × MapEntry)) (s : State) :
    (ms.foldl (fun s im => fireSome none (insertAction t s im)) s).tlu.lines = s.tlu.lines := by
  induction ms generalizing s with
  | nil => rfl
  | cons m ms ih => simp [ih]
@[simp] theorem foldl_insertAction_tlu_inputs (t : Trigger) (ms : List (MapIndex × MapEntry)) (s : State) :
    (ms.foldl (fun s im => fireSome none (insertAction t s im)) s).tlu.inputs = s.tlu.inputs := by
  induction ms generalizing s with
  | nil => rfl
  | cons m ms ih => simp [ih]
@[simp] theorem foldl_insertAction_tlu_pins (t : Trigger) (ms : List (MapIndex × MapEntry)) (s : State) :
    (ms.foldl (fun s im => fireSome none (insertAction t s im)) s).tlu.pins = s.tlu.pins := by
  induction ms generalizing s with
  | nil => rfl
  | cons m ms ih => simp [ih]
@[simp] theorem foldl_insertAction_rdp_txn (t : Trigger) (ms : List (MapIndex × MapEntry)) (s : State) :
    (ms.foldl (fun s im => fireSome none (insertAction t s im)) s).rdp.txn = s.rdp.txn := by
  induction ms generalizing s with
  | nil => rfl
  | cons m ms ih => simp [ih]
@[simp] theorem foldl_insertAction_rdp_armed (t : Trigger) (ms : List (MapIndex × MapEntry)) (s : State) :
    (ms.foldl (fun s im => fireSome none (insertAction t s im)) s).rdp.armed = s.rdp.armed := by
  induction ms generalizing s with
  | nil => rfl
  | cons m ms ih => simp [ih]
@[simp] theorem foldl_insertAction_rdp_statePending (t : Trigger) (ms : List (MapIndex × MapEntry)) (s : State) :
    (ms.foldl (fun s im => fireSome none (insertAction t s im)) s).rdp.statePending = s.rdp.statePending := by
  induction ms generalizing s with
  | nil => rfl
  | cons m ms ih => simp [ih]
@[simp] theorem foldl_insertAction_rdp_loadPending (t : Trigger) (ms : List (MapIndex × MapEntry)) (s : State) :
    (ms.foldl (fun s im => fireSome none (insertAction t s im)) s).rdp.loadPending = s.rdp.loadPending := by
  induction ms generalizing s with
  | nil => rfl
  | cons m ms ih => simp [ih]
@[simp] theorem foldl_insertAction_rdp_mask (t : Trigger) (ms : List (MapIndex × MapEntry)) (s : State) :
    (ms.foldl (fun s im => fireSome none (insertAction t s im)) s).rdp.mask = s.rdp.mask := by
  induction ms generalizing s with
  | nil => rfl
  | cons m ms ih => simp [ih]
@[simp] theorem foldl_insertAction_rdp_threshold (t : Trigger) (ms : List (MapIndex × MapEntry)) (s : State) :
    (ms.foldl (fun s im => fireSome none (insertAction t s im)) s).rdp.threshold = s.rdp.threshold := by
  induction ms generalizing s with
  | nil => rfl
  | cons m ms ih => simp [ih]
@[simp] theorem foldl_insertAction_scu_quota (t : Trigger) (ms : List (MapIndex × MapEntry)) (s : State) :
    (ms.foldl (fun s im => fireSome none (insertAction t s im)) s).scu.quota = s.scu.quota := by
  induction ms generalizing s with
  | nil => rfl
  | cons m ms ih => simp [ih]
@[simp] theorem foldl_insertAction_scu_cancelled (t : Trigger) (ms : List (MapIndex × MapEntry)) (s : State) :
    (ms.foldl (fun s im => fireSome none (insertAction t s im)) s).scu.cancelled = s.scu.cancelled := by
  induction ms generalizing s with
  | nil => rfl
  | cons m ms ih => simp [ih]

/-! ### countRefused -/

@[simp] theorem countRefused_tbu (s : State) :
    (countRefused s).tbu = s.tbu := rfl
@[simp] theorem countRefused_mbu (s : State) :
    (countRefused s).mbu = s.mbu := rfl
@[simp] theorem countRefused_syc (s : State) :
    (countRefused s).syc = s.syc := rfl
@[simp] theorem countRefused_lif (s : State) :
    (countRefused s).lif = s.lif := rfl
@[simp] theorem countRefused_amp (s : State) :
    (countRefused s).amp = s.amp := rfl
@[simp] theorem countRefused_scu (s : State) :
    (countRefused s).scu = s.scu := rfl
@[simp] theorem countRefused_tlu (s : State) :
    (countRefused s).tlu = s.tlu := rfl
@[simp] theorem countRefused_jnl (s : State) :
    (countRefused s).jnl = s.jnl := rfl
@[simp] theorem countRefused_rdp (s : State) :
    (countRefused s).rdp = s.rdp := rfl
@[simp] theorem countRefused_src (s : State) :
    (countRefused s).src = s.src := rfl
@[simp] theorem countRefused_cfg (s : State) :
    (countRefused s).cfg = s.cfg := rfl
@[simp] theorem countRefused_uniqueId (s : State) :
    (countRefused s).uniqueId = s.uniqueId := rfl
@[simp] theorem countRefused_freeCount (s : State) :
    (countRefused s).freeCount = s.freeCount := rfl
@[simp] theorem countRefused_pending (s : State) :
    (countRefused s).pending = s.pending := rfl
@[simp] theorem countRefused_tge_holdOffEnd (s : State) :
    (countRefused s).tge.holdOffEnd = s.tge.holdOffEnd := rfl
@[simp] theorem countRefused_tge_accepted (s : State) :
    (countRefused s).tge.accepted = s.tge.accepted := rfl
@[simp] theorem countRefused_tge_duplicate (s : State) :
    (countRefused s).tge.duplicate = s.tge.duplicate := rfl
@[simp] theorem countRefused_tge_notReady (s : State) :
    (countRefused s).tge.notReady = s.tge.notReady := rfl
@[simp] theorem countRefused_tge_notMember (s : State) :
    (countRefused s).tge.notMember = s.tge.notMember := rfl
@[simp] theorem countRefused_tge_selfNumbered (s : State) :
    (countRefused s).tge.selfNumbered = s.tge.selfNumbered := rfl

/-! ### stopChain -/

@[simp] theorem stopChain_tbu (t : Trigger) (s : State) :
    (stopChain t s).tbu = s.tbu := rfl
@[simp] theorem stopChain_mbu (t : Trigger) (s : State) :
    (stopChain t s).mbu = s.mbu := rfl
@[simp] theorem stopChain_syc (t : Trigger) (s : State) :
    (stopChain t s).syc = s.syc := rfl
@[simp] theorem stopChain_lif (t : Trigger) (s : State) :
    (stopChain t s).lif = s.lif := rfl
@[simp] theorem stopChain_amp (t : Trigger) (s : State) :
    (stopChain t s).amp = s.amp := rfl
@[simp] theorem stopChain_scu (t : Trigger) (s : State) :
    (stopChain t s).scu = s.scu := rfl
@[simp] theorem stopChain_tlu (t : Trigger) (s : State) :
    (stopChain t s).tlu = s.tlu := rfl
@[simp] theorem stopChain_jnl (t : Trigger) (s : State) :
    (stopChain t s).jnl = s.jnl := rfl
@[simp] theorem stopChain_src (t : Trigger) (s : State) :
    (stopChain t s).src = s.src := rfl
@[simp] theorem stopChain_cfg (t : Trigger) (s : State) :
    (stopChain t s).cfg = s.cfg := rfl
@[simp] theorem stopChain_uniqueId (t : Trigger) (s : State) :
    (stopChain t s).uniqueId = s.uniqueId := rfl
@[simp] theorem stopChain_freeCount (t : Trigger) (s : State) :
    (stopChain t s).freeCount = s.freeCount := rfl
@[simp] theorem stopChain_pending (t : Trigger) (s : State) :
    (stopChain t s).pending = s.pending := rfl
@[simp] theorem stopChain_tge_holdOffEnd (t : Trigger) (s : State) :
    (stopChain t s).tge.holdOffEnd = s.tge.holdOffEnd := rfl
@[simp] theorem stopChain_tge_accepted (t : Trigger) (s : State) :
    (stopChain t s).tge.accepted = s.tge.accepted := rfl
@[simp] theorem stopChain_tge_duplicate (t : Trigger) (s : State) :
    (stopChain t s).tge.duplicate = s.tge.duplicate := rfl
@[simp] theorem stopChain_tge_notReady (t : Trigger) (s : State) :
    (stopChain t s).tge.notReady = s.tge.notReady := rfl
@[simp] theorem stopChain_tge_notMember (t : Trigger) (s : State) :
    (stopChain t s).tge.notMember = s.tge.notMember := rfl
@[simp] theorem stopChain_tge_selfNumbered (t : Trigger) (s : State) :
    (stopChain t s).tge.selfNumbered = s.tge.selfNumbered := rfl
@[simp] theorem stopChain_rdp_txn (t : Trigger) (s : State) :
    (stopChain t s).rdp.txn = s.rdp.txn := rfl
@[simp] theorem stopChain_rdp_armed (t : Trigger) (s : State) :
    (stopChain t s).rdp.armed = s.rdp.armed := rfl
@[simp] theorem stopChain_rdp_statePending (t : Trigger) (s : State) :
    (stopChain t s).rdp.statePending = s.rdp.statePending := rfl
@[simp] theorem stopChain_rdp_loadPending (t : Trigger) (s : State) :
    (stopChain t s).rdp.loadPending = s.rdp.loadPending := rfl
@[simp] theorem stopChain_rdp_mask (t : Trigger) (s : State) :
    (stopChain t s).rdp.mask = s.rdp.mask := rfl
@[simp] theorem stopChain_rdp_threshold (t : Trigger) (s : State) :
    (stopChain t s).rdp.threshold = s.rdp.threshold := rfl

/-! ### enqueue -/

@[simp] theorem enqueue_tbu (c : Cfg) (t : Trigger) (s : State) :
    (enqueue c t s).tbu = s.tbu := rfl
@[simp] theorem enqueue_mbu (c : Cfg) (t : Trigger) (s : State) :
    (enqueue c t s).mbu = s.mbu := rfl
@[simp] theorem enqueue_syc (c : Cfg) (t : Trigger) (s : State) :
    (enqueue c t s).syc = s.syc := rfl
@[simp] theorem enqueue_amp (c : Cfg) (t : Trigger) (s : State) :
    (enqueue c t s).amp = s.amp := rfl
@[simp] theorem enqueue_scu (c : Cfg) (t : Trigger) (s : State) :
    (enqueue c t s).scu = s.scu := rfl
@[simp] theorem enqueue_tlu (c : Cfg) (t : Trigger) (s : State) :
    (enqueue c t s).tlu = s.tlu := rfl
@[simp] theorem enqueue_jnl (c : Cfg) (t : Trigger) (s : State) :
    (enqueue c t s).jnl = s.jnl := rfl
@[simp] theorem enqueue_rdp (c : Cfg) (t : Trigger) (s : State) :
    (enqueue c t s).rdp = s.rdp := rfl
@[simp] theorem enqueue_src (c : Cfg) (t : Trigger) (s : State) :
    (enqueue c t s).src = s.src := rfl
@[simp] theorem enqueue_cfg (c : Cfg) (t : Trigger) (s : State) :
    (enqueue c t s).cfg = s.cfg := rfl
@[simp] theorem enqueue_uniqueId (c : Cfg) (t : Trigger) (s : State) :
    (enqueue c t s).uniqueId = s.uniqueId := rfl
@[simp] theorem enqueue_freeCount (c : Cfg) (t : Trigger) (s : State) :
    (enqueue c t s).freeCount = s.freeCount := rfl
@[simp] theorem enqueue_pending (c : Cfg) (t : Trigger) (s : State) :
    (enqueue c t s).pending = s.pending := rfl
@[simp] theorem enqueue_tge_holdOffEnd (c : Cfg) (t : Trigger) (s : State) :
    (enqueue c t s).tge.holdOffEnd = s.tge.holdOffEnd := rfl
@[simp] theorem enqueue_tge_accepted (c : Cfg) (t : Trigger) (s : State) :
    (enqueue c t s).tge.accepted = s.tge.accepted := rfl
@[simp] theorem enqueue_tge_duplicate (c : Cfg) (t : Trigger) (s : State) :
    (enqueue c t s).tge.duplicate = s.tge.duplicate := rfl
@[simp] theorem enqueue_tge_notReady (c : Cfg) (t : Trigger) (s : State) :
    (enqueue c t s).tge.notReady = s.tge.notReady := rfl
@[simp] theorem enqueue_tge_notMember (c : Cfg) (t : Trigger) (s : State) :
    (enqueue c t s).tge.notMember = s.tge.notMember := rfl
@[simp] theorem enqueue_tge_selfNumbered (c : Cfg) (t : Trigger) (s : State) :
    (enqueue c t s).tge.selfNumbered = s.tge.selfNumbered := rfl
@[simp] theorem enqueue_lif_slot (c : Cfg) (t : Trigger) (s : State) :
    (enqueue c t s).lif.slot = s.lif.slot := rfl
@[simp] theorem enqueue_lif_onLine (c : Cfg) (t : Trigger) (s : State) :
    (enqueue c t s).lif.onLine = s.lif.onLine := rfl
@[simp] theorem enqueue_lif_idleTimer (c : Cfg) (t : Trigger) (s : State) :
    (enqueue c t s).lif.idleTimer = s.lif.idleTimer := rfl
@[simp] theorem enqueue_lif_receiver (c : Cfg) (t : Trigger) (s : State) :
    (enqueue c t s).lif.receiver = s.lif.receiver := rfl
@[simp] theorem enqueue_lif_beaconsSent (c : Cfg) (t : Trigger) (s : State) :
    (enqueue c t s).lif.beaconsSent = s.lif.beaconsSent := rfl
@[simp] theorem enqueue_lif_copiesSent (c : Cfg) (t : Trigger) (s : State) :
    (enqueue c t s).lif.copiesSent = s.lif.copiesSent := rfl
@[simp] theorem enqueue_lif_framesReceived (c : Cfg) (t : Trigger) (s : State) :
    (enqueue c t s).lif.framesReceived = s.lif.framesReceived := rfl
@[simp] theorem enqueue_lif_badFrames (c : Cfg) (t : Trigger) (s : State) :
    (enqueue c t s).lif.badFrames = s.lif.badFrames := rfl
@[simp] theorem enqueue_lif_collisions (c : Cfg) (t : Trigger) (s : State) :
    (enqueue c t s).lif.collisions = s.lif.collisions := rfl
@[simp] theorem enqueue_lif_abandons (c : Cfg) (t : Trigger) (s : State) :
    (enqueue c t s).lif.abandons = s.lif.abandons := rfl

/-! ### process -/

@[simp] theorem process_tbu (c : Cfg) (n : Nat) (t : Trigger) (s : State) :
    (process c n t s).tbu = s.tbu := by
  induction n generalizing t s with
  | zero => rfl
  | succ n ih =>
    simp only [process]
    split
    · simp
    · split
      · simp
      · split <;> simp [ih]
@[simp] theorem process_mbu (c : Cfg) (n : Nat) (t : Trigger) (s : State) :
    (process c n t s).mbu = s.mbu := by
  induction n generalizing t s with
  | zero => rfl
  | succ n ih =>
    simp only [process]
    split
    · simp
    · split
      · simp
      · split <;> simp [ih]
@[simp] theorem process_syc (c : Cfg) (n : Nat) (t : Trigger) (s : State) :
    (process c n t s).syc = s.syc := by
  induction n generalizing t s with
  | zero => rfl
  | succ n ih =>
    simp only [process]
    split
    · simp
    · split
      · simp
      · split <;> simp [ih]
@[simp] theorem process_amp (c : Cfg) (n : Nat) (t : Trigger) (s : State) :
    (process c n t s).amp = s.amp := by
  induction n generalizing t s with
  | zero => rfl
  | succ n ih =>
    simp only [process]
    split
    · simp
    · split
      · simp
      · split <;> simp [ih]
@[simp] theorem process_src (c : Cfg) (n : Nat) (t : Trigger) (s : State) :
    (process c n t s).src = s.src := by
  induction n generalizing t s with
  | zero => rfl
  | succ n ih =>
    simp only [process]
    split
    · simp
    · split
      · simp
      · split <;> simp [ih]
@[simp] theorem process_cfg (c : Cfg) (n : Nat) (t : Trigger) (s : State) :
    (process c n t s).cfg = s.cfg := by
  induction n generalizing t s with
  | zero => rfl
  | succ n ih =>
    simp only [process]
    split
    · simp
    · split
      · simp
      · split <;> simp [ih]
@[simp] theorem process_uniqueId (c : Cfg) (n : Nat) (t : Trigger) (s : State) :
    (process c n t s).uniqueId = s.uniqueId := by
  induction n generalizing t s with
  | zero => rfl
  | succ n ih =>
    simp only [process]
    split
    · simp
    · split
      · simp
      · split <;> simp [ih]
@[simp] theorem process_pending (c : Cfg) (n : Nat) (t : Trigger) (s : State) :
    (process c n t s).pending = s.pending := by
  induction n generalizing t s with
  | zero => rfl
  | succ n ih =>
    simp only [process]
    split
    · simp
    · split
      · simp
      · split <;> simp [ih]
@[simp] theorem process_tlu_lines (c : Cfg) (n : Nat) (t : Trigger) (s : State) :
    (process c n t s).tlu.lines = s.tlu.lines := by
  induction n generalizing t s with
  | zero => rfl
  | succ n ih =>
    simp only [process]
    split
    · simp
    · split
      · simp
      · split <;> simp [ih]
@[simp] theorem process_tlu_inputs (c : Cfg) (n : Nat) (t : Trigger) (s : State) :
    (process c n t s).tlu.inputs = s.tlu.inputs := by
  induction n generalizing t s with
  | zero => rfl
  | succ n ih =>
    simp only [process]
    split
    · simp
    · split
      · simp
      · split <;> simp [ih]
@[simp] theorem process_tlu_pins (c : Cfg) (n : Nat) (t : Trigger) (s : State) :
    (process c n t s).tlu.pins = s.tlu.pins := by
  induction n generalizing t s with
  | zero => rfl
  | succ n ih =>
    simp only [process]
    split
    · simp
    · split
      · simp
      · split <;> simp [ih]
@[simp] theorem process_rdp_txn (c : Cfg) (n : Nat) (t : Trigger) (s : State) :
    (process c n t s).rdp.txn = s.rdp.txn := by
  induction n generalizing t s with
  | zero => rfl
  | succ n ih =>
    simp only [process]
    split
    · simp
    · split
      · simp
      · split <;> simp [ih]
@[simp] theorem process_rdp_armed (c : Cfg) (n : Nat) (t : Trigger) (s : State) :
    (process c n t s).rdp.armed = s.rdp.armed := by
  induction n generalizing t s with
  | zero => rfl
  | succ n ih =>
    simp only [process]
    split
    · simp
    · split
      · simp
      · split <;> simp [ih]
@[simp] theorem process_rdp_statePending (c : Cfg) (n : Nat) (t : Trigger) (s : State) :
    (process c n t s).rdp.statePending = s.rdp.statePending := by
  induction n generalizing t s with
  | zero => rfl
  | succ n ih =>
    simp only [process]
    split
    · simp
    · split
      · simp
      · split <;> simp [ih]
@[simp] theorem process_rdp_loadPending (c : Cfg) (n : Nat) (t : Trigger) (s : State) :
    (process c n t s).rdp.loadPending = s.rdp.loadPending := by
  induction n generalizing t s with
  | zero => rfl
  | succ n ih =>
    simp only [process]
    split
    · simp
    · split
      · simp
      · split <;> simp [ih]
@[simp] theorem process_rdp_mask (c : Cfg) (n : Nat) (t : Trigger) (s : State) :
    (process c n t s).rdp.mask = s.rdp.mask := by
  induction n generalizing t s with
  | zero => rfl
  | succ n ih =>
    simp only [process]
    split
    · simp
    · split
      · simp
      · split <;> simp [ih]
@[simp] theorem process_rdp_threshold (c : Cfg) (n : Nat) (t : Trigger) (s : State) :
    (process c n t s).rdp.threshold = s.rdp.threshold := by
  induction n generalizing t s with
  | zero => rfl
  | succ n ih =>
    simp only [process]
    split
    · simp
    · split
      · simp
      · split <;> simp [ih]
@[simp] theorem process_scu_quota (c : Cfg) (n : Nat) (t : Trigger) (s : State) :
    (process c n t s).scu.quota = s.scu.quota := by
  induction n generalizing t s with
  | zero => rfl
  | succ n ih =>
    simp only [process]
    split
    · simp
    · split
      · simp
      · split <;> simp [ih]
@[simp] theorem process_scu_cancelled (c : Cfg) (n : Nat) (t : Trigger) (s : State) :
    (process c n t s).scu.cancelled = s.scu.cancelled := by
  induction n generalizing t s with
  | zero => rfl
  | succ n ih =>
    simp only [process]
    split
    · simp
    · split
      · simp
      · split <;> simp [ih]
@[simp] theorem process_tge_holdOffEnd (c : Cfg) (n : Nat) (t : Trigger) (s : State) :
    (process c n t s).tge.holdOffEnd = s.tge.holdOffEnd := by
  induction n generalizing t s with
  | zero => rfl
  | succ n ih =>
    simp only [process]
    split
    · simp
    · split
      · simp
      · split <;> simp [ih]
@[simp] theorem process_tge_accepted (c : Cfg) (n : Nat) (t : Trigger) (s : State) :
    (process c n t s).tge.accepted = s.tge.accepted := by
  induction n generalizing t s with
  | zero => rfl
  | succ n ih =>
    simp only [process]
    split
    · simp
    · split
      · simp
      · split <;> simp [ih]
@[simp] theorem process_tge_duplicate (c : Cfg) (n : Nat) (t : Trigger) (s : State) :
    (process c n t s).tge.duplicate = s.tge.duplicate := by
  induction n generalizing t s with
  | zero => rfl
  | succ n ih =>
    simp only [process]
    split
    · simp
    · split
      · simp
      · split <;> simp [ih]
@[simp] theorem process_tge_notReady (c : Cfg) (n : Nat) (t : Trigger) (s : State) :
    (process c n t s).tge.notReady = s.tge.notReady := by
  induction n generalizing t s with
  | zero => rfl
  | succ n ih =>
    simp only [process]
    split
    · simp
    · split
      · simp
      · split <;> simp [ih]
@[simp] theorem process_tge_notMember (c : Cfg) (n : Nat) (t : Trigger) (s : State) :
    (process c n t s).tge.notMember = s.tge.notMember := by
  induction n generalizing t s with
  | zero => rfl
  | succ n ih =>
    simp only [process]
    split
    · simp
    · split
      · simp
      · split <;> simp [ih]
@[simp] theorem process_tge_selfNumbered (c : Cfg) (n : Nat) (t : Trigger) (s : State) :
    (process c n t s).tge.selfNumbered = s.tge.selfNumbered := by
  induction n generalizing t s with
  | zero => rfl
  | succ n ih =>
    simp only [process]
    split
    · simp
    · split
      · simp
      · split <;> simp [ih]
@[simp] theorem process_lif_slot (c : Cfg) (n : Nat) (t : Trigger) (s : State) :
    (process c n t s).lif.slot = s.lif.slot := by
  induction n generalizing t s with
  | zero => rfl
  | succ n ih =>
    simp only [process]
    split
    · simp
    · split
      · simp
      · split <;> simp [ih]
@[simp] theorem process_lif_onLine (c : Cfg) (n : Nat) (t : Trigger) (s : State) :
    (process c n t s).lif.onLine = s.lif.onLine := by
  induction n generalizing t s with
  | zero => rfl
  | succ n ih =>
    simp only [process]
    split
    · simp
    · split
      · simp
      · split <;> simp [ih]
@[simp] theorem process_lif_idleTimer (c : Cfg) (n : Nat) (t : Trigger) (s : State) :
    (process c n t s).lif.idleTimer = s.lif.idleTimer := by
  induction n generalizing t s with
  | zero => rfl
  | succ n ih =>
    simp only [process]
    split
    · simp
    · split
      · simp
      · split <;> simp [ih]
@[simp] theorem process_lif_receiver (c : Cfg) (n : Nat) (t : Trigger) (s : State) :
    (process c n t s).lif.receiver = s.lif.receiver := by
  induction n generalizing t s with
  | zero => rfl
  | succ n ih =>
    simp only [process]
    split
    · simp
    · split
      · simp
      · split <;> simp [ih]
@[simp] theorem process_lif_beaconsSent (c : Cfg) (n : Nat) (t : Trigger) (s : State) :
    (process c n t s).lif.beaconsSent = s.lif.beaconsSent := by
  induction n generalizing t s with
  | zero => rfl
  | succ n ih =>
    simp only [process]
    split
    · simp
    · split
      · simp
      · split <;> simp [ih]
@[simp] theorem process_lif_copiesSent (c : Cfg) (n : Nat) (t : Trigger) (s : State) :
    (process c n t s).lif.copiesSent = s.lif.copiesSent := by
  induction n generalizing t s with
  | zero => rfl
  | succ n ih =>
    simp only [process]
    split
    · simp
    · split
      · simp
      · split <;> simp [ih]
@[simp] theorem process_lif_framesReceived (c : Cfg) (n : Nat) (t : Trigger) (s : State) :
    (process c n t s).lif.framesReceived = s.lif.framesReceived := by
  induction n generalizing t s with
  | zero => rfl
  | succ n ih =>
    simp only [process]
    split
    · simp
    · split
      · simp
      · split <;> simp [ih]
@[simp] theorem process_lif_badFrames (c : Cfg) (n : Nat) (t : Trigger) (s : State) :
    (process c n t s).lif.badFrames = s.lif.badFrames := by
  induction n generalizing t s with
  | zero => rfl
  | succ n ih =>
    simp only [process]
    split
    · simp
    · split
      · simp
      · split <;> simp [ih]
@[simp] theorem process_lif_collisions (c : Cfg) (n : Nat) (t : Trigger) (s : State) :
    (process c n t s).lif.collisions = s.lif.collisions := by
  induction n generalizing t s with
  | zero => rfl
  | succ n ih =>
    simp only [process]
    split
    · simp
    · split
      · simp
      · split <;> simp [ih]
@[simp] theorem process_lif_abandons (c : Cfg) (n : Nat) (t : Trigger) (s : State) :
    (process c n t s).lif.abandons = s.lif.abandons := by
  induction n generalizing t s with
  | zero => rfl
  | succ n ih =>
    simp only [process]
    split
    · simp
    · split
      · simp
      · split <;> simp [ih]

/-! ### raiseTrigger -/

@[simp] theorem raiseTrigger_tbu (c : Cfg) (k : TrigClass) (t : Time) (b : Bool) (s : State) :
    (raiseTrigger c k t b s).1.tbu = s.tbu := by
  unfold raiseTrigger; split <;> simp
@[simp] theorem raiseTrigger_mbu (c : Cfg) (k : TrigClass) (t : Time) (b : Bool) (s : State) :
    (raiseTrigger c k t b s).1.mbu = s.mbu := by
  unfold raiseTrigger; split <;> simp
@[simp] theorem raiseTrigger_syc (c : Cfg) (k : TrigClass) (t : Time) (b : Bool) (s : State) :
    (raiseTrigger c k t b s).1.syc = s.syc := by
  unfold raiseTrigger; split <;> simp
@[simp] theorem raiseTrigger_amp (c : Cfg) (k : TrigClass) (t : Time) (b : Bool) (s : State) :
    (raiseTrigger c k t b s).1.amp = s.amp := by
  unfold raiseTrigger; split <;> simp
@[simp] theorem raiseTrigger_src (c : Cfg) (k : TrigClass) (t : Time) (b : Bool) (s : State) :
    (raiseTrigger c k t b s).1.src = s.src := by
  unfold raiseTrigger; split <;> simp
@[simp] theorem raiseTrigger_cfg (c : Cfg) (k : TrigClass) (t : Time) (b : Bool) (s : State) :
    (raiseTrigger c k t b s).1.cfg = s.cfg := by
  unfold raiseTrigger; split <;> simp
@[simp] theorem raiseTrigger_uniqueId (c : Cfg) (k : TrigClass) (t : Time) (b : Bool) (s : State) :
    (raiseTrigger c k t b s).1.uniqueId = s.uniqueId := by
  unfold raiseTrigger; split <;> simp
@[simp] theorem raiseTrigger_pending (c : Cfg) (k : TrigClass) (t : Time) (b : Bool) (s : State) :
    (raiseTrigger c k t b s).1.pending = s.pending := by
  unfold raiseTrigger; split <;> simp
@[simp] theorem raiseTrigger_tlu_lines (c : Cfg) (k : TrigClass) (t : Time) (b : Bool) (s : State) :
    (raiseTrigger c k t b s).1.tlu.lines = s.tlu.lines := by
  unfold raiseTrigger; split <;> simp
@[simp] theorem raiseTrigger_tlu_inputs (c : Cfg) (k : TrigClass) (t : Time) (b : Bool) (s : State) :
    (raiseTrigger c k t b s).1.tlu.inputs = s.tlu.inputs := by
  unfold raiseTrigger; split <;> simp
@[simp] theorem raiseTrigger_tlu_pins (c : Cfg) (k : TrigClass) (t : Time) (b : Bool) (s : State) :
    (raiseTrigger c k t b s).1.tlu.pins = s.tlu.pins := by
  unfold raiseTrigger; split <;> simp
@[simp] theorem raiseTrigger_rdp_txn (c : Cfg) (k : TrigClass) (t : Time) (b : Bool) (s : State) :
    (raiseTrigger c k t b s).1.rdp.txn = s.rdp.txn := by
  unfold raiseTrigger; split <;> simp
@[simp] theorem raiseTrigger_rdp_armed (c : Cfg) (k : TrigClass) (t : Time) (b : Bool) (s : State) :
    (raiseTrigger c k t b s).1.rdp.armed = s.rdp.armed := by
  unfold raiseTrigger; split <;> simp
@[simp] theorem raiseTrigger_rdp_statePending (c : Cfg) (k : TrigClass) (t : Time) (b : Bool) (s : State) :
    (raiseTrigger c k t b s).1.rdp.statePending = s.rdp.statePending := by
  unfold raiseTrigger; split <;> simp
@[simp] theorem raiseTrigger_rdp_loadPending (c : Cfg) (k : TrigClass) (t : Time) (b : Bool) (s : State) :
    (raiseTrigger c k t b s).1.rdp.loadPending = s.rdp.loadPending := by
  unfold raiseTrigger; split <;> simp
@[simp] theorem raiseTrigger_rdp_mask (c : Cfg) (k : TrigClass) (t : Time) (b : Bool) (s : State) :
    (raiseTrigger c k t b s).1.rdp.mask = s.rdp.mask := by
  unfold raiseTrigger; split <;> simp
@[simp] theorem raiseTrigger_rdp_threshold (c : Cfg) (k : TrigClass) (t : Time) (b : Bool) (s : State) :
    (raiseTrigger c k t b s).1.rdp.threshold = s.rdp.threshold := by
  unfold raiseTrigger; split <;> simp
@[simp] theorem raiseTrigger_scu_quota (c : Cfg) (k : TrigClass) (t : Time) (b : Bool) (s : State) :
    (raiseTrigger c k t b s).1.scu.quota = s.scu.quota := by
  unfold raiseTrigger; split <;> simp
@[simp] theorem raiseTrigger_scu_cancelled (c : Cfg) (k : TrigClass) (t : Time) (b : Bool) (s : State) :
    (raiseTrigger c k t b s).1.scu.cancelled = s.scu.cancelled := by
  unfold raiseTrigger; split <;> simp
@[simp] theorem raiseTrigger_tge_holdOffEnd (c : Cfg) (k : TrigClass) (t : Time) (b : Bool) (s : State) :
    (raiseTrigger c k t b s).1.tge.holdOffEnd = s.tge.holdOffEnd := by
  unfold raiseTrigger; split <;> simp
@[simp] theorem raiseTrigger_tge_accepted (c : Cfg) (k : TrigClass) (t : Time) (b : Bool) (s : State) :
    (raiseTrigger c k t b s).1.tge.accepted = s.tge.accepted := by
  unfold raiseTrigger; split <;> simp
@[simp] theorem raiseTrigger_tge_duplicate (c : Cfg) (k : TrigClass) (t : Time) (b : Bool) (s : State) :
    (raiseTrigger c k t b s).1.tge.duplicate = s.tge.duplicate := by
  unfold raiseTrigger; split <;> simp
@[simp] theorem raiseTrigger_tge_notReady (c : Cfg) (k : TrigClass) (t : Time) (b : Bool) (s : State) :
    (raiseTrigger c k t b s).1.tge.notReady = s.tge.notReady := by
  unfold raiseTrigger; split <;> simp
@[simp] theorem raiseTrigger_tge_notMember (c : Cfg) (k : TrigClass) (t : Time) (b : Bool) (s : State) :
    (raiseTrigger c k t b s).1.tge.notMember = s.tge.notMember := by
  unfold raiseTrigger; split <;> simp
@[simp] theorem raiseTrigger_tge_selfNumbered (c : Cfg) (k : TrigClass) (t : Time) (b : Bool) (s : State) :
    (raiseTrigger c k t b s).1.tge.selfNumbered = s.tge.selfNumbered := by
  unfold raiseTrigger; split <;> simp
@[simp] theorem raiseTrigger_lif_slot (c : Cfg) (k : TrigClass) (t : Time) (b : Bool) (s : State) :
    (raiseTrigger c k t b s).1.lif.slot = s.lif.slot := by
  unfold raiseTrigger; split <;> simp
@[simp] theorem raiseTrigger_lif_onLine (c : Cfg) (k : TrigClass) (t : Time) (b : Bool) (s : State) :
    (raiseTrigger c k t b s).1.lif.onLine = s.lif.onLine := by
  unfold raiseTrigger; split <;> simp
@[simp] theorem raiseTrigger_lif_idleTimer (c : Cfg) (k : TrigClass) (t : Time) (b : Bool) (s : State) :
    (raiseTrigger c k t b s).1.lif.idleTimer = s.lif.idleTimer := by
  unfold raiseTrigger; split <;> simp
@[simp] theorem raiseTrigger_lif_receiver (c : Cfg) (k : TrigClass) (t : Time) (b : Bool) (s : State) :
    (raiseTrigger c k t b s).1.lif.receiver = s.lif.receiver := by
  unfold raiseTrigger; split <;> simp
@[simp] theorem raiseTrigger_lif_beaconsSent (c : Cfg) (k : TrigClass) (t : Time) (b : Bool) (s : State) :
    (raiseTrigger c k t b s).1.lif.beaconsSent = s.lif.beaconsSent := by
  unfold raiseTrigger; split <;> simp
@[simp] theorem raiseTrigger_lif_copiesSent (c : Cfg) (k : TrigClass) (t : Time) (b : Bool) (s : State) :
    (raiseTrigger c k t b s).1.lif.copiesSent = s.lif.copiesSent := by
  unfold raiseTrigger; split <;> simp
@[simp] theorem raiseTrigger_lif_framesReceived (c : Cfg) (k : TrigClass) (t : Time) (b : Bool) (s : State) :
    (raiseTrigger c k t b s).1.lif.framesReceived = s.lif.framesReceived := by
  unfold raiseTrigger; split <;> simp
@[simp] theorem raiseTrigger_lif_badFrames (c : Cfg) (k : TrigClass) (t : Time) (b : Bool) (s : State) :
    (raiseTrigger c k t b s).1.lif.badFrames = s.lif.badFrames := by
  unfold raiseTrigger; split <;> simp
@[simp] theorem raiseTrigger_lif_collisions (c : Cfg) (k : TrigClass) (t : Time) (b : Bool) (s : State) :
    (raiseTrigger c k t b s).1.lif.collisions = s.lif.collisions := by
  unfold raiseTrigger; split <;> simp
@[simp] theorem raiseTrigger_lif_abandons (c : Cfg) (k : TrigClass) (t : Time) (b : Bool) (s : State) :
    (raiseTrigger c k t b s).1.lif.abandons = s.lif.abandons := by
  unfold raiseTrigger; split <;> simp

/-! ### setPeer -/

@[simp] theorem setPeer_tbu (n : Station) (p : Peer) (s : State) :
    (setPeer n p s).tbu = s.tbu := rfl
@[simp] theorem setPeer_syc (n : Station) (p : Peer) (s : State) :
    (setPeer n p s).syc = s.syc := rfl
@[simp] theorem setPeer_lif (n : Station) (p : Peer) (s : State) :
    (setPeer n p s).lif = s.lif := rfl
@[simp] theorem setPeer_tge (n : Station) (p : Peer) (s : State) :
    (setPeer n p s).tge = s.tge := rfl
@[simp] theorem setPeer_amp (n : Station) (p : Peer) (s : State) :
    (setPeer n p s).amp = s.amp := rfl
@[simp] theorem setPeer_scu (n : Station) (p : Peer) (s : State) :
    (setPeer n p s).scu = s.scu := rfl
@[simp] theorem setPeer_tlu (n : Station) (p : Peer) (s : State) :
    (setPeer n p s).tlu = s.tlu := rfl
@[simp] theorem setPeer_jnl (n : Station) (p : Peer) (s : State) :
    (setPeer n p s).jnl = s.jnl := rfl
@[simp] theorem setPeer_rdp (n : Station) (p : Peer) (s : State) :
    (setPeer n p s).rdp = s.rdp := rfl
@[simp] theorem setPeer_src (n : Station) (p : Peer) (s : State) :
    (setPeer n p s).src = s.src := rfl
@[simp] theorem setPeer_cfg (n : Station) (p : Peer) (s : State) :
    (setPeer n p s).cfg = s.cfg := rfl
@[simp] theorem setPeer_uniqueId (n : Station) (p : Peer) (s : State) :
    (setPeer n p s).uniqueId = s.uniqueId := rfl
@[simp] theorem setPeer_freeCount (n : Station) (p : Peer) (s : State) :
    (setPeer n p s).freeCount = s.freeCount := rfl
@[simp] theorem setPeer_pending (n : Station) (p : Peer) (s : State) :
    (setPeer n p s).pending = s.pending := rfl
@[simp] theorem setPeer_mbu_agreement (n : Station) (p : Peer) (s : State) :
    (setPeer n p s).mbu.agreement = s.mbu.agreement := rfl
@[simp] theorem setPeer_mbu_members (n : Station) (p : Peer) (s : State) :
    (setPeer n p s).mbu.members = s.mbu.members := rfl
@[simp] theorem setPeer_mbu_minMembers (n : Station) (p : Peer) (s : State) :
    (setPeer n p s).mbu.minMembers = s.mbu.minMembers := rfl
@[simp] theorem setPeer_mbu_maxMembers (n : Station) (p : Peer) (s : State) :
    (setPeer n p s).mbu.maxMembers = s.mbu.maxMembers := rfl

/-! ### stepTime -/

@[simp] theorem stepTime_mbu (x : Int) (s : State) :
    (stepTime x s).mbu = s.mbu := by
  rw [stepTime]; split_ifs <;> rfl
@[simp] theorem stepTime_syc (x : Int) (s : State) :
    (stepTime x s).syc = s.syc := by
  rw [stepTime]; split_ifs <;> rfl
@[simp] theorem stepTime_tge (x : Int) (s : State) :
    (stepTime x s).tge = s.tge := by
  rw [stepTime]; split_ifs <;> rfl
@[simp] theorem stepTime_amp (x : Int) (s : State) :
    (stepTime x s).amp = s.amp := by
  rw [stepTime]; split_ifs <;> rfl
@[simp] theorem stepTime_scu (x : Int) (s : State) :
    (stepTime x s).scu = s.scu := by
  rw [stepTime]; split_ifs <;> rfl
@[simp] theorem stepTime_tlu (x : Int) (s : State) :
    (stepTime x s).tlu = s.tlu := by
  rw [stepTime]; split_ifs <;> rfl
@[simp] theorem stepTime_jnl (x : Int) (s : State) :
    (stepTime x s).jnl = s.jnl := by
  rw [stepTime]; split_ifs <;> rfl
@[simp] theorem stepTime_rdp (x : Int) (s : State) :
    (stepTime x s).rdp = s.rdp := by
  rw [stepTime]; split_ifs <;> rfl
@[simp] theorem stepTime_src (x : Int) (s : State) :
    (stepTime x s).src = s.src := by
  rw [stepTime]; split_ifs <;> rfl
@[simp] theorem stepTime_cfg (x : Int) (s : State) :
    (stepTime x s).cfg = s.cfg := by
  rw [stepTime]; split_ifs <;> rfl
@[simp] theorem stepTime_uniqueId (x : Int) (s : State) :
    (stepTime x s).uniqueId = s.uniqueId := by
  rw [stepTime]; split_ifs <;> rfl
@[simp] theorem stepTime_freeCount (x : Int) (s : State) :
    (stepTime x s).freeCount = s.freeCount := by
  rw [stepTime]; split_ifs <;> rfl
@[simp] theorem stepTime_pending (x : Int) (s : State) :
    (stepTime x s).pending = s.pending := by
  rw [stepTime]; split_ifs <;> rfl
@[simp] theorem stepTime_tbu_localClock (x : Int) (s : State) :
    (stepTime x s).tbu.localClock = s.tbu.localClock := by
  rw [stepTime]; split_ifs <;> rfl
@[simp] theorem stepTime_tbu_hold (x : Int) (s : State) :
    (stepTime x s).tbu.hold = s.tbu.hold := by
  rw [stepTime]; split_ifs <;> rfl
@[simp] theorem stepTime_tbu_nextBoundary (x : Int) (s : State) :
    (stepTime x s).tbu.nextBoundary = s.tbu.nextBoundary := by
  rw [stepTime]; split_ifs <;> rfl
@[simp] theorem stepTime_tbu_lastCorrection (x : Int) (s : State) :
    (stepTime x s).tbu.lastCorrection = s.tbu.lastCorrection := by
  rw [stepTime]; split_ifs <;> rfl
@[simp] theorem stepTime_tbu_minCorrection (x : Int) (s : State) :
    (stepTime x s).tbu.minCorrection = s.tbu.minCorrection := by
  rw [stepTime]; split_ifs <;> rfl
@[simp] theorem stepTime_tbu_maxCorrection (x : Int) (s : State) :
    (stepTime x s).tbu.maxCorrection = s.tbu.maxCorrection := by
  rw [stepTime]; split_ifs <;> rfl
@[simp] theorem stepTime_tbu_correctionCount (x : Int) (s : State) :
    (stepTime x s).tbu.correctionCount = s.tbu.correctionCount := by
  rw [stepTime]; split_ifs <;> rfl
@[simp] theorem stepTime_tbu_syncLossCount (x : Int) (s : State) :
    (stepTime x s).tbu.syncLossCount = s.tbu.syncLossCount := by
  rw [stepTime]; split_ifs <;> rfl
@[simp] theorem stepTime_lif_queue (x : Int) (s : State) :
    (stepTime x s).lif.queue = s.lif.queue := by
  rw [stepTime]; split_ifs <;> rfl
@[simp] theorem stepTime_lif_slot (x : Int) (s : State) :
    (stepTime x s).lif.slot = s.lif.slot := by
  rw [stepTime]; split_ifs <;> rfl
@[simp] theorem stepTime_lif_onLine (x : Int) (s : State) :
    (stepTime x s).lif.onLine = s.lif.onLine := by
  rw [stepTime]; split_ifs <;> rfl
@[simp] theorem stepTime_lif_idleTimer (x : Int) (s : State) :
    (stepTime x s).lif.idleTimer = s.lif.idleTimer := by
  rw [stepTime]; split_ifs <;> rfl
@[simp] theorem stepTime_lif_beaconsSent (x : Int) (s : State) :
    (stepTime x s).lif.beaconsSent = s.lif.beaconsSent := by
  rw [stepTime]; split_ifs <;> rfl
@[simp] theorem stepTime_lif_copiesSent (x : Int) (s : State) :
    (stepTime x s).lif.copiesSent = s.lif.copiesSent := by
  rw [stepTime]; split_ifs <;> rfl
@[simp] theorem stepTime_lif_framesReceived (x : Int) (s : State) :
    (stepTime x s).lif.framesReceived = s.lif.framesReceived := by
  rw [stepTime]; split_ifs <;> rfl
@[simp] theorem stepTime_lif_badFrames (x : Int) (s : State) :
    (stepTime x s).lif.badFrames = s.lif.badFrames := by
  rw [stepTime]; split_ifs <;> rfl
@[simp] theorem stepTime_lif_collisions (x : Int) (s : State) :
    (stepTime x s).lif.collisions = s.lif.collisions := by
  rw [stepTime]; split_ifs <;> rfl
@[simp] theorem stepTime_lif_abandons (x : Int) (s : State) :
    (stepTime x s).lif.abandons = s.lif.abandons := by
  rw [stepTime]; split_ifs <;> rfl

/-! ### countCorrection -/

@[simp] theorem countCorrection_mbu (x : Int) (s : State) :
    (countCorrection x s).mbu = s.mbu := rfl
@[simp] theorem countCorrection_syc (x : Int) (s : State) :
    (countCorrection x s).syc = s.syc := rfl
@[simp] theorem countCorrection_lif (x : Int) (s : State) :
    (countCorrection x s).lif = s.lif := rfl
@[simp] theorem countCorrection_tge (x : Int) (s : State) :
    (countCorrection x s).tge = s.tge := rfl
@[simp] theorem countCorrection_amp (x : Int) (s : State) :
    (countCorrection x s).amp = s.amp := rfl
@[simp] theorem countCorrection_scu (x : Int) (s : State) :
    (countCorrection x s).scu = s.scu := rfl
@[simp] theorem countCorrection_tlu (x : Int) (s : State) :
    (countCorrection x s).tlu = s.tlu := rfl
@[simp] theorem countCorrection_jnl (x : Int) (s : State) :
    (countCorrection x s).jnl = s.jnl := rfl
@[simp] theorem countCorrection_rdp (x : Int) (s : State) :
    (countCorrection x s).rdp = s.rdp := rfl
@[simp] theorem countCorrection_src (x : Int) (s : State) :
    (countCorrection x s).src = s.src := rfl
@[simp] theorem countCorrection_cfg (x : Int) (s : State) :
    (countCorrection x s).cfg = s.cfg := rfl
@[simp] theorem countCorrection_uniqueId (x : Int) (s : State) :
    (countCorrection x s).uniqueId = s.uniqueId := rfl
@[simp] theorem countCorrection_freeCount (x : Int) (s : State) :
    (countCorrection x s).freeCount = s.freeCount := rfl
@[simp] theorem countCorrection_pending (x : Int) (s : State) :
    (countCorrection x s).pending = s.pending := rfl
@[simp] theorem countCorrection_tbu_localClock (x : Int) (s : State) :
    (countCorrection x s).tbu.localClock = s.tbu.localClock := rfl
@[simp] theorem countCorrection_tbu_clusterTime (x : Int) (s : State) :
    (countCorrection x s).tbu.clusterTime = s.tbu.clusterTime := rfl
@[simp] theorem countCorrection_tbu_slewDebt (x : Int) (s : State) :
    (countCorrection x s).tbu.slewDebt = s.tbu.slewDebt := rfl
@[simp] theorem countCorrection_tbu_hold (x : Int) (s : State) :
    (countCorrection x s).tbu.hold = s.tbu.hold := rfl
@[simp] theorem countCorrection_tbu_nextBoundary (x : Int) (s : State) :
    (countCorrection x s).tbu.nextBoundary = s.tbu.nextBoundary := rfl
@[simp] theorem countCorrection_tbu_syncLossCount (x : Int) (s : State) :
    (countCorrection x s).tbu.syncLossCount = s.tbu.syncLossCount := rfl

/-! ### applyOutcome -/

@[simp] theorem applyOutcome_mbu (o : Outcome) (s : State) :
    (applyOutcome o s).mbu = s.mbu := by
  cases o <;> simp [applyOutcome]
@[simp] theorem applyOutcome_syc (o : Outcome) (s : State) :
    (applyOutcome o s).syc = s.syc := by
  cases o <;> simp [applyOutcome]
@[simp] theorem applyOutcome_tge (o : Outcome) (s : State) :
    (applyOutcome o s).tge = s.tge := by
  cases o <;> simp [applyOutcome]
@[simp] theorem applyOutcome_amp (o : Outcome) (s : State) :
    (applyOutcome o s).amp = s.amp := by
  cases o <;> simp [applyOutcome]
@[simp] theorem applyOutcome_scu (o : Outcome) (s : State) :
    (applyOutcome o s).scu = s.scu := by
  cases o <;> simp [applyOutcome]
@[simp] theorem applyOutcome_tlu (o : Outcome) (s : State) :
    (applyOutcome o s).tlu = s.tlu := by
  cases o <;> simp [applyOutcome]
@[simp] theorem applyOutcome_jnl (o : Outcome) (s : State) :
    (applyOutcome o s).jnl = s.jnl := by
  cases o <;> simp [applyOutcome]
@[simp] theorem applyOutcome_rdp (o : Outcome) (s : State) :
    (applyOutcome o s).rdp = s.rdp := by
  cases o <;> simp [applyOutcome]
@[simp] theorem applyOutcome_src (o : Outcome) (s : State) :
    (applyOutcome o s).src = s.src := by
  cases o <;> simp [applyOutcome]
@[simp] theorem applyOutcome_cfg (o : Outcome) (s : State) :
    (applyOutcome o s).cfg = s.cfg := by
  cases o <;> simp [applyOutcome]
@[simp] theorem applyOutcome_uniqueId (o : Outcome) (s : State) :
    (applyOutcome o s).uniqueId = s.uniqueId := by
  cases o <;> simp [applyOutcome]
@[simp] theorem applyOutcome_freeCount (o : Outcome) (s : State) :
    (applyOutcome o s).freeCount = s.freeCount := by
  cases o <;> simp [applyOutcome]
@[simp] theorem applyOutcome_pending (o : Outcome) (s : State) :
    (applyOutcome o s).pending = s.pending := by
  cases o <;> simp [applyOutcome]
@[simp] theorem applyOutcome_tbu_localClock (o : Outcome) (s : State) :
    (applyOutcome o s).tbu.localClock = s.tbu.localClock := by
  cases o <;> simp [applyOutcome]
@[simp] theorem applyOutcome_tbu_hold (o : Outcome) (s : State) :
    (applyOutcome o s).tbu.hold = s.tbu.hold := by
  cases o <;> simp [applyOutcome]
@[simp] theorem applyOutcome_tbu_nextBoundary (o : Outcome) (s : State) :
    (applyOutcome o s).tbu.nextBoundary = s.tbu.nextBoundary := by
  cases o <;> simp [applyOutcome]
@[simp] theorem applyOutcome_tbu_syncLossCount (o : Outcome) (s : State) :
    (applyOutcome o s).tbu.syncLossCount = s.tbu.syncLossCount := by
  cases o <;> simp [applyOutcome]
@[simp] theorem applyOutcome_lif_queue (o : Outcome) (s : State) :
    (applyOutcome o s).lif.queue = s.lif.queue := by
  cases o <;> simp [applyOutcome]
@[simp] theorem applyOutcome_lif_slot (o : Outcome) (s : State) :
    (applyOutcome o s).lif.slot = s.lif.slot := by
  cases o <;> simp [applyOutcome]
@[simp] theorem applyOutcome_lif_onLine (o : Outcome) (s : State) :
    (applyOutcome o s).lif.onLine = s.lif.onLine := by
  cases o <;> simp [applyOutcome]
@[simp] theorem applyOutcome_lif_idleTimer (o : Outcome) (s : State) :
    (applyOutcome o s).lif.idleTimer = s.lif.idleTimer := by
  cases o <;> simp [applyOutcome]
@[simp] theorem applyOutcome_lif_beaconsSent (o : Outcome) (s : State) :
    (applyOutcome o s).lif.beaconsSent = s.lif.beaconsSent := by
  cases o <;> simp [applyOutcome]
@[simp] theorem applyOutcome_lif_copiesSent (o : Outcome) (s : State) :
    (applyOutcome o s).lif.copiesSent = s.lif.copiesSent := by
  cases o <;> simp [applyOutcome]
@[simp] theorem applyOutcome_lif_framesReceived (o : Outcome) (s : State) :
    (applyOutcome o s).lif.framesReceived = s.lif.framesReceived := by
  cases o <;> simp [applyOutcome]
@[simp] theorem applyOutcome_lif_badFrames (o : Outcome) (s : State) :
    (applyOutcome o s).lif.badFrames = s.lif.badFrames := by
  cases o <;> simp [applyOutcome]
@[simp] theorem applyOutcome_lif_collisions (o : Outcome) (s : State) :
    (applyOutcome o s).lif.collisions = s.lif.collisions := by
  cases o <;> simp [applyOutcome]
@[simp] theorem applyOutcome_lif_abandons (o : Outcome) (s : State) :
    (applyOutcome o s).lif.abandons = s.lif.abandons := by
  cases o <;> simp [applyOutcome]

/-! ### ageRecords -/

@[simp] theorem ageRecords_tbu (c : Cfg) (s : State) :
    (ageRecords c s).tbu = s.tbu := rfl
@[simp] theorem ageRecords_syc (c : Cfg) (s : State) :
    (ageRecords c s).syc = s.syc := rfl
@[simp] theorem ageRecords_lif (c : Cfg) (s : State) :
    (ageRecords c s).lif = s.lif := rfl
@[simp] theorem ageRecords_tge (c : Cfg) (s : State) :
    (ageRecords c s).tge = s.tge := rfl
@[simp] theorem ageRecords_amp (c : Cfg) (s : State) :
    (ageRecords c s).amp = s.amp := rfl
@[simp] theorem ageRecords_scu (c : Cfg) (s : State) :
    (ageRecords c s).scu = s.scu := rfl
@[simp] theorem ageRecords_tlu (c : Cfg) (s : State) :
    (ageRecords c s).tlu = s.tlu := rfl
@[simp] theorem ageRecords_jnl (c : Cfg) (s : State) :
    (ageRecords c s).jnl = s.jnl := rfl
@[simp] theorem ageRecords_rdp (c : Cfg) (s : State) :
    (ageRecords c s).rdp = s.rdp := rfl
@[simp] theorem ageRecords_src (c : Cfg) (s : State) :
    (ageRecords c s).src = s.src := rfl
@[simp] theorem ageRecords_cfg (c : Cfg) (s : State) :
    (ageRecords c s).cfg = s.cfg := rfl
@[simp] theorem ageRecords_uniqueId (c : Cfg) (s : State) :
    (ageRecords c s).uniqueId = s.uniqueId := rfl
@[simp] theorem ageRecords_freeCount (c : Cfg) (s : State) :
    (ageRecords c s).freeCount = s.freeCount := rfl
@[simp] theorem ageRecords_pending (c : Cfg) (s : State) :
    (ageRecords c s).pending = s.pending := rfl

/-! ### setRounds -/

@[simp] theorem setRounds_tbu (r : Rounds) (s : State) :
    (setRounds r s).tbu = s.tbu := rfl
@[simp] theorem setRounds_mbu (r : Rounds) (s : State) :
    (setRounds r s).mbu = s.mbu := rfl
@[simp] theorem setRounds_lif (r : Rounds) (s : State) :
    (setRounds r s).lif = s.lif := rfl
@[simp] theorem setRounds_tge (r : Rounds) (s : State) :
    (setRounds r s).tge = s.tge := rfl
@[simp] theorem setRounds_amp (r : Rounds) (s : State) :
    (setRounds r s).amp = s.amp := rfl
@[simp] theorem setRounds_scu (r : Rounds) (s : State) :
    (setRounds r s).scu = s.scu := rfl
@[simp] theorem setRounds_tlu (r : Rounds) (s : State) :
    (setRounds r s).tlu = s.tlu := rfl
@[simp] theorem setRounds_jnl (r : Rounds) (s : State) :
    (setRounds r s).jnl = s.jnl := rfl
@[simp] theorem setRounds_rdp (r : Rounds) (s : State) :
    (setRounds r s).rdp = s.rdp := rfl
@[simp] theorem setRounds_src (r : Rounds) (s : State) :
    (setRounds r s).src = s.src := rfl
@[simp] theorem setRounds_cfg (r : Rounds) (s : State) :
    (setRounds r s).cfg = s.cfg := rfl
@[simp] theorem setRounds_uniqueId (r : Rounds) (s : State) :
    (setRounds r s).uniqueId = s.uniqueId := rfl
@[simp] theorem setRounds_freeCount (r : Rounds) (s : State) :
    (setRounds r s).freeCount = s.freeCount := rfl
@[simp] theorem setRounds_pending (r : Rounds) (s : State) :
    (setRounds r s).pending = s.pending := rfl
@[simp] theorem setRounds_syc_state (r : Rounds) (s : State) :
    (setRounds r s).syc.state = s.syc.state := rfl
@[simp] theorem setRounds_syc_lastSynchronizing (r : Rounds) (s : State) :
    (setRounds r s).syc.lastSynchronizing = s.syc.lastSynchronizing := rfl
@[simp] theorem setRounds_syc_listenTimer (r : Rounds) (s : State) :
    (setRounds r s).syc.listenTimer = s.syc.listenTimer := rfl
@[simp] theorem setRounds_syc_nextBeaconDue (r : Rounds) (s : State) :
    (setRounds r s).syc.nextBeaconDue = s.syc.nextBeaconDue := rfl

/-! ### updateRecord -/

@[simp] theorem updateRecord_tbu (c : Cfg) (b : Beacon) (a : Time) (x : Int) (s : State) :
    (updateRecord c b a x s).tbu = s.tbu := rfl
@[simp] theorem updateRecord_syc (c : Cfg) (b : Beacon) (a : Time) (x : Int) (s : State) :
    (updateRecord c b a x s).syc = s.syc := rfl
@[simp] theorem updateRecord_lif (c : Cfg) (b : Beacon) (a : Time) (x : Int) (s : State) :
    (updateRecord c b a x s).lif = s.lif := rfl
@[simp] theorem updateRecord_tge (c : Cfg) (b : Beacon) (a : Time) (x : Int) (s : State) :
    (updateRecord c b a x s).tge = s.tge := rfl
@[simp] theorem updateRecord_amp (c : Cfg) (b : Beacon) (a : Time) (x : Int) (s : State) :
    (updateRecord c b a x s).amp = s.amp := rfl
@[simp] theorem updateRecord_scu (c : Cfg) (b : Beacon) (a : Time) (x : Int) (s : State) :
    (updateRecord c b a x s).scu = s.scu := rfl
@[simp] theorem updateRecord_tlu (c : Cfg) (b : Beacon) (a : Time) (x : Int) (s : State) :
    (updateRecord c b a x s).tlu = s.tlu := rfl
@[simp] theorem updateRecord_jnl (c : Cfg) (b : Beacon) (a : Time) (x : Int) (s : State) :
    (updateRecord c b a x s).jnl = s.jnl := rfl
@[simp] theorem updateRecord_src (c : Cfg) (b : Beacon) (a : Time) (x : Int) (s : State) :
    (updateRecord c b a x s).src = s.src := rfl
@[simp] theorem updateRecord_cfg (c : Cfg) (b : Beacon) (a : Time) (x : Int) (s : State) :
    (updateRecord c b a x s).cfg = s.cfg := rfl
@[simp] theorem updateRecord_uniqueId (c : Cfg) (b : Beacon) (a : Time) (x : Int) (s : State) :
    (updateRecord c b a x s).uniqueId = s.uniqueId := rfl
@[simp] theorem updateRecord_freeCount (c : Cfg) (b : Beacon) (a : Time) (x : Int) (s : State) :
    (updateRecord c b a x s).freeCount = s.freeCount := rfl
@[simp] theorem updateRecord_pending (c : Cfg) (b : Beacon) (a : Time) (x : Int) (s : State) :
    (updateRecord c b a x s).pending = s.pending := rfl
@[simp] theorem updateRecord_mbu_agreement (c : Cfg) (b : Beacon) (a : Time) (x : Int) (s : State) :
    (updateRecord c b a x s).mbu.agreement = s.mbu.agreement := rfl
@[simp] theorem updateRecord_mbu_members (c : Cfg) (b : Beacon) (a : Time) (x : Int) (s : State) :
    (updateRecord c b a x s).mbu.members = s.mbu.members := rfl
@[simp] theorem updateRecord_mbu_minMembers (c : Cfg) (b : Beacon) (a : Time) (x : Int) (s : State) :
    (updateRecord c b a x s).mbu.minMembers = s.mbu.minMembers := rfl
@[simp] theorem updateRecord_mbu_maxMembers (c : Cfg) (b : Beacon) (a : Time) (x : Int) (s : State) :
    (updateRecord c b a x s).mbu.maxMembers = s.mbu.maxMembers := rfl
@[simp] theorem updateRecord_rdp_txn (c : Cfg) (b : Beacon) (a : Time) (x : Int) (s : State) :
    (updateRecord c b a x s).rdp.txn = s.rdp.txn := rfl
@[simp] theorem updateRecord_rdp_armed (c : Cfg) (b : Beacon) (a : Time) (x : Int) (s : State) :
    (updateRecord c b a x s).rdp.armed = s.rdp.armed := rfl
@[simp] theorem updateRecord_rdp_statePending (c : Cfg) (b : Beacon) (a : Time) (x : Int) (s : State) :
    (updateRecord c b a x s).rdp.statePending = s.rdp.statePending := rfl
@[simp] theorem updateRecord_rdp_loadPending (c : Cfg) (b : Beacon) (a : Time) (x : Int) (s : State) :
    (updateRecord c b a x s).rdp.loadPending = s.rdp.loadPending := rfl
@[simp] theorem updateRecord_rdp_mask (c : Cfg) (b : Beacon) (a : Time) (x : Int) (s : State) :
    (updateRecord c b a x s).rdp.mask = s.rdp.mask := rfl
@[simp] theorem updateRecord_rdp_threshold (c : Cfg) (b : Beacon) (a : Time) (x : Int) (s : State) :
    (updateRecord c b a x s).rdp.threshold = s.rdp.threshold := rfl

/-! ### endLoad -/

@[simp] theorem endLoad_tbu (l : LoadState) (r : LoadResult) (s : State) :
    (endLoad l r s).tbu = s.tbu := rfl
@[simp] theorem endLoad_mbu (l : LoadState) (r : LoadResult) (s : State) :
    (endLoad l r s).mbu = s.mbu := rfl
@[simp] theorem endLoad_syc (l : LoadState) (r : LoadResult) (s : State) :
    (endLoad l r s).syc = s.syc := rfl
@[simp] theorem endLoad_lif (l : LoadState) (r : LoadResult) (s : State) :
    (endLoad l r s).lif = s.lif := rfl
@[simp] theorem endLoad_tge (l : LoadState) (r : LoadResult) (s : State) :
    (endLoad l r s).tge = s.tge := rfl
@[simp] theorem endLoad_amp (l : LoadState) (r : LoadResult) (s : State) :
    (endLoad l r s).amp = s.amp := rfl
@[simp] theorem endLoad_scu (l : LoadState) (r : LoadResult) (s : State) :
    (endLoad l r s).scu = s.scu := rfl
@[simp] theorem endLoad_tlu (l : LoadState) (r : LoadResult) (s : State) :
    (endLoad l r s).tlu = s.tlu := rfl
@[simp] theorem endLoad_jnl (l : LoadState) (r : LoadResult) (s : State) :
    (endLoad l r s).jnl = s.jnl := rfl
@[simp] theorem endLoad_cfg (l : LoadState) (r : LoadResult) (s : State) :
    (endLoad l r s).cfg = s.cfg := rfl
@[simp] theorem endLoad_uniqueId (l : LoadState) (r : LoadResult) (s : State) :
    (endLoad l r s).uniqueId = s.uniqueId := rfl
@[simp] theorem endLoad_freeCount (l : LoadState) (r : LoadResult) (s : State) :
    (endLoad l r s).freeCount = s.freeCount := rfl
@[simp] theorem endLoad_pending (l : LoadState) (r : LoadResult) (s : State) :
    (endLoad l r s).pending = s.pending := rfl
@[simp] theorem endLoad_rdp_txn (l : LoadState) (r : LoadResult) (s : State) :
    (endLoad l r s).rdp.txn = s.rdp.txn := rfl
@[simp] theorem endLoad_rdp_armed (l : LoadState) (r : LoadResult) (s : State) :
    (endLoad l r s).rdp.armed = s.rdp.armed := rfl
@[simp] theorem endLoad_rdp_flags (l : LoadState) (r : LoadResult) (s : State) :
    (endLoad l r s).rdp.flags = s.rdp.flags := rfl
@[simp] theorem endLoad_rdp_statePending (l : LoadState) (r : LoadResult) (s : State) :
    (endLoad l r s).rdp.statePending = s.rdp.statePending := rfl
@[simp] theorem endLoad_rdp_mask (l : LoadState) (r : LoadResult) (s : State) :
    (endLoad l r s).rdp.mask = s.rdp.mask := rfl
@[simp] theorem endLoad_rdp_threshold (l : LoadState) (r : LoadResult) (s : State) :
    (endLoad l r s).rdp.threshold = s.rdp.threshold := rfl
@[simp] theorem endLoad_src_inReset (l : LoadState) (r : LoadResult) (s : State) :
    (endLoad l r s).src.inReset = s.src.inReset := rfl
@[simp] theorem endLoad_src_portHold (l : LoadState) (r : LoadResult) (s : State) :
    (endLoad l r s).src.portHold = s.src.portHold := rfl
@[simp] theorem endLoad_src_resetCause (l : LoadState) (r : LoadResult) (s : State) :
    (endLoad l r s).src.resetCause = s.src.resetCause := rfl
@[simp] theorem endLoad_src_supplyWarning (l : LoadState) (r : LoadResult) (s : State) :
    (endLoad l r s).src.supplyWarning = s.src.supplyWarning := rfl
@[simp] theorem endLoad_src_leaveTimer (l : LoadState) (r : LoadResult) (s : State) :
    (endLoad l r s).src.leaveTimer = s.src.leaveTimer := rfl
@[simp] theorem endLoad_src_image (l : LoadState) (r : LoadResult) (s : State) :
    (endLoad l r s).src.image = s.src.image := rfl

/-! ### distribute -/

@[simp] theorem distribute_tbu (g : ImageConfig) (s : State) :
    (distribute g s).tbu = s.tbu := rfl
@[simp] theorem distribute_syc (g : ImageConfig) (s : State) :
    (distribute g s).syc = s.syc := rfl
@[simp] theorem distribute_lif (g : ImageConfig) (s : State) :
    (distribute g s).lif = s.lif := rfl
@[simp] theorem distribute_tge (g : ImageConfig) (s : State) :
    (distribute g s).tge = s.tge := rfl
@[simp] theorem distribute_jnl (g : ImageConfig) (s : State) :
    (distribute g s).jnl = s.jnl := rfl
@[simp] theorem distribute_src (g : ImageConfig) (s : State) :
    (distribute g s).src = s.src := rfl
@[simp] theorem distribute_uniqueId (g : ImageConfig) (s : State) :
    (distribute g s).uniqueId = s.uniqueId := rfl
@[simp] theorem distribute_freeCount (g : ImageConfig) (s : State) :
    (distribute g s).freeCount = s.freeCount := rfl
@[simp] theorem distribute_pending (g : ImageConfig) (s : State) :
    (distribute g s).pending = s.pending := rfl
@[simp] theorem distribute_scu_entries (g : ImageConfig) (s : State) :
    (distribute g s).scu.entries = s.scu.entries := rfl
@[simp] theorem distribute_scu_drops (g : ImageConfig) (s : State) :
    (distribute g s).scu.drops = s.scu.drops := rfl
@[simp] theorem distribute_scu_lateDrop (g : ImageConfig) (s : State) :
    (distribute g s).scu.lateDrop = s.scu.lateDrop := rfl
@[simp] theorem distribute_scu_lateFire (g : ImageConfig) (s : State) :
    (distribute g s).scu.lateFire = s.scu.lateFire := rfl
@[simp] theorem distribute_scu_cancelled (g : ImageConfig) (s : State) :
    (distribute g s).scu.cancelled = s.scu.cancelled := rfl
@[simp] theorem distribute_tlu_channels (g : ImageConfig) (s : State) :
    (distribute g s).tlu.channels = s.tlu.channels := rfl
@[simp] theorem distribute_tlu_overruns (g : ImageConfig) (s : State) :
    (distribute g s).tlu.overruns = s.tlu.overruns := rfl
@[simp] theorem distribute_tlu_pins (g : ImageConfig) (s : State) :
    (distribute g s).tlu.pins = s.tlu.pins := rfl
@[simp] theorem distribute_rdp_txn (g : ImageConfig) (s : State) :
    (distribute g s).rdp.txn = s.rdp.txn := rfl
@[simp] theorem distribute_rdp_armed (g : ImageConfig) (s : State) :
    (distribute g s).rdp.armed = s.rdp.armed := rfl
@[simp] theorem distribute_rdp_flags (g : ImageConfig) (s : State) :
    (distribute g s).rdp.flags = s.rdp.flags := rfl
@[simp] theorem distribute_rdp_statePending (g : ImageConfig) (s : State) :
    (distribute g s).rdp.statePending = s.rdp.statePending := rfl
@[simp] theorem distribute_rdp_loadPending (g : ImageConfig) (s : State) :
    (distribute g s).rdp.loadPending = s.rdp.loadPending := rfl

/-! ### answer -/

@[simp] theorem answer_tbu (x : Status) (o : List Byte) (s : State) :
    (answer x o s).tbu = s.tbu := rfl
@[simp] theorem answer_mbu (x : Status) (o : List Byte) (s : State) :
    (answer x o s).mbu = s.mbu := rfl
@[simp] theorem answer_syc (x : Status) (o : List Byte) (s : State) :
    (answer x o s).syc = s.syc := rfl
@[simp] theorem answer_lif (x : Status) (o : List Byte) (s : State) :
    (answer x o s).lif = s.lif := rfl
@[simp] theorem answer_tge (x : Status) (o : List Byte) (s : State) :
    (answer x o s).tge = s.tge := rfl
@[simp] theorem answer_amp (x : Status) (o : List Byte) (s : State) :
    (answer x o s).amp = s.amp := rfl
@[simp] theorem answer_scu (x : Status) (o : List Byte) (s : State) :
    (answer x o s).scu = s.scu := rfl
@[simp] theorem answer_tlu (x : Status) (o : List Byte) (s : State) :
    (answer x o s).tlu = s.tlu := rfl
@[simp] theorem answer_jnl (x : Status) (o : List Byte) (s : State) :
    (answer x o s).jnl = s.jnl := rfl
@[simp] theorem answer_src (x : Status) (o : List Byte) (s : State) :
    (answer x o s).src = s.src := rfl
@[simp] theorem answer_cfg (x : Status) (o : List Byte) (s : State) :
    (answer x o s).cfg = s.cfg := rfl
@[simp] theorem answer_uniqueId (x : Status) (o : List Byte) (s : State) :
    (answer x o s).uniqueId = s.uniqueId := rfl
@[simp] theorem answer_freeCount (x : Status) (o : List Byte) (s : State) :
    (answer x o s).freeCount = s.freeCount := rfl
@[simp] theorem answer_pending (x : Status) (o : List Byte) (s : State) :
    (answer x o s).pending = s.pending := rfl
@[simp] theorem answer_rdp_flags (x : Status) (o : List Byte) (s : State) :
    (answer x o s).rdp.flags = s.rdp.flags := rfl
@[simp] theorem answer_rdp_statePending (x : Status) (o : List Byte) (s : State) :
    (answer x o s).rdp.statePending = s.rdp.statePending := rfl
@[simp] theorem answer_rdp_loadPending (x : Status) (o : List Byte) (s : State) :
    (answer x o s).rdp.loadPending = s.rdp.loadPending := rfl
@[simp] theorem answer_rdp_mask (x : Status) (o : List Byte) (s : State) :
    (answer x o s).rdp.mask = s.rdp.mask := rfl
@[simp] theorem answer_rdp_threshold (x : Status) (o : List Byte) (s : State) :
    (answer x o s).rdp.threshold = s.rdp.threshold := rfl

/-! ### openTransfer -/

@[simp] theorem openTransfer_tbu (s : State) :
    (openTransfer s).tbu = s.tbu := by
  unfold openTransfer; split <;> rfl
@[simp] theorem openTransfer_mbu (s : State) :
    (openTransfer s).mbu = s.mbu := by
  unfold openTransfer; split <;> rfl
@[simp] theorem openTransfer_syc (s : State) :
    (openTransfer s).syc = s.syc := by
  unfold openTransfer; split <;> rfl
@[simp] theorem openTransfer_lif (s : State) :
    (openTransfer s).lif = s.lif := by
  unfold openTransfer; split <;> rfl
@[simp] theorem openTransfer_tge (s : State) :
    (openTransfer s).tge = s.tge := by
  unfold openTransfer; split <;> rfl
@[simp] theorem openTransfer_amp (s : State) :
    (openTransfer s).amp = s.amp := by
  unfold openTransfer; split <;> rfl
@[simp] theorem openTransfer_scu (s : State) :
    (openTransfer s).scu = s.scu := by
  unfold openTransfer; split <;> rfl
@[simp] theorem openTransfer_tlu (s : State) :
    (openTransfer s).tlu = s.tlu := by
  unfold openTransfer; split <;> rfl
@[simp] theorem openTransfer_jnl (s : State) :
    (openTransfer s).jnl = s.jnl := by
  unfold openTransfer; split <;> rfl
@[simp] theorem openTransfer_src (s : State) :
    (openTransfer s).src = s.src := by
  unfold openTransfer; split <;> rfl
@[simp] theorem openTransfer_cfg (s : State) :
    (openTransfer s).cfg = s.cfg := by
  unfold openTransfer; split <;> rfl
@[simp] theorem openTransfer_uniqueId (s : State) :
    (openTransfer s).uniqueId = s.uniqueId := by
  unfold openTransfer; split <;> rfl
@[simp] theorem openTransfer_freeCount (s : State) :
    (openTransfer s).freeCount = s.freeCount := by
  unfold openTransfer; split <;> rfl
@[simp] theorem openTransfer_pending (s : State) :
    (openTransfer s).pending = s.pending := by
  unfold openTransfer; split <;> rfl
@[simp] theorem openTransfer_rdp_flags (s : State) :
    (openTransfer s).rdp.flags = s.rdp.flags := by
  unfold openTransfer; split <;> rfl
@[simp] theorem openTransfer_rdp_armed (s : State) :
    (openTransfer s).rdp.armed = s.rdp.armed := by
  unfold openTransfer; split <;> rfl
@[simp] theorem openTransfer_rdp_statePending (s : State) :
    (openTransfer s).rdp.statePending = s.rdp.statePending := by
  unfold openTransfer; split <;> rfl
@[simp] theorem openTransfer_rdp_loadPending (s : State) :
    (openTransfer s).rdp.loadPending = s.rdp.loadPending := by
  unfold openTransfer; split <;> rfl
@[simp] theorem openTransfer_rdp_mask (s : State) :
    (openTransfer s).rdp.mask = s.rdp.mask := by
  unfold openTransfer; split <;> rfl
@[simp] theorem openTransfer_rdp_threshold (s : State) :
    (openTransfer s).rdp.threshold = s.rdp.threshold := by
  unfold openTransfer; split <;> rfl

/-! ### openReception -/

@[simp] theorem openReception_tbu (s : State) :
    (openReception s).tbu = s.tbu := by
  unfold openReception; split <;> rfl
@[simp] theorem openReception_mbu (s : State) :
    (openReception s).mbu = s.mbu := by
  unfold openReception; split <;> rfl
@[simp] theorem openReception_syc (s : State) :
    (openReception s).syc = s.syc := by
  unfold openReception; split <;> rfl
@[simp] theorem openReception_tge (s : State) :
    (openReception s).tge = s.tge := by
  unfold openReception; split <;> rfl
@[simp] theorem openReception_amp (s : State) :
    (openReception s).amp = s.amp := by
  unfold openReception; split <;> rfl
@[simp] theorem openReception_scu (s : State) :
    (openReception s).scu = s.scu := by
  unfold openReception; split <;> rfl
@[simp] theorem openReception_tlu (s : State) :
    (openReception s).tlu = s.tlu := by
  unfold openReception; split <;> rfl
@[simp] theorem openReception_jnl (s : State) :
    (openReception s).jnl = s.jnl := by
  unfold openReception; split <;> rfl
@[simp] theorem openReception_rdp (s : State) :
    (openReception s).rdp = s.rdp := by
  unfold openReception; split <;> rfl
@[simp] theorem openReception_src (s : State) :
    (openReception s).src = s.src := by
  unfold openReception; split <;> rfl
@[simp] theorem openReception_cfg (s : State) :
    (openReception s).cfg = s.cfg := by
  unfold openReception; split <;> rfl
@[simp] theorem openReception_uniqueId (s : State) :
    (openReception s).uniqueId = s.uniqueId := by
  unfold openReception; split <;> rfl
@[simp] theorem openReception_freeCount (s : State) :
    (openReception s).freeCount = s.freeCount := by
  unfold openReception; split <;> rfl
@[simp] theorem openReception_pending (s : State) :
    (openReception s).pending = s.pending := by
  unfold openReception; split <;> rfl
@[simp] theorem openReception_lif_queue (s : State) :
    (openReception s).lif.queue = s.lif.queue := by
  unfold openReception; split <;> rfl
@[simp] theorem openReception_lif_slot (s : State) :
    (openReception s).lif.slot = s.lif.slot := by
  unfold openReception; split <;> rfl
@[simp] theorem openReception_lif_onLine (s : State) :
    (openReception s).lif.onLine = s.lif.onLine := by
  unfold openReception; split <;> rfl
@[simp] theorem openReception_lif_idleTimer (s : State) :
    (openReception s).lif.idleTimer = s.lif.idleTimer := by
  unfold openReception; split <;> rfl
@[simp] theorem openReception_lif_beaconsSent (s : State) :
    (openReception s).lif.beaconsSent = s.lif.beaconsSent := by
  unfold openReception; split <;> rfl
@[simp] theorem openReception_lif_copiesSent (s : State) :
    (openReception s).lif.copiesSent = s.lif.copiesSent := by
  unfold openReception; split <;> rfl
@[simp] theorem openReception_lif_framesReceived (s : State) :
    (openReception s).lif.framesReceived = s.lif.framesReceived := by
  unfold openReception; split <;> rfl
@[simp] theorem openReception_lif_badFrames (s : State) :
    (openReception s).lif.badFrames = s.lif.badFrames := by
  unfold openReception; split <;> rfl
@[simp] theorem openReception_lif_collisions (s : State) :
    (openReception s).lif.collisions = s.lif.collisions := by
  unfold openReception; split <;> rfl
@[simp] theorem openReception_lif_abandons (s : State) :
    (openReception s).lif.abandons = s.lif.abandons := by
  unfold openReception; split <;> rfl

/-! ### setInput -/

@[simp] theorem setInput_tbu (l : LineNo) (ch : InputChan) (s : State) :
    (setInput l ch s).tbu = s.tbu := rfl
@[simp] theorem setInput_mbu (l : LineNo) (ch : InputChan) (s : State) :
    (setInput l ch s).mbu = s.mbu := rfl
@[simp] theorem setInput_syc (l : LineNo) (ch : InputChan) (s : State) :
    (setInput l ch s).syc = s.syc := rfl
@[simp] theorem setInput_lif (l : LineNo) (ch : InputChan) (s : State) :
    (setInput l ch s).lif = s.lif := rfl
@[simp] theorem setInput_tge (l : LineNo) (ch : InputChan) (s : State) :
    (setInput l ch s).tge = s.tge := rfl
@[simp] theorem setInput_amp (l : LineNo) (ch : InputChan) (s : State) :
    (setInput l ch s).amp = s.amp := rfl
@[simp] theorem setInput_scu (l : LineNo) (ch : InputChan) (s : State) :
    (setInput l ch s).scu = s.scu := rfl
@[simp] theorem setInput_jnl (l : LineNo) (ch : InputChan) (s : State) :
    (setInput l ch s).jnl = s.jnl := rfl
@[simp] theorem setInput_rdp (l : LineNo) (ch : InputChan) (s : State) :
    (setInput l ch s).rdp = s.rdp := rfl
@[simp] theorem setInput_src (l : LineNo) (ch : InputChan) (s : State) :
    (setInput l ch s).src = s.src := rfl
@[simp] theorem setInput_cfg (l : LineNo) (ch : InputChan) (s : State) :
    (setInput l ch s).cfg = s.cfg := rfl
@[simp] theorem setInput_uniqueId (l : LineNo) (ch : InputChan) (s : State) :
    (setInput l ch s).uniqueId = s.uniqueId := rfl
@[simp] theorem setInput_freeCount (l : LineNo) (ch : InputChan) (s : State) :
    (setInput l ch s).freeCount = s.freeCount := rfl
@[simp] theorem setInput_pending (l : LineNo) (ch : InputChan) (s : State) :
    (setInput l ch s).pending = s.pending := rfl
@[simp] theorem setInput_tlu_lines (l : LineNo) (ch : InputChan) (s : State) :
    (setInput l ch s).tlu.lines = s.tlu.lines := rfl
@[simp] theorem setInput_tlu_channels (l : LineNo) (ch : InputChan) (s : State) :
    (setInput l ch s).tlu.channels = s.tlu.channels := rfl
@[simp] theorem setInput_tlu_overruns (l : LineNo) (ch : InputChan) (s : State) :
    (setInput l ch s).tlu.overruns = s.tlu.overruns := rfl
@[simp] theorem setInput_tlu_pins (l : LineNo) (ch : InputChan) (s : State) :
    (setInput l ch s).tlu.pins = s.tlu.pins := rfl

/-! ### countAbandon -/

@[simp] theorem countAbandon_tbu (k : FrameKind) (x : Option TrigClass) (s : State) :
    (countAbandon k x s).tbu = s.tbu := rfl
@[simp] theorem countAbandon_mbu (k : FrameKind) (x : Option TrigClass) (s : State) :
    (countAbandon k x s).mbu = s.mbu := rfl
@[simp] theorem countAbandon_syc (k : FrameKind) (x : Option TrigClass) (s : State) :
    (countAbandon k x s).syc = s.syc := rfl
@[simp] theorem countAbandon_tge (k : FrameKind) (x : Option TrigClass) (s : State) :
    (countAbandon k x s).tge = s.tge := rfl
@[simp] theorem countAbandon_amp (k : FrameKind) (x : Option TrigClass) (s : State) :
    (countAbandon k x s).amp = s.amp := rfl
@[simp] theorem countAbandon_scu (k : FrameKind) (x : Option TrigClass) (s : State) :
    (countAbandon k x s).scu = s.scu := rfl
@[simp] theorem countAbandon_tlu (k : FrameKind) (x : Option TrigClass) (s : State) :
    (countAbandon k x s).tlu = s.tlu := rfl
@[simp] theorem countAbandon_jnl (k : FrameKind) (x : Option TrigClass) (s : State) :
    (countAbandon k x s).jnl = s.jnl := rfl
@[simp] theorem countAbandon_src (k : FrameKind) (x : Option TrigClass) (s : State) :
    (countAbandon k x s).src = s.src := rfl
@[simp] theorem countAbandon_cfg (k : FrameKind) (x : Option TrigClass) (s : State) :
    (countAbandon k x s).cfg = s.cfg := rfl
@[simp] theorem countAbandon_uniqueId (k : FrameKind) (x : Option TrigClass) (s : State) :
    (countAbandon k x s).uniqueId = s.uniqueId := rfl
@[simp] theorem countAbandon_freeCount (k : FrameKind) (x : Option TrigClass) (s : State) :
    (countAbandon k x s).freeCount = s.freeCount := rfl
@[simp] theorem countAbandon_pending (k : FrameKind) (x : Option TrigClass) (s : State) :
    (countAbandon k x s).pending = s.pending := rfl
@[simp] theorem countAbandon_lif_queue (k : FrameKind) (x : Option TrigClass) (s : State) :
    (countAbandon k x s).lif.queue = s.lif.queue := rfl
@[simp] theorem countAbandon_lif_slot (k : FrameKind) (x : Option TrigClass) (s : State) :
    (countAbandon k x s).lif.slot = s.lif.slot := rfl
@[simp] theorem countAbandon_lif_onLine (k : FrameKind) (x : Option TrigClass) (s : State) :
    (countAbandon k x s).lif.onLine = s.lif.onLine := rfl
@[simp] theorem countAbandon_lif_idleTimer (k : FrameKind) (x : Option TrigClass) (s : State) :
    (countAbandon k x s).lif.idleTimer = s.lif.idleTimer := rfl
@[simp] theorem countAbandon_lif_receiver (k : FrameKind) (x : Option TrigClass) (s : State) :
    (countAbandon k x s).lif.receiver = s.lif.receiver := rfl
@[simp] theorem countAbandon_lif_beaconsSent (k : FrameKind) (x : Option TrigClass) (s : State) :
    (countAbandon k x s).lif.beaconsSent = s.lif.beaconsSent := rfl
@[simp] theorem countAbandon_lif_copiesSent (k : FrameKind) (x : Option TrigClass) (s : State) :
    (countAbandon k x s).lif.copiesSent = s.lif.copiesSent := rfl
@[simp] theorem countAbandon_lif_framesReceived (k : FrameKind) (x : Option TrigClass) (s : State) :
    (countAbandon k x s).lif.framesReceived = s.lif.framesReceived := rfl
@[simp] theorem countAbandon_lif_badFrames (k : FrameKind) (x : Option TrigClass) (s : State) :
    (countAbandon k x s).lif.badFrames = s.lif.badFrames := rfl
@[simp] theorem countAbandon_lif_collisions (k : FrameKind) (x : Option TrigClass) (s : State) :
    (countAbandon k x s).lif.collisions = s.lif.collisions := rfl
@[simp] theorem countAbandon_rdp_txn (k : FrameKind) (x : Option TrigClass) (s : State) :
    (countAbandon k x s).rdp.txn = s.rdp.txn := rfl
@[simp] theorem countAbandon_rdp_armed (k : FrameKind) (x : Option TrigClass) (s : State) :
    (countAbandon k x s).rdp.armed = s.rdp.armed := rfl
@[simp] theorem countAbandon_rdp_statePending (k : FrameKind) (x : Option TrigClass) (s : State) :
    (countAbandon k x s).rdp.statePending = s.rdp.statePending := rfl
@[simp] theorem countAbandon_rdp_loadPending (k : FrameKind) (x : Option TrigClass) (s : State) :
    (countAbandon k x s).rdp.loadPending = s.rdp.loadPending := rfl
@[simp] theorem countAbandon_rdp_mask (k : FrameKind) (x : Option TrigClass) (s : State) :
    (countAbandon k x s).rdp.mask = s.rdp.mask := rfl
@[simp] theorem countAbandon_rdp_threshold (k : FrameKind) (x : Option TrigClass) (s : State) :
    (countAbandon k x s).rdp.threshold = s.rdp.threshold := rfl

/-! ### countBadFrame -/

@[simp] theorem countBadFrame_tbu (s : State) :
    (countBadFrame s).tbu = s.tbu := rfl
@[simp] theorem countBadFrame_mbu (s : State) :
    (countBadFrame s).mbu = s.mbu := rfl
@[simp] theorem countBadFrame_syc (s : State) :
    (countBadFrame s).syc = s.syc := rfl
@[simp] theorem countBadFrame_tge (s : State) :
    (countBadFrame s).tge = s.tge := rfl
@[simp] theorem countBadFrame_amp (s : State) :
    (countBadFrame s).amp = s.amp := rfl
@[simp] theorem countBadFrame_scu (s : State) :
    (countBadFrame s).scu = s.scu := rfl
@[simp] theorem countBadFrame_tlu (s : State) :
    (countBadFrame s).tlu = s.tlu := rfl
@[simp] theorem countBadFrame_jnl (s : State) :
    (countBadFrame s).jnl = s.jnl := rfl
@[simp] theorem countBadFrame_src (s : State) :
    (countBadFrame s).src = s.src := rfl
@[simp] theorem countBadFrame_cfg (s : State) :
    (countBadFrame s).cfg = s.cfg := rfl
@[simp] theorem countBadFrame_uniqueId (s : State) :
    (countBadFrame s).uniqueId = s.uniqueId := rfl
@[simp] theorem countBadFrame_freeCount (s : State) :
    (countBadFrame s).freeCount = s.freeCount := rfl
@[simp] theorem countBadFrame_pending (s : State) :
    (countBadFrame s).pending = s.pending := rfl
@[simp] theorem countBadFrame_lif_queue (s : State) :
    (countBadFrame s).lif.queue = s.lif.queue := rfl
@[simp] theorem countBadFrame_lif_slot (s : State) :
    (countBadFrame s).lif.slot = s.lif.slot := rfl
@[simp] theorem countBadFrame_lif_onLine (s : State) :
    (countBadFrame s).lif.onLine = s.lif.onLine := rfl
@[simp] theorem countBadFrame_lif_idleTimer (s : State) :
    (countBadFrame s).lif.idleTimer = s.lif.idleTimer := rfl
@[simp] theorem countBadFrame_lif_receiver (s : State) :
    (countBadFrame s).lif.receiver = s.lif.receiver := rfl
@[simp] theorem countBadFrame_lif_beaconsSent (s : State) :
    (countBadFrame s).lif.beaconsSent = s.lif.beaconsSent := rfl
@[simp] theorem countBadFrame_lif_copiesSent (s : State) :
    (countBadFrame s).lif.copiesSent = s.lif.copiesSent := rfl
@[simp] theorem countBadFrame_lif_framesReceived (s : State) :
    (countBadFrame s).lif.framesReceived = s.lif.framesReceived := rfl
@[simp] theorem countBadFrame_lif_collisions (s : State) :
    (countBadFrame s).lif.collisions = s.lif.collisions := rfl
@[simp] theorem countBadFrame_lif_abandons (s : State) :
    (countBadFrame s).lif.abandons = s.lif.abandons := rfl
@[simp] theorem countBadFrame_rdp_txn (s : State) :
    (countBadFrame s).rdp.txn = s.rdp.txn := rfl
@[simp] theorem countBadFrame_rdp_armed (s : State) :
    (countBadFrame s).rdp.armed = s.rdp.armed := rfl
@[simp] theorem countBadFrame_rdp_statePending (s : State) :
    (countBadFrame s).rdp.statePending = s.rdp.statePending := rfl
@[simp] theorem countBadFrame_rdp_loadPending (s : State) :
    (countBadFrame s).rdp.loadPending = s.rdp.loadPending := rfl
@[simp] theorem countBadFrame_rdp_mask (s : State) :
    (countBadFrame s).rdp.mask = s.rdp.mask := rfl
@[simp] theorem countBadFrame_rdp_threshold (s : State) :
    (countBadFrame s).rdp.threshold = s.rdp.threshold := rfl

/-! ### startHoldOff -/

@[simp] theorem startHoldOff_tbu (l : LineNo) (i : InputCfg) (x : Candidate) (s : State) :
    (startHoldOff l i x s).tbu = s.tbu := rfl
@[simp] theorem startHoldOff_mbu (l : LineNo) (i : InputCfg) (x : Candidate) (s : State) :
    (startHoldOff l i x s).mbu = s.mbu := rfl
@[simp] theorem startHoldOff_syc (l : LineNo) (i : InputCfg) (x : Candidate) (s : State) :
    (startHoldOff l i x s).syc = s.syc := rfl
@[simp] theorem startHoldOff_lif (l : LineNo) (i : InputCfg) (x : Candidate) (s : State) :
    (startHoldOff l i x s).lif = s.lif := rfl
@[simp] theorem startHoldOff_amp (l : LineNo) (i : InputCfg) (x : Candidate) (s : State) :
    (startHoldOff l i x s).amp = s.amp := rfl
@[simp] theorem startHoldOff_scu (l : LineNo) (i : InputCfg) (x : Candidate) (s : State) :
    (startHoldOff l i x s).scu = s.scu := rfl
@[simp] theorem startHoldOff_tlu (l : LineNo) (i : InputCfg) (x : Candidate) (s : State) :
    (startHoldOff l i x s).tlu = s.tlu := rfl
@[simp] theorem startHoldOff_jnl (l : LineNo) (i : InputCfg) (x : Candidate) (s : State) :
    (startHoldOff l i x s).jnl = s.jnl := rfl
@[simp] theorem startHoldOff_rdp (l : LineNo) (i : InputCfg) (x : Candidate) (s : State) :
    (startHoldOff l i x s).rdp = s.rdp := rfl
@[simp] theorem startHoldOff_src (l : LineNo) (i : InputCfg) (x : Candidate) (s : State) :
    (startHoldOff l i x s).src = s.src := rfl
@[simp] theorem startHoldOff_cfg (l : LineNo) (i : InputCfg) (x : Candidate) (s : State) :
    (startHoldOff l i x s).cfg = s.cfg := rfl
@[simp] theorem startHoldOff_uniqueId (l : LineNo) (i : InputCfg) (x : Candidate) (s : State) :
    (startHoldOff l i x s).uniqueId = s.uniqueId := rfl
@[simp] theorem startHoldOff_freeCount (l : LineNo) (i : InputCfg) (x : Candidate) (s : State) :
    (startHoldOff l i x s).freeCount = s.freeCount := rfl
@[simp] theorem startHoldOff_pending (l : LineNo) (i : InputCfg) (x : Candidate) (s : State) :
    (startHoldOff l i x s).pending = s.pending := rfl
@[simp] theorem startHoldOff_tge_accepted (l : LineNo) (i : InputCfg) (x : Candidate) (s : State) :
    (startHoldOff l i x s).tge.accepted = s.tge.accepted := rfl
@[simp] theorem startHoldOff_tge_duplicate (l : LineNo) (i : InputCfg) (x : Candidate) (s : State) :
    (startHoldOff l i x s).tge.duplicate = s.tge.duplicate := rfl
@[simp] theorem startHoldOff_tge_notReady (l : LineNo) (i : InputCfg) (x : Candidate) (s : State) :
    (startHoldOff l i x s).tge.notReady = s.tge.notReady := rfl
@[simp] theorem startHoldOff_tge_notMember (l : LineNo) (i : InputCfg) (x : Candidate) (s : State) :
    (startHoldOff l i x s).tge.notMember = s.tge.notMember := rfl
@[simp] theorem startHoldOff_tge_selfNumbered (l : LineNo) (i : InputCfg) (x : Candidate) (s : State) :
    (startHoldOff l i x s).tge.selfNumbered = s.tge.selfNumbered := rfl
@[simp] theorem startHoldOff_tge_ownSequence (l : LineNo) (i : InputCfg) (x : Candidate) (s : State) :
    (startHoldOff l i x s).tge.ownSequence = s.tge.ownSequence := rfl
@[simp] theorem startHoldOff_tge_raised (l : LineNo) (i : InputCfg) (x : Candidate) (s : State) :
    (startHoldOff l i x s).tge.raised = s.tge.raised := rfl
@[simp] theorem startHoldOff_tge_refused (l : LineNo) (i : InputCfg) (x : Candidate) (s : State) :
    (startHoldOff l i x s).tge.refused = s.tge.refused := rfl
@[simp] theorem startHoldOff_tge_chainLimit (l : LineNo) (i : InputCfg) (x : Candidate) (s : State) :
    (startHoldOff l i x s).tge.chainLimit = s.tge.chainLimit := rfl

end Sys2Proof.Machine
end

