-- ==== Sys2Proof/Laws/Vectors.lean ====
section
/-! SUPPORT. Reading a vector by index after an update: the peer table, the partitions, the timing lines. -/

set_option Elab.async false

namespace Sys2Proof.Machine

theorem get_eq {α : Type} {n : Nat} (v : Vector α n) (i : Fin n) : v.get i = v[i.val] := rfl

/-- Reading after one element was set. -/
theorem get_set {α : Type} {n : Nat} (v : Vector α n) (i k : Fin n) (a : α) :
    (v.set i a).get k = if i = k then a else v.get k := by
  simp only [get_eq, Vector.getElem_set, Fin.ext_iff]

@[simp] theorem get_set_self {α : Type} {n : Nat} (v : Vector α n) (i : Fin n) (a : α) : (v.set i a).get i = a := by
  simp [get_set]

theorem get_set_ne {α : Type} {n : Nat} (v : Vector α n) (i k : Fin n) (a : α) (h : i ≠ k) :
    (v.set i a).get k = v.get k := by
  simp [get_set, h]

/-- Writing back the element that stands there changes nothing. -/
theorem set_get {α : Type} {n : Nat} (v : Vector α n) (i : Fin n) : v.set i (v.get i) = v := by simp [get_eq]

@[simp] theorem get_map {α β : Type} {n : Nat} (v : Vector α n) (i : Fin n) (f : α → β) :
    (v.map f).get i = f (v.get i) := by
  simp [get_eq]

@[simp] theorem get_replicate {α : Type} {n : Nat} (i : Fin n) (a : α) : (Vector.replicate n a).get i = a := by
  simp [get_eq]

@[simp] theorem get_ofFn {α : Type} {n : Nat} (f : Fin n → α) (i : Fin n) : (Vector.ofFn f).get i = f i := by
  simp [get_eq]

end Sys2Proof.Machine
end

