-- ==== Sys2Proof/Laws/Change.lean ====
section
/-! SUPPORT. What a change of sync state does to each block (R39 to R41, R55, R56), what a reset leaves (R176), and what
the port's answer and the guards of the commands do. -/

set_option Elab.async false

namespace Sys2Proof.Machine

/-! ### setSyncState, dropTime, purge, flush -/

@[simp] theorem setSyncState_syc (c : Cfg) (x : SyncState) (s : State) :
    (setSyncState c x s).syc =
      { state := x, lastSynchronizing := x.reported.or s.syc.lastSynchronizing,
        goodRounds := 0, stableRounds := 0, holdoverRounds := 0,
        listenTimer := if x = .listen then some c.listenTime else none,
        nextBeaconDue := if x.standsDown then none else s.syc.nextBeaconDue } := by
  unfold setSyncState clearLastEdges; dsimp only; split <;> rfl

@[simp] theorem setSyncState_statePending (c : Cfg) (x : SyncState) (s : State) :
    (setSyncState c x s).rdp.statePending = true := by
  unfold setSyncState clearLastEdges; dsimp only; split <;> rfl

@[simp] theorem dropTime_tbu_all (b : Bool) (s : State) :
    (dropTime b s).tbu =
      { s.tbu with
        slewDebt := 0, hold := false, nextBoundary := none,
        syncLossCount := if b then sat16 s.tbu.syncLossCount 1 else s.tbu.syncLossCount } := rfl

@[simp] theorem clearFresh_peers (s : State) :
    (clearFresh s).mbu.peers = s.mbu.peers.map fun p => { p with freshOffset := none } := rfl

@[simp] theorem dropTime_mbu (b : Bool) (s : State) : (dropTime b s).mbu = (clearFresh s).mbu := rfl

@[simp] theorem purge_queue (s : State) : (purge s).lif.queue = [] := rfl
@[simp] theorem purge_slot (s : State) : (purge s).lif.slot = none := rfl
@[simp] theorem purge_onLine (s : State) :
    (purge s).lif.onLine = s.lif.onLine.map fun f => { f with purged := true } := rfl

@[simp] theorem flush_entries (s : State) : (flush s).scu.entries = [] := by
  simp [flush, removeUnfired]

/-! ### changeState -/

section
variable (c : Cfg) (new : SyncState) (r : Reason) (mid : State → State) (s : State)

/-- A part of State that neither `mid` nor any order touches is as before. -/
theorem changeState_keeps {α : Type} (get : State → α) (hmid : ∀ s, get (mid s) = get s)
    (hset : ∀ s, get (setSyncState c new s) = get s) (hdrop : ∀ b s, get (dropTime b s) = get s)
    (hend : ∀ s, get (trainEnd s) = get s) (hpurge : ∀ s, get (purge s) = get s)
    (hflush : ∀ s, get (flush s) = get s) (hrec : ∀ x r n s, get (writeStateRecord x r n s) = get s) :
    get (changeState c new r mid s) = get s := by
  unfold changeState
  dsimp only
  split
  · split
    · rw [hrec, hdrop, hset]
    · rw [hrec, hflush, hpurge, hmid, hend, hdrop, hset]
  · rw [hrec, hset]

@[simp] theorem changeState_cfg (h : ∀ s, (mid s).cfg = s.cfg) : (changeState c new r mid s).cfg = s.cfg :=
  changeState_keeps c new r mid s State.cfg h (by simp) (by simp) (by simp) (by simp) (by simp) (by simp)
@[simp] theorem changeState_src (h : ∀ s, (mid s).src = s.src) : (changeState c new r mid s).src = s.src :=
  changeState_keeps c new r mid s State.src h (by simp) (by simp) (by simp) (by simp) (by simp) (by simp)
@[simp] theorem changeState_amp (h : ∀ s, (mid s).amp = s.amp) : (changeState c new r mid s).amp = s.amp :=
  changeState_keeps c new r mid s State.amp h (by simp) (by simp) (by simp) (by simp) (by simp) (by simp)
@[simp] theorem changeState_tge (h : ∀ s, (mid s).tge = s.tge) : (changeState c new r mid s).tge = s.tge :=
  changeState_keeps c new r mid s State.tge h (by simp) (by simp) (by simp) (by simp) (by simp) (by simp)
@[simp] theorem changeState_uniqueId (h : ∀ s, (mid s).uniqueId = s.uniqueId) :
    (changeState c new r mid s).uniqueId = s.uniqueId :=
  changeState_keeps c new r mid s State.uniqueId h (by simp) (by simp) (by simp) (by simp) (by simp) (by simp)
@[simp] theorem changeState_freeCount (h : ∀ s, (mid s).freeCount = s.freeCount) :
    (changeState c new r mid s).freeCount = s.freeCount :=
  changeState_keeps c new r mid s State.freeCount h (by simp) (by simp) (by simp) (by simp) (by simp) (by simp)
@[simp] theorem changeState_pending (h : ∀ s, (mid s).pending = s.pending) :
    (changeState c new r mid s).pending = s.pending :=
  changeState_keeps c new r mid s State.pending h (by simp) (by simp) (by simp) (by simp) (by simp) (by simp)
@[simp] theorem changeState_lines (h : ∀ s, (mid s).tlu.lines = s.tlu.lines) :
    (changeState c new r mid s).tlu.lines = s.tlu.lines :=
  changeState_keeps c new r mid s (fun s => s.tlu.lines) h (by simp) (by simp) (by simp) (by simp) (by simp) (by simp)
@[simp] theorem changeState_quota (h : ∀ s, (mid s).scu.quota = s.scu.quota) :
    (changeState c new r mid s).scu.quota = s.scu.quota :=
  changeState_keeps c new r mid s (fun s => s.scu.quota) h (by simp) (by simp) (by simp) (by simp) (by simp) (by simp)
@[simp] theorem changeState_clusterTime (h : ∀ s, (mid s).tbu = s.tbu) :
    (changeState c new r mid s).tbu.clusterTime = s.tbu.clusterTime :=
  changeState_keeps c new r mid s (fun s => s.tbu.clusterTime) (by simp [h]) (by simp) (by simp) (by simp) (by simp)
    (by simp) (by simp)
@[simp] theorem changeState_localClock (h : ∀ s, (mid s).tbu = s.tbu) :
    (changeState c new r mid s).tbu.localClock = s.tbu.localClock :=
  changeState_keeps c new r mid s (fun s => s.tbu.localClock) (by simp [h]) (by simp) (by simp) (by simp) (by simp)
    (by simp) (by simp)

/-- The sync state's own items (R39). -/
@[simp] theorem changeState_syc (h : ∀ s, (mid s).syc = s.syc) :
    (changeState c new r mid s).syc =
      { state := new, lastSynchronizing := new.reported.or s.syc.lastSynchronizing,
        goodRounds := 0, stableRounds := 0, holdoverRounds := 0,
        listenTimer := if new = .listen then some c.listenTime else none,
        nextBeaconDue := if new.standsDown then none else s.syc.nextBeaconDue } := by
  unfold changeState
  dsimp only
  split
  · split <;> simp_all
  · simp_all

/-- The Timebase at a change (R5, R16, R18). -/
@[simp] theorem changeState_tbu (h : ∀ s, (mid s).tbu = s.tbu) :
    (changeState c new r mid s).tbu =
      if new.standsDown then
        { s.tbu with
          slewDebt := 0, hold := false, nextBoundary := none,
          syncLossCount := if s.syc.state.synced then sat16 s.tbu.syncLossCount 1 else s.tbu.syncLossCount }
      else s.tbu := by
  unfold changeState
  dsimp only
  split
  · split <;> simp_all
  · simp_all

/-- The peer table at a change (R36). -/
@[simp] theorem changeState_mbu (h : ∀ s, (mid s).mbu = s.mbu) :
    (changeState c new r mid s).mbu = if new.standsDown then (clearFresh s).mbu else s.mbu := by
  unfold changeState
  dsimp only
  split
  · split <;> simp_all [clearFresh, mapPeers]
  · simp_all

/-- The schedule at a change (R56, R130). -/
@[simp] theorem changeState_entries :
    (changeState c new r mid s).scu.entries =
      if new.standsDown = true ∧ s.syc.state ≠ .off then [] else s.scu.entries := by
  unfold changeState
  dsimp only
  split
  · split <;> simp_all
  · simp_all

/-- The transmit queue at a change (R56, R73). -/
@[simp] theorem changeState_queue :
    (changeState c new r mid s).lif.queue =
      if new.standsDown = true ∧ s.syc.state ≠ .off then [] else s.lif.queue := by
  unfold changeState
  dsimp only
  split
  · split <;> simp_all
  · simp_all

@[simp] theorem changeState_slot :
    (changeState c new r mid s).lif.slot =
      if new.standsDown = true ∧ s.syc.state ≠ .off then none else s.lif.slot := by
  unfold changeState
  dsimp only
  split
  · split <;> simp_all
  · simp_all

@[simp] theorem changeState_onLine (h : ∀ s, (mid s).lif = s.lif) :
    (changeState c new r mid s).lif.onLine =
      if new.standsDown = true ∧ s.syc.state ≠ .off then s.lif.onLine.map fun f => { f with purged := true }
      else s.lif.onLine := by
  unfold changeState
  dsimp only
  split
  · split <;> simp_all
  · simp_all

@[simp] theorem changeState_txn (h : ∀ s, (mid s).rdp.txn = s.rdp.txn) :
    (changeState c new r mid s).rdp.txn = s.rdp.txn :=
  changeState_keeps c new r mid s (fun s => s.rdp.txn) h (by simp) (by simp) (by simp) (by simp) (by simp) (by simp)

end

/-! ### The hand-over of a record (R163, R164) -/

/-- The journal after a hand-over depends on the journal before it alone. -/
theorem handRecord_jnl_eq (r : Record) (k : LostKind) (s t : State) (h : s.jnl = t.jnl) :
    (handRecord r k s).jnl = (handRecord r k t).jnl := by
  simp only [handRecord, loseRecord, h]
  split_ifs <;> simp

/-- The flags after a hand-over depend on the journal and the flags before it alone. -/
theorem handRecord_flags_eq (r : Record) (k : LostKind) (s t : State) (h : s.jnl = t.jnl)
    (hf : s.rdp.flags = t.rdp.flags) : (handRecord r k s).rdp.flags = (handRecord r k t).rdp.flags := by
  simp only [handRecord, loseRecord, h]
  split_ifs <;> simp [hf, State.raiseFlag]

/-! ### The three ways of a change that nothing meets (R40, R41, R55, R56) -/

/-- The record of a change is `stateRecord`. -/
theorem writeStateRecord_hands (old : SyncState) (r : Reason) (n : Option Nat) (s : State) :
    writeStateRecord old r n s = handRecord (stateRecord s old s.syc.state r n) .state s := rfl

/-- Into LISTEN or CLASH from a state that is not OFF: the three orders, and their count in the record. -/
theorem changeState_standsDown (c : Cfg) (new : SyncState) (r : Reason) (s : State) (hn : new.standsDown = true)
    (ho : s.syc.state ≠ .off) :
    changeState c new r id s =
      writeStateRecord s.syc.state r (some s.scu.entries.length)
        (flush (purge (trainEnd (dropTime s.syc.state.synced (setSyncState c new s))))) := by
  simp [changeState, hn, ho]

/-- Out of OFF into LISTEN: no order, no count. -/
theorem changeState_fromOff (c : Cfg) (new : SyncState) (r : Reason) (s : State) (hn : new.standsDown = true)
    (ho : s.syc.state = .off) :
    changeState c new r id s = writeStateRecord .off r none (dropTime false (setSyncState c new s)) := by
  simp [changeState, hn, ho, SyncState.synced]

/-- Into any other state: no order, no count. -/
theorem changeState_moves (c : Cfg) (new : SyncState) (r : Reason) (mid : State → State) (s : State)
    (hn : new.standsDown = false) :
    changeState c new r mid s = writeStateRecord s.syc.state r none (setSyncState c new s) := by
  simp [changeState, hn]

/-- The last-edge records at a change (R156). -/
theorem setSyncState_inputs (c : Cfg) (new : SyncState) (s : State) :
    (setSyncState c new s).tlu.inputs =
      if s.syc.state.basis = new.basis then s.tlu.inputs
      else s.tlu.inputs.map fun ch => { ch with lastEdge := none } := by
  unfold setSyncState; dsimp only; split <;> simp [clearLastEdges]

/-! ### Reset (R176) -/

section
variable (cause : ResetCause) (hold : Nat) (s : State)

@[simp] theorem resetState_tbu : (resetState cause hold s).tbu = Tbu.reset := rfl
@[simp] theorem resetState_mbu : (resetState cause hold s).mbu = Mbu.reset := rfl
@[simp] theorem resetState_syc : (resetState cause hold s).syc = Syc.reset := rfl
@[simp] theorem resetState_lif : (resetState cause hold s).lif = Lif.reset := rfl
@[simp] theorem resetState_tge : (resetState cause hold s).tge = Tge.reset := rfl
@[simp] theorem resetState_amp : (resetState cause hold s).amp = Vector.replicate 64 none := rfl
@[simp] theorem resetState_scu : (resetState cause hold s).scu = Scu.reset := rfl
@[simp] theorem resetState_tlu : (resetState cause hold s).tlu = Tlu.reset s.tlu.pins := rfl
@[simp] theorem resetState_jnl : (resetState cause hold s).jnl = Jnl.reset := rfl
@[simp] theorem resetState_rdp : (resetState cause hold s).rdp = Rdp.reset := rfl
@[simp] theorem resetState_src :
    (resetState cause hold s).src = { Src.reset cause with inReset := true, portHold := hold } := rfl
@[simp] theorem resetState_cfg : (resetState cause hold s).cfg = none := rfl
@[simp] theorem resetState_uniqueId : (resetState cause hold s).uniqueId = s.uniqueId := rfl
@[simp] theorem resetState_freeCount : (resetState cause hold s).freeCount = s.freeCount := rfl
@[simp] theorem resetState_pending : (resetState cause hold s).pending = s.pending := rfl

end

/-! ### Guards and the port's answer -/

theorem live_next (s : State) (f : State → State) : live s f = .next (if s.src.inReset then s else f s) := rfl

theorem live_running (s : State) (f : State → State) (h : s.src.inReset = false) : live s f = .next (f s) := by
  simp [live, h]

theorem withCfg_some (s : State) (f : Cfg → State) (c : Cfg) (h : s.cfg = some c) : withCfg s f = f c := by
  simp [withCfg, h]

theorem takeCommand_begun (s : State) (f : State → State) (h : s.src.inReset = false) (hb : s.rdp.txn = .begun) :
    takeCommand s f = .next (f s) := by
  simp [takeCommand, live, h, hb]

theorem whenReady_ready (s : State) (f : State → State) (h : s.src.loadState = .ready) : whenReady s f = f s := by
  simp [whenReady, h]

theorem whenReady_notReady (s : State) (f : State → State) (h : s.src.loadState ≠ .ready) :
    whenReady s f = answer .notReady [] s := by
  simp [whenReady, h]

/-- A property that holds of the state and of what the effect makes of it holds of what the command answers. -/
theorem live_ind (P : State → Prop) (s : State) (f : State → State) (hs : P s) (hf : s.src.inReset = false → P (f s))
    (t : State) (h : live s f = .next t) : P t := by
  cases hr : s.src.inReset
  · rw [live_running s f hr] at h; cases h; exact hf hr
  · simp [live, hr] at h; exact h ▸ hs

end Sys2Proof.Machine
end

