-- ==== Sys2Proof/Laws/Step.lean ====
section
/-! SUPPORT. The step and the commands: what a property must satisfy to be kept by every step. -/

set_option Elab.async false

namespace Sys2Proof.Machine

theorem step_idle (s : State) (h : s.pending = []) : step s = .next s := by simp [step, h]

theorem step_front (s : State) (c : Instr) (rest : List Instr) (h : s.pending = c :: rest) :
    step s = exec c (s.withPending rest) := by simp [step, h]

/-- A property that does not look at the queue and that every command keeps is kept by every step. -/
theorem step_keeps (P : State → Prop) (hq : ∀ s q, P s → P (s.withPending q))
    (hc : ∀ c s t, P s → exec c s = .next t → P t) (s t : State) (hs : P s) (h : step s = .next t) : P t := by
  cases hp : s.pending with
  | nil => rw [step_idle s hp] at h; cases h; exact hs
  | cons c rest => rw [step_front s c rest hp] at h; exact hc c _ t (hq s rest hs) h

/-- The port's commands: a property is kept where the command's own effect keeps it. -/
theorem takeCommand_ind (P : State → Prop) (s : State) (f : State → State) (hs : P s)
    (hf : s.src.inReset = false → s.rdp.txn = .begun → P (f s)) (t : State) (h : takeCommand s f = .next t) : P t := by
  refine live_ind P s _ hs (fun hr => ?_) t h
  split
  · exact hf hr ‹_›
  · exact hs

theorem whenReady_ind (P : State → Prop) (s : State) (f : State → State) (ha : P (answer .notReady [] s))
    (hf : s.src.loadState = .ready → P (f s)) : P (whenReady s f) := by
  unfold whenReady
  split
  · exact hf ‹_›
  · exact ha

theorem withCfg_ind (P : State → Prop) (s : State) (f : Cfg → State) (hs : P s)
    (hf : ∀ c, s.cfg = some c → P (f c)) : P (withCfg s f) := by
  unfold withCfg
  split
  · exact hf _ ‹_›
  · exact hs

theorem withInput_ind (P : State → Prop) (l : LineNo) (s : State) (f : InputCfg → State) (hs : P s)
    (hf : ∀ ic, s.tlu.lines.get l = .input ic → P (f ic)) : P (withInput l s f) := by
  unfold withInput
  split
  · exact hf _ ‹_›
  · exact hs
  · exact hs

end Sys2Proof.Machine
end

