-- ==== Sys2Proof/Laws/Triggers.lean ====
section
/-! SUPPORT. What raising, processing, firing and inserting can do: a property kept by the parts is kept by the whole. -/

set_option Elab.async false

namespace Sys2Proof.Machine

/-- When a raise is not refused behind the hold-off (R86). -/
theorem raiseRefusal_none (b : Bool) (s : State) :
    raiseRefusal b s = none ↔
      s.leaving = false ∧ s.syc.state.synced = true ∧ b = true ∧ s.lif.queue.length < 8 := by
  rw [raiseRefusal]
  split_ifs <;> cases b <;> simp_all [Config.queuePlaces]

/-- When an entry is due, and when it is not (R120, R125). -/
theorem SchedEntry.isDue_iff {e : SchedEntry} {now : Time} :
    e.isDue now = true ↔ e.capped = false ∧ e.due.toNat ≤ now.toNat := by
  simp [SchedEntry.isDue]

theorem SchedEntry.isDue_eq_false {e : SchedEntry} {now : Time} :
    e.isDue now = false ↔ e.capped = true ∨ now.toNat < e.due.toNat := by
  cases h : e.capped <;> simp [SchedEntry.isDue, h]

/-- What firings leave of the schedule, and that no count of it changes (R125, R126). -/
theorem fireDue_scu (b : Option Time) (s : State) :
    (fireDue b s).scu = { s.scu with entries := (fireDue b s).scu.entries, space := (fireDue b s).scu.space } := by
  have h : ∀ x : Scu, x.quota = s.scu.quota → x.drops = s.scu.drops → x.lateDrop = s.scu.lateDrop →
      x.lateFire = s.scu.lateFire → x.cancelled = s.scu.cancelled →
      x = { s.scu with entries := x.entries, space := x.space } := by
    intro x h1 h2 h3 h4 h5
    dsimp only
    rw [← h1, ← h2, ← h3, ← h4, ← h5]
  exact h _ (by simp) (by simp) (by simp) (by simp) (by simp)

/-- What firings do at the lines: channels and overrun counts alone (R126, R145). -/
theorem fireDue_tlu (b : Option Time) (s : State) :
    (fireDue b s).tlu =
      { s.tlu with channels := (fireDue b s).tlu.channels, overruns := (fireDue b s).tlu.overruns } := by
  have h : ∀ x : Tlu, x.lines = s.tlu.lines → x.inputs = s.tlu.inputs → x.pins = s.tlu.pins →
      x = { s.tlu with channels := x.channels, overruns := x.overruns } := by
    intro x h1 h2 h3
    dsimp only
    rw [← h1, ← h2, ← h3]
  exact h _ (by simp) (by simp) (by simp)

/-- What firings do at the port: flags alone (R145, R164). -/
theorem fireDue_rdp (b : Option Time) (s : State) :
    (fireDue b s).rdp = { s.rdp with flags := (fireDue b s).rdp.flags } := by
  have h : ∀ x : Rdp, x.txn = s.rdp.txn → x.armed = s.rdp.armed → x.statePending = s.rdp.statePending →
      x.loadPending = s.rdp.loadPending → x.mask = s.rdp.mask → x.threshold = s.rdp.threshold →
      x = { s.rdp with flags := x.flags } := by
    intro x h1 h2 h3 h4 h5 h6
    dsimp only
    rw [← h1, ← h2, ← h3, ← h4, ← h5, ← h6]
  exact h _ (by simp) (by simp) (by simp) (by simp) (by simp) (by simp)

/-- Where the head is not due nothing fires (R125). -/
theorem fireDue_none (b : Option Time) (s : State) (h : headDue s = false) : fireDue b s = s := by
  unfold headDue at h
  unfold fireDue
  split at h
  · rename_i he
    rw [he, fireDueFrom, if_neg (by simpa using h)]
  · rename_i he
    rw [he, fireDueFrom]

theorem headDue_of_later (s : State)
    (h : ∀ e ∈ s.scu.entries, e.capped = true ∨ s.tbu.clusterTime.toNat < e.due.toNat) : headDue s = false := by
  unfold headDue
  split
  · rename_i he
    exact SchedEntry.isDue_eq_false.2 (h _ (by rw [he]; exact List.mem_cons_self))
  · rfl

section
variable (P : State → Prop)

theorem foldl_keeps {α : Type} (f : State → α → State) (hf : ∀ s a, P s → P (f s a)) (xs : List α) (s : State)
    (hs : P s) : P (xs.foldl f s) := by
  induction xs generalizing s with
  | nil => exact hs
  | cons x xs ih => exact ih _ (hf s x hs)

theorem fireDueFrom_keeps (b : Option Time)
    (hf : ∀ e r s, P s → e.isDue s.tbu.clusterTime = true → s.scu.entries = e :: r → P (fireEntry b e r s))
    (hr : ∀ e r s, s.scu.entries = e :: r → (fireEntry b e r s).scu.entries = r) (es : List SchedEntry) (s : State)
    (he : s.scu.entries = es) (hs : P s) : P (fireDueFrom b es s) := by
  induction es generalizing s with
  | nil => exact hs
  | cons e es ih =>
    simp only [fireDueFrom]
    split
    · exact ih _ (hr e es s he) (hf e es s hs ‹_› he)
    · exact hs

/-- The schedule after a firing is the rest (R125). -/
@[simp] theorem foldl_fireCommand_entries (a : Action) (ls : List LineNo) (s : State) :
    (ls.foldl (fireCommand a) s).scu.entries = s.scu.entries := by simp

@[simp] theorem fireEntry_entries (b : Option Time) (e : SchedEntry) (r : List SchedEntry) (s : State) :
    (fireEntry b e r s).scu.entries = r := by
  unfold fireEntry; dsimp only; split <;> simp

/-- The place of a fired entry returns (R125). -/
@[simp] theorem fireEntry_space (b : Option Time) (e : SchedEntry) (r : List SchedEntry) (s : State) :
    (fireEntry b e r s).scu.space = freePlace e.part s.scu.space := by
  unfold fireEntry; dsimp only; split <;> simp

theorem fireDue_keeps (b : Option Time)
    (hf : ∀ e r s, P s → e.isDue s.tbu.clusterTime = true → s.scu.entries = e :: r → P (fireEntry b e r s))
    (s : State) (hs : P s) : P (fireDue b s) :=
  fireDueFrom_keeps P b hf (by simp) _ s rfl hs

theorem fireSomeFrom_keeps (b : Option Time)
    (hf : ∀ e r s, P s → e.isDue s.tbu.clusterTime = true → s.scu.entries = e :: r → P (fireEntry b e r s))
    (hc : ∀ s n, P s → P (s.withFreeCount n)) (es : List SchedEntry) (s : State) (he : s.scu.entries = es) (hs : P s) :
    P (fireSomeFrom b es s) := by
  induction es generalizing s with
  | nil => exact hs
  | cons e es ih =>
    simp only [fireSomeFrom]
    split
    · split
      · exact ih _ (by simp) (hf e es _ (hc s _ hs) ‹_› he)
      · exact hc s _ hs
    · exact hs

theorem fireSome_keeps (b : Option Time)
    (hf : ∀ e r s, P s → e.isDue s.tbu.clusterTime = true → s.scu.entries = e :: r → P (fireEntry b e r s))
    (hc : ∀ s n, P s → P (s.withFreeCount n)) (s : State) (hs : P s) : P (fireSome b s) :=
  fireSomeFrom_keeps P b hf hc _ s rfl hs

/-- Processing keeps what one insertion with its firings, a stopped chain, a refusal and an accepted raise keep
(R95, R111, R113). -/
theorem process_keeps (c : Cfg) (hi : ∀ t s im, P s → P (fireSome none (insertAction t s im)))
    (hstop : ∀ t s, P s → P (stopChain t s)) (href : ∀ s, P s → P (countRefused s))
    (henq : ∀ t s, P s → raiseRefusal true s = none → P (enqueue c t s)) (n : Nat) (t : Trigger) (s : State)
    (hs : P s) : P (process c n t s) := by
  induction n generalizing t s with
  | zero => exact hs
  | succ n ih =>
    have hm := foldl_keeps P (fun s im => fireSome none (insertAction t s im)) (fun s im => hi t s im) (matching s.amp t) s hs
    simp only [process]
    split
    · exact hm
    · split
      · exact hstop _ _ hm
      · split
        · exact href _ hm
        · exact ih _ _ (henq _ _ hm ‹_›)

theorem raiseTrigger_keeps (c : Cfg) (hi : ∀ t s im, P s → P (fireSome none (insertAction t s im)))
    (hstop : ∀ t s, P s → P (stopChain t s)) (href : ∀ s, P s → P (countRefused s))
    (henq : ∀ t b s, P s → raiseRefusal b s = none → P (enqueue c t s)) (k : TrigClass) (x : Time) (b : Bool) (s : State)
    (hs : P s) : P (raiseTrigger c k x b s).1 := by
  unfold raiseTrigger
  split
  · exact href s hs
  · exact process_keeps P c hi hstop href (fun t s => henq t true s) _ _ _ (henq _ _ _ hs ‹_›)

end

end Sys2Proof.Machine
end

