-- ==== Sys2Proof/Laws/Effect.lean ====
section
/-! SUPPORT. What a command can do, said once: each effect with the condition under which its step comes about. A command
leaves the part as it stands or has one of these effects (exec_effect). -/

set_option Elab.async false

namespace Sys2Proof.Machine

/-- The line after the own frame has left it at a collision (R70). -/
def afterCollision (s : State) : State :=
  s.withLif { s.lif with onLine := none, collisions := s.lif.collisions + 1 }

/-- The line after the own frame has completed (R72). -/
def afterComplete (s : State) : State :=
  s.withLif { s.lif with onLine := none, receiver := s.lif.receiver.markOwn }

/-- The line after a reception has ended (R74). -/
def afterReception (s : State) : State := s.withLif { s.lif with receiver := .ready }

/-- One more frame delivered (R76). -/
def countReceived (s : State) : State :=
  s.withLif { s.lif with framesReceived := s.lif.framesReceived + 1 }

/-- An image byte more (R177). -/
def withByte (b : Byte) (s : State) : State := s.withSrc { s.src with image := s.src.image ++ [b] }

/-- The effects, command by command. -/
inductive Effect : Instr → State → State → Prop
  | reset (cause s) : cause ≠ .port → Effect (.reset cause) s (resetState cause s.src.portHold s)
  | release (a b s) : s.src.inReset = true → s.src.portHold = 0 → Effect (.resetRelease a b) s (release a b s)
  | tickInReset (a p s) : s.src.inReset = true → Effect (.tick a p) s (tickInReset p s)
  | tick (a p s) : s.src.inReset = false → Effect (.tick a p) s (tick a p s)
  | byteMore (b s) : s.src.inReset = false → s.src.loadState = .loading →
      judgeImage (s.src.image ++ [b]) = .more → Effect (.imageByte b) s (withByte b s)
  | byteFail (b r s) : s.src.inReset = false → s.src.loadState = .loading →
      judgeImage (s.src.image ++ [b]) = .fail r → Effect (.imageByte b) s (endLoad .failed r (withByte b s))
  | byteReady (b g s) : s.src.inReset = false → s.src.loadState = .loading →
      judgeImage (s.src.image ++ [b]) = .ok g → Effect (.imageByte b) s (loadReady g (withByte b s))
  | listenTimeout (c s) : s.src.inReset = false → s.cfg = some c → s.syc.state = .listen →
      s.syc.listenTimer = some 0 → Effect .listenTimeout s (found c s)
  | correction (c s) : s.src.inReset = false → s.cfg = some c → s.tbu.nextBoundary = some s.tbu.clusterTime →
      Effect .correctionEvent s (correctionAt c s.tbu.clusterTime s)
  | beaconDue (c t s) : s.src.inReset = false → s.cfg = some c → s.syc.nextBeaconDue = some t →
      t.toNat ≤ s.tbu.clusterTime.toNat → Effect .beaconDue s (beaconDue c t s)
  | startTrigger (c e rest s) : s.src.inReset = false → s.cfg = some c → s.src.loadState = .ready →
      s.syc.state.active = true → s.lif.onLine = none → s.lif.queue = e :: rest →
      triggerGap + e.backoff ≤ s.lif.idleTimer →
      Effect .frameStart s (s.withLif { s.lif with
        queue := { e with onLine := true } :: rest,
        onLine := some (OnLine.start (.trigger e.trigger (copyNumber c e))) })
  | startBeacon (c b s) : s.src.inReset = false → s.cfg = some c → s.src.loadState = .ready →
      s.syc.state.active = true → s.lif.onLine = none → s.lif.queue = [] → s.lif.slot = some b →
      beaconGap + b.backoff ≤ s.lif.idleTimer →
      Effect .frameStart s (s.withLif { s.lif with
        slot := none, onLine := some (OnLine.start (.beacon b none false)) })
  | reference (f s) : s.src.inReset = false → s.lif.onLine = some f → f.refLeft = false →
      Effect .sendReferencePoint s (openReception
        (s.withLif { s.lif with onLine := some { f with frame := f.frame.passReference s, refLeft := true } }))
  | collidePurged (f s) : s.src.inReset = false → s.lif.onLine = some f → f.purged = true →
      Effect .collision s (afterCollision s)
  | collideTrigger (c f t n s) : s.src.inReset = false → s.cfg = some c → s.lif.onLine = some f → f.purged = false →
      f.frame = .trigger t n → Effect .collision s (collideTrigger c (afterCollision s))
  | collideBeacon (c f b x l s) : s.src.inReset = false → s.cfg = some c → s.lif.onLine = some f → f.purged = false →
      f.frame = .beacon b x l → Effect .collision s (collideBeacon c b (afterCollision s))
  | completeTrigger (f t n s) : s.src.inReset = false → s.lif.onLine = some f → f.refLeft = true →
      f.frame = .trigger t n → Effect .frameComplete s (completeTrigger f.purged (afterComplete s))
  | completeBeacon (f b x l s) : s.src.inReset = false → s.lif.onLine = some f → f.refLeft = true →
      f.frame = .beacon b x l → Effect .frameComplete s (completeBeacon l (afterComplete s))
  | startMark (s) : s.src.inReset = false → Effect .startMarkReceived s (openReception s)
  | dropOwn (body l k s) : s.src.inReset = false → s.lif.receiver = .receiving l k true →
      20 ≤ s.lif.idleTimer → Effect (.frameEnd body) s (afterReception s)
  | badFrame (body l k s) : s.src.inReset = false → s.lif.receiver = .receiving l k false →
      20 ≤ s.lif.idleTimer → judgeFrame body = none →
      Effect (.frameEnd body) s (countBadFrame (afterReception s))
  | discard (body l k f s) : s.src.inReset = false → s.lif.receiver = .receiving l k false →
      20 ≤ s.lif.idleTimer → judgeFrame body = some f → s.cfg = none →
      Effect (.frameEnd body) s (countReceived (afterReception s))
  | beacon (body l k c b s) : s.src.inReset = false → s.lif.receiver = .receiving l k false →
      20 ≤ s.lif.idleTimer → judgeFrame body = some (.beacon b) → s.cfg = some c →
      Effect (.frameEnd body) s (deliverBeacon c b l k (countReceived (afterReception s)))
  | trigger (body l k c t n s) : s.src.inReset = false → s.lif.receiver = .receiving l k false →
      20 ≤ s.lif.idleTimer → judgeFrame body = some (.trigger t n) → s.cfg = some c →
      Effect (.frameEnd body) s (judgeTriggerFrame c t (countReceived (afterReception s)))
  | transition (l ic s) : s.src.inReset = false → s.tlu.lines.get l = .input ic →
      (s.tlu.inputs.get l).candidate = none → differs l s = true →
      Effect (.inputTransition l) s (setInput l
        { s.tlu.inputs.get l with
          candidate := some { localClock := s.tbu.localClock, stamp := stampNow s, basis := s.basis } } s)
  | reversion (l ic s) : s.src.inReset = false → s.tlu.lines.get l = .input ic → differs l s = false →
      Effect (.inputReversion l) s (setInput l { s.tlu.inputs.get l with candidate := none } s)
  | edge (l c ic cand s) : s.src.inReset = false → s.cfg = some c → s.tlu.lines.get l = .input ic →
      (s.tlu.inputs.get l).candidate = some cand → differs l s = true →
      ic.qualification ≤ s.tbu.localClock.toNat - cand.localClock.toNat →
      Effect (.edgeQualified l) s (qualifyEdge c l ic cand s)
  | fire (e rest s) : s.src.inReset = false → s.scu.entries = e :: rest → s.syc.state.synced = true →
      e.isDue s.tbu.clusterTime = true → Effect .entryDue s (fireEntry none e rest s)
  | widthExpiry (l s) : s.src.inReset = false →
      Effect (.widthExpiry l) s (setChannel l (s.tlu.channels.get l).widthExpiry s)
  | gapExpiry (l s) : s.src.inReset = false →
      Effect (.gapExpiry l) s (setChannel l (s.tlu.channels.get l).gapExpiry s)
  | begun (s) : s.src.inReset = false → s.rdp.txn = .idle →
      Effect .transactionStart s (s.withRdp { s.rdp with txn := .begun })
  | rise (s) : s.src.inReset = false → Effect .selectRise s (s.withRdp { s.rdp with txn := .idle })
  | unknown (code s) : s.src.inReset = false → s.rdp.txn = .begun → commandCodes.contains code = false →
      Effect (.unknownCommand code) s (answer .unknownCommand [] s)
  | notReady (i s) : s.src.inReset = false → s.rdp.txn = .begun → s.src.loadState ≠ .ready →
      Effect i s (answer .notReady [] s)
  | badArgument (i s) : s.src.inReset = false → s.rdp.txn = .begun → s.src.loadState = .ready →
      Effect i s (answer .badArgument [] s)
  | readStatus (s) : s.src.inReset = false → s.rdp.txn = .begun →
      Effect .readStatus s
        (answer .ok (statusFields s) (s.withRdp { s.rdp with statePending := false, loadPending := false }))
  | readTime (s) : s.src.inReset = false → s.rdp.txn = .begun → s.src.loadState = .ready →
      Effect .readTime s (answer .ok (timeFields s) s)
  | readIdentity (s) : s.src.inReset = false → s.rdp.txn = .begun →
      Effect .readIdentity s (answer .ok (identityFields s) s)
  | readSync (s) : s.src.inReset = false → s.rdp.txn = .begun → s.src.loadState = .ready →
      Effect .readSync s (answer .ok (syncFields s) s)
  | readPeer (a n s) : s.src.inReset = false → s.rdp.txn = .begun → s.src.loadState = .ready →
      station? a.toNat = some n → Effect (.readPeer a) s (answer .ok (peerFields (s.mbu.peers.get n)) s)
  | readSchedule (s) : s.src.inReset = false → s.rdp.txn = .begun → s.src.loadState = .ready →
      Effect .readSchedule s (answer .ok (scheduleFields s.scu) s)
  | readCounters (s) : s.src.inReset = false → s.rdp.txn = .begun → s.src.loadState = .ready →
      Effect .readCounters s (answer .ok ((counterList s).flatMap fun n => beBytes 4 n.toNat) s)
  | readFlags (s) : s.src.inReset = false → s.rdp.txn = .begun → s.src.loadState = .ready →
      Effect .readFlags s (answer .ok s.rdp.flags.fields (s.withRdp { s.rdp with flags := Flags.clear }))
  | readJournal (s) : s.src.inReset = false → s.rdp.txn = .begun → s.src.loadState = .ready →
      Effect .readJournal s (openTransfer (answer .ok (journalFields s.jnl) s))
  | transferDone (out s) : s.src.inReset = false → s.rdp.txn = .taken out true →
      Effect .journalTransferDone s
        ((s.withJnl { s.jnl with records := s.jnl.records.drop 1 }).withRdp { s.rdp with txn := .taken out false })
  | raise (a k c s) : s.src.inReset = false → s.rdp.txn = .begun → s.src.loadState = .ready →
      class? a.toNat = some k → s.cfg = some c → Effect (.raise a) s (raiseCommand c k s)
  | cancel (a k s) : s.src.inReset = false → s.rdp.txn = .begun → s.src.loadState = .ready →
      class? a.toNat = some k → Effect (.cancel a) s (cancelCommand k s)
  | arm (s) : s.src.inReset = false → s.rdp.txn = .begun →
      Effect .restartArm s ((answer .ok [] s).withRdp { (answer .ok [] s).rdp with armed := true })
  | notArmed (s) : s.src.inReset = false → s.rdp.txn = .begun → s.rdp.armed = false →
      Effect .restart s (answer .notArmed [] s)
  | restartGoesOn (s) : s.src.inReset = false → s.rdp.txn = .begun → s.rdp.armed = true →
      s.src.loadState = .ready → s.syc.state.active = true → s.leaving = true →
      Effect .restart s (answer .ok [] s)
  | restartLeave (c s) : s.src.inReset = false → s.rdp.txn = .begun → s.rdp.armed = true →
      s.src.loadState = .ready → s.syc.state.active = true → s.leaving = false → s.cfg = some c →
      Effect .restart s (beginLeave c (answer .ok [] s))
  | restartNoCfg (s) : s.src.inReset = false → s.rdp.txn = .begun → s.rdp.armed = true → s.cfg = none →
      Effect .restart s (answer .ok [] s)
  | restartReset (s) : s.src.inReset = false → s.rdp.txn = .begun → s.rdp.armed = true →
      ¬(s.src.loadState = .ready ∧ s.syc.state.active = true) → Effect .restart s (portReset (answer .ok [] s))
  | leaveTimeout (s) : s.src.inReset = false → s.src.leaveTimer = some 0 → Effect .leaveTimeout s (portReset s)
  | supplySet (s) : s.src.inReset = false →
      Effect .supplyWarningSet s (s.withSrc { s.src with supplyWarning := true })
  | supplyClear (s) : s.src.inReset = false →
      Effect .supplyWarningClear s (s.withSrc { s.src with supplyWarning := false })
  | notAFrame (s) : s.src.inReset = false → s.lif.receiver = .ready →
      Effect .notAFrame s (s.withLif { s.lif with receiver := .ignoring })

/-- Reading `t = s ∨ Effect c s t` off a live command. -/
theorem live_effect (i : Instr) (s t : State) (f : State → State) (h : live s f = .next t)
    (hf : s.src.inReset = false → f s = s ∨ Effect i s (f s)) : t = s ∨ Effect i s t :=
  live_ind (fun t => t = s ∨ Effect i s t) s f (.inl rfl) hf t h

theorem takeCommand_effect (i : Instr) (s t : State) (f : State → State) (h : takeCommand s f = .next t)
    (hf : s.src.inReset = false → s.rdp.txn = .begun → f s = s ∨ Effect i s (f s)) : t = s ∨ Effect i s t :=
  takeCommand_ind (fun t => t = s ∨ Effect i s t) s f (.inl rfl) hf t h

theorem whenReady_effect (i : Instr) (s : State) (f : State → State) (hr : s.src.inReset = false)
    (hb : s.rdp.txn = .begun) (hf : s.src.loadState = .ready → f s = s ∨ Effect i s (f s)) :
    whenReady s f = s ∨ Effect i s (whenReady s f) := by
  by_cases hl : s.src.loadState = .ready
  · rw [whenReady_ready s f hl]; exact hf hl
  · rw [whenReady_notReady s f hl]; exact .inr (.notReady i s hr hb hl)

theorem withCfg_effect (i : Instr) (s : State) (f : Cfg → State)
    (hf : ∀ c, s.cfg = some c → f c = s ∨ Effect i s (f c)) : withCfg s f = s ∨ Effect i s (withCfg s f) :=
  withCfg_ind (fun t => t = s ∨ Effect i s t) s f (.inl rfl) hf

/-- A command that answers a next state leaves the part as it stands or has one of its effects. -/
theorem exec_effect (i : Instr) (s t : State) (h : exec i s = .next t) : t = s ∨ Effect i s t := by
  cases i
  case reset cause =>
    cases h
    cases cause
    case port => exact .inl rfl
    all_goals exact .inr (.reset _ s (by decide))
  case resetRelease a b =>
    cases h
    split
    · rename_i hc; exact .inr (.release a b s hc.1 hc.2)
    · exact .inl rfl
  case tick a p =>
    cases h
    split
    · exact .inr (.tickInReset a p s ‹_›)
    · rename_i hr; exact .inr (.tick a p s (by simpa using hr))
  case imageByte b =>
    change execImageByte b s = _ at h
    unfold execImageByte at h
    refine live_effect _ s t _ h fun hr => ?_
    split
    · rename_i hl
      refine .inr ?_
      unfold takeImageByte
      dsimp only
      split
      · exact .byteMore b s hr hl ‹_›
      · exact .byteFail b _ s hr hl ‹_›
      · exact .byteReady b _ s hr hl ‹_›
    · exact .inl rfl
  case listenTimeout =>
    change execListenTimeout s = _ at h
    unfold execListenTimeout at h
    refine live_effect _ s t _ h fun hr => withCfg_effect _ s _ fun c hc => ?_
    split
    · rename_i hl; exact .inr (.listenTimeout c s hr hc hl.1 hl.2)
    · exact .inl rfl
  case correctionEvent =>
    change execCorrectionEvent s = _ at h
    unfold execCorrectionEvent at h
    refine live_effect _ s t _ h fun hr => withCfg_effect _ s _ fun c hc => ?_
    split
    · exact .inr (.correction c s hr hc ‹_›)
    · exact .inl rfl
  case beaconDue =>
    change execBeaconDue s = _ at h
    unfold execBeaconDue at h
    refine live_effect _ s t _ h fun hr => withCfg_effect _ s _ fun c hc => ?_
    split
    · split
      · exact .inr (.beaconDue c _ s hr hc ‹_› ‹_›)
      · exact .inl rfl
    · exact .inl rfl
  case frameStart =>
    change execFrameStart s = _ at h
    unfold execFrameStart at h
    refine live_effect _ s t _ h fun hr => withCfg_effect _ s _ fun c hc => ?_
    split
    · rename_i hg
      unfold startOffered
      split
      · split
        · exact .inr (.startTrigger c _ _ s hr hc hg.1 hg.2.1 hg.2.2 ‹_› ‹_›)
        · exact .inl rfl
      · split
        · exact .inr (.startBeacon c _ s hr hc hg.1 hg.2.1 hg.2.2 ‹_› ‹_› ‹_›)
        · exact .inl rfl
      · exact .inl rfl
    · exact .inl rfl
  case sendReferencePoint =>
    change execSendReferencePoint s = _ at h
    unfold execSendReferencePoint at h
    refine live_effect _ s t _ h fun hr => ?_
    dsimp only
    split
    · split
      · exact .inl rfl
      · rename_i hl; exact .inr (.reference _ s hr ‹_› (by simpa using hl))
    · exact .inl rfl
  case collision =>
    change execCollision s = _ at h
    unfold execCollision at h
    refine live_effect _ s t _ h fun hr => withCfg_effect _ s _ fun c hc => ?_
    dsimp only
    split
    · rename_i f hf
      split
      · exact .inr (.collidePurged f s hr hf ‹_›)
      · rename_i hp
        split
        · exact .inr (.collideTrigger c f _ _ s hr hc hf (by simpa using hp) ‹_›)
        · exact .inr (.collideBeacon c f _ _ _ s hr hc hf (by simpa using hp) ‹_›)
    · exact .inl rfl
  case frameComplete =>
    change execFrameComplete s = _ at h
    unfold execFrameComplete at h
    refine live_effect _ s t _ h fun hr => ?_
    dsimp only
    split
    · rename_i f hf
      split
      · split
        · exact .inr (.completeTrigger f _ _ s hr hf ‹_› ‹_›)
        · exact .inr (.completeBeacon f _ _ _ s hr hf ‹_› ‹_›)
      · exact .inl rfl
    · exact .inl rfl
  case startMarkReceived =>
    change execStartMarkReceived s = _ at h
    unfold execStartMarkReceived at h
    exact live_effect _ s t _ h fun hr => .inr (.startMark s hr)
  case frameEnd body =>
    change execFrameEnd body s = _ at h
    unfold execFrameEnd at h
    refine live_effect _ s t _ h fun hr => ?_
    dsimp only
    split
    · rename_i l k own hv
      split
      · rename_i hi
        split
        · rename_i ho; subst ho; exact .inr (.dropOwn body l k s hr hv hi)
        · rename_i ho
          simp only [Bool.not_eq_true] at ho
          subst ho
          split
          · rename_i f hj
            unfold deliver withCfg
            dsimp only
            split
            · rename_i c hc
              split
              · exact .inr (.beacon body l k c _ s hr hv hi hj hc)
              · exact .inr (.trigger body l k c _ _ s hr hv hi hj hc)
            · rename_i hc; exact .inr (.discard body l k f s hr hv hi hj hc)
          · exact .inr (.badFrame body l k s hr hv hi ‹_›)
      · exact .inl rfl
    · exact .inl rfl
    · exact .inl rfl
  case inputTransition l =>
    change execInputTransition l s = _ at h
    unfold execInputTransition at h
    refine live_effect _ s t _ h fun hr =>
      withInput_ind (fun t => t = s ∨ Effect _ s t) l s _ (.inl rfl) fun ic hl => ?_
    dsimp only
    split
    · rename_i hc; exact .inr (.transition l ic s hr hl hc.1 hc.2)
    · exact .inl rfl
  case inputReversion l =>
    change execInputReversion l s = _ at h
    unfold execInputReversion at h
    refine live_effect _ s t _ h fun hr =>
      withInput_ind (fun t => t = s ∨ Effect _ s t) l s _ (.inl rfl) fun ic hl => ?_
    dsimp only
    split
    · exact .inl rfl
    · rename_i hd; exact .inr (.reversion l ic s hr hl (by simpa using hd))
  case edgeQualified l =>
    change execEdgeQualified l s = _ at h
    unfold execEdgeQualified at h
    refine live_effect _ s t _ h fun hr => withCfg_effect _ s _ fun c hc =>
      withInput_ind (fun t => t = s ∨ Effect _ s t) l s _ (.inl rfl) fun ic hl => ?_
    split
    · split
      · rename_i cand hcand hq; exact .inr (.edge l c ic cand s hr hc hl hcand hq.1 hq.2)
      · exact .inl rfl
    · exact .inl rfl
  case entryDue =>
    change execEntryDue s = _ at h
    unfold execEntryDue at h
    refine live_effect _ s t _ h fun hr => ?_
    split
    · split
      · rename_i he hd; exact .inr (.fire _ _ s hr he hd.1 hd.2)
      · exact .inl rfl
    · exact .inl rfl
  case widthExpiry l =>
    change execWidthExpiry l s = _ at h
    unfold execWidthExpiry at h
    exact live_effect _ s t _ h fun hr => .inr (.widthExpiry l s hr)
  case gapExpiry l =>
    change execGapExpiry l s = _ at h
    unfold execGapExpiry at h
    exact live_effect _ s t _ h fun hr => .inr (.gapExpiry l s hr)
  case transactionStart =>
    change execTransactionStart s = _ at h
    unfold execTransactionStart at h
    refine live_effect _ s t _ h fun hr => ?_
    split
    · exact .inr (.begun s hr ‹_›)
    · exact .inl rfl
  case selectRise =>
    change execSelectRise s = _ at h
    unfold execSelectRise at h
    exact live_effect _ s t _ h fun hr => .inr (.rise s hr)
  case unknownCommand code =>
    change execUnknownCommand code s = _ at h
    unfold execUnknownCommand at h
    refine takeCommand_effect _ s t _ h fun hr hb => ?_
    split
    · exact .inl rfl
    · rename_i hk; exact .inr (.unknown code s hr hb (by simpa using hk))
  case readStatus =>
    change execReadStatus s = _ at h
    unfold execReadStatus at h
    exact takeCommand_effect _ s t _ h fun hr hb => .inr (.readStatus s hr hb)
  case readTime =>
    change execReadTime s = _ at h
    unfold execReadTime at h
    exact takeCommand_effect _ s t _ h fun hr hb => whenReady_effect _ s _ hr hb fun hl => .inr (.readTime s hr hb hl)
  case readIdentity =>
    change execReadIdentity s = _ at h
    unfold execReadIdentity at h
    exact takeCommand_effect _ s t _ h fun hr hb => .inr (.readIdentity s hr hb)
  case readSync =>
    change execReadSync s = _ at h
    unfold execReadSync at h
    exact takeCommand_effect _ s t _ h fun hr hb => whenReady_effect _ s _ hr hb fun hl => .inr (.readSync s hr hb hl)
  case readPeer a =>
    change execReadPeer a s = _ at h
    unfold execReadPeer at h
    refine takeCommand_effect _ s t _ h fun hr hb => whenReady_effect _ s _ hr hb fun hl => ?_
    split
    · exact .inr (.readPeer a _ s hr hb hl ‹_›)
    · exact .inr (.badArgument _ s hr hb hl)
  case readSchedule =>
    change execReadSchedule s = _ at h
    unfold execReadSchedule at h
    exact takeCommand_effect _ s t _ h fun hr hb =>
      whenReady_effect _ s _ hr hb fun hl => .inr (.readSchedule s hr hb hl)
  case readCounters =>
    change execReadCounters s = _ at h
    unfold execReadCounters at h
    exact takeCommand_effect _ s t _ h fun hr hb =>
      whenReady_effect _ s _ hr hb fun hl => .inr (.readCounters s hr hb hl)
  case readFlags =>
    change execReadFlags s = _ at h
    unfold execReadFlags at h
    exact takeCommand_effect _ s t _ h fun hr hb =>
      whenReady_effect _ s _ hr hb fun hl => .inr (.readFlags s hr hb hl)
  case readJournal =>
    change execReadJournal s = _ at h
    unfold execReadJournal at h
    exact takeCommand_effect _ s t _ h fun hr hb =>
      whenReady_effect _ s _ hr hb fun hl => .inr (.readJournal s hr hb hl)
  case journalTransferDone =>
    change execJournalTransferDone s = _ at h
    unfold execJournalTransferDone at h
    refine live_effect _ s t _ h fun hr => ?_
    dsimp only
    split
    · exact .inr (.transferDone _ s hr ‹_›)
    all_goals exact .inl rfl
  case raise a =>
    change execRaise a s = _ at h
    unfold execRaise at h
    refine takeCommand_effect _ s t _ h fun hr hb => whenReady_effect _ s _ hr hb fun hl => ?_
    split
    · exact withCfg_effect _ s _ fun c hc => .inr (.raise a _ c s hr hb hl ‹_› hc)
    · exact .inr (.badArgument _ s hr hb hl)
  case cancel a =>
    change execCancel a s = _ at h
    unfold execCancel at h
    refine takeCommand_effect _ s t _ h fun hr hb => whenReady_effect _ s _ hr hb fun hl => ?_
    split
    · exact .inr (.cancel a _ s hr hb hl ‹_›)
    · exact .inr (.badArgument _ s hr hb hl)
  case restartArm =>
    change execRestartArm s = _ at h
    unfold execRestartArm at h
    exact takeCommand_effect _ s t _ h fun hr hb => .inr (.arm s hr hb)
  case restart =>
    change execRestart s = _ at h
    unfold execRestart at h
    refine takeCommand_effect _ s t _ h fun hr hb => ?_
    split
    · rename_i ha
      refine .inr ?_
      unfold restartPart
      split
      · rename_i hg
        split
        · exact .restartGoesOn s hr hb ha hg.1 hg.2 ‹_›
        · rename_i hn
          cases hc : s.cfg with
          | none =>
            rw [show withCfg (answer .ok [] s) _ = answer .ok [] s by simp [withCfg, answer, hc]]
            exact .restartNoCfg s hr hb ha hc
          | some c =>
            rw [withCfg_some (answer .ok [] s) _ c hc]
            exact .restartLeave c s hr hb ha hg.1 hg.2 (by simpa [State.leaving, answer] using hn) hc
      · exact .restartReset s hr hb ha ‹_›
    · rename_i hk; exact .inr (.notArmed s hr hb (by simpa using hk))
  case leaveTimeout =>
    change execLeaveTimeout s = _ at h
    unfold execLeaveTimeout at h
    refine live_effect _ s t _ h fun hr => ?_
    split
    · exact .inr (.leaveTimeout s hr ‹_›)
    · exact .inl rfl
  case supplyWarningSet =>
    change execSupplyWarningSet s = _ at h
    unfold execSupplyWarningSet at h
    exact live_effect _ s t _ h fun hr => .inr (.supplySet s hr)
  case supplyWarningClear =>
    change execSupplyWarningClear s = _ at h
    unfold execSupplyWarningClear at h
    exact live_effect _ s t _ h fun hr => .inr (.supplyClear s hr)
  case notAFrame =>
    change execNotAFrame s = _ at h
    unfold execNotAFrame at h
    refine live_effect _ s t _ h fun hr => ?_
    dsimp only
    split
    · exact .inr (.notAFrame s hr ‹_›)
    all_goals exact .inl rfl

end Sys2Proof.Machine
end

