-- ==== Sys2Proof/Laws/Times.lean ====
section
/-! SUPPORT. Times within 64 bits, the next boundary and the next beacon due, and the membership vector bit by bit. -/

set_option Elab.async false

namespace Sys2Proof.Machine

theorem time64_toNat (z : Int) (h0 : 0 ≤ z) (h : z < 2 ^ 64) : (time64 z).toNat = z.toNat := by
  have hn : z.toNat < 18446744073709551616 := by omega
  rw [time64, if_pos ⟨h0, h⟩, BitVec.toNat_ofNat]
  exact Nat.mod_eq_of_lt hn

theorem time64_nat (n : Nat) (h : n < 2 ^ 64) : (time64 (n : Int)).toNat = n := by
  rw [time64_toNat n (by omega) (by exact_mod_cast h)]; rfl

/-- A stamp moved by nothing stands. -/
@[simp] theorem Receiver.move_zero (r : Receiver) : r.move 0 = r := by
  cases r with
  | receiving l c own =>
    have h : time64 (c.toNat + 0) = c := BitVec.eq_of_toNat_eq (by rw [add_zero]; exact time64_nat _ c.isLt)
    rw [Receiver.move, h]
  | ignoring => rfl
  | ready => rfl

/-- A receiver whose stamp has moved with cluster time is as R7 says. -/
theorem ArrivalMoved.of_move (s t : State)
    (h : t.lif.receiver = s.lif.receiver.move (t.tbu.clusterTime.toNat - s.tbu.clusterTime.toNat)) :
    ArrivalMoved s t := by
  refine ⟨?_, ?_, ?_⟩
  · intro l k own hr z hz he
    have hm : time64 (z : Int) = BitVec.ofNat 64 z :=
      BitVec.eq_of_toNat_eq (by rw [time64_nat _ hz, BitVec.toNat_ofNat, Nat.mod_eq_of_lt hz])
    rw [h, hr, Receiver.move, ← hm, he, add_sub_assoc]
  · intro l k own hr
    exact ⟨_, by rw [h, hr, Receiver.move]⟩
  · intro hn
    rw [h]
    cases hr : s.lif.receiver with
    | receiving l k own => exact absurd hr (hn l k own)
    | ignoring => rfl
    | ready => rfl

theorem timePlus_toNat (t : Time) (n : Nat) (h : t.toNat + n < 2 ^ 64) : (timePlus t n).toNat = t.toNat + n := by
  have := time64_nat (t.toNat + n) h
  simpa [timePlus] using this

/-- A time some ticks later, within 64 bits, is the sum. -/
theorem timePlus_eq_add (t : Time) (n : Nat) (h : t.toNat + n < 2 ^ 64) : timePlus t n = t + BitVec.ofNat 64 n := by
  apply BitVec.eq_of_toNat_eq
  rw [timePlus_toNat t n h, BitVec.toNat_add, BitVec.toNat_ofNat]
  have h1 : n % 2 ^ 64 = n := Nat.mod_eq_of_lt (by omega)
  rw [h1, Nat.mod_eq_of_lt h]

/-- Within 64 bits a time onward is the sum. -/
theorem timeOnward_eq (t : Time) (n : Nat) (h : t.toNat + n < 2 ^ 64) : timeOnward t n = timePlus t n := by
  have := timePlus_toNat t n h
  unfold timeOnward
  dsimp only
  rw [if_pos (by omega)]

theorem timeOnward_toNat (t : Time) (n : Nat) (h : t.toNat + n < 2 ^ 64) : (timeOnward t n).toNat = t.toNat + n := by
  rw [timeOnward_eq t n h, timePlus_toNat t n h]

/-- A time onward is never before the time it starts from (R3, R104). -/
theorem timeOnward_le (t : Time) (n : Nat) : t.toNat ≤ (timeOnward t n).toNat := by
  unfold timeOnward
  dsimp only
  split
  · assumption
  · exact le_rfl

/-- The boundary that an adoption or a founding awaits (R5). -/
theorem boundaryAfter_next (bper : Nat) (t : Time) (hb : 0 < bper) (h : t.toNat + bper < 2 ^ 64) :
    IsNextBoundary bper t.toNat (boundaryAfter bper t).toNat := by
  have h1 : t.toNat / bper * bper ≤ t.toNat := Nat.div_mul_le_self _ _
  have h2 : t.toNat < (t.toNat / bper + 1) * bper := by
    rw [Nat.mul_comm]; exact Nat.lt_mul_div_succ _ hb
  have h3 : (t.toNat / bper + 1) * bper = t.toNat / bper * bper + bper := by ring
  have h4 : (boundaryAfter bper t).toNat = (t.toNat / bper + 1) * bper := time64_nat _ (by omega)
  rw [h4]
  exact ⟨Nat.mul_mod_left _ _, h2, by omega⟩

/-- The own beacon's lag is below a round (R6). -/
theorem beaconLag_lt (c : Cfg) (hb : 0 < c.cluster.bper) : c.beaconLag < c.cluster.bper := by
  have h1 : c.cluster.bper / 32 * 32 ≤ c.cluster.bper := Nat.div_mul_le_self _ _
  have h2 : c.station.val * (c.cluster.bper / 32) ≤ 31 * (c.cluster.bper / 32) :=
    Nat.mul_le_mul_right _ (by have := c.station.isLt; omega)
  unfold Cfg.beaconLag Cluster.stagger
  omega

/-- The beacon due time that an adoption or a founding sets (R57). -/
theorem beaconDueAfter_next (c : Cfg) (t : Time) (hb : 0 < c.cluster.bper)
    (h : t.toNat + c.cluster.bper < 2 ^ 64) : IsNextDue c t.toNat (beaconDueAfter c t).toNat := by
  have hl := beaconLag_lt c hb
  have hlag : c.beaconLag = c.station.val * (c.cluster.bper / 32) := rfl
  by_cases hc : t.toNat < c.beaconLag
  · have h1 : (beaconDueAfter c t).toNat = c.beaconLag := by
      simp only [beaconDueAfter, if_pos hc]; exact time64_nat _ (by omega)
    rw [h1]
    exact ⟨hc, ⟨0, by omega⟩, fun k _ => by rw [← hlag]; omega⟩
  · have h2 : (t.toNat - c.beaconLag) / c.cluster.bper * c.cluster.bper ≤ t.toNat - c.beaconLag :=
      Nat.div_mul_le_self _ _
    have h3 : t.toNat - c.beaconLag < ((t.toNat - c.beaconLag) / c.cluster.bper + 1) * c.cluster.bper := by
      rw [Nat.mul_comm]; exact Nat.lt_mul_div_succ _ hb
    have h4 : ((t.toNat - c.beaconLag) / c.cluster.bper + 1) * c.cluster.bper =
        (t.toNat - c.beaconLag) / c.cluster.bper * c.cluster.bper + c.cluster.bper := by ring
    have h1 : (beaconDueAfter c t).toNat =
        ((t.toNat - c.beaconLag) / c.cluster.bper + 1) * c.cluster.bper + c.beaconLag := by
      simp only [beaconDueAfter, if_neg hc]; exact time64_nat _ (by omega)
    rw [h1]
    refine ⟨by omega, ⟨_, by rw [← hlag]⟩, fun k hk => ?_⟩
    rw [← hlag] at hk ⊢
    have : (t.toNat - c.beaconLag) / c.cluster.bper < k := by
      rw [Nat.div_lt_iff_lt_mul hb]; omega
    have := Nat.mul_le_mul_right c.cluster.bper (Nat.succ_le_of_lt this)
    have h5 : ((t.toNat - c.beaconLag) / c.cluster.bper).succ * c.cluster.bper =
        ((t.toNat - c.beaconLag) / c.cluster.bper + 1) * c.cluster.bper := rfl
    omega

/-- Bit n of the membership vector (R37). -/
theorem membershipVector_bit (s : State) (n : Station) :
    (membershipVector s).getLsbD n =
      ((s.mbu.peers.get n).kind == .member || (s.syc.state.synced && s.cfg.any fun c => c.station == n)) := by
  simp [membershipVector]

end Sys2Proof.Machine
end

