-- ==== Sys2Proof/Laws/Events.lean ====
section
/-! SUPPORT. The larger effects taken apart: a property kept by the parts of a correction event, of a delivered beacon, of
a judged trigger frame, of a qualified edge, and of the SRC's orders is kept by the whole. -/

set_option Elab.async false

namespace Sys2Proof.Machine

/-- A record of kind CAPTURE. -/
def Record.isCapture : Record → Bool
  | .capture _ => true
  | .fire _ | .state _ | .gap _ => false

/-- The changes of state that a correction event can judge (R48 to R52). -/
theorem judgeEvent_change (c : Cfg) (o : Outcome) (a : Nat) (y : Syc) (new : SyncState) (reason : Reason)
    (h : (judgeEvent c o a y).1 = some (new, reason)) :
    y.state.active = true ∧ (new = .sync ∨ new = .stable ∨ new = .holdover ∨ new = .listen) ∧
      (new = .stable ∨ new = .holdover → y.state.synced = true) := by
  unfold judgeEvent at h
  cases hy : y.state <;> cases o <;> simp only [hy] at h <;> (try split_ifs at h) <;>
    simp_all [SyncState.active, SyncState.reported, SyncState.synced] <;>
    (try (rcases h with ⟨rfl, rfl⟩; simp))

/-- At the line interface a correction moves the receiver's stamp with cluster time, and nothing else (R7, R15). -/
theorem applyOutcome_lif (o : Outcome) (s : State) :
    (applyOutcome o s).lif = { s.lif with
      receiver :=
        s.lif.receiver.move ((applyOutcome o s).tbu.clusterTime.toNat - s.tbu.clusterTime.toNat) } := by
  cases o with
  | none => simp [applyOutcome]
  | exceeded x => simp [applyOutcome]
  | applied x =>
    simp only [applyOutcome, countCorrection, stepTime, moveClusterTime]
    split_ifs <;> simp

section
variable (P : State → Prop) (c : Cfg)

theorem settleEvent_keeps (o : Outcome) (a : Nat) (before : Time) (s : State) (hs : P s)
    (hround : ∀ r s, P s → P (setRounds r s)) (hfire : ∀ s, P s → P (fireDue (some before) s))
    (hsome : ∀ s, P s → P (fireSome (some before) s))
    (hchange : ∀ new reason mid s, P s → mid = id ∨ mid = fireSome (some before) →
      (judgeEvent c o a s.syc).1 = some (new, reason) → P (changeState c new reason mid s)) :
    P (settleEvent c o a before s) := by
  unfold settleEvent
  split
  · refine hround _ _ ?_
    split
    · exact hfire s hs
    · exact hs
  · rename_i new reason r hj
    split
    · exact hfire _ (hchange _ _ _ _ (hsome s hs) (.inr rfl) (by rw [fireSome_syc, hj]))
    · exact hchange _ _ id _ hs (.inl rfl) (by rw [hj])

theorem ownNumberBeacon_keeps (b : Beacon) (s : State) (hs : P s) (hflag : ∀ f s, P s → P (s.raiseFlag f))
    (hclash : s.syc.state = .listen ∨ s.syc.state = .founding ∨ s.syc.state = .tentative →
      P (changeState c .clash .clashDetected id s)) : P (ownNumberBeacon c b s) := by
  unfold ownNumberBeacon
  split
  · exact hs
  · split <;> first | exact hs | exact hflag _ s hs | exact hclash (by simp_all)

theorem takeHandedBeacon_keeps (b : Beacon) (l : Time) (s : State) (hs : P s)
    (hadopt : ∀ reason, s.syc.state = .listen ∨ s.syc.state = .founding → P (adopt c reason b l s)) :
    P (takeHandedBeacon c b l s) := by
  unfold takeHandedBeacon
  split <;> (try split) <;> first | exact hs | exact hadopt _ (by simp_all)

theorem deliverBeacon_keeps (b : Beacon) (l k : Time) (s : State) (hs : P s)
    (hflag : ∀ f s, P s → P (s.raiseFlag f))
    (hclash : s.syc.state = .listen ∨ s.syc.state = .founding ∨ s.syc.state = .tentative →
      P (changeState c .clash .clashDetected id s))
    (hupdate : ∀ x, s.syc.state ≠ .off → b.station ≠ c.station → P (updateRecord c b k x s))
    (hadopt : ∀ reason s, P s → s.syc.state = .listen ∨ s.syc.state = .founding → P (adopt c reason b l s)) :
    P (deliverBeacon c b l k s) := by
  unfold deliverBeacon
  split
  · exact hs
  · split
    · exact ownNumberBeacon_keeps P c b s hs hflag hclash
    · have h := hupdate (beaconOffset c b k) ‹_› ‹_›
      exact takeHandedBeacon_keeps P c b l _ h fun reason hl => hadopt reason _ h hl

theorem judgeTriggerFrame_keeps (t : Trigger) (s : State) (hs : P s)
    (hcount : ∀ s g, P s → g.ownSequence = s.tge.ownSequence → g.raised = s.tge.raised →
      g.holdOffEnd = s.tge.holdOffEnd → P (s.withTge g))
    (hpeer : t.origin ≠ c.station → P (setPeer t.origin ((s.mbu.peers.get t.origin).checkTrigger t.sequence).1 s))
    (hprocess : ∀ s, P s → s.syc.state.synced = true → P (process c 4 t s)) : P (judgeTriggerFrame c t s) := by
  unfold judgeTriggerFrame
  dsimp only
  split
  · exact hs
  · split
    · exact hcount _ _ hs rfl rfl rfl
    · rename_i hn
      split
      · exact hcount _ _ (hpeer hn) rfl rfl rfl
      · rename_i hy
        split
        · exact hcount _ _ hs rfl rfl rfl
        · split
          · exact hprocess _ (hcount _ _ (hpeer hn) rfl rfl rfl) (by simpa using hy)
          · exact hcount _ _ (hpeer hn) rfl rfl rfl

theorem qualifyEdge_keeps (l : LineNo) (ic : InputCfg) (cand : Candidate) (s : State) (hs : P s)
    (hinput : ∀ ch s, P s → P (setInput l ch s))
    (hraise : ∀ k x b s, P s → P (raiseTrigger c k x b s).1)
    (hhold : ∀ s, P s → P (startHoldOff l ic cand s))
    (hrecord : ∀ r s, P s → r.isCapture = true → P (handRecord r .capture s)) : P (qualifyEdge c l ic cand s) := by
  have hedge : ∀ s, P s → P (edgeRaise c l ic cand s).1 := by
    intro s hs
    unfold edgeRaise
    split
    · unfold requestRaise
      split
      · exact hs
      · dsimp only
        split <;> first | exact hhold _ (hraise _ _ _ _ hs) | exact hraise _ _ _ _ hs
    · exact hs
  unfold qualifyEdge
  dsimp only
  split
  · unfold takeEdge
    dsimp only
    split
    · exact hrecord _ _ (hedge _ (hinput _ _ (hinput _ _ hs))) rfl
    · exact hedge _ (hinput _ _ (hinput _ _ hs))
  · exact hinput _ _ hs

end

end Sys2Proof.Machine
end

