-- ==== Sys2Proof/Laws/Process.lean ====
section
/-! SUPPORT. What matching answers, what an insertion's place and the free firings are, and what the processing of a
trigger does, alone and with what it derives. -/

set_option Elab.async false

namespace Sys2Proof.Machine

/-! ### Matching (R106, R111) -/

/-- The matching entries are the map entries that answer (R106). -/
theorem mem_matching (amp : Vector (Option MapEntry) 64) (t : Trigger) (i : MapIndex) (m : MapEntry) :
    (i, m) ∈ matching amp t ↔ amp.get i = some m ∧ Answers m t := by
  unfold matching Answers
  simp only [List.mem_filterMap, List.mem_finRange, true_and]
  constructor
  · rintro ⟨j, hj⟩
    split at hj
    · split at hj
      · cases hj; exact ⟨‹_›, ‹_›⟩
      · cases hj
    · cases hj
  · rintro ⟨h1, h2⟩
    exact ⟨i, by rw [h1]; exact if_pos h2⟩

/-- They stand in ascending index order (R107). -/
theorem matching_ascending (amp : Vector (Option MapEntry) 64) (t : Trigger) :
    (matching amp t).Pairwise fun x y => x.1 < y.1 := by
  unfold matching
  rw [List.pairwise_filterMap]
  have h : (List.finRange 64).Pairwise fun a b => a < b := by
    rw [List.pairwise_iff_getElem]; intro i j hi hj hij; simpa using hij
  refine h.imp fun {a b} hab x hx y hy => ?_
  have fst : ∀ (k : MapIndex) (z : MapIndex × MapEntry),
      (match amp.get k with
        | some m => if m.cls = t.cls ∧ m.origins.getLsbD t.origin = true then some (k, m) else none
        | none => none) = some z → z.1 = k := by
    intro k z hz
    split at hz
    · split at hz
      · cases hz; rfl
      · cases hz
    · cases hz
  rw [fst a x hx, fst b y hy]
  exact hab

/-- Where no answering entry has a derive part, nothing is derived (R111). -/
theorem deriving_none (s : State) (t : Trigger) (h : NoneDerives s t) : deriving? (matching s.amp t) = none := by
  unfold deriving?
  rw [List.findSome?_eq_none_iff]
  rintro ⟨i, m⟩ hm
  obtain ⟨h1, h2⟩ := (mem_matching _ _ _ _).1 hm
  exact h i m h1 h2

/-- A search through a list in ascending order finds what its first entry with a result gives. -/
theorem findSome?_first {α β : Type} (f : α → Option β) (xs : List α) (x : α) (y : β) (hx : x ∈ xs) (hy : f x = some y)
    (lt : α → α → Prop) (ha : xs.Pairwise lt) (hb : ∀ z ∈ xs, lt z x → f z = none) : xs.findSome? f = some y := by
  induction xs with
  | nil => cases hx
  | cons z xs ih =>
    rw [List.pairwise_cons] at ha
    rcases List.mem_cons.1 hx with rfl | hm
    · simp [hy]
    · have hz := hb z (by simp) (ha.1 x hm)
      rw [List.findSome?_cons, hz]
      exact ih hm ha.2 fun w hw => hb w (by simp [hw])

/-- The answering entry of lowest index that has a derive part derives (R111). -/
theorem deriving_lowest (s : State) (t : Trigger) (k : TrigClass) (o : Nat) (h : LowestDerives s t k o) :
    deriving? (matching s.amp t) = some (k, o) := by
  obtain ⟨i, m, h1, h2, h3, h4⟩ := h
  refine findSome?_first _ _ (i, m) _ ((mem_matching _ _ _ _).2 ⟨h1, h2⟩) h3 (fun x y => x.1 < y.1)
    (matching_ascending _ _) ?_
  rintro ⟨j, m'⟩ hm hj
  obtain ⟨h5, h6⟩ := (mem_matching _ _ _ _).1 hm
  exact h4 j m' hj h5 h6

/-! ### The place of an entry (R117) -/

/-- An entry divides the schedule: what stands ahead of it is not behind it in order; and where the schedule is in order,
everything that it stands ahead of is behind it. -/
theorem insertEntry_split (e : SchedEntry) (xs : List SchedEntry) :
    ∃ front back, xs = front ++ back ∧ insertEntry e xs = front ++ e :: back ∧
      (xs.Pairwise (fun a b => a.due.toNat < b.due.toNat ∨ (a.due = b.due ∧ a.index.val ≤ b.index.val)) →
        (∀ x ∈ front, x.due.toNat < e.due.toNat ∨ (x.due = e.due ∧ x.index.val ≤ e.index.val)) ∧
        ∀ x ∈ back, e.due.toNat < x.due.toNat ∨ (x.due = e.due ∧ e.index.val < x.index.val)) := by
  induction xs with
  | nil => exact ⟨[], [], rfl, rfl, by simp⟩
  | cons x xs ih =>
    by_cases h : e.ahead x
    · refine ⟨[], x :: xs, rfl, by simp [insertEntry, h], fun ho => ⟨by simp, ?_⟩⟩
      rw [List.pairwise_cons] at ho
      have hx : e.due.toNat < x.due.toNat ∨ (x.due = e.due ∧ e.index.val < x.index.val) := by
        rcases (by simpa [SchedEntry.ahead] using h) with h | ⟨h1, h2⟩
        · exact .inl h
        · exact .inr ⟨h1.symm, h2⟩
      intro y hy
      rcases List.mem_cons.1 hy with rfl | hy
      · exact hx
      · rcases hx with hx | ⟨hx1, hx2⟩ <;> rcases ho.1 y hy with h1 | ⟨h1, h2⟩
        · left; omega
        · left; rw [← h1]; omega
        · left; rw [← hx1]; omega
        · right; exact ⟨h1 ▸ hx1, by omega⟩
    · obtain ⟨front, back, h1, h2, h3⟩ := ih
      refine ⟨x :: front, back, by simp [h1], by simp [insertEntry, h, h2], fun ho => ?_⟩
      rw [List.pairwise_cons] at ho
      obtain ⟨h4, h5⟩ := h3 ho.2
      refine ⟨?_, h5⟩
      intro y hy
      rcases List.mem_cons.1 hy with rfl | hy
      · have := (by simpa [SchedEntry.ahead] using h : e.due.toNat ≥ y.due.toNat ∧ _)
        by_cases hd : e.due = y.due
        · right; exact ⟨hd.symm, this.2 hd⟩
        · left
          have : e.due.toNat ≠ y.due.toNat := fun h => hd (BitVec.eq_of_toNat_eq h)
          omega
      · exact h4 y hy

/-! ### The free firings (R123) -/

/-- Where the head is not due none fires. -/
theorem fireSome_of_not_due (b : Option Time) (s : State)
    (h : ∀ e rest, s.scu.entries = e :: rest → e.capped = true ∨ s.tbu.clusterTime.toNat < e.due.toNat) :
    fireSome b s = s := by
  unfold fireSome
  cases he : s.scu.entries with
  | nil => rfl
  | cons e rest => rw [fireSomeFrom, if_neg (by rw [SchedEntry.isDue_eq_false.2 (h e rest he)]; simp)]

theorem fireSomeFrom_fires (es : List SchedEntry) (s : State) (he : s.scu.entries = es) :
    HeadsFire s (fireSomeFrom none es s) := by
  induction es generalizing s with
  | nil => exact HeadsFire.done s s.freeCount
  | cons e es ih =>
    rw [fireSomeFrom]
    split
    · dsimp only
      split
      · exact HeadsFire.fire s _ e es (s.freeCount + 1) he (SchedEntry.isDue_iff.1 ‹_›).1
          (SchedEntry.isDue_iff.1 ‹_›).2 (ih _ (fireEntry_entries none e es _))
      · exact HeadsFire.done s (s.freeCount + 1)
    · exact HeadsFire.done s s.freeCount

/-- The free firings behind an insertion are firings of heads that are due (R123). -/
theorem fireSome_fires (s : State) : HeadsFire s (fireSome none s) := fireSomeFrom_fires _ s rfl

/-! ### The processing of a trigger that derives nothing (R95) -/

/-- The insertions of a trigger, with the free firings behind each. -/
theorem foldl_inserts (t : Trigger) (ims : List (MapIndex × MapEntry)) (s : State) :
    Inserts t ims s (ims.foldl (fun s im => fireSome none (insertAction t s im)) s) := by
  induction ims generalizing s with
  | nil => exact Inserts.done s
  | cons im ims ih => exact Inserts.insert im ims s _ _ (fireSome_fires _) (ih _)

/-- An insertion leaves an entry at the head only if it stood there, or is the entry it placed. -/
theorem insertEntry_head (e : SchedEntry) (xs : List SchedEntry) (x : SchedEntry) (rest : List SchedEntry)
    (h : insertEntry e xs = x :: rest) : x = e ∨ ∃ r, xs = x :: r := by
  cases xs with
  | nil => simp [insertEntry] at h; exact .inl h.1.symm
  | cons y ys =>
    rw [insertEntry] at h
    split at h
    · cases h; exact .inl rfl
    · cases h; exact .inr ⟨ys, rfl⟩

/-- An insertion of a trigger that places nothing already due leaves nothing due (R121, R123). -/
theorem insertAction_nothingDue (t : Trigger) (s : State) (im : MapIndex × MapEntry) (hm : im ∈ matching s.amp t)
    (h : NothingDue t s) : NothingDue t (insertAction t s im) := by
  obtain ⟨i, m⟩ := im
  obtain ⟨h1, h2⟩ := (mem_matching _ _ _ _).1 hm
  have hspace : ∀ (e : SchedEntry) (x : State), x.tbu = s.tbu → x.scu.entries = s.scu.entries →
      (e.capped = true ∨ s.tbu.clusterTime.toNat < e.due.toNat) →
      ∀ y rest, (spaceCheck e x).scu.entries = y :: rest →
      y.capped = true ∨ s.tbu.clusterTime.toNat < y.due.toNat := by
    intro e x ht hx hd y rest hy
    unfold spaceCheck at hy
    split at hy
    · exact h.head y rest (by rw [← hx]; simpa [State.raiseFlag] using hy)
    · rcases insertEntry_head _ _ _ _ (by simpa using hy) with rfl | ⟨r, hr⟩
      · exact hd
      · exact h.head y r (by rw [← hx]; exact hr)
  refine ⟨?_, ?_⟩
  · intro y rest hy
    rw [show (insertAction t s (i, m)).tbu = s.tbu by simp]
    unfold insertAction at hy
    dsimp only at hy
    split at hy
    · have hl := h.late i m h1 h2 ‹_›
      rw [hl] at hy
      exact h.head y rest (by simpa [State.raiseFlag] using hy)
    · refine hspace _ s rfl rfl ?_ y rest hy
      by_cases hc : 2 ^ 64 ≤ t.stamp.toNat + m.offset
      · exact .inl (by simpa [schedEntryOf] using hc)
      · right
        simp only [schedEntryOf, BitVec.toNat_ofNat]
        rw [Nat.mod_eq_of_lt (by omega)]
        omega
  · intro j m' hj ha hd
    rw [show (insertAction t s (i, m)).amp = s.amp by simp] at hj
    rw [show (insertAction t s (i, m)).tbu = s.tbu by simp] at hd
    exact h.late j m' hj ha hd

/-- Where nothing is due the insertions are all that processing does (R95, R123). -/
theorem foldl_inserts_plain (t : Trigger) (ims : List (MapIndex × MapEntry)) (s : State)
    (hm : ∀ im ∈ ims, im ∈ matching s.amp t) (h : NothingDue t s) :
    ims.foldl (fun s im => fireSome none (insertAction t s im)) s = ims.foldl (insertAction t) s := by
  induction ims generalizing s with
  | nil => rfl
  | cons im ims ih =>
    have hn := insertAction_nothingDue t s im (hm im (by simp)) h
    simp only [List.foldl_cons, fireSome_of_not_due none _ hn.head]
    refine ih _ (fun x hx => ?_) hn
    rw [show (insertAction t s im).amp = s.amp by simp]
    exact hm x (by simp [hx])

/-- What processing does where nothing is derived (R95, R111). -/
theorem process_noneDerives (c : Cfg) (n : Nat) (t : Trigger) (s : State) (h : NoneDerives s t) :
    process c (n + 1) t s = (matching s.amp t).foldl (fun s im => fireSome none (insertAction t s im)) s := by
  rw [process]
  dsimp only
  rw [deriving_none s t h]

/-- The insertions that a trigger's processing begins with, whatever it derives (R107). -/
theorem foldl_processed (t : Trigger) (s : State) :
    Processed t s ((matching s.amp t).foldl (fun s im => fireSome none (insertAction t s im)) s) :=
  ⟨foldl_inserts _ _ _, fun hn => foldl_inserts_plain _ _ _ (fun _ hx => hx) hn⟩

/-- A trigger that derives nothing is processed by its insertions (R95, R106, R107, R123). -/
theorem process_processed (c : Cfg) (n : Nat) (t : Trigger) (s : State) (h : NoneDerives s t) :
    Processed t s (process c (n + 1) t s) := by
  rw [process_noneDerives c n t s h]
  exact foldl_processed t s

/-! ### The processing with what it derives (R111, R113) -/

/-- What is derived, if anything, is what the deriving entry gives (R111). -/
theorem deriving_cases (s : State) (t : Trigger) :
    (deriving? (matching s.amp t) = none ∧ NoneDerives s t) ∨
      ∃ k o, deriving? (matching s.amp t) = some (k, o) ∧ LowestDerives s t k o := by
  cases hd : deriving? (matching s.amp t) with
  | none =>
    refine .inl ⟨rfl, fun i m hi ha => ?_⟩
    exact List.findSome?_eq_none_iff.1 hd (i, m) ((mem_matching _ _ _ _).2 ⟨hi, ha⟩)
  | some x =>
    obtain ⟨k, o⟩ := x
    refine .inr ⟨k, o, rfl, ?_⟩
    obtain ⟨before, ⟨i, m⟩, after, hs, hm, hb⟩ := List.findSome?_eq_some_iff.1 hd
    have hin : (i, m) ∈ matching s.amp t := by rw [hs]; simp
    obtain ⟨h1, h2⟩ := (mem_matching _ _ _ _).1 hin
    refine ⟨i, m, h1, h2, hm, fun j m' hj hm' ha => ?_⟩
    have hj2 : (j, m') ∈ matching s.amp t := (mem_matching _ _ _ _).2 ⟨hm', ha⟩
    have hp := matching_ascending s.amp t
    rw [hs, List.pairwise_append, List.pairwise_cons] at hp
    rw [hs] at hj2
    rcases List.mem_append.1 hj2 with h | h
    · exact hb _ h
    · rcases List.mem_cons.1 h with h | h
      · cases h; exact absurd hj (lt_irrefl _)
      · exact absurd (hp.2.1.1 _ h) (not_lt_of_gt hj)

/-- The derived trigger is the child that R83, R94, R104 and R112 describe. -/
theorem derivedTrigger_childOf (c : Cfg) (s : State) (t : Trigger) (k : TrigClass) (o : Nat) (d : Fin 4)
    (hd : d.val = t.depth.val + 1) : ChildOf c s t k o (derivedTrigger c t k o d s) := by
  refine ⟨rfl, rfl, rfl, timeOnward_toNat _ _, timeOnward_le _ _, hd, ?_⟩
  cases h : t.root <;> simp [derivedTrigger, derivedRoot, h]

/-- With fuel for every depth below the trigger's, `process` is its whole processing (R95, R111, R113). -/
theorem process_processing (c : Cfg) (fuel : Nat) (t : Trigger) (s : State) (h : 4 ≤ fuel + t.depth.val) :
    Processing c t s (process c fuel t s) := by
  induction fuel generalizing t s with
  | zero => exact absurd t.depth.isLt (by omega)
  | succ n ih =>
    rcases deriving_cases s t with ⟨-, hn⟩ | ⟨k, o, hd, hl⟩
    · exact .plain t s _ hn (process_processed c n t s hn)
    · have hp := foldl_processed t s
      rw [process]
      dsimp only
      rw [hd]
      dsimp only
      set r := (matching s.amp t).foldl (fun s im => fireSome none (insertAction t s im)) s
      by_cases h3 : t.depth = 3
      · have hs : nextDepth t.depth = none := by rw [h3]; rfl
        rw [hs]
        exact .stopped t s r k o hl hp h3
      · have hlt : t.depth.val + 1 < 4 := by
          have h1 := t.depth.isLt
          have h2 : t.depth.val ≠ 3 := fun hv => h3 (Fin.ext hv)
          omega
        have hs : nextDepth t.depth = some ⟨t.depth.val + 1, hlt⟩ := dif_pos hlt
        rw [hs]
        dsimp only
        cases hr : raiseRefusal true r with
        | some x =>
          refine .refused t s r k o hl hp h3 ?_
          by_contra hc
          simp only [not_or, not_le, Bool.not_eq_false, Bool.not_eq_true] at hc
          rw [(raiseRefusal_none true r).2 ⟨hc.1, hc.2.1, rfl, hc.2.2⟩] at hr
          cases hr
        | none =>
          obtain ⟨h1, h2, -, h4⟩ := (raiseRefusal_none true r).1 hr
          exact .raised t _ s r _ k o hl hp h3 (by simpa [State.leaving] using h1) h2 h4 (derivedTrigger_childOf c r t k o _ rfl)
            (ih _ _ (by simp only [derivedTrigger]; omega))

end Sys2Proof.Machine
end

