-- ==== Sys2Proof/Laws/Firing.lean ====
section
/-! SUPPORT. Firings compared: an entry's firing on a state is `fireAtEvent` on any state that looks alike to it, and the
firings at a correction event are a run of heads that are due. -/

set_option Elab.async false

namespace Sys2Proof.Machine

/-- Two states look alike to a firing: the channels with their counts, the line configuration, cluster time, whether a TRAIN
is limited, and the flags but for JOURNAL_LOST; with the journal and that flag too where `whole` holds. -/
structure Alike (whole : Prop) (s t : State) : Prop where
  channels : s.tlu.channels = t.tlu.channels
  overruns : s.tlu.overruns = t.tlu.overruns
  lines : s.tlu.lines = t.tlu.lines
  time : s.tbu.clusterTime = t.tbu.clusterTime
  limited : s.syc.state.standsDown = t.syc.state.standsDown
  flags : s.rdp.flags = { t.rdp.flags with journalLost := s.rdp.flags.journalLost }
  journal : whole → s.jnl = t.jnl ∧ s.rdp.flags = t.rdp.flags

theorem Action.limited_alike (x y : SyncState) (a : Action) (h : x.standsDown = y.standsDown) :
    a.limited x = a.limited y := by
  cases a <;> simp [Action.limited, h]

/-- An ignored command raises OVERRUN and no other flag (R145). -/
theorem countOverrun_flags (l : LineNo) (k : OutKind) (s : State) :
    (countOverrun l k s).rdp.flags =
      { s.rdp.flags with overrun := firstCapture s.rdp.flags.overrun (l, k, (s.tlu.channels.get l).state) } := rfl

theorem Alike.fireCommand {whole : Prop} {s t : State} (h : Alike whole s t) (a : Action) (l : LineNo) :
    Alike whole (fireCommand a s l) (fireCommand a t l) := by
  obtain ⟨h1, h2, h3, h4, h5, h6, h7⟩ := h
  unfold Machine.fireCommand
  rw [h3, h1, Action.limited_alike _ _ a h5]
  split
  · split
    · exact ⟨by simp [setChannel, h1], by simp [setChannel, h2], by simp [setChannel, h3], by simp [setChannel, h4],
        by simp [setChannel, h5], by simpa [setChannel] using h6, by simpa [setChannel] using h7⟩
    · refine ⟨by simp [countOverrun, h1], by simp [countOverrun, h2], by simp [countOverrun, h3],
        by simp [countOverrun, h4], by simp [countOverrun, h5], ?_, fun hw => ?_⟩
      · rw [countOverrun_flags, countOverrun_flags, h1, h6]
      · rw [countOverrun_flags, countOverrun_flags, h1, (h7 hw).2]
        exact ⟨(h7 hw).1, rfl⟩
  · exact ⟨h1, h2, h3, h4, h5, h6, h7⟩
  · exact ⟨h1, h2, h3, h4, h5, h6, h7⟩

theorem Alike.foldl_fireCommand {whole : Prop} {s t : State} (h : Alike whole s t) (a : Action) (ls : List LineNo) :
    Alike whole (ls.foldl (Machine.fireCommand a) s) (ls.foldl (Machine.fireCommand a) t) := by
  induction ls generalizing s t with
  | nil => exact h
  | cons l ls ih => exact ih (h.fireCommand a l)

theorem handRecord_flags_but (r : Record) (k : LostKind) (s : State) :
    (handRecord r k s).rdp.flags =
      { s.rdp.flags with journalLost := (handRecord r k s).rdp.flags.journalLost } := by
  simp only [handRecord, loseRecord]
  split_ifs <;> simp [State.raiseFlag, Flags.raiseJournalLost]

theorem Alike.handRecord {whole : Prop} {s t : State} (h : Alike whole s t) (r : Record) (k : LostKind) :
    Alike whole (handRecord r k s) (handRecord r k t) := by
  obtain ⟨h1, h2, h3, h4, h5, h6, h7⟩ := h
  refine ⟨by simpa using h1, by simpa using h2, by simpa using h3, by simpa using h4, by simpa using h5, ?_, ?_⟩
  · rw [handRecord_flags_but r k s, handRecord_flags_but r k t, h6]
  · intro hw
    obtain ⟨h8, h9⟩ := h7 hw
    exact ⟨handRecord_jnl_eq r k s t h8, handRecord_flags_eq r k s t h8 h9⟩

/-- The state on the left may hand over a record of its own, where the journals need not agree. -/
theorem Alike.record {s t : State} (h : Alike False s t) (r : Record) (k : LostKind) :
    Alike False (Machine.handRecord r k s) t := by
  obtain ⟨h1, h2, h3, h4, h5, h6, h7⟩ := h
  refine ⟨by simpa using h1, by simpa using h2, by simpa using h3, by simpa using h4, by simpa using h5, ?_, False.elim⟩
  rw [handRecord_flags_but r k s, h6]

/-- A firing at a correction event is `fireAtEvent` (R125 to R128). -/
theorem Alike.fireEntry {whole : Prop} {s t : State} (h : Alike whole s t) (before : Time) (e : SchedEntry)
    (rest : List SchedEntry) : Alike whole (fireEntry (some before) e rest s) (fireAtEvent before t e) := by
  have h0 : Alike whole (s.withScu { s.scu with entries := rest, space := freePlace e.part s.scu.space }) t := by
    obtain ⟨h1, h2, h3, h4, h5, h6, h7⟩ := h
    exact ⟨h1, h2, h3, h4, h5, h6, h7⟩
  have hf := h0.foldl_fireCommand e.action (lineList e.lines)
  unfold Machine.fireEntry fireAtEvent
  dsimp only
  split
  · simp only [fireRecord, hf.time, Option.any_some]
    exact hf.handRecord _ .fire
  · exact hf

/-- A run of heads that are due has fired, `n` of them. -/
structure Fired (n : Nat) (s t : State) : Prop where
  length : n ≤ s.scu.entries.length
  due : ∀ e ∈ s.scu.entries.take n, e.isDue s.tbu.clusterTime = true
  entries : t.scu.entries = s.scu.entries.drop n
  space : ∀ p : Partition, t.scu.space.get p = s.scu.space.get p + (s.scu.entries.take n).countP fun e => e.part == p
  rest : t.scu = { s.scu with entries := t.scu.entries, space := t.scu.space }

theorem Fired.none (s t : State) (h : t.scu = s.scu) : Fired 0 s t := by
  refine ⟨by simp, by simp, by simp [h], by simp [h], by simp [h]⟩

theorem freePlace_get (p q : Partition) (x : Vector Nat 4) :
    (freePlace p x).get q = x.get q + if p = q then 1 else 0 := by
  unfold freePlace
  split
  · rename_i h; subst h; simp
  · rename_i h; simp [get_set_ne _ _ _ _ h]

theorem fireEntry_scu (b : Option Time) (e : SchedEntry) (r : List SchedEntry) (s : State) :
    (Machine.fireEntry b e r s).scu = { s.scu with entries := r, space := freePlace e.part s.scu.space } := by
  unfold Machine.fireEntry
  dsimp only
  split <;> simp

theorem Fired.cons (s : State) (b : Option Time) (e : SchedEntry) (r : List SchedEntry) (he : s.scu.entries = e :: r)
    (hd : e.isDue s.tbu.clusterTime = true) (n : Nat) (t : State) (h : Fired n (Machine.fireEntry b e r s) t) :
    Fired (n + 1) s t := by
  obtain ⟨h1, h2, h3, h4, h5⟩ := h
  simp only [fireEntry_scu, fireEntry_tbu] at h1 h2 h3 h4 h5
  refine ⟨by simp [he]; omega, ?_, by simp [he, h3], ?_, by rw [h5]⟩
  · rw [he, List.take_succ_cons]
    intro x hx
    rcases List.mem_cons.1 hx with rfl | hx
    · exact hd
    · exact h2 x hx
  · intro p
    rw [h4 p, he, List.take_succ_cons, List.countP_cons, freePlace_get]
    simp only [beq_iff_eq]
    omega

/-- Every entry that is due fires (R128): those at the head of the schedule, up to the first that is not. -/
theorem fireDueFrom_fires {whole : Prop} (before : Time) (es : List SchedEntry) (s t : State) (he : s.scu.entries = es)
    (h : Alike whole s t) :
    ∃ fired, fired = es.takeWhile (fun e => e.isDue s.tbu.clusterTime) ∧
      Fired fired.length s (fireDueFrom (some before) es s) ∧
      Alike whole (fireDueFrom (some before) es s) (fired.foldl (fireAtEvent before) t) := by
  induction es generalizing s t with
  | nil => exact ⟨[], rfl, Fired.none _ _ rfl, h⟩
  | cons e es ih =>
    rw [fireDueFrom]
    split
    · rename_i hd
      obtain ⟨fired, h1, h2, h3⟩ := ih _ (fireAtEvent before t e) (fireEntry_entries _ e es s) (h.fireEntry before e es)
      refine ⟨e :: fired, by simpa [hd] using h1, Fired.cons _ _ e es he hd _ _ h2, h3⟩
    · rename_i hd
      exact ⟨[], by simp [hd], Fired.none _ _ rfl, h⟩

/-- Some of the entries that are due fire, from the head on (R131, R148; log 12). -/
theorem fireSomeFrom_fired {whole : Prop} (before : Time) (es : List SchedEntry) (s t : State) (he : s.scu.entries = es)
    (h : Alike whole s t) :
    ∃ n, Fired n s (fireSomeFrom (some before) es s) ∧
      Alike whole (fireSomeFrom (some before) es s) ((es.take n).foldl (fireAtEvent before) t) := by
  have hfree : ∀ (x : State) (n : Nat), Alike whole x t → Alike whole (x.withFreeCount n) t := by
    rintro x n ⟨h1, h2, h3, h4, h5, h6, h7⟩
    exact ⟨h1, h2, h3, h4, h5, h6, h7⟩
  induction es generalizing s t with
  | nil => exact ⟨0, Fired.none _ _ rfl, h⟩
  | cons e es ih =>
    rw [fireSomeFrom]
    split
    · rename_i hd
      dsimp only
      split
      · have hf := (hfree s (s.freeCount + 1) h).fireEntry before e es
        obtain ⟨n, h1, h2⟩ := ih _ (fireAtEvent before t e) (fireEntry_entries _ e es _) hf (by
          rintro x n ⟨h1, h2, h3, h4, h5, h6, h7⟩; exact ⟨h1, h2, h3, h4, h5, h6, h7⟩)
        refine ⟨n + 1, ?_, by simpa using h2⟩
        have := Fired.cons (s.withFreeCount (s.freeCount + 1)) (some before) e es he hd n _ h1
        exact ⟨this.length, this.due, this.entries, this.space, this.rest⟩
      · exact ⟨0, Fired.none _ _ rfl, hfree s _ h⟩
    · exact ⟨0, Fired.none _ _ rfl, h⟩

theorem fireSome_fired {whole : Prop} (before : Time) (s t : State) (h : Alike whole s t) :
    ∃ n, Fired n s (fireSome (some before) s) ∧
      Alike whole (fireSome (some before) s) ((s.scu.entries.take n).foldl (fireAtEvent before) t) :=
  fireSomeFrom_fired before _ s t rfl h

end Sys2Proof.Machine
end

