-- ==== Sys2Proof/Laws/Image.lean ====
section
/-! SUPPORT. How the image's checks run: what has passed brings the judgement to the next check (R178). -/

set_option Elab.async false

namespace Sys2Proof.Machine

theorem field_drop (bs : List Byte) (p a n : Nat) : field (bs.drop p) a n = field bs (p + a) n := by
  simp [field, List.drop_drop]

/-- A header that has passed leads to the blocks (R178, orders 1 to 3). -/
theorem judgeImage_header (bytes : List Byte) (h : HeaderPassed bytes) :
    judgeImage bytes =
      match readBlocks (field bytes 6 2) (field bytes 5 1) 1 8 [] (bytes.drop 8) with
      | .more => .more
      | .fail r => .fail r
      | .ok bs => if bytes.length < field bytes 6 2 then .more else judgeWhole bytes bs := by
  obtain ⟨h1, h2, h3, h4, h5⟩ := h
  have h6 : within (field bytes 6 2) 10 Config.imageBytes = true := by simp [within, Config.imageBytes, h4, h5]
  unfold judgeImage
  simp only [h2, h3, h6]
  refine (if_neg (by omega)).trans ((if_neg (by simp)).trans ((if_neg (by omega)).trans ((if_neg (by simp)).trans
    ((if_neg (by omega)).trans ((if_neg (by simp)).trans ?_)))))
  cases readBlocks (field bytes 6 2) (field bytes 5 1) 1 8 [] (bytes.drop 8) <;> rfl

/-- Blocks that have passed bring the judgement to the next (R178, orders 4 to 7). -/
theorem readBlocks_passed (bytes : List Byte) (index pos : Nat) (seen : List Block)
    (h : BlocksPassed bytes index pos seen) (hi : index ≤ field bytes 5 1 + 1) :
    readBlocks (field bytes 6 2) (field bytes 5 1) 1 8 [] (bytes.drop 8) =
      readBlocks (field bytes 6 2) (field bytes 5 1 + 1 - index) index pos seen (bytes.drop pos) := by
  induction h with
  | none => simp
  | block index pos n seen hb hle hn ha hl hc h1 h2 h3 ih =>
    rw [ih (by omega)]
    obtain ⟨left, hleft⟩ : ∃ left, field bytes 5 1 + 1 - index = left + 1 := ⟨field bytes 5 1 - index, by omega⟩
    rw [hleft, show field bytes 5 1 + 1 - (index + 1) = left by omega, readBlocks]
    have e1 : field (bytes.drop pos) 1 2 = n := by rw [field_drop, hn]
    have e2 : field (bytes.drop pos) 0 1 = field bytes pos 1 := by rw [field_drop, Nat.add_zero]
    have e3 : field (bytes.drop pos) (3 + n) 2 = field bytes (pos + 3 + n) 2 := by rw [field_drop]; congr 1; omega
    have e4 : (bytes.drop pos).length = bytes.length - pos := by simp
    simp only [e1, e2, e3, e4]
    rw [if_neg (by omega), if_neg (by omega), if_neg (by omega), if_neg (by simp [hc]), if_neg (by omega), if_neg]
    · rw [List.drop_drop, List.drop_drop, show pos + (5 + n) = pos + 5 + n by omega]
    · simp only [List.any_eq_true, beq_iff_eq, not_exists, not_and]
      exact fun b hb => h3 b hb

/-- What is read to the end has passed, block by block, and 2 bytes remain (R178, orders 4 to 8). -/
theorem readBlocks_ok (bytes : List Byte) (left index pos : Nat) (seen all : List Block)
    (h : BlocksPassed bytes index pos seen) (hi : index + left = field bytes 5 1 + 1)
    (hr : readBlocks (field bytes 6 2) left index pos seen (bytes.drop pos) = .ok all) :
    ∃ last, BlocksPassed bytes (field bytes 5 1 + 1) last all ∧ last + 2 = field bytes 6 2 := by
  induction left generalizing index pos seen with
  | zero =>
    rw [readBlocks] at hr
    split at hr
    · cases hr; exact ⟨pos, by rw [← hi]; exact h, ‹_›⟩
    · cases hr
  | succ left ih =>
    rw [readBlocks] at hr
    simp only [field_drop, List.length_drop, Nat.add_zero] at hr
    split_ifs at hr with h1 h2 h3 h4 h5 h6
    rw [List.drop_drop, List.drop_drop, ← Nat.add_assoc] at hr
    refine ih (index + 1) _ _ (.block index pos _ seen h (by omega) rfl (by omega) (by omega) ?_ (by omega) (by omega) ?_)
      (by omega) hr
    · simpa [Nat.add_assoc] using h4
    · simpa using h6

/-- The judgement at a block, those before it having passed. -/
theorem judgeImage_block (bytes : List Byte) (index pos : Nat) (seen : List Block) (h : HeaderPassed bytes)
    (hb : BlocksPassed bytes index pos seen) (hi : index ≤ field bytes 5 1 + 1) :
    judgeImage bytes =
      match readBlocks (field bytes 6 2) (field bytes 5 1 + 1 - index) index pos seen (bytes.drop pos) with
      | .more => .more
      | .fail r => .fail r
      | .ok bs => if bytes.length < field bytes 6 2 then .more else judgeWhole bytes bs := by
  rw [judgeImage_header bytes h, readBlocks_passed bytes index pos seen hb hi]

/-- The judgement of a whole image whose parts have passed (R178, orders 8 to 11). -/
theorem judgeImage_whole (bytes : List Byte) (pos : Nat) (seen : List Block) (h : PartsPassed bytes pos seen)
    (ha : bytes.length = field bytes 6 2) : judgeImage bytes = judgeWhole bytes seen := by
  obtain ⟨h1, h2, h3⟩ := h
  rw [judgeImage_block bytes _ pos seen h1 h2 le_rfl, Nat.sub_self, readBlocks, if_pos h3]
  dsimp only
  rw [if_neg (by omega)]

/-- No two blocks that have passed are of one type. -/
theorem BlocksPassed.unique (bytes : List Byte) (index pos : Nat) (seen : List Block)
    (h : BlocksPassed bytes index pos seen) : seen.Pairwise fun a b => a.type ≠ b.type := by
  induction h with
  | none => simp
  | block index pos n seen hb hle hn ha hl hc h1 h2 h3 ih =>
    rw [List.pairwise_append]
    refine ⟨ih, by simp, ?_⟩
    intro a ha b hb
    rw [List.mem_singleton.1 hb]
    exact h3 a ha

/-- A block's payload is the one read for its type. -/
theorem payloadOf_mem (bs : List Block) (hu : bs.Pairwise fun a b => a.type ≠ b.type) (b : Block) (hb : b ∈ bs) :
    payloadOf b.type bs = some b.payload := by
  unfold payloadOf
  induction bs with
  | nil => cases hb
  | cons a bs ih =>
    rw [List.pairwise_cons] at hu
    rcases List.mem_cons.1 hb with rfl | hm
    · simp
    · rw [List.find?_cons_of_neg (by simpa using hu.1 b hm)]
      exact ih hu.2 hm

theorem payloadOf_absent (bs : List Block) (type : Nat) (h : ∀ b ∈ bs, b.type ≠ type) : payloadOf type bs = none := by
  unfold payloadOf
  rw [Option.map_eq_none_iff, List.find?_eq_none]
  simpa using h

end Sys2Proof.Machine
end

