-- ==== Sys2Proof/Laws/Layouts.lean ====
section
/-! SUPPORT. The layouts taken apart: bits, bytes and the numbers they spell, and how a body is judged (R75, R186, R187). -/

set_option Elab.async false

namespace Sys2Proof.Machine

/-! ### Bits and bytes -/

/-- A byte spelled by its bits is that byte. -/
theorem byte_byteBits (b : Byte) :
    byte (bit (b.getLsbD 7) 7 + bit (b.getLsbD 6) 6 + bit (b.getLsbD 5) 5 + bit (b.getLsbD 4) 4 + bit (b.getLsbD 3) 3 +
      bit (b.getLsbD 2) 2 + bit (b.getLsbD 1) 1 + bit (b.getLsbD 0) 0) = b := by
  revert b
  decide +kernel

/-- The bytes that the bits of bytes spell are those bytes. -/
theorem bitsToBytes_bytesToBits (bs : List Byte) : bitsToBytes (bytesToBits bs) = some bs := by
  induction bs with
  | nil => rfl
  | cons b bs ih =>
    change bitsToBytes (byteBits b ++ bytesToBits bs) = _
    simp only [byteBits, List.cons_append, List.nil_append, bitsToBytes, ih, Option.map_some, byte_byteBits]

/-- Bits that are no whole number of bytes spell none (R75). -/
theorem bitsToBytes_none (bits : List Bool) (h : bits.length % 8 ≠ 0) : bitsToBytes bits = none := by
  induction bits using bitsToBytes.induct with
  | case1 => simp at h
  | case2 b7 b6 b5 b4 b3 b2 b1 b0 rest ih =>
    rw [bitsToBytes, ih (by simp only [List.length_cons] at h; omega)]
    rfl
  | case3 bits h1 h2 =>
    unfold bitsToBytes
    split
    · exact absurd rfl h1
    · exact absurd rfl (h2 _ _ _ _ _ _ _ _ _)
    · rfl

/-- Numbers in 2, 4 and 8 bytes, spelled out (12, first paragraph). -/
theorem beBytes_two (x : BitVec 16) : beBytes 2 x.toNat = twoBytes x := by
  simp only [beBytes, twoBytes, List.cons.injEq, and_true]
  refine ⟨?_, ?_⟩ <;> apply BitVec.eq_of_toNat_eq <;> simp [BitVec.extractLsb'_toNat, Nat.shiftRight_eq_div_pow]

theorem beBytes_four (x : BitVec 32) : beBytes 4 x.toNat = fourBytes x := by
  simp only [beBytes, fourBytes, List.cons.injEq, and_true]
  refine ⟨?_, ?_, ?_, ?_⟩ <;> apply BitVec.eq_of_toNat_eq <;>
    simp [BitVec.extractLsb'_toNat, Nat.shiftRight_eq_div_pow]

theorem beBytes_eight (x : BitVec 64) : beBytes 8 x.toNat = eightBytes x := by
  simp only [beBytes, eightBytes, List.cons.injEq, and_true]
  refine ⟨?_, ?_, ?_, ?_, ?_, ?_, ?_, ?_⟩ <;> apply BitVec.eq_of_toNat_eq <;>
    simp [BitVec.extractLsb'_toNat, Nat.shiftRight_eq_div_pow]

/-- One byte of a body, as a number. -/
theorem field_one (bs : List Byte) (i : Nat) : field bs i 1 = byteAt bs i := by
  unfold field byteAt beNat
  rw [List.getD_eq_getElem?_getD, ← List.head?_drop]
  cases bs.drop i <;> simp

/-- The bytes of the number that bytes spell are those bytes. -/
theorem beBytes_beNat (bs : List Byte) : beBytes bs.length (beNat bs) = bs := by
  have h : ∀ (bs : List Byte) (a : Nat), bs.foldl (fun acc b => acc * 256 + b.toNat) a =
      a * 256 ^ bs.length + beNat bs := by
    intro bs
    induction bs with
    | nil => intro a; simp [beNat]
    | cons b bs ih =>
      intro a
      simp only [beNat, List.foldl_cons, List.length_cons]
      rw [ih, ih (0 * 256 + b.toNat), pow_succ]
      ring
  have hlt : ∀ bs : List Byte, beNat bs < 256 ^ bs.length := by
    intro bs
    induction bs with
    | nil => simp [beNat]
    | cons b bs ih =>
      rw [show beNat (b :: bs) = b.toNat * 256 ^ bs.length + beNat bs from by
        simp [beNat, List.foldl_cons, h bs b.toNat], List.length_cons, pow_succ]
      have := b.isLt
      nlinarith
  have hhigh : ∀ (n k v : Nat), beBytes n (k * 256 ^ n + v) = beBytes n v := by
    intro n
    induction n with
    | zero => intro k v; rfl
    | succ n ih =>
      intro k v
      have hp : 0 < 256 ^ n := Nat.pos_of_ne_zero (by positivity)
      simp only [beBytes]
      congr 1
      · apply BitVec.eq_of_toNat_eq
        rw [BitVec.toNat_ofNat, BitVec.toNat_ofNat, pow_succ,
          show k * (256 ^ n * 256) + v = v + (k * 256) * 256 ^ n by ring, Nat.add_mul_div_right _ _ hp]
        omega
      · rw [pow_succ, show k * (256 ^ n * 256) + v = (k * 256) * 256 ^ n + v by ring, ih]
  induction bs with
  | nil => rfl
  | cons b bs ih =>
    have hb : beNat (b :: bs) = b.toNat * 256 ^ bs.length + beNat bs := by
      simp [beNat, List.foldl_cons, h bs b.toNat]
    rw [hb, List.length_cons, beBytes, hhigh, ih]
    congr 1
    apply BitVec.eq_of_toNat_eq
    rw [BitVec.toNat_ofNat, show b.toNat * 256 ^ bs.length + beNat bs = beNat bs + b.toNat * 256 ^ bs.length by ring,
      Nat.add_mul_div_right _ _ (Nat.pos_of_ne_zero (by positivity)), Nat.div_eq_of_lt (hlt bs), zero_add]
    exact Nat.mod_eq_of_lt b.isLt

/-- A field read from a body gives its bytes back. -/
theorem beBytes_field (bs : List Byte) (i n : Nat) (h : i + n ≤ bs.length) :
    beBytes n (field bs i n) = (bs.drop i).take n := by
  have hl : ((bs.drop i).take n).length = n := by simp; omega
  have := beBytes_beNat ((bs.drop i).take n)
  rwa [hl] at this

/-- A field of `n` bytes is a number below 256 ^ n. -/
theorem beBytes_mod (n v : Nat) : beBytes n (v % 256 ^ n) = beBytes n v := by
  induction n generalizing v with
  | zero => rfl
  | succ n ih =>
    simp only [beBytes]
    congr 1
    · apply BitVec.eq_of_toNat_eq
      rw [BitVec.toNat_ofNat, BitVec.toNat_ofNat, pow_succ, Nat.mod_mul_right_div_self]
      omega
    · rw [← ih, pow_succ, Nat.mod_mul_right_mod, ih]

/-- Fields of 2, 4 and 8 bytes read from a body stand in it (R186). -/
theorem twoBytes_field (bs : List Byte) (i : Nat) (h : i + 2 ≤ bs.length) :
    twoBytes (BitVec.ofNat 16 (field bs i 2)) = (bs.drop i).take 2 := by
  rw [← beBytes_two, BitVec.toNat_ofNat, ← beBytes_field bs i 2 h]
  exact beBytes_mod 2 _

theorem fourBytes_field (bs : List Byte) (i : Nat) (h : i + 4 ≤ bs.length) :
    fourBytes (BitVec.ofNat 32 (field bs i 4)) = (bs.drop i).take 4 := by
  rw [← beBytes_four, BitVec.toNat_ofNat, ← beBytes_field bs i 4 h]
  exact beBytes_mod 4 _

theorem eightBytes_field (bs : List Byte) (i : Nat) (h : i + 8 ≤ bs.length) :
    eightBytes (BitVec.ofNat 64 (field bs i 8)) = (bs.drop i).take 8 := by
  rw [← beBytes_eight, BitVec.toNat_ofNat, ← beBytes_field bs i 8 h]
  exact beBytes_mod 8 _

/-! ### Bodies -/

/-- The check field of a body agrees (R75, R187). -/
theorem checkAgrees_iff (bs : List Byte) :
    checkAgrees bs = true ↔ bs.drop (bs.length - 4) = fourBytes (crc32 (bs.take (bs.length - 4))) := by
  rw [checkAgrees, beq_iff_eq, beBytes_four]
  exact eq_comm

/-- A body of whole bytes is judged by its kind (R75). -/
theorem judgeFrame_bytes (bs : List Byte) :
    judgeFrame (bytesToBits bs) =
      if byteAt bs 0 = 1 then judgeBeacon bs else if byteAt bs 0 = 2 then judgeTrigger bs else none := by
  simp only [judgeFrame, bitsToBytes_bytesToBits, field_one, FrameKind.code, beq_iff_eq]

/-- The reported-state codes, and the values that are none (R186). -/
theorem Reported.ofCode_some (n : Nat) (r : Reported) : Reported.ofCode n = some r ↔ reportedCode r = n := by
  rcases n with _ | _ | _ | _ | _ | _ | n <;> cases r <;> simp [reportedCode, Reported.ofCode]

theorem Reported.ofCode_none (n : Nat) : Reported.ofCode n = none ↔ n = 0 ∨ 5 < n := by
  rcases n with _ | _ | _ | _ | _ | _ | n <;> simp [Reported.ofCode]

end Sys2Proof.Machine
end

