-- ==== Sys2Proof/Laws/StandDown.lean ====
section
/-! SUPPORT. The change into LISTEN or CLASH that is no sync loss: what its stand-down leaves, as one lemma (R53, R56). -/

set_option Elab.async false

namespace Sys2Proof.Machine

/-- The places that come back when entries leave (R118, R130). -/
theorem foldl_freePlace (p : Partition) (es : List SchedEntry) (space : Vector Nat 4) :
    (es.foldl (fun sp e => freePlace e.part sp) space).get p = space.get p + es.countP fun e => e.part == p := by
  induction es generalizing space with
  | nil => simp
  | cons e es ih => simp only [List.foldl_cons, ih, freePlace_get, List.countP_cons, beq_iff_eq]; omega

/-- What a change of sync state sets, and nothing else (R39, R40, R156). -/
theorem setSyncState_eq (c : Cfg) (new : SyncState) (s : State) :
    setSyncState c new s = { s with
      syc := (setSyncState c new s).syc, tlu := { s.tlu with inputs := (setSyncState c new s).tlu.inputs },
      rdp := { s.rdp with statePending := true } } := by
  unfold setSyncState clearLastEdges
  dsimp only
  split <;> rfl

/-- What a hand-over changes, and nothing else (R163, R164). -/
theorem handRecord_eq (r : Record) (k : LostKind) (s : State) :
    handRecord r k s = { s with
      jnl := (handRecord r k s).jnl, rdp := { s.rdp with flags := (handRecord r k s).rdp.flags } } := by
  unfold handRecord loseRecord
  dsimp only
  split_ifs <;> rfl

/-- A change into LISTEN or CLASH that is no sync loss stands the part down (R53, R56), whatever the next boundary and the
peer table were. -/
theorem changeState_stoodDown (c : Cfg) (new : SyncState) (reason : Reason) (s x : State) (hn : new.standsDown = true)
    (ho : s.syc.state ≠ .off) (hs : s.syc.state.synced = false)
    (hx : x = { s with tbu := { s.tbu with nextBoundary := x.tbu.nextBoundary }, mbu := x.mbu }) :
    StoodDown c s (changeState c new reason id x) new reason := by
  have hb : new.basis = .localBasis := by cases new <;> first | rfl | cases hn
  have hr : new.reported = none := by cases new <;> first | rfl | cases hn
  have e1 : x.syc = s.syc := by rw [hx]
  have e2 : x.scu = s.scu := by rw [hx]
  have e3 : x.tlu = s.tlu := by rw [hx]
  have e4 : x.rdp = s.rdp := by rw [hx]
  have e5 : x.jnl = s.jnl := by rw [hx]
  have e6 : x.lif = s.lif := by rw [hx]
  have e7 : { x.tbu with slewDebt := 0, hold := false, nextBoundary := none } =
      { s.tbu with slewDebt := 0, hold := false, nextBoundary := none } := by rw [hx]
  have e9 : x.tbu.localClock = s.tbu.localClock := by rw [hx]
  have e8 : x.tge = s.tge ∧ x.amp = s.amp ∧ x.src = s.src ∧ x.cfg = s.cfg := by rw [hx]; exact ⟨rfl, rfl, rfl, rfl⟩
  clear hx
  set y := dropTime false (setSyncState c new x) with hy
  have hc : changeState c new reason id x =
      writeStateRecord s.syc.state reason (some s.scu.entries.length) (flush (purge (trainEnd y))) := by
    simp only [changeState, hn, if_true, id, e1, hs]
    rw [← hy]
    rw [if_neg ho, show (purge (trainEnd y)).scu = s.scu by rw [hy]; simpa using e2]
  have hyt : y.tlu = { s.tlu with inputs := y.tlu.inputs } := by
    rw [hy, show (dropTime false (setSyncState c new x)).tlu = (setSyncState c new x).tlu from rfl, setSyncState_eq, e3]
  have hyr : y.rdp = { s.rdp with statePending := true } := by
    rw [hy, show (dropTime false (setSyncState c new x)).rdp = (setSyncState c new x).rdp from rfl, setSyncState_eq, e4]
  have hyi : y.tlu.inputs = if s.basis = .localBasis then s.tlu.inputs
      else s.tlu.inputs.map fun ch => { ch with lastEdge := none } := by
    rw [hy, show (dropTime false (setSyncState c new x)).tlu = (setSyncState c new x).tlu from rfl, setSyncState_inputs,
      e1, e3, hb]
    rfl
  set z := flush (purge (trainEnd y)) with hz
  have hzt : z.tlu = { y.tlu with channels := y.tlu.channels.map Channel.trainEnd } := rfl
  have hzr : z.rdp = y.rdp := rfl
  have hzs : z.syc = y.syc := rfl
  have hzl : z.lif = { s.lif with
      queue := [], slot := none, onLine := s.lif.onLine.map fun f => { f with purged := true } } := by
    have h : y.lif = s.lif := by rw [hy]; simpa using e6
    rw [← h]
    rfl
  have hzc : z.scu = { s.scu with
      entries := [], space := s.scu.entries.foldl (fun sp e => freePlace e.part sp) s.scu.space,
      cancelled := s.scu.cancelled + BitVec.ofNat 32 s.scu.entries.length } := by
    have h : (purge (trainEnd y)).scu = s.scu := by rw [hy]; simpa using e2
    rw [hz, ← h]
    simp [flush, removeUnfired]
  have hw : ∀ n, writeStateRecord s.syc.state reason n z = _ := fun n => handRecord_eq _ _ _
  have hst : (changeState c new reason id x).tbu = { s.tbu with slewDebt := 0, hold := false, nextBoundary := none } := by
    rw [changeState_tbu c new reason id x (fun _ => rfl), if_pos hn, e1, hs]
    exact e7
  constructor
  · rw [changeState_syc c new reason id x (fun _ => rfl), hr, hn, e1]
    rfl
  · unfold State.basis
    rw [changeState_syc c new reason id x (fun _ => rfl)]
    exact hb
  · exact hst
  · rw [hc, hw]
    exact hzl
  · rw [hc, hw]
    simp only [hzc]
  · intro p
    rw [hc, hw]
    change z.scu.space.get p = _
    rw [hzc]
    exact foldl_freePlace _ _ _
  · rw [hc, hw]
    change z.tlu = _
    rw [hzt, hyt]
  · intro l
    rw [hc, hw]
    change z.tlu.channels.get l = _
    rw [hzt, hyt]
    simp
    cases s.tlu.channels.get l <;> rfl
  · intro l
    rw [hc, hw]
    change z.tlu.inputs.get l = _
    rw [hzt, hyi]
    split <;> simp
  · intro n
    simp [changeState, hn, ho, e1]
  · rw [hc, hw]
    simp only [hzr]
    rw [hyr]
  · unfold Recorded stateRecord
    rw [hst, hc, hb]
    have hzb : z.basis = .localBasis := by unfold State.basis; rw [hzs]; simp [hy, hb]
    have hzc : z.tbu.localClock = s.tbu.localClock := by
      rw [← e9]; simp [hz, hy]
    have hzn : z.syc.state = new := by rw [hzs]; simp [hy]
    unfold writeStateRecord
    rw [hzb, hzc, hzn]
    exact ⟨handRecord_jnl_eq _ _ _ _ (by rw [← e5]; simp [hz, hy]),
      handRecord_flags_eq _ _ _ _ (by rw [← e5]; simp [hz, hy]) (by rw [hzr, hyr])⟩
  · simpa using e8

end Sys2Proof.Machine
end

