-- ==== Sys2Proof/Tests/Slice0.lean ====
section
/-! SUPPORT. Tests of the model on small states: the check refuses ill-formed commands, the check values and byte layouts
of the manual, one or two steps of each command, and, for each statement with hypotheses, a state that meets them. -/

set_option Elab.async false

namespace Sys2Proof.Tests

open Sys2Proof Sys2Proof.Machine

/-! ### Well-formedness -/

theorem test_wellFormed_refuses_reset_by_port : (Instr.reset .port).wellFormed = false := by decide

theorem test_wellFormed_refuses_known_code : (Instr.unknownCommand 0x10).wellFormed = false := by decide

theorem test_wellFormed_takes_the_rest :
    (Instr.reset .pin).wellFormed = true ∧ (Instr.unknownCommand 0x00).wellFormed = true ∧
      (Instr.readPeer 0xFF).wellFormed = true := by decide

theorem test_no_word_spells_a_command : decodeTableWord 8 0x10 = none := by decide

/-! ### Checks, frames and the image, as bytes written out from the layouts -/

/-- The ASCII bytes "123456789" (R187). -/
def digits : List Byte := [0x31, 0x32, 0x33, 0x34, 0x35, 0x36, 0x37, 0x38, 0x39]

theorem test_crc_values : crc32 digits = 0x0376E6E7 ∧ crc16 digits = 0x29B1 := by decide +kernel

/-- A beacon of station 7 in SYNC, departing. -/
def beacon : Beacon :=
  { station := 7, departing := true, reported := .sync, uniqueId := 0xB7, sendStamp := 200000, vector := 0x88,
    nextSequence := 10, signature := 0x7433 }

def beaconBytes : List Byte :=
  [0x01, 0x07, 0x83, 0x00, 0x00, 0x00, 0x00, 0x00, 0x00, 0x00, 0xB7, 0x00, 0x00, 0x00, 0x00, 0x00] ++
  [0x03, 0x0D, 0x40, 0x00, 0x00, 0x00, 0x88, 0x00, 0x0A, 0x74, 0x33, 0x1F, 0xFE, 0x46, 0xC5]

/-- A trigger of station 7 at depth 1, whose root is sequence 5 of station 1. -/
def child : Trigger :=
  { origin := 7, sequence := 10, cls := 9, stamp := 200000, depth := 1, root := some { origin := 1, sequence := 5 } }

def childBytes : List Byte :=
  [0x02, 0x07, 0x51, 0x09, 0x00, 0x0A, 0x00, 0x00, 0x00, 0x00, 0x00, 0x03, 0x0D, 0x40, 0x01, 0x00, 0x05, 0x95, 0x96, 0xB8, 0x46]

/-- A trigger of station 7 at depth 0. -/
def plain : Trigger := { origin := 7, sequence := 10, cls := 9, stamp := 200000, depth := 0, root := none }

def plainBytes : List Byte :=
  [0x02, 0x07, 0x40, 0x09, 0x00, 0x0A, 0x00, 0x00, 0x00, 0x00, 0x00, 0x03, 0x0D, 0x40, 0x97, 0x9F, 0x7E, 0xB8]

theorem test_frame_bytes :
    beaconBody beacon = beaconBytes ∧ triggerBody child 1 = childBytes ∧ triggerBody plain 1 = plainBytes := by
  decide +kernel

theorem test_frame_judged :
    judgeFrame (bytesToBits beaconBytes) = some (.beacon beacon) ∧
      judgeFrame (bytesToBits childBytes) = some (.trigger child 1) ∧
      judgeFrame (bytesToBits plainBytes) = some (.trigger plain 1) ∧
      judgeFrame (bytesToBits (0x03 :: plainBytes.drop 1)) = none ∧
      judgeFrame (bytesToBits (plainBytes.set 3 0x08)) = none ∧
      judgeFrame ((bytesToBits plainBytes).drop 1) = none ∧ judgeFrame [] = none := by decide +kernel

/-- An image of station 3 with two outputs, two inputs and one map entry: header, CLUSTER, LOCAL, LINES, PARTITIONS,
ACTIONS, image check. -/
def image : List Byte :=
  [0x4A, 0x44, 0x32, 0x08, 0x03, 0x05, 0x00, 0x9F] ++
  [0x01, 0x00, 0x11, 0x00, 0x01, 0x86, 0xA0, 0x02, 0x00, 0x64, 0x00, 0x0A, 0x02, 0x02, 0x02, 0x02, 0x01, 0x00, 0x05] ++
  [0x02, 0x72, 0x1A] ++
  [0x02, 0x00, 0x02, 0x0F, 0x01, 0x3B, 0xF0] ++
  [0x03, 0x00, 0x48, 0x02, 0x00, 0x00, 0x00, 0x00, 0x00, 0x00, 0x00, 0x00, 0x02, 0x01, 0x01, 0x00, 0x00, 0x00, 0x00] ++
  [0x00, 0x00, 0x01, 0x03, 0x00, 0x04, 0x00, 0x00, 0x32, 0x09, 0x01, 0x01, 0x01, 0x00, 0x00, 0x00, 0x00, 0x00, 0xFF] ++
  [0x01, 0x00, 0x00, 0x00, 0x00, 0x00, 0x00, 0x00, 0x00, 0x00, 0x00, 0x00, 0x00, 0x00, 0x00, 0x00, 0x00, 0x00, 0x00] ++
  [0x00, 0x00, 0x00, 0x00, 0x00, 0x00, 0x00, 0x00, 0x00, 0x00, 0x00, 0x00, 0x00, 0x00, 0x00, 0x00, 0x00, 0x00, 0x53] ++
  [0x68] ++
  [0x04, 0x00, 0x04, 0x02, 0x02, 0x02, 0x2A, 0xD9, 0x4C] ++
  [0x05, 0x00, 0x1D, 0x05, 0x09, 0x00, 0x00, 0x00, 0x88, 0x03, 0x02, 0x00, 0x00, 0x03, 0xE8, 0x02, 0x00, 0x00, 0x14] ++
  [0x00, 0x00, 0x3C, 0x00, 0x03, 0x01, 0x01, 0x01, 0x0C, 0x00, 0x00, 0x01, 0xF4, 0x38, 0xE1] ++
  [0x91, 0x8B]

def cluster : Cluster :=
  { bper := 100000, quorum := 2, maxCorr := 100, stableBound := 10, tentRounds := 2, stabRounds := 2, holdRounds := 2,
    missLimit := 2, listenRounds := 1, lineDelay := 5, trigRepeat := 2 }

def cfg : Cfg := { station := 3, cluster := cluster, signature := 0x7433 }

def edgeInput : InputCfg := { select := .both, qualification := 4, holdOff := 50, cls := some 9, capture := true }

def plainInput : InputCfg := { select := .rising, qualification := 0, holdOff := 0, cls := none, capture := true }

def lines : Vector LineCfg 8 :=
  #v[.output true .keep, .output false .restart, .input edgeInput, .input plainInput, .off, .off, .off, .off]

def mapEntry : MapEntry :=
  { cls := 9, origins := 0x88, lines := 0x03, part := 2, offset := 1000, action := .train 20 60 3, late := .fire,
    journal := true, derive := some (12, 500) }

def imageConfig : ImageConfig :=
  { cfg := cfg, mask := { journal := true, flags := true, state := true, load := true }, threshold := 1,
    lines := lines, quota := #v[2, 2, 2, 42], amp := (Vector.replicate 64 none).set 5 (some mapEntry) }

def blocks : List Block :=
  [{ type := 1, payload := (image.drop 11).take 17 }, { type := 2, payload := (image.drop 33).take 2 },
    { type := 3, payload := (image.drop 40).take 72 }, { type := 4, payload := (image.drop 117).take 4 },
    { type := 5, payload := (image.drop 126).take 29 }]

set_option maxRecDepth 20000 in
theorem test_image_blocks : readBlocks 159 5 1 8 [] (image.drop 8) = .ok blocks := by decide +kernel

theorem test_image_values : missingType blocks = none ∧ readValues 3 blocks = .ok imageConfig := by decide +kernel

set_option maxRecDepth 20000 in
theorem test_image_check : crc16 (image.take 157) = 0x918B := by decide +kernel

theorem test_image_is_good : judgeImage image = .ok imageConfig := by
  have h1 : image.length = 159 := by decide +kernel
  have h2 : field image 0 2 = 0x4A44 ∧ field image 2 2 = 0x3208 ∧ field image 6 2 = 159 ∧ field image 5 1 = 5 ∧
      field image 157 2 = 0x918B ∧ field image 4 1 = 3 := by decide +kernel
  have h3 : within 159 10 Config.imageBytes = true := by decide
  simp [judgeImage, judgeWhole, h1, h2, h3, test_image_blocks, test_image_check, test_image_values]

theorem test_image_fails :
    judgeImage (image.take 7) = .more ∧
      judgeImage [0x4A, 0x45] = .fail (.noImage 0x4A45) ∧
      judgeImage (image.take 3 ++ [0x09]) = .fail (.wrongDevice 0x3209) ∧
      judgeImage (image.take 6 ++ [0x00, 0x09]) = .fail (.tooLong 9) ∧
      judgeImage (image.take 29 ++ [0x00]) = .fail (.blockCheck 1) := by decide +kernel

/-! ### States to start from -/

/-- The state a command leads to. -/
def after (c : Instr) (s : State) : State :=
  match exec c s with
  | .next t => t
  | .fault _ | .refused _ => s

/-- What a command answers on the port. -/
def reply (c : Instr) (s : State) : Txn := (after c s).rdp.txn

/-- Station 7's record, heard in this round with an offset where one is given. -/
def peer (kind : PeerKind) (offset : Option Int) : Peer :=
  { Peer.absentRecord with
    kind := kind, uniqueId := some 0xB7, reported := some .sync, freshOffset := offset, heard := offset.isSome,
    expected := some 10 }

/-- The part of station 3, loaded with the image, in a sync state, at a round boundary. Station 7 is a member whose
offset is 6. -/
def part (y : SyncState) : State :=
  { State.reset with
    uniqueId := 0xA1
    cfg := some cfg
    tbu := { Tbu.reset with
      localClock := 200500, clusterTime := 200000, nextBoundary := if y.active then some 200000 else none }
    mbu := { Mbu.reset with
      peers := (Mbu.reset.peers.set 3 (Peer.selfRecord 0xA1)).set 7 (peer .member (some 6)) }
    syc := { Syc.reset with
      state := y, lastSynchronizing := y.reported, listenTimer := if y = .listen then some 0 else none,
      nextBeaconDue := if y.active then some 209375 else none }
    lif := { Lif.reset with idleTimer := 500, receiver := .ready }
    amp := (Vector.replicate 64 none).set 5 (some mapEntry)
    scu := { Scu.reset with quota := #v[2, 2, 2, 42], space := #v[2, 2, 2, 42] }
    tlu := { Tlu.reset 0x04 with
      lines := lines
      inputs := ((Tlu.reset 0).inputs.set 2 { InputChan.reset with settled := some false }).set 3
        { InputChan.reset with settled := some false } }
    rdp := { Rdp.reset with txn := .begun, threshold := some 1 }
    src := { Src.reset .power with loadState := .ready, loadResult := some .ok } }

/-- The part with other offsets of stations 7, 8, 9. -/
def partWith (y : SyncState) (offsets : List (Station × Peer)) : State :=
  { part y with
    mbu := { (part y).mbu with
      peers := offsets.foldl (fun v x => v.set x.1 x.2) (part y).mbu.peers } }

/-- The part with its round counts. -/
def counted (s : State) (n : Nat) : State :=
  { s with syc := { s.syc with goodRounds := n, stableRounds := n, holdoverRounds := n } }

def entry (index : MapIndex) (due : Time) (action : Action) : SchedEntry :=
  { due := due, capped := false, lines := 0x03, action := action, cls := 9, origin := 7, sequence := 10, index := index, part := 2,
    journal := true, late := false }

/-- The part in SYNC with two entries, the first of them due. -/
def scheduled : State :=
  { part .sync with
    scu := { (part .sync).scu with
      entries := [entry 5 200000 (.pulse 20), entry 6 200001 .set], space := #v[2, 2, 0, 42] } }

def trigEntry (attempts : Nat) : TrigEntry :=
  { trigger := { plain with origin := 3 }, copies := 2, attempts := attempts, backoff := 0, onLine := false }

def beaconEntry (attempts : Nat) : BeaconEntry :=
  { station := 3, uniqueId := 0xA1, signature := 0x7433, attempts := attempts, backoff := 0 }

/-- The part in SYNC with a transmit queue and a slot. -/
def queued (q : List TrigEntry) (b : Option BeaconEntry) (idle : Nat) : State :=
  { part .sync with lif := { (part .sync).lif with queue := q, slot := b, idleTimer := idle } }

/-- The part in SYNC with a frame on the line. -/
def sending (f : LineFrame) (refLeft purged : Bool) (q : List TrigEntry) (b : Option BeaconEntry) : State :=
  { part .sync with
    lif := { (part .sync).lif with
      queue := q, slot := b, idleTimer := 0,
      onLine := some { frame := f, refLeft := refLeft, purged := purged } } }

/-- The part in a sync state with a frame in reception, 100 ticks old. -/
def hearing (y : SyncState) (own : Bool) (idle : Nat) : State :=
  { part y with lif := { (part y).lif with receiver := .receiving 200400 199900 own, idleTimer := idle } }

/-- The part with a candidate on TL2, whose level is high, and on TL3, whose level is low. -/
def qualifying (y : SyncState) (taken : Time) : State :=
  { part y with
    tlu := { (part y).tlu with
      inputs := ((part y).tlu.inputs.set 2
          { (part y).tlu.inputs.get 2 with
            candidate := some { localClock := taken, stamp := 199990, basis := y.basis } }).set 3
          { settled := some true, candidate := some { localClock := taken, stamp := 199990, basis := y.basis },
            lastEdge := none, events := 0 } } }

/-- TL0 and TL1 with channels. -/
def channels (a b : Channel) : State :=
  { part .sync with tlu := { (part .sync).tlu with channels := ((part .sync).tlu.channels.set 0 a).set 1 b } }

/-- The part in the restart leave. -/
def leaving (timer : Nat) : State :=
  { part .sync with src := { (part .sync).src with leaveTimer := some timer } }

def armed (s : State) : State := { s with rdp := { s.rdp with armed := true } }

/-- A part that still loads, with some bytes of the image taken, and a begun transaction. -/
def loading (n : Nat) : State :=
  { State.reset with
    uniqueId := 0xA1
    tlu := Tlu.reset 0x04
    rdp := { Rdp.reset with txn := .begun }
    src := { Src.reset .power with image := image.take n } }

/-- A part held in a PIN reset, with a number of ticks of a PORT reset to pass. -/
def held (n : Nat) : State := resetState .pin n (part .sync)

/-- The journal with `n` records of one kind, and a pending lost count. -/
def journaled (n : Nat) (lost : BitVec 16) : State :=
  { part .sync with jnl := { records := List.replicate n (.gap 1) ++ [.gap 2], lost := lost } }

/-! ### One step of each command -/

theorem test_reset_clears : (after (.reset .supply) (part .sync)).src.resetCause = .supply ∧
    (after (.reset .supply) (part .sync)).syc = Syc.reset ∧ (after (.reset .supply) (part .sync)).cfg = none := by
  decide +kernel

theorem test_reset_release_starts :
    (after (.resetRelease true true) (held 0)).src.supplyWarning = true ∧
      (after (.resetRelease true true) (held 0)).rdp.txn = .ignored ∧
      (after (.resetRelease false false) (held 1)).src.inReset = true := by decide +kernel

theorem test_tick_pays_slew :
    (after (.tick false 0) { part .sync with tbu := { (part .sync).tbu with slewDebt := 2 } }).tbu =
      { (part .sync).tbu with localClock := 200501, slewDebt := 1, hold := true } := by decide +kernel

theorem test_tick_line : (after (.tick true 0xFF) (part .sync)).lif.idleTimer = 0 ∧
    (after (.tick false 0xFF) (part .sync)).lif.idleTimer = 501 ∧
      (after (.tick false 0xFF) (part .sync)).tlu.pins = 0xFF := by decide +kernel

theorem test_image_byte_fails :
    (after (.imageByte 0x45) (loading 1)).src.loadResult = some (.noImage 0x4A45) ∧
      (after (.imageByte 0x45) (loading 1)).rdp.loadPending = true := by decide +kernel

/-- What the last byte of a good image leads to. -/
theorem imageByte_of_good (b : Byte) (g : ImageConfig) (s : State) (hr : s.src.inReset = false)
    (hl : s.src.loadState = .loading) (h : judgeImage (s.src.image ++ [b]) = .ok g) :
    exec (.imageByte b) s =
      .next (loadReady g (s.withSrc { s.src with image := s.src.image ++ [b] })) := by
  simp [exec, execImageByte, live, takeImageByte, hr, hl, h]

theorem test_last_byte_is_good : judgeImage ((loading 158).src.image ++ [0x8B]) = .ok imageConfig := by
  have h : (loading 158).src.image ++ [0x8B] = image := by decide +kernel
  exact h ▸ test_image_is_good

theorem test_image_byte_makes_ready :
    exec (.imageByte 0x8B) (loading 158) =
      .next (loadReady imageConfig
        ((loading 158).withSrc { (loading 158).src with image := (loading 158).src.image ++ [0x8B] })) :=
  imageByte_of_good _ _ _ rfl rfl test_last_byte_is_good

theorem test_ready_listens :
    (loadReady imageConfig (loading 158)).syc.state = .listen ∧
      (loadReady imageConfig (loading 158)).syc.listenTimer = some 109375 ∧
      ((loadReady imageConfig (loading 158)).tlu.inputs.get 2).settled = some true ∧
      (loadReady imageConfig (loading 158)).jnl.records =
        [.state { time := 0, basis := .localBasis, old := .off, new := .listen, reason := .loadDone,
                  cancelled := none }] := by decide +kernel

theorem test_listen_timeout_founds :
    (after .listenTimeout (part .listen)).syc.state = .founding ∧
      (after .listenTimeout (part .listen)).tbu.clusterTime = 200500 ∧
      (after .listenTimeout (part .listen)).tbu.nextBoundary = some 300000 ∧
      (after .listenTimeout (part .listen)).syc.nextBeaconDue = some 209375 := by decide +kernel

theorem test_correction_event_applies :
    (after .correctionEvent (part .sync)).tbu.clusterTime = 200003 ∧
      (after .correctionEvent (part .sync)).tbu.nextBoundary = some 300000 ∧
      (after .correctionEvent (part .sync)).tbu.lastCorrection = 3 ∧
      (after .correctionEvent (part .sync)).mbu.members = 2 := by decide +kernel

theorem test_correction_event_loses_sync :
    (after .correctionEvent (partWith .stable [(7, peer .member (some 300))])).syc.state = .listen ∧
      (after .correctionEvent (partWith .stable [(7, peer .member (some 300))])).tbu.syncLossCount = 1 := by
  decide +kernel

theorem test_beacon_due :
    (after .beaconDue { part .sync with tbu := { (part .sync).tbu with clusterTime := 209375 } }).lif.slot =
      some (beaconEntry 0) ∧ (after .beaconDue (part .sync)).lif.slot = none := by decide +kernel

theorem test_frame_start_order :
    ((after .frameStart (queued [trigEntry 0] (some (beaconEntry 0)) 80)).lif.onLine.map OnLine.frame) =
      some (.trigger { plain with origin := 3 } 1) ∧
      (after .frameStart (queued [] (some (beaconEntry 0)) 159)).lif.onLine = none := by decide +kernel

theorem test_send_reference_point_fills :
    ((after .sendReferencePoint (sending (.beacon (beaconEntry 0) none false) false false [] none)).lif.onLine.map
      OnLine.frame) =
      some (.beacon (beaconEntry 0)
        (some { station := 3, departing := false, reported := .sync, uniqueId := 0xA1, sendStamp := 200000,
                vector := 0x88, nextSequence := 0, signature := 0x7433 }) false) := by decide +kernel

theorem test_collision_backs_off :
    (after .collision (sending (.trigger plain 1) true false [trigEntry 0] none)).lif.queue =
      [{ trigEntry 1 with backoff := 350 }] ∧
      (after .collision (sending (.trigger plain 1) true false [trigEntry 7] none)).lif.abandons = 1 := by decide +kernel

theorem test_frame_complete_counts :
    (after .frameComplete (sending (.trigger plain 1) true false [trigEntry 3] none)).lif.queue =
      [{ trigEntry 0 with copies := 1 }] ∧
      (after .frameComplete (sending (.trigger plain 1) true false [trigEntry 3] none)).lif.copiesSent = 1 := by
  decide +kernel

theorem test_start_mark_stamps :
    (after .startMarkReceived (part .sync)).lif.receiver = .receiving 200500 200000 false ∧
      (after .notAFrame (part .sync)).lif.receiver = .ignoring := by decide +kernel

theorem test_frame_end_beacon :
    ((after (.frameEnd (bytesToBits beaconBytes)) (hearing .sync false 20)).mbu.peers.get 7).kind = .departed ∧
      ((after (.frameEnd (bytesToBits beaconBytes)) (hearing .sync false 20)).mbu.peers.get 7).freshOffset =
        some 105 := by decide +kernel

theorem test_frame_end_trigger :
    (after (.frameEnd (bytesToBits (triggerBody { plain with cls := 8 } 1))) (hearing .sync false 20)).tge.accepted = 1 ∧
      ((after (.frameEnd (bytesToBits (triggerBody { plain with cls := 8 } 1)))
        (hearing .sync false 20)).mbu.peers.get 7).expected = some 11 := by decide +kernel

theorem test_input_transition :
    ((after (.inputTransition 2) (part .sync)).tlu.inputs.get 2).candidate =
      some { localClock := 200500, stamp := 200000, basis := .cluster } := by decide +kernel

theorem test_input_reversion :
    ((after (.inputReversion 2) { qualifying .sync 200496 with
      tlu := { (qualifying .sync 200496).tlu with pins := 0 } }).tlu.inputs.get 2).candidate = none := by
  decide +kernel

theorem test_edge_qualified :
    (after (.edgeQualified 2) (qualifying .founding 200496)).jnl.records =
      [.capture { line := 2, rising := true, basis := .provisional, outcome := .refusedState, stamp := 199990,
                  interval := none, eventCount := 1 }] ∧
      (after (.edgeQualified 2) (qualifying .founding 200497)).jnl.records = [] := by decide +kernel

theorem test_entry_due_fires :
    (after .entryDue scheduled).scu.entries = [entry 6 200001 .set] ∧
      (after .entryDue scheduled).tlu.channels.get 1 = .active 20 none 20 0 ∧
      (after .entryDue scheduled).scu.space.get 2 = 1 ∧ (after .entryDue scheduled).jnl.records.length = 1 := by
  decide +kernel

theorem test_width_expiry : (after (.widthExpiry 0) (channels (.active 20 (some 40) 0 2) .idle)).tlu.channels.get 0 =
    .gap 20 40 40 2 := by decide +kernel

theorem test_gap_expiry : (after (.gapExpiry 0) (channels (.gap 20 40 0 2) .idle)).tlu.channels.get 0 =
    .active 20 (some 40) 20 1 := by decide +kernel

theorem test_transaction :
    reply .transactionStart { part .sync with rdp := Rdp.reset } = .begun ∧ reply .selectRise (part .sync) = .idle := by
  decide +kernel

theorem test_unknown_command : reply (.unknownCommand 0x00) (armed (part .sync)) = .taken [0x03] false ∧
    (after (.unknownCommand 0x00) (armed (part .sync))).rdp.armed = false := by decide +kernel

theorem test_read_status : reply .readStatus (armed (loading 0)) =
    .taken [0x00, 0, 0, 0, 0, 0, 0, 0, 0, 1, 2, 0, 0] false := by decide +kernel

theorem test_read_time : reply .readTime (part .sync) =
    .taken [0x00, 0, 0, 0, 0, 0, 3, 0x0D, 0x40, 0, 0, 0, 0, 0, 3, 0x0F, 0x34, 2] false := by decide +kernel

theorem test_read_identity : reply .readIdentity (part .sync) =
    .taken [0x00, 0x32, 0x08, 0, 0, 0, 0, 0, 0, 0, 0xA1, 1, 3, 0x74, 0x33, 32, 8, 64, 48, 4, 8, 128, 0x10, 0] false := by
  decide +kernel

theorem test_read_sync : reply .readSync (part .sync) =
    .taken ([0x00] ++ List.replicate 18 0 ++ [0, 0, 0, 0, 0, 0x88, 32, 0, 0, 0]) false := by decide +kernel

theorem test_read_peer : reply (.readPeer 7) (part .sync) =
    .taken [0x00, 3, 0x1B, 2, 0, 0, 0, 0, 0, 0, 0, 0xB7, 3, 0, 0, 0, 0, 0, 0, 0, 0, 0, 0, 0, 0, 0, 0, 0, 6, 0, 0, 10, 0, 0,
      0, 0] false ∧ reply (.readPeer 32) (part .sync) = .taken [0x02] false := by decide +kernel

theorem test_read_schedule : reply .readSchedule scheduled =
    .taken ([0x00, 2, 1, 0, 0, 0, 0, 0, 3, 0x0D, 0x40, 2, 2, 0, 0, 0, 0, 2, 2, 0, 0, 0, 0, 2, 0, 0, 0, 0, 0, 42, 42] ++
      List.replicate 16 0) false := by decide +kernel

theorem test_read_counters : reply .readCounters (part .sync) = .taken (List.replicate 121 0) false := by decide +kernel

theorem test_read_flags :
    reply .readFlags { part .sync with
      rdp := { (part .sync).rdp with flags := { Flags.clear with late := some (9, 7, 1), badFrame := true } } } =
      .taken ([0x00, 0x02, 0x02, 0, 0, 0, 9, 7, 0, 0, 0, 1] ++ List.replicate 19 0) false := by decide +kernel

theorem test_read_journal : reply .readJournal (journaled 0 0) = .taken ([0x00, 1, 4, 0, 2] ++ List.replicate 21 0) true ∧
    reply .readJournal (part .sync) = .taken [0x00, 0, 0] false := by decide +kernel

theorem test_journal_transfer_done :
    (after .journalTransferDone { journaled 0 0 with
      rdp := { (part .sync).rdp with txn := .taken [0] true } }).jnl.records = [] := by decide +kernel

theorem test_raise : reply (.raise 8) (part .sync) = .taken [0x00, 1, 0, 0] false ∧
    (after (.raise 8) (part .sync)).lif.queue.length = 1 ∧ (after (.raise 8) (part .sync)).tge.ownSequence = 1 := by
  decide +kernel

theorem test_raise_refused : reply (.raise 8) (part .founding) = .taken [0x00, 4, 0, 0] false ∧
    reply (.raise 64) (part .sync) = .taken [0x02] false := by decide +kernel

theorem test_cancel : reply (.cancel 9) scheduled = .taken [0x00, 2] false ∧
    (after (.cancel 9) scheduled).scu.entries = [] ∧ (after (.cancel 9) scheduled).scu.space.get 2 = 2 := by
  decide +kernel

theorem test_restart : reply .restart (part .sync) = .taken [0x04] false ∧
    (after .restart (armed (part .sync))).src.leaveTimer = some 200000 := by decide +kernel

theorem test_restart_arm : (after .restartArm (part .sync)).rdp.armed = true ∧
    reply .restartArm (part .sync) = .taken [0x00] false := by decide +kernel

theorem test_leave_timeout : (after .leaveTimeout (leaving 0)).src.portHold = 100 ∧
    (after .leaveTimeout (leaving 1)).src.inReset = false := by decide +kernel

theorem test_supply_warning : (after .supplyWarningSet (part .sync)).src.supplyWarning = true ∧
    (after .supplyWarningClear (after .supplyWarningSet (part .sync))).src.supplyWarning = false := by decide +kernel

theorem test_correction_rounds_toward_zero : trimmedMean [7, 8, 8] = some 7 ∧ trimmedMean [-10, -9, -10] = some (-9) ∧
    trimmedMean [0, 4, 4, 100] = some 4 ∧ trimmedMean [] = none := by decide

/-! ### For each statement with hypotheses, states that meet them, clause by clause -/

theorem test_witness_StepRunsTheFrontCommand :
    ({ part .sync with pending := [.beaconDue, .entryDue] } : State).pending = .beaconDue :: [.entryDue] ∧
      (part .sync).pending = [] := by decide

/-- A part in reset has every item at its reset value. -/
theorem held_atReset (n : Nat) : AtReset (held n) := by
  have h : membershipVector (held n) = 0 := by
    apply BitVec.eq_of_getLsbD_eq
    intro i hi
    simp [membershipVector, held, resetState, BitVec.getLsbD_ofFnLE, State.reset, Mbu.reset, Peer.absentRecord,
      Syc.reset, SyncState.synced]
  refine ⟨by simp [held, resetState, State.reset, Tbu.reset], by simp [held, resetState, State.reset, Tbu.reset], rfl, ?_,
    ⟨rfl, rfl, rfl, rfl, h⟩, by simp [held, resetState, State.reset, Syc.reset],
    by simp [held, resetState, State.reset, Lif.reset], by simp [held, resetState, State.reset, Lif.reset], ⟨rfl, ?_⟩,
    by simp [held, resetState, State.reset, Tge.reset], ?_, ⟨rfl, rfl, rfl, rfl, ?_⟩, ?_, ?_, ⟨rfl, rfl⟩, ⟨rfl, rfl⟩,
    ⟨rfl, rfl, rfl, rfl, rfl⟩, ⟨rfl, rfl, rfl, rfl, rfl⟩⟩ <;>
    intro i <;>
    simp [held, resetState, State.reset, Mbu.reset, Tge.reset, Scu.reset, Tlu.reset, InputChan.reset, lineDrive]

theorem test_witness_ResetHoldsThePart :
    ResetCause.power ≠ .port ∧ ResetCause.pin ≠ .port ∧ ResetCause.supply ≠ .port ∧
      (held 5).src.inReset = true ∧ AtReset (held 5) ∧ AtReset (held 0) ∧
      (∀ k, Instr.frameStart ≠ .reset k) ∧ (∀ a b, Instr.frameStart ≠ .resetRelease a b) ∧
      ∀ a p, Instr.frameStart ≠ .tick a p :=
  ⟨nofun, nofun, nofun, rfl, held_atReset 5, held_atReset 0, nofun, nofun, nofun⟩

theorem test_witness_ReleaseStartsThePart :
    ((held 0).src.inReset = true ∧ (held 0).src.portHold = 0 ∧ (held 0).src.loadState = .loading) ∧
      ((held 1).src.inReset = true ∧ (held 1).src.portHold ≠ 0) ∧
      ((part .sync).src.inReset = false ∧ (part .sync).src.loadState ≠ .loading) := by decide

theorem test_witness_SupplyWarningIsSetAndCleared :
    (after .supplyWarningSet (part .sync)).src.inReset = false ∧
      (after .supplyWarningSet (part .sync)).src.supplyWarning = true := by decide +kernel

/-- The leave's beacon on the line, past its reference point. -/
def leaveBeacon : State :=
  { sending (.beacon (beaconEntry 0) (some beacon) true) true false [] none with
    src := { (part .sync).src with leaveTimer := some 100 } }

theorem test_witness_LeaveEndsWithAPortReset :
    ((leaving 0).src.inReset = false ∧ (leaving 0).src.leaveTimer = some 0) ∧ (leaving 1).src.leaveTimer ≠ some 0 ∧
      (part .sync).src.leaveTimer ≠ some 0 ∧
      (leaveBeacon.src.inReset = false ∧
        leaveBeacon.lif.onLine =
          some { frame := .beacon (beaconEntry 0) (some beacon) true, refLeft := true, purged := false } ∧
        leaveBeacon.src.leaveTimer.isSome = true) := by decide +kernel

/-- The part with clocks, a debt and a hold marker. -/
def clocked (t : Nat) (debt : Nat) (hold : Bool) : State :=
  { part .sync with
    tbu := { (part .sync).tbu with localClock := .ofNat 64 t, clusterTime := .ofNat 64 t, slewDebt := debt, hold := hold } }

theorem test_witness_TickRunsTheClocks :
    (∀ s ∈ [clocked (2 ^ 64 - 2) 0 false, clocked 0 1 false, clocked 0 65535 true],
      s.src.inReset = false ∧ s.tbu.localClock.toNat + 1 < 2 ^ 64 ∧ s.tbu.clusterTime.toNat + 1 < 2 ^ 64) ∧
      ((clocked 0 1 false).tbu.hold = false ∧ (clocked 0 1 false).tbu.slewDebt = 1 ∧
        (clocked 0 1 false).tbu.localClock.toNat + 2 * 1 < 2 ^ 64) := by decide +kernel

theorem test_witness_TickRunsTheTimers :
    (part .sync).src.inReset = false ∧ (part .sync).lif.onLine = none ∧ (part .sync).lif.idleTimer < 2710 ∧
      (queued [] none 2709).lif.idleTimer < 2710 ∧ 2710 ≤ (queued [] none 2710).lif.idleTimer ∧
      (queued [] none 2710).lif.onLine = none ∧ (leaveBeacon.lif.onLine.isSome = true) ∧
      (channels (.active 20 none 1 0) (.gap 20 40 0 1)).tlu.channels.get 0 = .active 20 none 1 0 ∧
      (channels (.active 20 none 1 0) (.gap 20 40 0 1)).tlu.channels.get 1 = .gap 20 40 0 1 ∧
      (channels .held .idle).tlu.channels.get 0 = .held ∧ (channels .held .idle).tlu.channels.get 1 = .idle := by
  decide +kernel

theorem test_witness_ImageByteGathersOrFails :
    ((loading 0).src.inReset = false ∧ (loading 0).src.loadState = .loading ∧
        judgeImage ((loading 0).src.image ++ [0x4A]) = .more) ∧
      judgeImage ((loading 1).src.image ++ [0x45]) = .fail (.noImage 0x4A45) ∧
      (part .sync).src.loadState ≠ .loading := by decide +kernel

/-- An image header with a block count and a length, and what follows it. -/
def headed (count : Nat) (length : Nat) (rest : List Byte) : List Byte :=
  [0x4A, 0x44, 0x32, 0x08, 0x03, byte count] ++ beBytes 2 length ++ rest

/-- The LOCAL block of the test image. -/
def localBlock : List Byte := (image.drop 30).take 7

theorem headed_passed (count length : Nat) (rest : List Byte) (h : 10 ≤ length ∧ length ≤ 4096) :
    HeaderPassed (headed count length rest) := by
  have e : field (headed count length rest) 6 2 = length := by
    simp [field, headed, beBytes, beNat]
    omega
  exact ⟨by simp [headed, beBytes], by simp [headed, field, beNat], by simp [headed, field, beNat],
    by rw [e]; exact h⟩

theorem test_witness_image_headers :
    (2 ≤ [(0x4A : Byte), 0x45].length ∧ field [0x4A, 0x45] 0 2 ≠ 0x4A44) ∧
      (4 ≤ (image.take 3 ++ [0x09]).length ∧ field (image.take 3 ++ [0x09]) 0 2 = 0x4A44 ∧
        field (image.take 3 ++ [0x09]) 2 2 ≠ 0x3208) ∧
      (∀ n ∈ [9, 4097], 8 ≤ (headed 5 n []).length ∧ field (headed 5 n []) 0 2 = 0x4A44 ∧
        field (headed 5 n []) 2 2 = 0x3208 ∧ (field (headed 5 n []) 6 2 < 10 ∨ 4096 < field (headed 5 n []) 6 2)) := by
  decide +kernel

theorem test_witness_image_first_block :
    (∀ n ∈ [10, 4096], HeaderPassed (headed 5 n [])) ∧ (∀ bytes, BlocksPassed bytes 1 8 []) ∧
      (8 + 3 ≤ (headed 1 14 [0x01, 0x00, 0x00]).length ∧ 1 ≤ field (headed 1 14 [0x01, 0x00, 0x00]) 5 1 ∧
        field (headed 1 14 [0x01, 0x00, 0x00]) 6 2 < 8 + 5 + field (headed 1 14 [0x01, 0x00, 0x00]) 9 2 + 2) ∧
      (field (headed 1 15 [0x01, 0x00, 0x00, 0x00, 0x00]) 11 2 ≠
        (crc16 (((headed 1 15 [0x01, 0x00, 0x00, 0x00, 0x00]).drop 8).take 3)).toNat) ∧
      (field (headed 1 15 [0x06, 0x00, 0x00, 0x7E, 0x3C]) 11 2 =
          (crc16 (((headed 1 15 [0x06, 0x00, 0x00, 0x7E, 0x3C]).drop 8).take 3)).toNat ∧
        5 < field (headed 1 15 [0x06, 0x00, 0x00, 0x7E, 0x3C]) 8 1 ∧
        8 + 5 + 0 ≤ (headed 1 15 [0x06, 0x00, 0x00, 0x7E, 0x3C]).length ∧
        8 + 5 + 0 + 2 ≤ field (headed 1 15 [0x06, 0x00, 0x00, 0x7E, 0x3C]) 6 2) := by
  refine ⟨fun n hn => headed_passed _ _ _ (by simp at hn; omega), fun bytes => .none, ?_⟩
  decide +kernel

theorem test_witness_image_second_block :
    HeaderPassed (headed 2 24 (localBlock ++ localBlock)) ∧
      BlocksPassed (headed 2 24 (localBlock ++ localBlock)) 2 15 [{ type := 2, payload := [0x0F, 0x01] }] ∧
      field (headed 2 24 (localBlock ++ localBlock)) 15 1 = 2 ∧
      field (headed 2 24 (localBlock ++ localBlock)) 20 2 =
        (crc16 (((headed 2 24 (localBlock ++ localBlock)).drop 15).take 5)).toNat ∧
      15 + 5 + 2 ≤ (headed 2 24 (localBlock ++ localBlock)).length ∧
      2 ≤ field (headed 2 24 (localBlock ++ localBlock)) 5 1 := by
  refine ⟨headed_passed _ _ _ (by decide), ?_, by decide +kernel⟩
  have h := BlocksPassed.block (bytes := headed 2 24 (localBlock ++ localBlock)) 1 8 2 [] .none (by decide +kernel)
    (by decide +kernel) (by decide +kernel) (by decide +kernel) (by decide +kernel) (by decide +kernel)
    (by decide +kernel) (by simp)
  have e : ((headed 2 24 (localBlock ++ localBlock)).drop (8 + 3)).take 2 = [0x0F, 0x01] ∧
      field (headed 2 24 (localBlock ++ localBlock)) 8 1 = 2 := by decide +kernel
  rw [e.1, e.2] at h
  exact h

theorem test_witness_image_ends :
    (∀ bytes, field bytes 5 1 = 0 → BlocksPassed bytes (field bytes 5 1 + 1) 8 []) ∧
      (HeaderPassed (headed 0 11 []) ∧ field (headed 0 11 []) 5 1 = 0 ∧ 8 + 2 ≠ field (headed 0 11 []) 6 2) ∧
      (HeaderPassed (headed 0 10 [0, 0]) ∧ field (headed 0 10 [0, 0]) 5 1 = 0 ∧
        (headed 0 10 [0, 0]).length = field (headed 0 10 [0, 0]) 6 2 ∧
        field (headed 0 10 [0, 0]) 8 2 ≠ (crc16 ((headed 0 10 [0, 0]).take 8)).toNat) ∧
      (HeaderPassed (headed 0 10 [0xD6, 0xCF]) ∧ field (headed 0 10 [0xD6, 0xCF]) 5 1 = 0 ∧
        field (headed 0 10 [0xD6, 0xCF]) 8 2 = (crc16 ((headed 0 10 [0xD6, 0xCF]).take 8)).toNat) := by
  refine ⟨fun bytes h => h ▸ .none, ⟨headed_passed _ _ _ (by decide), by decide +kernel⟩,
    ⟨headed_passed _ _ _ (by decide), by decide +kernel⟩, headed_passed _ _ _ (by decide), by decide +kernel⟩

theorem loading_coherent : Coherent (loading 158) := by
  constructor <;>
    simp [loading, State.reset, Src.reset, Syc.reset, Tbu.reset, Scu.reset, Lif.reset, SyncState.active,
      SyncState.reported]

theorem loading_self : SelfStands (loading 158) := by
  constructor <;> simp [loading, State.reset, Mbu.reset]

theorem test_witness_LastImageByteMakesReady :
    (loading 158).src.inReset = false ∧ (loading 158).src.loadState = .loading ∧
      judgeImage ((loading 158).src.image ++ [0x8B]) = .ok imageConfig ∧ Coherent (loading 158) ∧
      SelfStands (loading 158) ∧ imageConfig.lines.get 2 = .input edgeInput ∧
      imageConfig.lines.get 0 = .output true .keep ∧ (loading 158).tlu.channels.get 0 = .idle :=
  ⟨rfl, rfl, test_last_byte_is_good, loading_coherent, loading_self, rfl, rfl, rfl⟩

def clusterPayload : List Byte := (image.drop 11).take 17
def localPayload : List Byte := (image.drop 33).take 2
def linesPayload : List Byte := (image.drop 40).take 72
def partitionsPayload : List Byte := (image.drop 117).take 4
def actionsPayload : List Byte := (image.drop 126).take 29

theorem test_witness_AcceptedImageIsInRange :
    judgeImage image = .ok imageConfig ∧ imageConfig.lines.get 2 = .input edgeInput ∧
      imageConfig.amp.get 5 = some mapEntry ∧ mapEntry.action = .train 20 60 3 ∧ mapEntry.derive = some (12, 500) :=
  ⟨test_image_is_good, rfl, rfl, rfl, rfl⟩

theorem test_image_fields :
    LineFields ((linesPayload.drop 18).take 9) (.input edgeInput) ∧
      LineFields (linesPayload.take 9) (.output true .keep) ∧ MapFields actionsPayload mapEntry ∧
      actionsPayload.length / 29 = 1 ∧ field actionsPayload 0 1 = 5 := by
  refine ⟨⟨by decide, fun _ => ⟨edgeInput, rfl, by decide, by decide, by decide, by decide, fun _ => ⟨9, rfl, by decide⟩,
    by decide⟩, by decide⟩, ⟨by decide, fun h => absurd h (by decide), by decide⟩,
    ⟨by decide, by decide, by decide, by decide, by decide, by decide, by decide, by decide,
      by decide, fun _ => ⟨12, rfl, by decide⟩⟩, by decide, by decide⟩

/-- An image whose blocks have been read, and whose check agrees, has passed but for its values. -/
theorem imagePassed_of (bytes p1 p2 p3 p4 p5 : List Byte) (seen : List Block) (hh : HeaderPassed bytes)
    (hr : readBlocks (field bytes 6 2) (field bytes 5 1) 1 8 [] (bytes.drop 8) = .ok seen)
    (h1 : { type := 1, payload := p1 } ∈ seen ∧ { type := 2, payload := p2 } ∈ seen ∧
      { type := 3, payload := p3 } ∈ seen ∧ { type := 4, payload := p4 } ∈ seen ∧
      ({ type := 5, payload := p5 } ∈ seen ∨ (p5 = [] ∧ ∀ b ∈ seen, b.type ≠ 5)))
    (ha : bytes.length = field bytes 6 2)
    (hc : field bytes (bytes.length - 2) 2 = (crc16 (bytes.take (bytes.length - 2))).toNat) :
    ImagePassed bytes p1 p2 p3 p4 p5 := by
  obtain ⟨pos, hb, hp⟩ := readBlocks_ok bytes _ 1 8 [] seen .none (Nat.add_comm _ _) hr
  exact ⟨⟨pos, seen, ⟨hh, hb, hp⟩, h1⟩, ha, hc⟩

/-- The test image with another station number. -/
def stationImage (n : Nat) (check : List Byte) : List Byte := (image.set 4 (byte n)).take 157 ++ check

/-- The test image cut off behind its first bytes, with the blocks that follow there and its check. -/
def cutImage (count length keep : Nat) (rest : List Byte) : List Byte :=
  headed count length ((image.drop 8).take keep ++ rest)

/-- An image whose four blocks are empty. -/
def emptyCluster : List Byte :=
  cutImage 4 30 0
    ([0x01, 0x00, 0x00, 0xFB, 0xAC, 0x02, 0x00, 0x00, 0xA2, 0xFC, 0x03, 0x00, 0x00, 0x95, 0xCC, 0x04] ++
      [0x00, 0x00, 0x10, 0x5C, 0xDD, 0xC6])

/-- An image whose blocks are empty from LOCAL on. -/
def emptyLocal : List Byte :=
  cutImage 4 47 22
    ([0x02, 0x00, 0x00, 0xA2, 0xFC, 0x03, 0x00, 0x00, 0x95, 0xCC, 0x04, 0x00, 0x00, 0x10, 0x5C, 0xA2] ++
      [0xF0])

/-- An image whose blocks are empty from LINES on. -/
def emptyLines : List Byte :=
  cutImage 4 49 29
    ([0x03, 0x00, 0x00, 0x95, 0xCC, 0x04, 0x00, 0x00, 0x10, 0x5C, 0x58, 0xD2])

/-- An image whose blocks are empty from PARTITIONS on. -/
def emptyPartitions : List Byte :=
  cutImage 4 121 106
    ([0x04, 0x00, 0x00, 0x10, 0x5C, 0xE9, 0xE2])

/-- An image whose ACTIONS block has one byte. -/
def shortActions : List Byte :=
  cutImage 5 131 115
    ([0x05, 0x00, 0x01, 0x00, 0x0B, 0xB4, 0x2C, 0x8C])

theorem image_headed : image = headed 5 159 (image.drop 8) := by decide +kernel

set_option maxRecDepth 20000 in
theorem test_image_passed :
    ImagePassed image clusterPayload localPayload linesPayload partitionsPayload actionsPayload :=
  imagePassed_of _ _ _ _ _ _ blocks (image_headed ▸ headed_passed _ _ _ (by decide)) test_image_blocks
    (by decide +kernel) (by decide +kernel) (by decide +kernel)

theorem test_image_all_pass :
    AllPass (clusterChecks clusterPayload) ∧ AllPass (localChecks localPayload) ∧ AllPass (lineChecks linesPayload) ∧
      AllPass (partitionChecks partitionsPayload) ∧
      AllPass (actionChecks linesPayload partitionsPayload actionsPayload) ∧ field image 4 1 ≤ 31 := by
  unfold AllPass
  decide +kernel

set_option maxRecDepth 20000 in
theorem test_witness_station_out_of_range :
    HeaderPassed (stationImage 32 [0xBA, 0xCD]) ∧
    ImagePassed (stationImage 32 [0xBA, 0xCD]) clusterPayload localPayload linesPayload partitionsPayload actionsPayload ∧
      31 < field (stationImage 32 [0xBA, 0xCD]) 4 1 := by
  have hh : HeaderPassed (stationImage 32 [0xBA, 0xCD]) := by
    constructor <;> decide +kernel
  exact ⟨hh, imagePassed_of _ _ _ _ _ _ blocks hh (by decide +kernel) (by decide +kernel) (by decide +kernel)
    (by decide +kernel), by decide +kernel⟩

set_option maxRecDepth 20000 in
theorem test_witness_emptyCluster : ImagePassed emptyCluster [] [] [] [] [] ∧
    field emptyCluster 4 1 ≤ 31 ∧ FirstFails (clusterChecks []) 0 :=
  ⟨imagePassed_of _ _ _ _ _ _
      [{ type := 1, payload := [] }, { type := 2, payload := [] },
        { type := 3, payload := [] }, { type := 4, payload := [] }]
      (headed_passed _ _ _ (by decide)) (by decide +kernel) (by decide +kernel) (by decide +kernel) (by decide +kernel),
    by decide +kernel, by decide +kernel, nofun⟩

set_option maxRecDepth 20000 in
theorem test_witness_emptyLocal : ImagePassed emptyLocal clusterPayload [] [] [] [] ∧
    field emptyLocal 4 1 ≤ 31 ∧ FirstFails (localChecks []) 0 :=
  ⟨imagePassed_of _ _ _ _ _ _
      [{ type := 1, payload := clusterPayload }, { type := 2, payload := [] },
        { type := 3, payload := [] }, { type := 4, payload := [] }]
      (headed_passed _ _ _ (by decide)) (by decide +kernel) (by decide +kernel) (by decide +kernel) (by decide +kernel),
    by decide +kernel, by decide +kernel, nofun⟩

set_option maxRecDepth 20000 in
theorem test_witness_emptyLines : ImagePassed emptyLines clusterPayload localPayload [] [] [] ∧
    field emptyLines 4 1 ≤ 31 ∧ FirstFails (lineChecks []) 0 :=
  ⟨imagePassed_of _ _ _ _ _ _
      [{ type := 1, payload := clusterPayload }, { type := 2, payload := localPayload },
        { type := 3, payload := [] }, { type := 4, payload := [] }]
      (headed_passed _ _ _ (by decide)) (by decide +kernel) (by decide +kernel) (by decide +kernel) (by decide +kernel),
    by decide +kernel, by decide +kernel, nofun⟩

set_option maxRecDepth 20000 in
theorem test_witness_emptyPartitions : ImagePassed emptyPartitions clusterPayload localPayload linesPayload [] [] ∧
    field emptyPartitions 4 1 ≤ 31 ∧ FirstFails (partitionChecks []) 0 :=
  ⟨imagePassed_of _ _ _ _ _ _
      [{ type := 1, payload := clusterPayload }, { type := 2, payload := localPayload },
        { type := 3, payload := linesPayload }, { type := 4, payload := [] }]
      (headed_passed _ _ _ (by decide)) (by decide +kernel) (by decide +kernel) (by decide +kernel) (by decide +kernel),
    by decide +kernel, by decide +kernel, nofun⟩

set_option maxRecDepth 20000 in
theorem test_witness_shortActions : ImagePassed shortActions clusterPayload localPayload linesPayload partitionsPayload [0x00] ∧
    field shortActions 4 1 ≤ 31 ∧ FirstFails (actionChecks linesPayload partitionsPayload [0x00]) 0 :=
  ⟨imagePassed_of _ _ _ _ _ _
      [{ type := 1, payload := clusterPayload }, { type := 2, payload := localPayload },
        { type := 3, payload := linesPayload }, { type := 4, payload := partitionsPayload },
        { type := 5, payload := [0x00] }]
      (headed_passed _ _ _ (by decide)) (by decide +kernel) (by decide +kernel) (by decide +kernel) (by decide +kernel),
    by decide +kernel, by decide +kernel, nofun⟩

theorem test_witness_ListenTimeoutFounds :
    (part .listen).src.inReset = false ∧ (part .listen).cfg = some cfg ∧ (part .listen).syc.state = .listen ∧
      (part .listen).syc.listenTimer = some 0 ∧ 0 < cfg.cluster.bper ∧
      (part .listen).tbu.localClock.toNat + cfg.cluster.bper < 2 ^ 64 := by decide +kernel

theorem test_witness_CorrectionIsTheTrimmedMean :
    (1 ≤ [(5 : Int)].length ∧ [(5 : Int), 6, 7].length ≤ 3) ∧
      (2 ≤ [(4 : Int), 4].length ∧ [(100 : Int), 4, 0, 4].Perm (0 :: 100 :: [4, 4]) ∧
        (∀ x ∈ [(4 : Int), 4], 0 ≤ x ∧ x ≤ 100) ∧ (0 : Int) ≤ 100) ∧
      trimmedMean (correctionSet (part .founding)) = none ∧ trimmedMean (correctionSet (part .sync)) = some 3 := by
  decide +kernel

theorem test_witness_correction_states :
    (∀ y, (part y).syc.state = y) ∧ correctionOutcome cfg (part .off) = .none ∧
      correctionSet (part .tentative) = [6] ∧ correctionSet (part .sync) = [0, 6] ∧ correctionSet (part .clash) = [] :=
  ⟨fun _ => rfl, by decide +kernel⟩

/-! ### Correction events -/

theorem atEvent_of (s : State) (h1 : s.src.inReset = false) (h2 : s.cfg = some cfg)
    (h3 : s.tbu.nextBoundary = some s.tbu.clusterTime) : AtEvent cfg s := ⟨h1, h2, h3⟩

theorem test_witness_EventAgesAndCounts :
    AtEvent cfg (partWith .sync [(8, { peer .heard none with missed := 1 }), (9, peer .member none)]) ∧
      AtEvent cfg (part .tentative) ∧ (part .sync).syc.state.synced = true ∧ (part .tentative).syc.state.synced = false ∧
      ((part .sync).mbu.peers.get 3).kind = .self ∧ ((part .sync).mbu.peers.get 4).kind = .absent ∧
      ((part .sync).mbu.peers.get 7).heard = true ∧
      (peer .heard none).heard = false ∧ { peer .heard none with missed := 1 }.missed + 1 = cfg.cluster.missLimit ∧
      (peer .member none).missed + 1 ≠ cfg.cluster.missLimit :=
  ⟨⟨rfl, rfl, rfl⟩, ⟨rfl, rfl, rfl⟩, rfl, rfl, rfl, rfl, rfl, rfl, rfl, by decide⟩

/-- Station 7 alone does not agree where it was not heard. -/
def alone (y : SyncState) : State := partWith y [(7, peer .member none)]

/-- Station 7 was heard `x` ahead. -/
def ahead (y : SyncState) (x : Int) : State := partWith y [(7, peer .member (some x))]

/-- In TENTATIVE, station 7 reports with the foreign mark clear but departed: it corrects and does not agree. -/
def departed (y : SyncState) (x : Int) : State := partWith y [(7, peer .departed (some x))]

theorem test_witness_EventInFounding :
    AtEvent cfg (part .founding) ∧ cfg.cluster.quorum ≤ agreementCount cfg (part .founding) ∧
      AtEvent cfg (alone .founding) ∧ agreementCount cfg (alone .founding) < cfg.cluster.quorum :=
  ⟨⟨rfl, rfl, rfl⟩, by decide +kernel, ⟨rfl, rfl, rfl⟩, by decide +kernel⟩

theorem tentative_coherent (peers : List (Station × Peer)) (n : Nat) :
    Coherent (counted (partWith .tentative peers) n) := by
  constructor <;>
    simp [counted, partWith, part, State.reset, Src.reset, Syc.reset, Tbu.reset, Scu.reset, Lif.reset, SyncState.active,
      SyncState.reported, SyncState.synced]

theorem test_witness_EventInTentative :
    (∀ n, Coherent (counted (ahead .tentative 6) n)) ∧ AtEvent cfg (counted (ahead .tentative 6) 1) ∧
      correctionOutcome cfg (counted (alone .tentative) 1) = .none ∧
      correctionOutcome cfg (counted (ahead .tentative 101) 1) = .exceeded 101 ∧
      correctionOutcome cfg (counted (ahead .tentative (-100)) 1) = .applied (-100) ∧
      cfg.cluster.quorum ≤ agreementCount cfg (counted (ahead .tentative 6) 1) ∧
      (counted (ahead .tentative 6) 1).syc.goodRounds + 1 = cfg.cluster.tentRounds ∧
      (counted (ahead .tentative 6) 0).syc.goodRounds + 1 ≠ cfg.cluster.tentRounds ∧
      correctionOutcome cfg (departed .tentative 6) = .applied 6 ∧
      agreementCount cfg (departed .tentative 6) < cfg.cluster.quorum := by
  refine ⟨fun n => tentative_coherent _ n, ⟨rfl, rfl, rfl⟩, ?_⟩
  decide +kernel

theorem test_witness_EventInSync :
    AtEvent cfg (counted (ahead .sync 20) 1) ∧ AtEvent cfg (ahead .sync 202) ∧ AtEvent cfg (alone .sync) ∧
      correctionOutcome cfg (ahead .sync 202) = .exceeded 101 ∧ correctionOutcome cfg (alone .sync) = .applied 0 ∧
      agreementCount cfg (alone .sync) < cfg.cluster.quorum ∧
      correctionOutcome cfg (counted (ahead .sync 20) 1) = .applied 10 ∧
      cfg.cluster.quorum ≤ agreementCount cfg (counted (ahead .sync 20) 1) ∧
      (counted (ahead .sync 20) 1).syc.stableRounds + 1 = cfg.cluster.stabRounds ∧
      (counted (ahead .sync 20) 0).syc.stableRounds + 1 ≠ cfg.cluster.stabRounds ∧
      correctionOutcome cfg (ahead .sync (-22)) = .applied (-11) := by
  refine ⟨⟨rfl, rfl, rfl⟩, ⟨rfl, rfl, rfl⟩, ⟨rfl, rfl, rfl⟩, ?_⟩
  decide +kernel

theorem test_witness_EventInStable :
    AtEvent cfg (ahead .stable 22) ∧ correctionOutcome cfg (ahead .stable 22) = .applied 11 ∧
      cfg.cluster.quorum ≤ agreementCount cfg (ahead .stable 22) ∧
      correctionOutcome cfg (ahead .stable 20) = .applied 10 ∧
      correctionOutcome cfg (ahead .stable (-202)) = .exceeded (-101) ∧
      correctionOutcome cfg (alone .stable) = .applied 0 ∧
      agreementCount cfg (alone .stable) < cfg.cluster.quorum := by
  refine ⟨⟨rfl, rfl, rfl⟩, ?_⟩
  decide +kernel

theorem test_witness_EventInHoldover :
    AtEvent cfg (counted (alone .holdover) 1) ∧ correctionOutcome cfg (counted (alone .holdover) 1) = .applied 0 ∧
      agreementCount cfg (counted (alone .holdover) 1) < cfg.cluster.quorum ∧
      (counted (alone .holdover) 1).syc.holdoverRounds + 1 = cfg.cluster.holdRounds ∧
      (counted (alone .holdover) 0).syc.holdoverRounds + 1 ≠ cfg.cluster.holdRounds ∧
      correctionOutcome cfg (ahead .holdover 6) = .applied 3 ∧
      cfg.cluster.quorum ≤ agreementCount cfg (ahead .holdover 6) ∧
      correctionOutcome cfg (ahead .holdover 202) = .exceeded 101 := by
  refine ⟨⟨rfl, rfl, rfl⟩, ?_⟩
  decide +kernel

theorem test_witness_CorrectionIsApplied :
    AtEvent cfg (ahead .sync 200) ∧ (ahead .sync 200).tbu.clusterTime.toNat + cfg.cluster.maxCorr < 2 ^ 64 ∧
      cfg.cluster.maxCorr ≤ (ahead .sync 200).tbu.clusterTime.toNat ∧
      correctionOutcome cfg (ahead .sync 200) = .applied 100 ∧
      correctionOutcome cfg (ahead .sync (-200)) = .applied (-100) ∧
      correctionOutcome cfg (ahead .tentative (-100)) = .applied (-100) ∧
      correctionOutcome cfg (alone .sync) = .applied 0 ∧ correctionOutcome cfg (ahead .sync 202) = .exceeded 101 ∧
      correctionOutcome cfg (part .founding) = .none ∧
      (hearing .sync false 0).lif.receiver = .receiving 200400 199900 false ∧
      (after .correctionEvent (ahead .sync 200)).syc.state ≠ .listen ∧
      (ahead .sync 200).tbu.clusterTime.toNat + cfg.cluster.bper < 2 ^ 64 ∧
      (after .correctionEvent (ahead .sync 202)).syc.state = .listen := by
  refine ⟨⟨rfl, rfl, rfl⟩, ?_⟩
  decide +kernel

theorem test_witness_SyncLossStandsDown :
    (AtEvent cfg (ahead .sync 202) ∧ (ahead .sync 202).syc.state.synced = true ∧
        (correctionOutcome cfg (ahead .sync 202)).forward = false ∧
        correctionOutcome cfg (ahead .sync 202) = .exceeded 101) ∧
      (AtEvent cfg (counted (alone .holdover) 1) ∧ (counted (alone .holdover) 1).syc.state = .holdover ∧
        (correctionOutcome cfg (counted (alone .holdover) 1)).forward = false ∧
        agreementCount cfg (counted (alone .holdover) 1) < cfg.cluster.quorum ∧
        (counted (alone .holdover) 1).syc.holdoverRounds + 1 = cfg.cluster.holdRounds) := by
  refine ⟨⟨⟨rfl, rfl, rfl⟩, ?_⟩, ⟨rfl, rfl, rfl⟩, ?_⟩ <;> decide +kernel

/-- Two entries that the event meets, the first due at the boundary, the second passed over by a step of 3 or more. -/
def meeting (s : State) : State := { s with scu := scheduled.scu }

/-- The part in HOLDOVER at its last round, where station 7 is `x` ahead and beyond MAXCORR, so that it does not agree. -/
def expiring (x : Int) : State := meeting (counted (ahead .holdover x) 1)

theorem test_witness_expiry_with_a_step :
    AtEvent cfg (expiring 150) ∧ correctionOutcome cfg (expiring 150) = .applied 75 ∧
      (correctionOutcome cfg (expiring 150)).forward = true ∧
      Expires cfg (agreementCount cfg (expiring 150)) (expiring 150).syc ∧
      correctionOutcome cfg (expiring (-150)) = .applied (-75) ∧
      Expires cfg (agreementCount cfg (expiring (-150))) (expiring (-150)).syc ∧
      (∀ x, correctionOutcome cfg (expiring 150) ≠ .exceeded x) := by
  have h : ∀ z ∈ [(150 : Int), -150], agreementCount cfg (expiring z) = 1 := by decide +kernel
  have e : correctionOutcome cfg (expiring 150) = .applied 75 := by decide +kernel
  refine ⟨⟨rfl, rfl, rfl⟩, e, by decide +kernel, ⟨rfl, ?_, rfl⟩, by decide +kernel, ⟨rfl, ?_, rfl⟩, fun x hx => ?_⟩
  · rw [h 150 (by simp)]; decide
  · rw [h (-150) (by simp)]; decide
  · rw [e] at hx; cases hx

theorem test_witness_BeaconDuePlacesABeacon :
    (part .sync).src.inReset = false ∧ (part .sync).cfg = some cfg ∧
      (part .sync).syc.nextBeaconDue = some 209375 ∧ (part .sync).tbu.clusterTime.toNat < (209375 : Time).toNat ∧
      ((209375 : Time).toNat ≤
          ({ part .sync with tbu := { (part .sync).tbu with clusterTime := 209375 } } : State).tbu.clusterTime.toNat ∧
        (209375 : Time).toNat + cfg.cluster.bper < 2 ^ 64) := by decide +kernel

theorem test_witness_ClusterTimeNeverFallsInSync :
    ∃ t, step { part .sync with pending := [.supplyWarningSet] } = .next t ∧ t.syc.state.synced = true ∧
      (part .sync).cfg = some cfg ∧ (part .sync).tbu.clusterTime.toNat + cfg.cluster.maxCorr + 1 < 2 ^ 64 ∧
      (part .sync).syc.state.synced = true :=
  ⟨_, rfl, rfl, rfl, by decide +kernel, rfl⟩

/-! ### The line -/

theorem test_witness_FrameStartSendsTheOfferedFrame :
    (∀ s ∈ [queued [trigEntry 0] none 80, queued [trigEntry 0] none 79, queued [] (some (beaconEntry 0)) 160,
        queued [] (some (beaconEntry 0)) 159, part .sync],
      s.src.inReset = false ∧ s.cfg = some cfg ∧ s.src.loadState = .ready ∧ s.syc.state.active = true ∧
        s.lif.onLine = none) ∧
      (queued [trigEntry 0] none 80).lif.queue = [trigEntry 0] ∧
      (queued [] (some (beaconEntry 0)) 160).lif.slot = some (beaconEntry 0) ∧ (part .sync).lif.slot = none ∧
      (loading 0).src.loadState ≠ .ready ∧ (part .listen).syc.state.active = false ∧ leaveBeacon.lif.onLine ≠ none := by
  decide +kernel

theorem test_witness_ReferencePointFillsTheBeacon :
    ((sending (.beacon (beaconEntry 0) none false) false false [] none).src.inReset = false ∧
        (sending (.beacon (beaconEntry 0) none false) false false [] none).lif.onLine =
          some { frame := .beacon (beaconEntry 0) none false, refLeft := false, purged := false } ∧
        (part .sync).syc.state.reported = some .sync) ∧
      ((part .listen).syc.state.reported = none ∧
        ({ (part .listen).syc with lastSynchronizing := some .sync } : Syc).lastSynchronizing = some .sync) ∧
      (sending (.trigger plain 1) false false [trigEntry 0] none).lif.receiver = .ready ∧
      (hearing .sync false 0).lif.receiver ≠ .ready := by decide +kernel

theorem test_witness_CollisionBacksOffOrAbandons :
    (sending (.trigger plain 1) true false [trigEntry 6] none).lif.onLine =
        some { frame := .trigger plain 1, refLeft := true, purged := false } ∧
      (sending (.trigger plain 1) true true [] none).lif.onLine =
        some { frame := .trigger plain 1, refLeft := true, purged := true } ∧
      (sending (.trigger plain 1) true false [trigEntry 6] none).lif.queue = [trigEntry 6] ∧
      (trigEntry 6).attempts + 1 < 8 ∧ 8 ≤ (trigEntry 7).attempts + 1 ∧
      (sending (.beacon (beaconEntry 6) none false) false false [] none).lif.slot = none ∧
      (sending (.beacon (beaconEntry 6) none false) false false [] (some (beaconEntry 0))).lif.slot =
        some (beaconEntry 0) ∧
      (beaconEntry 6).attempts + 1 < 8 ∧ 8 ≤ (beaconEntry 7).attempts + 1 := by decide +kernel

theorem test_witness_FrameCompleteCounts :
    (sending (.trigger plain 1) true false [trigEntry 0] none).src.inReset = false ∧
      (sending (.trigger plain 1) true false [trigEntry 0] none).lif.onLine =
        some { frame := .trigger plain 1, refLeft := true, purged := false } ∧
      (sending (.trigger plain 1) true false [trigEntry 0] none).lif.queue = [trigEntry 0] ∧
      (sending (.beacon (beaconEntry 0) (some beacon) false) true false [] none).lif.onLine =
        some { frame := .beacon (beaconEntry 0) (some beacon) false, refLeft := true, purged := false } ∧
      (hearing .sync false 0).lif.receiver = .receiving 200400 199900 false := by decide +kernel

theorem test_witness_own_reception :
    (∀ l k own, (part .sync).lif.receiver = .receiving l k own → Receiver.ready = .receiving l k true) ∧
      (∀ l k own, (part .sync).lif.receiver ≠ .receiving l k own) ∧ (part .sync).lif.receiver = .ready ∧
      (∀ l k own, (hearing .sync false 0).lif.receiver = .receiving l k own →
        Receiver.receiving 200400 199900 true = .receiving l k true) := by
  refine ⟨nofun, nofun, rfl, fun l k own h => ?_⟩
  cases h
  rfl

theorem test_witness_ReceptionOpensAndEnds :
    (part .sync).src.inReset = false ∧ (part .sync).lif.receiver = .ready ∧
      (hearing .sync true 20).lif.receiver = .receiving 200400 199900 true ∧ 20 ≤ (hearing .sync true 20).lif.idleTimer ∧
      (hearing .sync false 20).lif.receiver = .receiving 200400 199900 false ∧ judgeFrame [] = none ∧
      (hearing .sync false 19).lif.idleTimer < 20 := by decide +kernel

theorem test_witness_FramesSurviveTheLine :
    (child.root.isSome = true ↔ child.depth ≠ 0) ∧ (plain.root.isSome = true ↔ plain.depth ≠ 0) ∧
      startSymbols.length = 16 ∧ openingCommand startSymbols = .startMarkReceived ∧
      openingCommand (startSymbols.set 0 .recessive) = .notAFrame ∧
      lineSymbol [.recessive, .dominant] = some .dominant ∧ lineSymbol [.recessive, .recessive] = some .recessive ∧
      readBack .recessive (some .dominant) = some .collision ∧ readBack .dominant (some .dominant) = none := by decide

theorem test_witness_bodies :
    [true].length % 8 ≠ 0 ∧ ([] : List Bool).length % 8 = 0 ∧
      judgeFrame (bytesToBits (beaconBody beacon)) = some (.beacon beacon) ∧
      judgeFrame (bytesToBits (triggerBody plain 1)) = some (.trigger plain 1) ∧
      judgeFrame (bytesToBits (triggerBody child 3)) = some (.trigger child 3) := by decide +kernel

/-- A body of this front with its check behind it is bad. -/
def badFront (front : List Byte) : Bool := judgeFrame (bytesToBits (checked front)) == none

/-- Each case of R75 at its boundary: kinds 0 and 3, lengths 30 and 32, a changed check, station 32, codes 0 and 6, class
64, copy 0, a root bit against the depth, root origin 32. The last line is good. -/
theorem test_witness_cases_of_a_bad_body :
    badFront ((beaconLayout beacon).set 0 0x00) ∧ badFront ((beaconLayout beacon).set 0 0x03) ∧
      badFront (beaconLayout beacon).dropLast ∧ badFront (beaconLayout beacon ++ [0x00]) ∧
      judgeFrame (bytesToBits (beaconLayout beacon ++ [0x00, 0x00, 0x00, 0x00])) = none ∧
      badFront ((beaconLayout beacon).set 1 0x20) ∧ badFront ((beaconLayout beacon).set 2 0x00) ∧
      badFront ((beaconLayout beacon).set 2 0x06) ∧ badFront ((triggerLayout plain 1).set 1 0x20) ∧
      badFront ((triggerLayout plain 1).set 3 0x40) ∧ badFront (triggerLayout plain 0) ∧
      badFront ((triggerLayout plain 1).set 2 0x41) ∧ badFront ((triggerLayout plain 1).set 2 0x50) ∧
      badFront ((triggerLayout child 1).set 14 0x20) ∧
      (!badFront ((beaconLayout beacon).set 2 0x7D) && !badFront ((triggerLayout plain 1).set 2 0x4E)) := by
  decide +kernel

theorem test_start_mark_is_0x1E5B : startMark = bytesToBits [0x1E, 0x5B] ∧
    (LineFrame.trigger plain 1).symbols = (bytesToBits ([0x1E, 0x5B] ++ plainBytes)).map symbolOf := by decide +kernel

/-- A reception of the test beacon, ended. -/
theorem hearing_beacon (y : SyncState) :
    (hearing y false 20).src.inReset = false ∧ (hearing y false 20).cfg = some cfg ∧
      (hearing y false 20).lif.receiver = .receiving 200400 199900 false ∧ 20 ≤ (hearing y false 20).lif.idleTimer ∧
      judgeFrame (bytesToBits beaconBytes) = some (.beacon beacon) ∧
      judgeFrame (bytesToBits plainBytes) = some (.trigger plain 1) :=
  ⟨rfl, rfl, rfl, Nat.le_refl 20, test_frame_judged.1, test_frame_judged.2.2.1⟩

theorem test_witness_BeaconUpdatesItsRecord :
    beacon.station ≠ cfg.station ∧ (hearing .tentative false 20).syc.state = .tentative ∧
      (hearing .clash false 20).syc.state = .clash ∧ (hearing .sync false 20).syc.state.synced = true ∧
      (((hearing .sync false 20).mbu.peers.get 7).kind ≠ .absent ∧
        ((hearing .sync false 20).mbu.peers.get 7).uniqueId = some beacon.uniqueId ∧
        ((hearing .sync false 20).mbu.peers.get 7).expected = some 10) ∧
      (beacon.nextSequence - (10 : Sequence)).toNat ≤ 1023 ∧ 1024 ≤ (beacon.nextSequence - (11 : Sequence)).toNat ∧
      ((hearing .sync false 20).mbu.peers.get 8).kind = .absent ∧
      ((hearing .sync false 20).mbu.peers.get 8).expected = none ∧
      (((hearing .sync false 20).mbu.peers.get 7).kind ≠ .absent ∧
        ((hearing .sync false 20).mbu.peers.get 7).uniqueId ≠ some { beacon with uniqueId := 0xB8 }.uniqueId) := by
  decide +kernel

/-- Beacons that neither LISTEN nor FOUNDING of station 3 adopts. -/
def turnedAway : List Beacon :=
  [{ beacon with signature := 0x7434 }, { beacon with reported := .tentative }, { beacon with reported := .founding }]

theorem test_witness_beacon_not_adopted :
    (∀ b ∈ turnedAway, judgeFrame (bytesToBits (beaconBody b)) = some (.beacon b) ∧ b.station ≠ cfg.station) ∧
      (hearing .listen false 20).syc.state = .listen ∧ (hearing .founding false 20).syc.state = .founding ∧
      { beacon with signature := 0x7434 }.signature ≠ cfg.signature ∧
      { beacon with reported := .tentative }.reported = .tentative ∧
      ({ beacon with reported := .founding }.reported = .founding ∧ cfg.station.val < beacon.station.val) ∧
      (hearing .listen false 20).basis = .localBasis ∧ (hearing .founding false 20).basis ≠ .localBasis := by
  decide +kernel

theorem test_beacon_flags :
    (after (.frameEnd (bytesToBits (beaconBody { beacon with signature := 0x7434 })))
      (hearing .listen false 20)).rdp.flags.foreign = some 7 ∧
      (after (.frameEnd (bytesToBits beaconBytes)) (hearing .sync false 20)).rdp.flags.disagree = some (7, 105) := by
  decide +kernel

theorem test_witness_AdoptionTakesTheBeaconsTime :
    beacon.station ≠ cfg.station ∧ beacon.signature = cfg.signature ∧ 0 < cfg.cluster.bper ∧
      (200400 : Time).toNat ≤ (hearing .listen false 20).tbu.localClock.toNat ∧
      beacon.sendStamp.toNat + cfg.cluster.lineDelay +
        ((hearing .listen false 20).tbu.localClock.toNat - (200400 : Time).toNat) + cfg.cluster.bper < 2 ^ 64 ∧
      ((hearing .listen false 20).syc.state = .listen ∧ beacon.reported ≠ .tentative) ∧
      ((hearing .founding false 20).syc.state = .founding ∧ beacon.reported.synced = true) ∧
      ({ beacon with station := 2, reported := .founding }.reported = .founding ∧
        { beacon with station := 2, reported := .founding }.station.val < cfg.station.val) := by decide +kernel

/-- The test beacon under the own number, with the own unique ID or another. -/
def ownBeacon (u : UniqueId) : Beacon := { beacon with station := 3, uniqueId := u }

theorem test_witness_OwnNumberBeaconClashes :
    judgeFrame (bytesToBits (beaconBody (ownBeacon 0xA1))) = some (.beacon (ownBeacon 0xA1)) ∧
      judgeFrame (bytesToBits (beaconBody (ownBeacon 0xB7))) = some (.beacon (ownBeacon 0xB7)) ∧
      (ownBeacon 0xB7).station = cfg.station ∧ (ownBeacon 0xA1).uniqueId = (part .sync).uniqueId ∧
      (ownBeacon 0xB7).uniqueId ≠ (part .sync).uniqueId ∧ (hearing .sync false 20).syc.state.synced = true ∧
      (hearing .listen false 20).syc.state = .listen ∧ (hearing .clash false 20).syc.state = .clash := by decide +kernel

/-- The part in TENTATIVE, with channels under way, a beacon in the slot, and a frame in reception. -/
def tentativeWith (a b : Channel) : State :=
  { hearing .tentative false 20 with
    tlu := { (part .tentative).tlu with channels := (channels a b).tlu.channels }
    lif := { (hearing .tentative false 20).lif with slot := some (beaconEntry 0) } }

theorem test_clash_stands_down :
    let t := after (.frameEnd (bytesToBits (beaconBody (ownBeacon 0xB7))))
      (tentativeWith (.active 20 (some 40) 5 2) (.gap 20 40 5 2))
    t.syc.state = .clash ∧ t.lif.slot = none ∧ t.lif.framesReceived = 1 ∧ t.lif.receiver = .ready ∧
      t.tlu.channels.get 0 = .active 20 (some 40) 5 0 ∧ t.tlu.channels.get 1 = .idle ∧
      t.syc.lastSynchronizing = some .tentative ∧
      t.jnl.records =
        [.state { time := 200500, basis := .localBasis, old := .tentative, new := .clash, reason := .clashDetected,
                  cancelled := some 0 }] := by decide +kernel

/-- A part that still loads, with a frame in reception. -/
def unready : State :=
  { loading 0 with lif := { (loading 0).lif with receiver := .receiving 400 300 false, idleTimer := 20 } }

theorem test_witness_frames_before_ready :
    unready.src.inReset = false ∧ unready.cfg = none ∧ unready.lif.receiver = .receiving 400 300 false ∧
      20 ≤ unready.lif.idleTimer ∧ (after (.frameEnd (bytesToBits plainBytes)) unready).lif.framesReceived = 1 := by
  decide +kernel

/-! ### Triggers -/

theorem test_witness_TriggerFrameIsTurnedAway :
    (hearing .off false 20).syc.state = .off ∧ { plain with origin := 3 }.origin = cfg.station ∧
      (hearing .listen false 20).syc.state.synced = false ∧ plain.origin ≠ cfg.station ∧
      ((hearing .sync false 20).mbu.peers.get 8).kind ≠ .member ∧
      ((hearing .sync false 20).mbu.peers.get plain.origin).kind = .member ∧
      (((hearing .sync false 20).mbu.peers.get plain.origin).checkTrigger 9).2 = false := by decide +kernel

theorem test_witness_SequenceWindowJudges :
    Peer.absentRecord.kind = .absent ∧ ({ peer .heard none with expected := none } : Peer).kind ≠ .absent ∧
      (peer .heard none).expected = some 10 ∧ ((11 : Sequence) - 10).toNat = 1 ∧ ((1033 : Sequence) - 10).toNat = 1023 ∧
      ((1034 : Sequence) - 10).toNat = 1024 ∧ ((9 : Sequence) - 10).toNat = 65535 := by decide

theorem test_witness_TriggerFrameIsAccepted :
    (hearing .sync false 20).syc.state.synced = true ∧ plain.origin ≠ cfg.station ∧
      ((hearing .sync false 20).mbu.peers.get plain.origin).kind = .member ∧
      (((hearing .sync false 20).mbu.peers.get plain.origin).checkTrigger plain.sequence).2 = true ∧
      matching (hearing .sync false 20).amp { plain with cls := 8 } = [] := by decide +kernel

/-- A state whose one map entry, at index 5, derives nothing. -/
def underived (s : State) : State :=
  { s with amp := (Vector.replicate 64 none).set 5 (some { mapEntry with derive := none }) }

theorem underived_map (s : State) (i : MapIndex) (m : MapEntry) (h : (underived s).amp.get i = some m) :
    i = 5 ∧ m = { mapEntry with derive := none } := by
  have key : ∀ i : MapIndex,
      ((Vector.replicate 64 none).set 5 (some { mapEntry with derive := none }) : Vector (Option MapEntry) 64).get i =
        if i = 5 then some { mapEntry with derive := none } else none := by decide +kernel
  simp only [underived, key] at h
  split at h
  · exact ⟨‹i = 5›, (Option.some.inj h).symm⟩
  · cases h

theorem underived_noneDerives (s : State) (tr : Trigger) : NoneDerives (underived s) tr := fun i m h _ => by
  rw [(underived_map s i m h).2]

theorem test_witness_Processed :
    NoneDerives (underived (hearing .sync false 20)) plain ∧ NothingDue plain (underived (hearing .sync false 20)) ∧
      matching (underived (hearing .sync false 20)).amp plain = [(5, { mapEntry with derive := none })] ∧
      ((after (.frameEnd (bytesToBits plainBytes)) (underived (hearing .sync false 20))).scu.entries.map
        SchedEntry.due) = [201000] := by
  refine ⟨underived_noneDerives _ _, ⟨nofun, fun i m h ha hl => ?_⟩, by decide +kernel, by decide +kernel⟩
  rw [(underived_map _ i m h).2] at hl
  exact absurd hl (by decide)

theorem test_witness_InsertionIsJudged :
    (plain.stamp.toNat + { mapEntry with offset := 0 }.offset ≤ (part .sync).tbu.clusterTime.toNat) ∧
      ¬(plain.stamp.toNat + { mapEntry with offset := 1 }.offset ≤ (part .sync).tbu.clusterTime.toNat) ∧
      { mapEntry with late := .drop }.late = .drop ∧ mapEntry.late = .fire ∧
      (part .sync).scu.space.get mapEntry.part ≠ 0 ∧ scheduled.scu.space.get mapEntry.part = 0 := by decide +kernel

theorem test_witness_insertion_in_order : ScheduleOrdered scheduled ∧
    insertEntry (entry 5 200001 .set) scheduled.scu.entries =
      [entry 5 200000 (.pulse 20), entry 5 200001 .set, entry 6 200001 .set] := by
  refine ⟨by simp [ScheduleOrdered, scheduled, entry], by decide +kernel⟩

/-- A sum of exactly 2^64 - 1 is that due time; a greater one is held there, and marked (R120). -/
theorem test_due_time_at_the_top :
    ([0, 1].map fun o =>
      let e := schedEntryOf { plain with stamp := 0xFFFFFFFFFFFFFFFF } 5 { mapEntry with offset := o } false
      (e.due, e.capped)) = [(0xFFFFFFFFFFFFFFFF, false), (0xFFFFFFFFFFFFFFFF, true)] := by decide +kernel

theorem test_witness_DerivationRaisesOrStops :
    deriving? (matching (part .sync).amp plain) = some (12, 500) ∧ { child with depth := 3 }.depth = 3 ∧
      (1 : Fin 4).val = plain.depth.val + 1 ∧
      ((part .sync).src.leaveTimer = none ∧ (part .sync).syc.state.synced = true ∧ (part .sync).lif.queue.length < 8 ∧
        plain.stamp.toNat + 500 < 2 ^ 64) ∧
      (leaving 5).src.leaveTimer.isSome = true ∧ (part .tentative).syc.state.synced = false ∧
      8 ≤ (queued (List.replicate 8 (trigEntry 0)) none 0).lif.queue.length := by decide +kernel

theorem test_witness_which_derives :
    LowestDerives (part .sync) plain 12 500 ∧ NoneDerives (underived (part .sync)) plain := by
  refine ⟨⟨5, mapEntry, by decide +kernel, ⟨by decide, by decide +kernel⟩, rfl, fun j m hj hm _ => ?_⟩, underived_noneDerives _ _⟩
  have key : ∀ j : MapIndex, j < 5 → (part .sync).amp.get j = none := by decide +kernel
  rw [key j hj] at hm
  cases hm

/-- What a processing has queued: class, stamp and depth of each trigger. -/
def queuedTriggers (s : State) : List (TrigClass × Time × Fin 4) :=
  s.lif.queue.map fun e => (e.trigger.cls, e.trigger.stamp, e.trigger.depth)

/-- A raise of class 9 derives class 12, which no entry answers; a parent at depth 3 derives nothing. -/
theorem test_derivation :
    queuedTriggers (after (.raise 9) (part .sync)) = [(9, 200000, 0), (12, 200500, 1)] ∧
      (after (.raise 9) (part .sync)).tge.raised = 2 ∧ (after (.raise 9) (part .sync)).tge.ownSequence = 2 ∧
      (process cfg 4 { child with depth := 3 } (part .sync)).tge.chainLimit = 1 ∧
      (process cfg 4 plain (leaving 5)).tge.refused = 1 := by decide +kernel

/-- A derived stamp is never before its parent's, at the top of the range too (R104). -/
theorem test_derived_stamp_is_onward :
    (200000 : Time).toNat ≤ (timeOnward 200000 500).toNat ∧ timeOnward 200000 500 = 200500 ∧
      (18446744073709551615 : Time).toNat ≤ (timeOnward 18446744073709551615 500).toNat :=
  ⟨timeOnward_le _ _, by decide, timeOnward_le _ _⟩

theorem part_portReady (y : SyncState) : PortReady (part y) := ⟨rfl, rfl, rfl⟩

theorem test_witness_RaiseIsRefused :
    PortReady (leaving 5) ∧ (leaving 5).src.leaveTimer.isSome = true ∧ PortReady (part .founding) ∧
      (part .founding).src.leaveTimer = none ∧ (part .founding).syc.state.synced = false ∧
      PortReady (queued (List.replicate 8 (trigEntry 0)) none 0) ∧
      8 ≤ (queued (List.replicate 8 (trigEntry 0)) none 0).lif.queue.length ∧ (63 : Byte).toNat ≤ 63 :=
  ⟨⟨rfl, rfl, rfl⟩, rfl, part_portReady _, rfl, rfl, ⟨rfl, rfl, rfl⟩, by decide, by decide⟩

theorem test_witness_RaiseTakesASequence :
    PortReady (queued (List.replicate 7 (trigEntry 0)) none 0) ∧ (63 : Byte).toNat = (63 : TrigClass).val ∧
      (part .sync).cfg = some cfg ∧ (part .sync).src.leaveTimer = none ∧ (part .sync).syc.state.synced = true ∧
      (queued (List.replicate 7 (trigEntry 0)) none 0).lif.queue.length < 8 ∧
      matching (part .sync).amp
        { origin := 3, sequence := 0, cls := 63, stamp := 200000, depth := 0, root := none } = [] :=
  ⟨⟨rfl, rfl, rfl⟩, by decide, rfl, rfl, rfl, by decide, by decide +kernel⟩

theorem test_witness_raise_is_processed :
    NoneDerives (underived (part .sync))
        { origin := 3, sequence := 0, cls := 9, stamp := 200000, depth := 0, root := none } ∧
      (after (.raise 9) (underived (part .sync))).lif.queue.length = 1 ∧
      (after (.raise 9) (underived (part .sync))).scu.entries.length = 1 :=
  ⟨underived_noneDerives _ _, by decide +kernel⟩

/-! ### Inputs -/

theorem test_witness_CandidateIsTakenAndDiscarded :
    (part .sync).src.inReset = false ∧ (part .sync).tlu.lines.get 2 = .input edgeInput ∧
      (part .sync).tlu.lines.get 3 = .input plainInput ∧
      ((part .sync).tlu.inputs.get 2).settled = some false ∧ ((part .sync).tlu.inputs.get 2).candidate = none ∧
      (part .sync).tlu.pins.getLsbD (2 : LineNo) ≠ false ∧ ((part .sync).tlu.inputs.get 3).settled = some false ∧
      (part .sync).tlu.pins.getLsbD (3 : LineNo) = false := by decide +kernel

/-- A candidate on TL2, in SYNC, 4 ticks old. -/
def ripe : State := qualifying .sync 200496

theorem test_witness_EdgeIsCountedAndCaptured :
    (ripe.src.inReset = false ∧ ripe.cfg = some cfg) ∧
      (ripe.tlu.lines.get 3 = .input plainInput ∧ (ripe.tlu.inputs.get 3).settled = some (!false) ∧
        (ripe.tlu.inputs.get 3).candidate = some { localClock := 200496, stamp := 199990, basis := .cluster } ∧
        ripe.tlu.pins.getLsbD (3 : LineNo) = false ∧ plainInput.select = .rising ∧
        plainInput.qualification ≤ ripe.tbu.localClock.toNat - (200496 : Time).toNat) ∧
      (ripe.tlu.lines.get 2 = .input edgeInput ∧ (ripe.tlu.inputs.get 2).settled = some (!true) ∧
        ripe.tlu.pins.getLsbD (2 : LineNo) = true ∧
        edgeInput.qualification ≤ ripe.tbu.localClock.toNat - (200496 : Time).toNat ∧
        (qualifying .sync 200497).tbu.localClock.toNat - (200497 : Time).toNat < edgeInput.qualification) ∧
      ({ plainInput with capture := false }.cls = none ∧ plainInput.capture = true) := by decide +kernel

theorem test_witness_EdgeRaisesATrigger :
    ripe.tlu.lines.get 2 = .input edgeInput ∧ edgeInput.select = .both ∧ edgeInput.cls = some 9 ∧
      (ripe.tlu.inputs.get 2).settled = some (!true) ∧
      (ripe.tlu.inputs.get 2).candidate = some { localClock := 200496, stamp := 199990, basis := .cluster } ∧
      ripe.tlu.pins.getLsbD (2 : LineNo) = true ∧
      edgeInput.qualification ≤ ripe.tbu.localClock.toNat - (200496 : Time).toNat ∧ ripe.tge.holdOffEnd.get 2 = none ∧
      (200496 : Time).toNat < (200497 : Time).toNat ∧
      ripe.src.leaveTimer = none ∧ ripe.syc.state.synced = true ∧ ripe.lif.queue.length < 8 ∧
      (200496 : Time).toNat + edgeInput.holdOff < 2 ^ 64 ∧ (qualifying .founding 200496).syc.state.synced = false := by
  decide +kernel

/-- A ripe edge on TL2, where the line selects edges and ends its hold-off otherwise. -/
def ripeWith (select : EdgeSelect) (holdOff : Option Time) (s : State) : State :=
  { s with
    tlu := { s.tlu with lines := s.tlu.lines.set 2 (.input { edgeInput with select := select }) }
    tge := { s.tge with holdOffEnd := s.tge.holdOffEnd.set 2 holdOff } }

theorem test_witness_edges_and_hold_off :
    (ripeWith .rising none ripe).tlu.lines.get 2 = .input { edgeInput with select := .rising } ∧
      ((ripeWith .falling none ripe).tlu.lines.get 2 = .input { edgeInput with select := .falling }) ∧
      ((ripe.tlu.inputs.get 3).settled = some (!false) ∧ ripe.tlu.pins.getLsbD (3 : LineNo) = false) ∧
      (ripeWith .both (some 200497) ripe).tge.holdOffEnd.get 2 = some 200497 ∧
      (ripeWith .both (some 200496) ripe).tge.holdOffEnd.get 2 = some 200496 ∧
      (200496 : Time).toNat ≤ (200496 : Time).toNat ∧ (qualifying .founding 200496).basis ≠ .cluster ∧
      (qualifying .listen 200496).syc.state.synced = false ∧ (leaving 5).src.leaveTimer.isSome = true ∧
      8 ≤ (queued (List.replicate 8 (trigEntry 0)) none 0).lif.queue.length := by decide +kernel

/-- What an edge's raise comes to, as its CAPTURE record tells it. -/
def captured (s : State) : List RaiseOutcome :=
  (after (.edgeQualified 2) s).jnl.records.filterMap fun r =>
    match r with
    | .capture r => some r.outcome
    | .fire _ | .state _ | .gap _ => none

theorem test_edge_outcomes :
    captured ripe = [.raised 0] ∧ captured (ripeWith .rising (some 200496) ripe) = [.raised 0] ∧
      captured (ripeWith .falling none ripe) = [] ∧ captured (ripeWith .both (some 200497) ripe) = [.heldOff] ∧
      captured (ripeWith .both (some 200497) (qualifying .listen 200496)) = [.heldOff] ∧
      captured (qualifying .listen 200496) = [.refusedState] ∧
      captured { ripe with src := (leaving 5).src } = [.leaving] ∧
      captured { ripe with lif := (queued (List.replicate 8 (trigEntry 0)) none 0).lif } = [.refusedQueue] := by
  decide +kernel

/-! ### The schedule, the lines, the journal and the port -/

theorem test_witness_EntryDueFiresTheHead :
    scheduled.src.inReset = false ∧ scheduled.scu.entries = entry 5 200000 (.pulse 20) :: [entry 6 200001 .set] ∧
      scheduled.syc.state.synced = true ∧
      (entry 5 200000 (.pulse 20)).due.toNat ≤ scheduled.tbu.clusterTime.toNat ∧
      scheduled.tbu.clusterTime.toNat < (entry 6 200001 .set).due.toNat ∧ (entry 5 200000 .set).journal = true ∧
      (entry 5 200000 .set).lines.getLsbD (1 : LineNo) = true ∧
      (entry 5 200000 .set).lines.getLsbD (2 : LineNo) = false := by decide +kernel

/-- At the largest cluster time, an entry due there whose due time was held, or was not, and one behind it. -/
def atTheTop (capped : Bool) : State :=
  { part .sync with
    tbu := { (part .sync).tbu with clusterTime := 0xFFFFFFFFFFFFFFFF }
    scu := { scheduled.scu with
      entries := [{ entry 5 0xFFFFFFFFFFFFFFFF .set with capped := capped }, entry 6 0xFFFFFFFFFFFFFFFF .set] } }

/-- A held due time never falls due, nor does what stands behind it (log 28); CANCEL removes both (R120, R132). -/
theorem test_witness_held_due_time :
    ScheduleOrdered (atTheTop true) ∧ (after .entryDue (atTheTop true)).scu = (atTheTop true).scu ∧
      (after .entryDue (atTheTop false)).scu.entries = [entry 6 0xFFFFFFFFFFFFFFFF .set] ∧
      (after (.cancel 9) (atTheTop true)).scu.entries = [] := by
  refine ⟨by simp [ScheduleOrdered, atTheTop, entry], ?_⟩
  decide +kernel

/-- Two entries, the first due at the boundary and the second passed over by the event's step, where it stays in SYNC. -/
def overtaking : State := meeting (ahead .sync 6)

/-- An entry that a step of 3 does not reach. -/
def waiting : State := { ahead .sync 6 with scu := { scheduled.scu with entries := [entry 5 200004 .set] } }

theorem test_witness_event_without_firings :
    (AtEvent cfg waiting ∧ correctionOutcome cfg waiting = .applied 3 ∧
        (after .correctionEvent waiting).syc.state ≠ .listen ∧
        NoneFires cfg waiting (after .correctionEvent waiting) ∧
        (after .correctionEvent waiting).scu.entries = waiting.scu.entries) ∧
      (AtEvent cfg (meeting (ahead .sync (-22))) ∧ correctionOutcome cfg (meeting (ahead .sync (-22))) = .applied (-11) ∧
        (after .correctionEvent (meeting (ahead .sync (-22)))).syc.state ≠ .listen ∧
        NoneFires cfg (meeting (ahead .sync (-22))) (after .correctionEvent (meeting (ahead .sync (-22)))) ∧
        (after .correctionEvent (meeting (ahead .sync (-22)))).scu.entries.length = 2) ∧
      waiting.lif.receiver = .ready := by
  refine ⟨⟨⟨rfl, rfl, rfl⟩, by decide +kernel, by decide +kernel, .inl ?_, by decide +kernel⟩,
    ⟨⟨rfl, rfl, rfl⟩, by decide +kernel, by decide +kernel, .inr (by decide +kernel), by decide +kernel⟩, rfl⟩
  decide +kernel

theorem test_witness_ignoring_lines :
    Ignores (meeting (channels .held (.active 20 none 5 0))) (.pulse 20) 0 ∧
      ¬Ignores (meeting (channels .held (.active 20 none 5 0))) (.pulse 20) 1 ∧
      Ignores (meeting (channels (.active 20 none 5 0) .held)) (.pulse 20) 0 ∧
      Ignores (meeting (channels .idle .held)) (.pulse 20) 1 ∧ ¬Ignores (meeting (channels .idle .held)) (.pulse 20) 0 ∧
      (after .entryDue (meeting (channels .held .held))).rdp.flags.overrun = some (0, .pulse, .held) ∧
      (after .entryDue (meeting (channels .idle .held))).rdp.flags.overrun = some (1, .pulse, .held) := by
  have l0 : ∀ a b, (meeting (channels a b)).tlu.lines.get 0 = .output true .keep := fun _ _ => rfl
  have l1 : ∀ a b, (meeting (channels a b)).tlu.lines.get 1 = .output false .restart := fun _ _ => rfl
  have c0 : ∀ a b, (meeting (channels a b)).tlu.channels.get 0 = a := fun _ _ => rfl
  have c1 : ∀ a b, (meeting (channels a b)).tlu.channels.get 1 = b := fun _ _ => rfl
  refine ⟨⟨.inl rfl, _, _, l0 _ _, .inl (c0 _ _)⟩, fun h => ?_, ⟨.inl rfl, _, _, l0 _ _, .inr ⟨?_, rfl⟩⟩,
    ⟨.inl rfl, _, _, l1 _ _, .inl (c1 _ _)⟩, fun h => ?_, by decide +kernel⟩
  · obtain ⟨-, _, _, hl, hc⟩ := h
    rw [l1] at hl
    cases hl
    rw [c1] at hc
    simp at hc
  · rw [c0]
    nofun
  · obtain ⟨-, _, _, hl, hc⟩ := h
    rw [c0] at hc
    simp at hc

theorem test_witness_forward_step :
    AtEvent cfg overtaking ∧ overtaking.syc.state.synced = true ∧ correctionOutcome cfg overtaking = .applied 3 ∧
      overtaking.tbu.clusterTime.toNat + cfg.cluster.maxCorr < 2 ^ 64 ∧
      (¬Expires cfg (agreementCount cfg overtaking) overtaking.syc) ∧
      KeepsState cfg 3 (agreementCount cfg overtaking) overtaking.syc ∧ ScheduleOrdered overtaking ∧
      (after .correctionEvent overtaking).tbu.clusterTime.toNat < 2 ^ 64 - 1 ∧
      ((after .correctionEvent overtaking).jnl.records.filterMap fun r =>
        match r with
        | .fire r => some (r.time, r.index, r.overtaken)
        | .capture _ | .state _ | .gap _ => none) = [(200003, 5, false), (200003, 6, true)] := by
  have h : agreementCount cfg overtaking = 2 := by decide +kernel
  refine ⟨⟨rfl, rfl, rfl⟩, rfl, by decide +kernel, by decide +kernel, fun hx => ?_, .inl ⟨rfl, ?_, fun _ => ?_⟩,
    by simp [ScheduleOrdered, overtaking, meeting, scheduled, entry], by decide +kernel, by decide +kernel⟩
  · exact absurd hx.1 (by decide)
  · rw [h]; decide
  · decide

theorem test_witness_ChannelTakesAFireCommand :
    (part .sync).tlu.lines.get 0 = .output true .keep ∧ (part .sync).tlu.lines.get 1 = .output false .restart ∧
      (part .sync).src.inReset = false ∧ (channels .idle .idle).tlu.channels.get 0 = .idle ∧
      (channels .held (.gap 20 40 5 1)).tlu.channels.get 1 ≠ .held ∧
      (channels .held (.gap 20 40 5 1)).tlu.channels.get 0 = .held ∧
      (channels (.active 20 none 1 0) .held).tlu.channels.get 0 ≠ .idle := by decide +kernel

theorem test_witness_ExpiryMovesTheChannel :
    (channels (.active 20 none 0 0) (.active 20 (some 40) 0 1)).tlu.channels.get 0 = .active 20 none 0 0 ∧
      (channels (.active 20 none 0 0) (.active 20 (some 40) 0 1)).tlu.channels.get 1 = .active 20 (some 40) 0 (0 + 1) ∧
      (channels (.gap 20 40 0 1) .held).tlu.channels.get 0 = .gap 20 40 0 (0 + 1) ∧
      ((channels (.gap 20 40 0 1) .held).tlu.channels.get 1).state = .held ∧
      (channels (.gap 20 40 1 1) (.active 20 none 1 0)).tlu.channels.get 0 = .gap 20 40 (0 + 1) 1 ∧
      (channels (.gap 20 40 1 1) (.active 20 none 1 0)).tlu.channels.get 1 = .active 20 none (0 + 1) 0 := by
  decide +kernel

theorem test_witness_JournalWritesOrLoses :
    (∀ s ∈ [journaled 126 0, journaled 127 0, journaled 125 1, journaled 126 1, journaled 127 1],
      s.jnl.records.length ≤ 128) ∧
      (1 ≤ 128 - (journaled 126 0).jnl.records.length ∧ (journaled 126 0).jnl.lost = 0) ∧
      (2 ≤ 128 - (journaled 125 1).jnl.records.length ∧ (journaled 125 1).jnl.lost ≠ 0) ∧
      128 - (journaled 127 0).jnl.records.length = 0 ∧ 128 - (journaled 126 1).jnl.records.length ≤ 1 ∧
      128 - (journaled 127 1).jnl.records.length ≤ 1 := by decide +kernel

theorem test_witness_TransactionBeginsAndEnds :
    (State.reset.src.inReset = false ∧ State.reset.rdp.txn = .idle) ∧ (part .sync).rdp.txn = .begun ∧
      (held 0).src.inReset = true ∧ reply .readTime (part .sync) ≠ .begun ∧
      (0x00 : Byte) ∉ [(0x10 : Byte), 0x11, 0x12, 0x13, 0x14, 0x15, 0x16, 0x17, 0x20, 0x30, 0x31, 0x5A, 0xA5] := by
  decide +kernel

theorem test_data_out :
    dataOut State.reset 0 = none ∧ dataOut (part .sync) 0 = some 0 ∧
      (List.range 4).map (dataOut (after (.raise 8) (part .sync))) = [some 0x00, some 0x01, some 0x00, some 0x00] ∧
      dataOut (after (.raise 8) (part .sync)) 4 = some 0x00 ∧
      dataOutBit (after (.raise 8) (part .sync)) 15 = some true ∧
      dataOutBit (after (.raise 8) (part .sync)) 14 = some false := by decide +kernel

theorem test_port_command :
    portCommand [0xA5] = some .restart ∧ portCommand [0x14, 0x07, 0xFF] = some (.readPeer 0x07) ∧
      portCommand [0x14] = none ∧ portCommand [0x18, 0x30] = some (.unknownCommand 0x18) := by decide

theorem test_image_port :
    imagePort (held 0) = .undriven ∧ imagePort (loading 3) = .selected [0x03, 0x00, 0x00, 0x00] ∧
      imagePort (part .sync) = .idle := by decide

theorem test_witness_PortTurnsCommandsAway :
    ((loading 0).src.inReset = false ∧ (loading 0).rdp.txn = .begun ∧ (loading 0).src.loadState ≠ .ready) ∧
      (0x00 : Byte) ∉ [(0x10 : Byte), 0x11, 0x12, 0x13, 0x14, 0x15, 0x16, 0x17, 0x20, 0x30, 0x31, 0x5A, 0xA5] ∧
      (part .sync).rdp.txn = .begun ∧ (part .sync).src.loadState = .ready ∧ 32 ≤ (32 : Byte).toNat ∧
      64 ≤ (64 : Byte).toNat ∧ (part .sync).rdp.armed = false := by decide

theorem test_witness_SnapshotsChangeNothing :
    PortReady (part .sync) ∧ (31 : Byte).toNat = (31 : Station).val ∧ (loading 0).src.inReset = false ∧
      (loading 0).rdp.txn = .begun :=
  ⟨part_portReady _, by decide, rfl, rfl⟩

theorem test_witness_StatusAndFlagsClearOnRead :
    (loading 0).src.inReset = false ∧ (loading 0).rdp.txn = .begun ∧ PortReady (part .sync) :=
  ⟨rfl, rfl, part_portReady _⟩

theorem test_witness_JournalIsReadRecordByRecord :
    PortReady (part .sync) ∧ (part .sync).jnl.records = [] ∧ PortReady (journaled 0 0) ∧
      (journaled 0 0).jnl.records = .gap 2 :: [] ∧
      (after .readJournal (journaled 0 0)).rdp.txn = .taken (0x00 :: 0x01 :: (Record.gap 2).bytes) true ∧
      ∀ out, (part .sync).rdp.txn ≠ .taken out true :=
  ⟨part_portReady _, rfl, ⟨rfl, rfl, rfl⟩, rfl, by decide +kernel, nofun⟩

theorem test_witness_CancelRemovesTheClass :
    PortReady scheduled ∧ (9 : Byte).toNat = (9 : TrigClass).val ∧ (63 : Byte).toNat = (63 : TrigClass).val :=
  ⟨⟨rfl, rfl, rfl⟩, by decide, by decide⟩

theorem test_witness_RestartResetsOrLeaves :
    (armed (part .sync)).src.inReset = false ∧ (armed (part .sync)).rdp.txn = .begun ∧
      (armed (part .sync)).rdp.armed = true ∧ (armed (loading 0)).src.loadState ≠ .ready ∧
      (armed (part .clash)).syc.state.active = false ∧ (armed (part .sync)).src.leaveTimer = none ∧
      (armed (leaving 5)).src.leaveTimer ≠ none ∧ (part .sync).cfg = some cfg := by decide +kernel

theorem test_witness_AttentionVectorAndBasisFollowTheState :
    (part .sync).src.inReset = false ∧ attentionAsserted (part .sync) = false ∧
      attentionAsserted { loading 0 with rdp := { (loading 0).rdp with loadPending := true } } = true ∧
      membershipVector (part .sync) = 0x88 ∧ membershipVector (part .listen) = 0x80 := by decide +kernel

/-! ### The invariants hold somewhere, and their steps are taken -/

theorem test_witness_invariants :
    QueueBounded (queued (List.replicate 8 (trigEntry 0)) none 0) ∧ ScheduleOrdered scheduled ∧
      Coherent (counted (partWith .tentative []) 0) ∧ SequenceCounted (part .sync) ∧
      ∃ t, step { part .sync with pending := [.supplyWarningSet] } = .next t :=
  ⟨by simp [QueueBounded, queued], by simp [ScheduleOrdered, scheduled, entry], tentative_coherent _ _, rfl, _, rfl⟩

theorem test_witness_schedule_places : PlacesCounted scheduled ∧ JournalFormed (part .sync) := by
  refine ⟨⟨by decide +kernel, by decide +kernel⟩, by simp [part, State.reset, Jnl.reset], ?_, ?_⟩ <;>
    simp [part, State.reset, Jnl.reset]

theorem test_witness_reset_invariants :
    PeersFormed State.reset ∧ SelfStands State.reset ∧ StatisticsBracketed State.reset ∧ ChannelsFormed State.reset := by
  refine ⟨fun n => ?_, ?_, ?_, fun l => ?_⟩
  · constructor <;> simp [State.reset, Mbu.reset, Peer.absentRecord]
  · constructor <;> simp [State.reset, Mbu.reset]
  · constructor <;> simp [State.reset, Tbu.reset]
  · simp [State.reset, Tlu.reset, Channel.Formed]

end Sys2Proof.Tests
end

/-! ## The sync state stays coherent (O58) -/

namespace Sys2Proof.Machine

/-! ### Coherent in three parts -/

/-- What `Coherent` says in every sync state. -/
structure SyncFormed (s : State) : Prop where
  configured : s.cfg.isSome = true ↔ s.src.loadState = .ready
  off : s.syc.state = .off ↔ s.cfg = none
  listening : s.syc.listenTimer.isSome = true ↔ s.syc.state = .listen
  boundary : s.tbu.nextBoundary.isSome = true ↔ s.syc.state.active = true
  beacon : s.syc.nextBeaconDue.isSome = true ↔ s.syc.state.active = true
  reported : s.syc.state.active = true → s.syc.lastSynchronizing = s.syc.state.reported

/-- What `Coherent` says outside SYNC, STABLE and HOLDOVER: no debt, no schedule entry, no queued trigger. -/
structure Unburdened (s : State) : Prop where
  debt : s.tbu.slewDebt = 0
  hold : s.tbu.hold = false
  schedule : s.scu.entries = []
  queue : s.lif.queue = []

/-- What `Coherent` says in OFF, LISTEN and CLASH: no beacon waits, and a frame on the line is a purged one. -/
structure LineCleared (s : State) : Prop where
  slot : s.lif.slot = none
  onLine : ∀ f, s.lif.onLine = some f → f.purged = true

theorem coherent_iff (s : State) :
    Coherent s ↔ SyncFormed s ∧ (s.syc.state.synced = false → Unburdened s) ∧
      (s.syc.state.active = false → LineCleared s) := by
  constructor
  · rintro ⟨h1, h2, h3, h4, h5, h6, h7, h8, h9, h10, h11⟩
    exact ⟨⟨h1, h2, h3, h4, h5, h6⟩, fun h => ⟨(h7 h).1, (h7 h).2, h8 h, h9 h⟩, fun h => ⟨h10 h, h11 h⟩⟩
  · rintro ⟨⟨h1, h2, h3, h4, h5, h6⟩, hu, hl⟩
    exact ⟨h1, h2, h3, h4, h5, h6, fun h => ⟨(hu h).debt, (hu h).hold⟩, fun h => (hu h).schedule,
      fun h => (hu h).queue, fun h => (hl h).slot, fun h => (hl h).onLine⟩

theorem Coherent.formed {s : State} (h : Coherent s) : SyncFormed s := ((coherent_iff s).1 h).1

theorem Coherent.unburdened {s : State} (h : Coherent s) (hu : s.syc.state.synced = false) : Unburdened s :=
  ((coherent_iff s).1 h).2.1 hu

theorem Coherent.lineCleared {s : State} (h : Coherent s) (hl : s.syc.state.active = false) : LineCleared s :=
  ((coherent_iff s).1 h).2.2 hl

theorem SyncState.active_of_synced {x : SyncState} (h : x.synced = true) : x.active = true := by
  cases x <;> simp_all [SyncState.active, SyncState.reported, SyncState.synced]

theorem SyncState.standsDown_of_active {x : SyncState} (h : x.active = true) : x.standsDown = false := by
  cases x <;> simp_all [SyncState.active, SyncState.reported, SyncState.standsDown]

/-- A configured part is READY and not OFF (R42, R181). -/
theorem Coherent.ready {s : State} {c : Cfg} (h : Coherent s) (hc : s.cfg = some c) : s.src.loadState = .ready :=
  h.configured.1 (by simp [hc])

theorem Coherent.not_off {s : State} {c : Cfg} (h : Coherent s) (hc : s.cfg = some c) : s.syc.state ≠ .off :=
  fun ho => by simp [h.off.1 ho] at hc

/-! ### What keeps it -/

/-- The items that `SyncFormed` reads are as they were. -/
structure SyncStands (s t : State) : Prop where
  cfg : t.cfg = s.cfg
  load : t.src.loadState = s.src.loadState
  state : t.syc.state = s.syc.state
  last : t.syc.lastSynchronizing = s.syc.lastSynchronizing
  timer : t.syc.listenTimer.isSome = s.syc.listenTimer.isSome
  due : t.syc.nextBeaconDue.isSome = s.syc.nextBeaconDue.isSome
  boundary : t.tbu.nextBoundary.isSome = s.tbu.nextBoundary.isSome

theorem SyncStands.formed {s t : State} (hs : SyncStands s t) (h : SyncFormed s) : SyncFormed t := by
  obtain ⟨hcfg, hload, hstate, hlast, htimer, hdue, hboundary⟩ := hs
  constructor
  · rw [hcfg, hload]; exact h.configured
  · rw [hstate, hcfg]; exact h.off
  · rw [htimer, hstate]; exact h.listening
  · rw [hboundary, hstate]; exact h.boundary
  · rw [hdue, hstate]; exact h.beacon
  · rw [hstate, hlast]; exact h.reported

theorem Coherent.of_stands {s t : State} (h : Coherent s) (hs : SyncStands s t)
    (hu : s.syc.state.synced = false → Unburdened s → Unburdened t)
    (hl : s.syc.state.active = false → LineCleared s → LineCleared t) : Coherent t :=
  (coherent_iff t).2 ⟨hs.formed h.formed, fun hy => by rw [hs.state] at hy; exact hu hy (h.unburdened hy),
    fun hy => by rw [hs.state] at hy; exact hl hy (h.lineCleared hy)⟩

/-- In SYNC, STABLE and HOLDOVER debt, schedule and line are free. -/
theorem Coherent.of_synced {s t : State} (h : Coherent s) (hy : s.syc.state.synced = true) (hs : SyncStands s t) :
    Coherent t :=
  h.of_stands hs (fun hn => by simp [hy] at hn)
    (fun hn => by simp [SyncState.active_of_synced hy] at hn)

/-- Everything of the part that `Coherent` reads. -/
def syncView (s : State) :=
  (s.cfg, s.src.loadState, s.syc, s.tbu.nextBoundary, s.tbu.slewDebt, s.tbu.hold, s.scu.entries, s.lif.queue,
    s.lif.slot, s.lif.onLine)

theorem Coherent.of_view {s t : State} (h : Coherent s) (hv : syncView t = syncView s) : Coherent t := by
  simp only [syncView, Prod.mk.injEq] at hv
  obtain ⟨hcfg, hload, hsyc, hboundary, hdebt, hhold, hentries, hqueue, hslot, honLine⟩ := hv
  refine h.of_stands ⟨hcfg, hload, by rw [hsyc], by rw [hsyc], by rw [hsyc], by rw [hsyc], by rw [hboundary]⟩ ?_ ?_
  · rintro - ⟨h1, h2, h3, h4⟩
    exact ⟨hdebt.trans h1, hhold.trans h2, hentries.trans h3, hqueue.trans h4⟩
  · rintro - ⟨h1, h2⟩
    exact ⟨hslot.trans h1, by rwa [honLine]⟩

/-! ### Resets and loads -/

theorem resetState_coherent (cause : ResetCause) (hold : Nat) (s : State) : Coherent (resetState cause hold s) := by
  constructor <;> simp [Syc.reset, Tbu.reset, Scu.reset, Lif.reset, Src.reset, SyncState.active, SyncState.reported]

/-- A load that has not ended READY leaves the part unconfigured, so that a failure changes nothing here (R182). -/
theorem endLoad_failed_coherent (r : LoadResult) (s : State) (h : Coherent s) (hl : s.src.loadState = .loading) :
    Coherent (endLoad .failed r s) := by
  have hn : s.cfg = none := by simpa [hl] using h.configured
  refine (coherent_iff _).2 ⟨?_, fun hy => ?_, fun hy => ?_⟩
  · obtain ⟨-, h2, h3, h4, h5, h6⟩ := h.formed
    exact ⟨by simp [endLoad, hn], by simpa using h2, by simpa using h3, by simpa using h4, by simpa using h5,
      by simpa using h6⟩
  · obtain ⟨h1, h2, h3, h4⟩ := h.unburdened (by simpa using hy)
    exact ⟨by simpa using h1, by simpa using h2, by simpa using h3, by simpa using h4⟩
  · obtain ⟨h1, h2⟩ := h.lineCleared (by simpa using hy)
    exact ⟨by simpa using h1, by simpa using h2⟩

/-! ### A change of sync state -/

/-- Stood down in LISTEN or CLASH, whatever stood before, and whether due entries meet the orders or not (R39, R56). -/
theorem changeState_standsDown_coherent (c : Cfg) (new : SyncState) (r : Reason) (mid : State → State) (s : State)
    (hn : new.standsDown = true) (ho : s.syc.state ≠ .off) (hc : s.cfg.isSome = true) (hr : s.src.loadState = .ready)
    (hmid : mid = id ∨ ∃ b, mid = fireSome b) : Coherent (changeState c new r mid s) := by
  have hcn : s.cfg ≠ none := by rintro h; simp [h] at hc
  have hinactive : new.active = false := by
    rw [Bool.eq_false_iff]
    intro ha
    rw [SyncState.standsDown_of_active ha] at hn
    cases hn
  have hnotOff : new ≠ .off := by rintro rfl; cases hn
  refine (coherent_iff _).2 ⟨⟨?_, ?_, ?_, ?_, ?_, ?_⟩, fun _ => ⟨?_, ?_, ?_, ?_⟩, fun _ => ⟨?_, ?_⟩⟩
  all_goals rcases hmid with rfl | ⟨b, rfl⟩ <;> simp [hn, ho, hc, hr, hcn, hinactive, hnotOff]

/-- The first change, from OFF to LISTEN at READY: there is nothing to stand down (R42, R181). -/
theorem changeState_fromOff_coherent (c : Cfg) (r : Reason) (s : State) (ho : s.syc.state = .off)
    (hc : s.cfg.isSome = true) (hr : s.src.loadState = .ready) (hu : Unburdened s) (hl : LineCleared s) :
    Coherent (changeState c .listen r id s) := by
  have hcn : s.cfg ≠ none := by rintro h; simp [h] at hc
  obtain ⟨-, -, hentries, hqueue⟩ := hu
  obtain ⟨hslot, honLine⟩ := hl
  refine (coherent_iff _).2 ⟨⟨?_, ?_, ?_, ?_, ?_, ?_⟩, fun _ => ⟨?_, ?_, ?_, ?_⟩, fun _ => ⟨?_, ?_⟩⟩
  all_goals
    simp [ho, hc, hr, hcn, hentries, hqueue, hslot, SyncState.active, SyncState.reported, SyncState.standsDown]
  exact honLine

/-- Into FOUNDING to HOLDOVER from a state with its boundary and beacon due set: where the new state bears no debt,
entry or trigger, neither may the old (R39, R57, R124). -/
theorem changeState_active_coherent (c : Cfg) (new : SyncState) (r : Reason) (mid : State → State) (s : State)
    (hn : new.active = true) (hc : s.cfg.isSome = true) (hr : s.src.loadState = .ready)
    (hb : s.tbu.nextBoundary.isSome = true) (hd : s.syc.nextBeaconDue.isSome = true)
    (hu : new.synced = false → Unburdened s) : Coherent (changeState c new r mid s) := by
  have hstands : new.standsDown = false := SyncState.standsDown_of_active hn
  have hcn : s.cfg ≠ none := by rintro h; simp [h] at hc
  have hnotOff : new ≠ .off := by rintro rfl; cases hn
  have hnotListen : new ≠ .listen := by rintro rfl; cases hn
  obtain ⟨x, hx⟩ := Option.isSome_iff_exists.1 (show new.reported.isSome = true from hn)
  rw [changeState_moves c new r mid s hstands]
  refine (coherent_iff _).2 ⟨⟨?_, ?_, ?_, ?_, ?_, ?_⟩, fun hy => ?_, fun hy => ?_⟩
  case refine_7 =>
    obtain ⟨h1, h2, h3, h4⟩ := hu (by simpa using hy)
    exact ⟨by simpa using h1, by simpa using h2, by simpa using h3, by simpa using h4⟩
  case refine_8 => simp [hn] at hy
  all_goals simp [hstands, hc, hr, hcn, hnotOff, hnotListen, hn, hb, hd, hx]


/-! ### Adoption, founding, and the correction event -/

/-- Setting cluster time sets the boundary and the beacon due with it and forgives the debt, so that the part may enter
FOUNDING or TENTATIVE (R9, R10). -/
theorem setClusterTime_change_coherent (c : Cfg) (new : SyncState) (r : Reason) (x : Time) (s : State)
    (h : Coherent s) (hc : s.cfg = some c) (hs : s.syc.state = .listen ∨ s.syc.state = .founding)
    (hn : new.active = true) : Coherent (changeState c new r id (setClusterTime c x s)) := by
  have hy : s.syc.state.synced = false := by rcases hs with hs | hs <;> simp [hs, SyncState.synced]
  obtain ⟨-, -, hentries, hqueue⟩ := h.unburdened hy
  refine changeState_active_coherent c new r id _ hn (by simp [hc]) (by simpa using h.ready hc) ?_ ?_
    fun _ => ⟨?_, ?_, ?_, ?_⟩
  all_goals simp [setClusterTime, hentries, hqueue]

/-- A correction gives a debt in SYNC, STABLE and HOLDOVER alone (R12, R15): in TENTATIVE it steps back, and the other
states have no correction. -/
theorem applyOutcome_slewDebt (c : Cfg) (s u : State) (hu : u.syc = s.syc) (hy : s.syc.state.synced = false) :
    (applyOutcome (correctionOutcome c s) u).tbu.slewDebt = u.tbu.slewDebt := by
  by_cases ht : s.syc.state = .tentative
  · cases correctionOutcome c s with
    | none => rfl
    | exceeded x => rfl
    | applied x => simp only [applyOutcome, countCorrection, stepTime, hu, ht]; split_ifs <;> simp
  · have he : correctionSet s = [] := by
      cases hx : s.syc.state <;> simp_all [correctionSet, SyncState.synced]
    simp [correctionOutcome, he, trimmedMean, applyOutcome]

/-- The boundary that the part awaits behind an event at `b` (R5). -/
def awaitNext (c : Cfg) (b : Time) (s : State) : State :=
  s.withTbu { s.tbu with nextBoundary := some (timePlus b c.cluster.bper) }

/-- The state of a correction event as its judgement finds it (R11): the correction applied and the records aged. -/
def corrected (c : Cfg) (b : Time) (s : State) : State :=
  ageRecords c (applyOutcome (correctionOutcome c s) (awaitNext c b s))

theorem correctionAt_eq (c : Cfg) (b : Time) (s : State) :
    correctionAt c b s =
      settleEvent c (correctionOutcome c s) (agreementCount c s) s.tbu.clusterTime (corrected c b s) := rfl

theorem corrected_coherent (c : Cfg) (b : Time) (s : State) (h : Coherent s)
    (hb : s.tbu.nextBoundary.isSome = true) : Coherent (corrected c b s) := by
  refine h.of_stands ⟨?_, ?_, ?_, ?_, ?_, ?_, ?_⟩ (fun hy hu => ⟨?_, ?_, ?_, ?_⟩) (fun hy hl => ⟨?_, ?_⟩)
  case refine_8 =>
    rw [corrected, ageRecords_tbu, applyOutcome_slewDebt c s (awaitNext c b s) rfl hy]
    exact hu.debt
  case refine_13 => simpa [corrected, awaitNext] using hl.onLine
  all_goals simp [corrected, awaitNext, hb]
  exacts [hu.hold, hu.schedule, hu.queue, hl.slot]

theorem fireEntry_coherent (before : Option Time) (e : SchedEntry) (rest : List SchedEntry) (s : State)
    (h : Coherent s) (he : s.scu.entries = e :: rest) : Coherent (fireEntry before e rest s) := by
  have hy : s.syc.state.synced = true := by
    cases hy : s.syc.state.synced
    · rw [(h.unburdened hy).schedule] at he; cases he
    · rfl
  exact h.of_synced hy ⟨by simp, by simp, by simp, by simp, by simp, by simp, by simp⟩

theorem settleEvent_coherent (c : Cfg) (o : Outcome) (a : Nat) (before : Time) (s : State) (h : Coherent s)
    (hc : s.cfg = some c) : Coherent (settleEvent c o a before s) := by
  refine (settleEvent_keeps (fun s => Coherent s ∧ s.cfg = some c) c o a before s ⟨h, hc⟩
    ?hround ?hfire ?hsome ?hchange).1
  case hround =>
    rintro r s ⟨h, hc⟩
    refine ⟨h.of_stands ⟨by simp, by simp, by simp, by simp, by simp, by simp, by simp⟩ ?_ ?_, by simpa using hc⟩
    · rintro - ⟨h1, h2, h3, h4⟩
      exact ⟨h1, h2, h3, h4⟩
    · rintro - ⟨h1, h2⟩
      exact ⟨h1, h2⟩
  case hfire =>
    rintro s ⟨h, hc⟩
    exact ⟨fireDue_keeps Coherent _ (fun e r s h _ he => fireEntry_coherent _ e r s h he) s h, by simpa using hc⟩
  case hsome =>
    rintro s ⟨h, hc⟩
    exact ⟨fireSome_keeps Coherent _ (fun e r s h _ he => fireEntry_coherent _ e r s h he)
      (fun s n h => h.of_view rfl) s h, by simpa using hc⟩
  case hchange =>
    rintro new reason mid s ⟨h, hc⟩ hmid hj
    have hmid : mid = id ∨ ∃ b, mid = fireSome b := hmid.imp_right fun hm => ⟨_, hm⟩
    obtain ⟨hactive, hnew, -⟩ := judgeEvent_change c o a s.syc new reason hj
    refine ⟨?_, by rcases hmid with rfl | ⟨b, rfl⟩ <;> simpa using hc⟩
    by_cases hl : new = .listen
    · exact changeState_standsDown_coherent c new reason mid s (by rw [hl]; rfl) (h.not_off hc) (by simp [hc])
        (h.ready hc) hmid
    · have hsynced : new.synced = true := by
        rcases hnew with rfl | rfl | rfl | rfl
        · rfl
        · rfl
        · rfl
        · exact absurd rfl hl
      exact changeState_active_coherent c new reason mid s (SyncState.active_of_synced hsynced) (by simp [hc])
        (h.ready hc) (h.boundary.2 hactive) (h.beacon.2 hactive) (fun hn => by simp [hsynced] at hn)

/-! ### Beacons and triggers delivered, and the port -/

theorem deliverBeacon_coherent (c : Cfg) (b : Beacon) (l k : Time) (s : State) (h : Coherent s)
    (hc : s.cfg = some c) : Coherent (deliverBeacon c b l k s) := by
  refine (deliverBeacon_keeps (fun s => Coherent s ∧ s.cfg = some c) c b l k s ⟨h, hc⟩
    ?hflag ?hclash ?hupdate ?hadopt).1
  case hflag =>
    rintro f s ⟨h, hc⟩
    exact ⟨h.of_view rfl, hc⟩
  case hclash =>
    intro _
    exact ⟨changeState_standsDown_coherent c .clash _ id s rfl (h.not_off hc) (by simp [hc]) (h.ready hc) (.inl rfl),
      by simpa using hc⟩
  case hupdate =>
    intro x _ _
    exact ⟨h.of_view (by simp [syncView]), by simpa using hc⟩
  case hadopt =>
    rintro reason s ⟨h, hc⟩ hs
    exact ⟨setClusterTime_change_coherent c .tentative reason _ s h hc hs rfl, by simpa [adopt] using hc⟩

/-- Processing comes about in SYNC, STABLE and HOLDOVER alone (R96, R86). -/
theorem process_coherent (c : Cfg) (n : Nat) (t : Trigger) (s : State) (h : Coherent s)
    (hy : s.syc.state.synced = true) : Coherent (process c n t s) :=
  h.of_synced hy ⟨by simp, by simp, by simp, by simp, by simp, by simp, by simp⟩

theorem judgeTriggerFrame_coherent (c : Cfg) (t : Trigger) (s : State) (h : Coherent s) :
    Coherent (judgeTriggerFrame c t s) :=
  judgeTriggerFrame_keeps Coherent c t s h (fun _ _ h _ _ _ => h.of_view rfl) (fun _ => h.of_view rfl)
    (fun s h hy => process_coherent c 4 t s h hy)

theorem raiseTrigger_coherent (c : Cfg) (k : TrigClass) (x : Time) (b : Bool) (s : State) (h : Coherent s) :
    Coherent (raiseTrigger c k x b s).1 := by
  unfold raiseTrigger
  split
  · exact h.of_view rfl
  · rename_i hr
    obtain ⟨-, hy, -, -⟩ := (raiseRefusal_none b s).1 hr
    exact h.of_synced hy ⟨by simp, by simp, by simp, by simp, by simp, by simp, by simp⟩

theorem qualifyEdge_coherent (c : Cfg) (l : LineNo) (ic : InputCfg) (cand : Candidate) (s : State) (h : Coherent s) :
    Coherent (qualifyEdge c l ic cand s) :=
  qualifyEdge_keeps Coherent c l ic cand s h (fun _ _ h => h.of_view rfl) (raiseTrigger_coherent c)
    (fun _ h => h.of_view rfl) (fun _ _ h _ => h.of_view (by simp [syncView]))

/-! ### The line -/

theorem collideTrigger_coherent (c : Cfg) (s : State) (h : Coherent s) :
    Coherent (collideTrigger c (afterCollision s)) := by
  refine h.of_stands ?_ (fun _ hu => ?_) (fun _ hl => ?_)
  · constructor <;> simp only [collideTrigger] <;> split <;> (try split) <;> simp [afterCollision]
  · obtain ⟨h1, h2, h3, h4⟩ := hu
    simp only [collideTrigger, afterCollision, State.withLif_lif, h4]
    exact ⟨h1, h2, h3, rfl⟩
  · obtain ⟨h1, -⟩ := hl
    unfold collideTrigger
    split
    · dsimp only
      split <;> exact ⟨by simpa [afterCollision] using h1, by simp [afterCollision]⟩
    · exact ⟨h1, by simp [afterCollision]⟩

theorem collideBeacon_coherent (c : Cfg) (b : BeaconEntry) (s : State) (h : Coherent s)
    (ha : s.syc.state.active = true) : Coherent (collideBeacon c b (afterCollision s)) := by
  refine h.of_stands ?_ (fun _ hu => ?_) (fun hn => by simp [ha] at hn)
  · constructor <;> simp only [collideBeacon] <;> split <;> simp [afterCollision]
  · obtain ⟨h1, h2, h3, h4⟩ := hu
    simp only [collideBeacon]
    split <;> exact ⟨by simpa [afterCollision] using h1, by simpa [afterCollision] using h2,
      by simpa [afterCollision] using h3, by simpa [afterCollision] using h4⟩

theorem copyDone_nil : copyDone [] = [] := rfl

theorem completeTrigger_coherent (purged : Bool) (s : State) (h : Coherent s) :
    Coherent (completeTrigger purged (afterComplete s)) := by
  refine h.of_stands ⟨rfl, rfl, rfl, rfl, rfl, rfl, rfl⟩ (fun _ hu => ?_) (fun _ hl => ?_)
  · obtain ⟨h1, h2, h3, h4⟩ := hu
    exact ⟨h1, h2, h3, by simp [completeTrigger, afterComplete, h4, copyDone_nil]⟩
  · exact ⟨hl.slot, by simp [completeTrigger, afterComplete]⟩

theorem completeBeacon_coherent (leavingAtRef : Bool) (s : State) (h : Coherent s) :
    Coherent (completeBeacon leavingAtRef (afterComplete s)) := by
  unfold completeBeacon
  dsimp only
  split
  · exact resetState_coherent _ _ _
  · refine h.of_stands ⟨rfl, rfl, rfl, rfl, rfl, rfl, rfl⟩ (fun _ hu => ?_) (fun _ hl => ?_)
    · obtain ⟨h1, h2, h3, h4⟩ := hu
      exact ⟨h1, h2, h3, h4⟩
    · exact ⟨hl.slot, by simp [afterComplete]⟩

/-- A queued trigger or a frame that was not purged says that the part is in FOUNDING to HOLDOVER (R73, R79). -/
theorem Coherent.active_of_onLine {s : State} (h : Coherent s) {f : OnLine} (hf : s.lif.onLine = some f)
    (hp : f.purged = false) : s.syc.state.active = true := by
  cases ha : s.syc.state.active
  · rw [(h.lineCleared ha).onLine f hf] at hp; cases hp
  · rfl

theorem Coherent.synced_of_queue {s : State} (h : Coherent s) {e : TrigEntry} {rest : List TrigEntry}
    (hq : s.lif.queue = e :: rest) : s.syc.state.synced = true := by
  cases hy : s.syc.state.synced
  · rw [(h.unburdened hy).queue] at hq; cases hq
  · rfl

/-! ### The tick -/

theorem tick_coherent (a : Bool) (p : BitVec 8) (s : State) (h : Coherent s) : Coherent (tick a p s) := by
  have hboundary : s.tbu.tick.nextBoundary = s.tbu.nextBoundary := by
    unfold Tbu.tick; dsimp only; split <;> (try split) <;> rfl
  refine h.of_stands ⟨rfl, rfl, rfl, rfl, by simp [tick, timerTick], rfl, by simp [tick, hboundary]⟩
    (fun _ hu => ?_) (fun _ hl => ?_)
  · obtain ⟨h1, h2, h3, h4⟩ := hu
    exact ⟨by simp [tick, Tbu.tick, h1, h2], by simp [tick, Tbu.tick, h1, h2], h3, h4⟩
  · exact ⟨hl.slot, hl.onLine⟩

/-! ### The steps -/

theorem cancelCommand_coherent (k : TrigClass) (s : State) (h : Coherent s) : Coherent (cancelCommand k s) := by
  refine h.of_stands ⟨rfl, rfl, rfl, rfl, rfl, rfl, rfl⟩ (fun _ hu => ?_) (fun _ hl => ?_)
  · obtain ⟨h1, h2, h3, h4⟩ := hu
    exact ⟨h1, h2, by simp [cancelCommand, removeUnfired, h3], h4⟩
  · exact ⟨hl.slot, hl.onLine⟩

theorem loadReady_coherent (g : ImageConfig) (b : Byte) (s : State) (h : Coherent s) (hl : s.src.loadState = .loading) :
    Coherent (loadReady g (withByte b s)) := by
  have ho : s.syc.state = .off := h.off.2 (by simpa [hl] using h.configured)
  obtain ⟨h1, h2, h3, h4⟩ := h.unburdened (by simp [ho, SyncState.synced])
  obtain ⟨h5, h6⟩ := h.lineCleared (by simp [ho, SyncState.active, SyncState.reported])
  refine changeState_fromOff_coherent _ _ _ (by simpa [withByte] using ho) (by simp [distribute])
    (by simp [endLoad]) ⟨?_, ?_, ?_, ?_⟩ ⟨?_, ?_⟩
  all_goals simpa [withByte]

/-- Every command keeps `Coherent`: most leave all that it reads as it is; each of the others has its lemma above. -/
theorem effect_coherent (i : Instr) (s t : State) (h : Coherent s) (he : Effect i s t) : Coherent t := by
  cases he with
  | reset | restartReset | leaveTimeout => exact resetState_coherent _ _ _
  | tick a p => exact tick_coherent a p s h
  | byteFail b r _ _ hl => exact endLoad_failed_coherent r _ (h.of_view (t := withByte b s) rfl) hl
  | byteReady b g _ _ hl => exact loadReady_coherent g b s h hl
  | listenTimeout c _ _ hc hs => exact setClusterTime_change_coherent c .founding _ _ s h hc (.inl hs) rfl
  | correction c _ _ hc hb =>
    rw [correctionAt_eq]
    exact settleEvent_coherent c _ _ _ _ (corrected_coherent c _ s h (by simp [hb]))
      (by simpa [corrected, awaitNext] using hc)
  | beaconDue c d _ _ _ hd =>
    have ha : s.syc.state.active = true := h.beacon.1 (by simp [hd])
    refine h.of_stands ⟨rfl, rfl, rfl, rfl, rfl, by simp [Machine.beaconDue, hd], rfl⟩ (fun _ hu => ?_)
      (fun hn => by simp [ha] at hn)
    exact ⟨hu.debt, hu.hold, hu.schedule, hu.queue⟩
  | startTrigger c e rest _ _ _ _ _ _ hq =>
    exact h.of_synced (h.synced_of_queue hq) ⟨rfl, rfl, rfl, rfl, rfl, rfl, rfl⟩
  | startBeacon c b _ _ _ _ ha =>
    refine h.of_stands ⟨rfl, rfl, rfl, rfl, rfl, rfl, rfl⟩ (fun _ hu => ?_) (fun hn => by simp [ha] at hn)
    exact ⟨hu.debt, hu.hold, hu.schedule, hu.queue⟩
  | reference f _ _ hf =>
    refine h.of_stands ⟨?_, ?_, ?_, ?_, ?_, ?_, ?_⟩ (fun _ hu => ⟨?_, ?_, ?_, ?_⟩) (fun _ hl => ⟨?_, ?_⟩)
    all_goals simp
    exacts [hu.debt, hu.hold, hu.schedule, hu.queue, hl.slot, hl.onLine f hf]
  | collidePurged =>
    refine h.of_stands ⟨rfl, rfl, rfl, rfl, rfl, rfl, rfl⟩ (fun _ hu => ?_) (fun _ hl => ?_)
    · exact ⟨hu.debt, hu.hold, hu.schedule, hu.queue⟩
    · exact ⟨hl.slot, by simp [afterCollision]⟩
  | collideTrigger c => exact collideTrigger_coherent c s h
  | collideBeacon c f b _ _ _ _ _ hf hp => exact collideBeacon_coherent c b s h (h.active_of_onLine hf hp)
  | completeTrigger f => exact completeTrigger_coherent f.purged s h
  | completeBeacon _ _ _ l => exact completeBeacon_coherent l s h
  | beacon _ l k c b _ _ _ _ _ hc =>
    exact deliverBeacon_coherent c b l k _ (h.of_view rfl) (by simpa [countReceived, afterReception] using hc)
  | trigger _ _ _ c t => exact judgeTriggerFrame_coherent c t _ (h.of_view rfl)
  | edge l c ic cand => exact qualifyEdge_coherent c l ic cand s h
  | fire e rest _ _ hq => exact fireEntry_coherent none e rest s h hq
  | raise _ k c => exact (raiseTrigger_coherent c k _ true s h).of_view rfl
  | cancel _ k => exact cancelCommand_coherent k s h
  | restartLeave _ _ _ _ _ _ ha =>
    refine h.of_stands ⟨rfl, rfl, rfl, rfl, rfl, rfl, rfl⟩ (fun _ hu => ?_) (fun hn => by simp [ha] at hn)
    exact ⟨hu.debt, hu.hold, hu.schedule, hu.queue⟩
  | _ =>
    exact h.of_view (by simp [syncView, Machine.release, Machine.tickInReset, withByte, afterReception, countReceived])

/-- What every command's effect keeps is kept by every step (exec_effect). -/
theorem step_keeps_of_effect (P : State → Prop) (hq : ∀ s q, P s → P (s.withPending q))
    (he : ∀ i s t, P s → Effect i s t → P t) (s t : State) (h : P s) (hst : step s = .next t) : P t := by
  refine step_keeps P hq (fun i s t h hx => ?_) s t h hst
  rcases exec_effect i s t hx with rfl | hx
  · exact h
  · exact he i s t h hx

theorem step_coherent (s t : State) (h : Coherent s) (hst : step s = .next t) : Coherent t :=
  step_keeps_of_effect Coherent (fun _ _ h => h.of_view rfl) effect_coherent s t h hst

/-- Settles O58: the commands that change a sync state, a debt, the schedule or the line are taken one by one. -/
theorem syncStateStaysCoherent : Obligations.SyncStateStaysCoherent := by
  unfold Obligations.SyncStateStaysCoherent
  exact fun s t hst h => step_coherent s t h hst

end Sys2Proof.Machine

/-! ## Counts and channels stay true (O60) -/

namespace Sys2Proof.Machine

/-! ### A collision's own blocks -/

/-- A collision reaches the line and the flags alone (R70, R71). -/
theorem collideTrigger_frame (c : Cfg) (s : State) :
    collideTrigger c s = { s with lif := (collideTrigger c s).lif, rdp := (collideTrigger c s).rdp } := by
  unfold collideTrigger
  split
  · dsimp only
    split <;> rfl
  · rfl

theorem collideBeacon_frame (c : Cfg) (b : BeaconEntry) (s : State) :
    collideBeacon c b s = { s with lif := (collideBeacon c b s).lif, rdp := (collideBeacon c b s).rdp } := by
  unfold collideBeacon
  dsimp only
  split <;> rfl

/-! ### The correction statistics (R17) -/

theorem StatisticsBracketed.of_eq {s t : State} (h : StatisticsBracketed s)
    (hmin : t.tbu.minCorrection = s.tbu.minCorrection) (hmax : t.tbu.maxCorrection = s.tbu.maxCorrection)
    (hlast : t.tbu.lastCorrection = s.tbu.lastCorrection) : StatisticsBracketed t := by
  obtain ⟨h1, h2, h3, h4⟩ := h
  exact ⟨by rw [hmin]; exact h1, by rw [hmax]; exact h2, by rw [hmin, hlast]; exact h3, by rw [hlast, hmax]; exact h4⟩

theorem StatisticsBracketed.of_tbu {s t : State} (h : StatisticsBracketed s) (ht : t.tbu = s.tbu) :
    StatisticsBracketed t :=
  h.of_eq (by rw [ht]) (by rw [ht]) (by rw [ht])

theorem resetState_statistics (cause : ResetCause) (hold : Nat) (s : State) :
    StatisticsBracketed (resetState cause hold s) := by
  constructor <;> simp [Tbu.reset]

theorem changeState_statistics (c : Cfg) (new : SyncState) (r : Reason) (mid : State → State) (s : State)
    (hmid : mid = id ∨ ∃ b, mid = fireSome b) (h : StatisticsBracketed s) :
    StatisticsBracketed (changeState c new r mid s) := by
  have ht := changeState_tbu c new r mid s (by rcases hmid with rfl | ⟨b, rfl⟩ <;> simp)
  split at ht <;> exact h.of_eq (by rw [ht]) (by rw [ht]) (by rw [ht])

theorem applyOutcome_statistics (o : Outcome) (s : State) (h : StatisticsBracketed s) :
    StatisticsBracketed (applyOutcome o s) := by
  cases o with
  | none => exact h
  | exceeded x => exact h
  | applied x =>
    obtain ⟨h1, h2, -, -⟩ := h
    constructor <;> simp [applyOutcome, countCorrection, h1, h2]

theorem correctionAt_statistics (c : Cfg) (b : Time) (s : State) (h : StatisticsBracketed s) :
    StatisticsBracketed (correctionAt c b s) := by
  have hcorrected : StatisticsBracketed (corrected c b s) :=
    (applyOutcome_statistics _ (awaitNext c b s) (h.of_eq rfl rfl rfl)).of_tbu (ageRecords_tbu c _)
  rw [correctionAt_eq]
  refine settleEvent_keeps StatisticsBracketed c _ _ _ _ hcorrected ?_ ?_ ?_ ?_
  · exact fun r s h => h.of_tbu (by simp)
  · exact fun s h => h.of_tbu (by simp)
  · exact fun s h => h.of_tbu (by simp)
  · exact fun new reason mid s h hmid _ =>
      changeState_statistics c new reason mid s (hmid.imp_right fun hm => ⟨_, hm⟩) h

theorem setClusterTime_statistics (c : Cfg) (x : Time) (s : State) (h : StatisticsBracketed s) :
    StatisticsBracketed (setClusterTime c x s) :=
  h.of_eq (by simp) (by simp) (by simp)

theorem deliverBeacon_statistics (c : Cfg) (b : Beacon) (l k : Time) (s : State) (h : StatisticsBracketed s) :
    StatisticsBracketed (deliverBeacon c b l k s) :=
  deliverBeacon_keeps StatisticsBracketed c b l k s h (fun _ _ h => h.of_tbu rfl)
    (fun _ => changeState_statistics c _ _ id s (.inl rfl) h) (fun _ _ _ => h.of_tbu (by simp))
    (fun reason s h _ => changeState_statistics c _ reason id _ (.inl rfl) (setClusterTime_statistics c _ s h))

theorem tick_statistics (a : Bool) (p : BitVec 8) (s : State) (h : StatisticsBracketed s) :
    StatisticsBracketed (tick a p s) := by
  refine h.of_eq ?_ ?_ ?_ <;> simp only [tick, Tbu.tick] <;> split_ifs <;> rfl

theorem qualifyEdge_tbu (c : Cfg) (l : LineNo) (ic : InputCfg) (cand : Candidate) (s : State) :
    (qualifyEdge c l ic cand s).tbu = s.tbu :=
  qualifyEdge_keeps (fun x => x.tbu = s.tbu) c l ic cand s rfl (by simp) (by simp) (by simp)
    (fun r u h _ => by simpa using h)

theorem judgeTriggerFrame_tbu (c : Cfg) (t : Trigger) (s : State) : (judgeTriggerFrame c t s).tbu = s.tbu :=
  judgeTriggerFrame_keeps (fun x => x.tbu = s.tbu) c t s rfl (fun _ _ h _ _ _ => h) (fun _ => rfl)
    (fun u h _ => by simpa using h)

/-- The steps that set cluster time, and the correction, are the ones that reach the Timebase's counts. -/
theorem effect_statistics (i : Instr) (s t : State) (h : StatisticsBracketed s) (he : Effect i s t) :
    StatisticsBracketed t := by
  cases he with
  | reset | restartReset | leaveTimeout => exact resetState_statistics _ _ _
  | tick a p => exact tick_statistics a p s h
  | byteReady g => exact changeState_statistics _ _ _ id _ (.inl rfl) (h.of_tbu (by simp [withByte]))
  | listenTimeout c => exact changeState_statistics c _ _ id _ (.inl rfl) (setClusterTime_statistics c _ s h)
  | correction c => exact correctionAt_statistics c _ s h
  | collideTrigger c => exact h.of_tbu (by rw [collideTrigger_frame]; rfl)
  | collideBeacon c => exact h.of_tbu (by rw [collideBeacon_frame]; rfl)
  | completeBeacon _ _ _ l =>
    unfold completeBeacon
    dsimp only
    split
    · exact resetState_statistics _ _ _
    · exact h.of_tbu rfl
  | beacon _ l k c b => exact deliverBeacon_statistics c b l k _ (h.of_tbu rfl)
  | trigger => exact h.of_tbu (by rw [judgeTriggerFrame_tbu]; rfl)
  | edge => exact h.of_tbu (by rw [qualifyEdge_tbu])
  | raise => exact h.of_tbu (by simp [raiseCommand])
  | _ =>
    exact h.of_tbu (by
      simp [Machine.release, Machine.tickInReset, withByte, Machine.beaconDue, afterCollision, afterReception,
        Machine.completeTrigger, afterComplete, countReceived, cancelCommand, beginLeave])

/-! ### The own sequence counter (R85, R89) -/

theorem SequenceCounted.of_tge {s t : State} (h : SequenceCounted s) (ht : t.tge = s.tge) : SequenceCounted t := by
  unfold SequenceCounted at *
  rw [ht, h]

theorem resetState_sequence (cause : ResetCause) (hold : Nat) (s : State) :
    SequenceCounted (resetState cause hold s) := by
  simp [SequenceCounted, Tge.reset]

theorem enqueue_sequence (c : Cfg) (t : Trigger) (s : State) (h : SequenceCounted s) :
    SequenceCounted (enqueue c t s) := by
  unfold SequenceCounted at *
  simp only [enqueue, State.withLif_tge, State.withTge_tge, h]
  exact (BitVec.setWidth_add s.tge.raised 1 (by decide)).symm

theorem insertion_sequence (t : Trigger) (s : State) (im : MapIndex × MapEntry) (h : SequenceCounted s) :
    SequenceCounted (fireSome none (insertAction t s im)) :=
  h.of_tge (by simp)

theorem process_sequence (c : Cfg) (n : Nat) (t : Trigger) (s : State) (h : SequenceCounted s) :
    SequenceCounted (process c n t s) :=
  process_keeps SequenceCounted c insertion_sequence (fun _ _ h => h) (fun _ h => h)
    (fun t s h _ => enqueue_sequence c t s h) n t s h

theorem raiseTrigger_sequence (c : Cfg) (k : TrigClass) (x : Time) (b : Bool) (s : State) (h : SequenceCounted s) :
    SequenceCounted (raiseTrigger c k x b s).1 :=
  raiseTrigger_keeps SequenceCounted c insertion_sequence (fun _ _ h => h) (fun _ h => h)
    (fun t _ s h _ => enqueue_sequence c t s h) k x b s h

theorem judgeTriggerFrame_sequence (c : Cfg) (t : Trigger) (s : State) (h : SequenceCounted s) :
    SequenceCounted (judgeTriggerFrame c t s) := by
  refine judgeTriggerFrame_keeps SequenceCounted c t s h (fun s g h hs hr _ => ?_) (fun _ => h)
    (fun s h _ => process_sequence c 4 t s h)
  unfold SequenceCounted at *
  rw [State.withTge_tge, hs, hr, h]

theorem qualifyEdge_sequence (c : Cfg) (l : LineNo) (ic : InputCfg) (cand : Candidate) (s : State)
    (h : SequenceCounted s) : SequenceCounted (qualifyEdge c l ic cand s) :=
  qualifyEdge_keeps SequenceCounted c l ic cand s h (fun _ _ h => h) (raiseTrigger_sequence c) (fun _ h => h)
    (fun _ _ h _ => h.of_tge (by simp))

theorem settleEvent_tge (c : Cfg) (o : Outcome) (a : Nat) (before : Time) (s : State) :
    (settleEvent c o a before s).tge = s.tge := by
  refine settleEvent_keeps (fun x => x.tge = s.tge) c o a before s rfl ?_ ?_ ?_ ?_
  · exact fun _ _ h => by simpa using h
  · exact fun _ h => by simpa using h
  · exact fun _ h => by simpa using h
  · rintro new reason mid u hu (rfl | rfl) - <;> simpa using hu

theorem correctionAt_tge (c : Cfg) (b : Time) (s : State) : (correctionAt c b s).tge = s.tge := by
  rw [correctionAt_eq, settleEvent_tge]
  simp [corrected, awaitNext]

theorem deliverBeacon_tge (c : Cfg) (b : Beacon) (l k : Time) (s : State) : (deliverBeacon c b l k s).tge = s.tge :=
  deliverBeacon_keeps (fun x => x.tge = s.tge) c b l k s rfl (fun _ _ h => h) (fun _ => by simp) (fun _ _ _ => by simp)
    (fun _ _ h _ => by simpa [adopt] using h)

/-- A raise takes one sequence and is counted once; no other step but a reset touches either. -/
theorem effect_sequence (i : Instr) (s t : State) (h : SequenceCounted s) (he : Effect i s t) : SequenceCounted t := by
  cases he with
  | reset | restartReset | leaveTimeout => exact resetState_sequence _ _ _
  | correction c => exact h.of_tge (correctionAt_tge c _ s)
  | collideTrigger c => exact h.of_tge (by rw [collideTrigger_frame]; rfl)
  | collideBeacon c => exact h.of_tge (by rw [collideBeacon_frame]; rfl)
  | completeBeacon _ _ _ l =>
    unfold completeBeacon
    dsimp only
    split
    · exact resetState_sequence _ _ _
    · exact h
  | beacon => exact h.of_tge (by rw [deliverBeacon_tge]; rfl)
  | trigger _ _ _ c t => exact judgeTriggerFrame_sequence c t _ h
  | edge l c ic cand => exact qualifyEdge_sequence c l ic cand s h
  | raise _ k c => exact raiseTrigger_sequence c k _ true s h
  | _ =>
    exact h.of_tge (by
      simp [Machine.release, Machine.tickInReset, Machine.tick, withByte, Machine.beaconDue, afterCollision,
        afterReception, Machine.completeTrigger, afterComplete, countReceived, cancelCommand, beginLeave, loadReady,
        found])

/-! ### The output channels (R137, R144) -/

theorem ChannelsFormed.of_channels {s t : State} (h : ChannelsFormed s) (ht : t.tlu.channels = s.tlu.channels) :
    ChannelsFormed t := by
  unfold ChannelsFormed at *
  rwa [ht]

/-- An action starts with its whole width to run. -/
theorem Action.start_formed (a : Action) : a.start.Formed := by
  cases a <;> simp [Action.start, Channel.Formed]

theorem Channel.take_formed (q : Retrigger) (a : Action) (ch x : Channel) (h : ch.take q a = some x) : x.Formed := by
  have hx : x = a.start := by
    unfold Channel.take at h
    split at h <;> cases h <;> rfl
  rw [hx]
  exact a.start_formed

theorem Channel.trainEnd_formed (ch : Channel) (h : ch.Formed) : ch.trainEnd.Formed := by
  cases ch with
  | idle => trivial
  | held => trivial
  | active w g r n => exact h
  | gap w g r n => trivial

theorem Channel.tick_formed (ch : Channel) (h : ch.Formed) : ch.tick.Formed := by
  cases ch with
  | idle => trivial
  | held => trivial
  | active w g r n => exact (Nat.sub_le r 1).trans h
  | gap w g r n => exact ⟨(Nat.sub_le r 1).trans h.1, h.2⟩

/-- A width that has run out leaves a whole gap where pulses are to come. -/
theorem Channel.widthExpiry_formed (ch : Channel) (h : ch.Formed) : ch.widthExpiry.Formed := by
  unfold Channel.widthExpiry
  split
  · exact ⟨le_rfl, by omega⟩
  · trivial
  · exact h
  · exact h
  · trivial
  · trivial

theorem Channel.gapExpiry_formed (ch : Channel) (h : ch.Formed) : ch.gapExpiry.Formed := by
  unfold Channel.gapExpiry
  split
  · exact le_refl _
  · exact h
  · exact h
  · trivial
  · trivial

theorem setChannel_formed (l : LineNo) (ch : Channel) (s : State) (h : ChannelsFormed s) (hc : ch.Formed) :
    ChannelsFormed (setChannel l ch s) := by
  intro k
  simp only [setChannel, State.withTlu_tlu, get_set]
  split
  · exact hc
  · exact h k

theorem mapChannels_formed (f : Channel → Channel) (s t : State) (h : ChannelsFormed s)
    (hf : ∀ ch : Channel, ch.Formed → (f ch).Formed) (ht : t.tlu.channels = s.tlu.channels.map f) :
    ChannelsFormed t := by
  intro l
  rw [ht, get_map]
  exact hf _ (h l)

theorem fireCommand_formed (a : Action) (s : State) (l : LineNo) (h : ChannelsFormed s) :
    ChannelsFormed (fireCommand a s l) := by
  unfold fireCommand
  split
  · split
    · exact setChannel_formed l _ s h (Channel.take_formed _ _ _ _ ‹_›)
    · exact h.of_channels (by simp)
  · exact h
  · exact h

theorem fireEntry_formed (b : Option Time) (e : SchedEntry) (rest : List SchedEntry) (s : State)
    (h : ChannelsFormed s) : ChannelsFormed (fireEntry b e rest s) := by
  have hfired : ChannelsFormed ((lineList e.lines).foldl (fireCommand e.action)
      (s.withScu { s.scu with entries := rest, space := freePlace e.part s.scu.space })) :=
    foldl_keeps ChannelsFormed _ (fun s l => fireCommand_formed e.action s l) _ _ h
  unfold fireEntry
  dsimp only
  split
  · exact hfired.of_channels (by simp)
  · exact hfired

theorem fireDue_formed (b : Option Time) (s : State) (h : ChannelsFormed s) : ChannelsFormed (fireDue b s) :=
  fireDue_keeps ChannelsFormed b (fun e r s h _ _ => fireEntry_formed b e r s h) s h

theorem fireSome_formed (b : Option Time) (s : State) (h : ChannelsFormed s) : ChannelsFormed (fireSome b s) :=
  fireSome_keeps ChannelsFormed b (fun e r s h _ _ => fireEntry_formed b e r s h) (fun _ _ h => h) s h

/-- A change of sync state reaches the channels by the train end order, and by what fires behind it (R147, R148). -/
theorem changeState_formed (c : Cfg) (new : SyncState) (r : Reason) (mid : State → State) (s : State)
    (hmid : mid = id ∨ ∃ b, mid = fireSome b) (h : ChannelsFormed s) : ChannelsFormed (changeState c new r mid s) := by
  have hset : ChannelsFormed (setSyncState c new s) := h.of_channels (by simp)
  have hend : ChannelsFormed (trainEnd (dropTime s.syc.state.synced (setSyncState c new s))) :=
    mapChannels_formed Channel.trainEnd _ _ hset Channel.trainEnd_formed rfl
  have hmet : ChannelsFormed (mid (trainEnd (dropTime s.syc.state.synced (setSyncState c new s)))) := by
    rcases hmid with rfl | ⟨b, rfl⟩
    · exact hend
    · exact fireSome_formed b _ hend
  unfold changeState
  dsimp only
  split
  · split
    · exact hset.of_channels (by simp)
    · exact hmet.of_channels (by simp)
  · exact hset.of_channels (by simp)

theorem correctionAt_formed (c : Cfg) (b : Time) (s : State) (h : ChannelsFormed s) :
    ChannelsFormed (correctionAt c b s) := by
  rw [correctionAt_eq]
  refine settleEvent_keeps ChannelsFormed c _ _ _ _ (h.of_channels (by simp [corrected, awaitNext])) ?_ ?_ ?_ ?_
  · exact fun r s h => h.of_channels (by simp)
  · exact fun s h => fireDue_formed _ s h
  · exact fun s h => fireSome_formed _ s h
  · exact fun new reason mid s h hmid _ =>
      changeState_formed c new reason mid s (hmid.imp_right fun hm => ⟨_, hm⟩) h

theorem deliverBeacon_formed (c : Cfg) (b : Beacon) (l k : Time) (s : State) (h : ChannelsFormed s) :
    ChannelsFormed (deliverBeacon c b l k s) :=
  deliverBeacon_keeps ChannelsFormed c b l k s h (fun _ _ h => h)
    (fun _ => changeState_formed c _ _ id s (.inl rfl) h) (fun _ _ _ => h.of_channels (by simp))
    (fun reason s h _ => changeState_formed c _ reason id _ (.inl rfl) (h.of_channels (by simp)))

theorem insertion_formed (t : Trigger) (s : State) (im : MapIndex × MapEntry) (h : ChannelsFormed s) :
    ChannelsFormed (fireSome none (insertAction t s im)) :=
  fireSome_formed none _ (h.of_channels (by simp))

theorem process_formed (c : Cfg) (n : Nat) (t : Trigger) (s : State) (h : ChannelsFormed s) :
    ChannelsFormed (process c n t s) :=
  process_keeps ChannelsFormed c insertion_formed (fun _ _ h => h) (fun _ h => h) (fun _ _ h _ => h) n t s h

theorem raiseTrigger_formed (c : Cfg) (k : TrigClass) (x : Time) (b : Bool) (s : State) (h : ChannelsFormed s) :
    ChannelsFormed (raiseTrigger c k x b s).1 :=
  raiseTrigger_keeps ChannelsFormed c insertion_formed (fun _ _ h => h) (fun _ h => h) (fun _ _ _ h _ => h) k x b s h

theorem judgeTriggerFrame_formed (c : Cfg) (t : Trigger) (s : State) (h : ChannelsFormed s) :
    ChannelsFormed (judgeTriggerFrame c t s) :=
  judgeTriggerFrame_keeps ChannelsFormed c t s h (fun _ _ h _ _ _ => h) (fun _ => h)
    (fun s h _ => process_formed c 4 t s h)

theorem qualifyEdge_formed (c : Cfg) (l : LineNo) (ic : InputCfg) (cand : Candidate) (s : State)
    (h : ChannelsFormed s) : ChannelsFormed (qualifyEdge c l ic cand s) :=
  qualifyEdge_keeps ChannelsFormed c l ic cand s h (fun _ _ h => h) (raiseTrigger_formed c) (fun _ h => h)
    (fun _ _ h _ => h.of_channels (by simp))

theorem resetState_formed (cause : ResetCause) (hold : Nat) (s : State) : ChannelsFormed (resetState cause hold s) := by
  intro l
  simp [Tlu.reset, Channel.Formed]

/-- Channels change by a tick, an expiry, a fire command and the train end order alone. -/
theorem effect_formed (i : Instr) (s t : State) (h : ChannelsFormed s) (he : Effect i s t) : ChannelsFormed t := by
  cases he with
  | reset | restartReset | leaveTimeout => exact resetState_formed _ _ _
  | tick a p => exact mapChannels_formed Channel.tick s _ h Channel.tick_formed rfl
  | byteReady g => exact changeState_formed _ _ _ id _ (.inl rfl) (h.of_channels (by simp [withByte]))
  | listenTimeout c => exact changeState_formed c _ _ id _ (.inl rfl) (h.of_channels (by simp))
  | correction c => exact correctionAt_formed c _ s h
  | collideTrigger c => exact h.of_channels (by rw [collideTrigger_frame]; rfl)
  | collideBeacon c => exact h.of_channels (by rw [collideBeacon_frame]; rfl)
  | completeBeacon _ _ _ l =>
    unfold completeBeacon
    dsimp only
    split
    · exact resetState_formed _ _ _
    · exact h
  | beacon _ l k c b => exact deliverBeacon_formed c b l k _ h
  | trigger _ _ _ c t => exact judgeTriggerFrame_formed c t _ h
  | edge l c ic cand => exact qualifyEdge_formed c l ic cand s h
  | fire e rest => exact fireEntry_formed none e rest s h
  | widthExpiry l => exact setChannel_formed l _ s h (Channel.widthExpiry_formed _ (h l))
  | gapExpiry l => exact setChannel_formed l _ s h (Channel.gapExpiry_formed _ (h l))
  | raise _ k c => exact raiseTrigger_formed c k _ true s h
  | _ =>
    exact h.of_channels (by
      simp [Machine.release, Machine.tickInReset, withByte, Machine.beaconDue, afterCollision, afterReception,
        Machine.completeTrigger, afterComplete, countReceived, cancelCommand, beginLeave])

/-- Settles O60, by the three invariants of `Effect`. -/
theorem countsAndChannelsStayTrue : Obligations.CountsAndChannelsStayTrue := by
  unfold Obligations.CountsAndChannelsStayTrue
  exact fun s t hst =>
    ⟨fun h => step_keeps_of_effect _ (fun _ _ h => h.of_tbu rfl) effect_statistics s t h hst,
      fun h => step_keeps_of_effect _ (fun _ _ h => h) effect_sequence s t h hst,
      fun h => step_keeps_of_effect _ (fun _ _ h => h) effect_formed s t h hst⟩

end Sys2Proof.Machine

/-! ## The tick, cluster time within SYNC, and what follows the state (O8, O9, O24, O55, O3, O50) -/

namespace Sys2Proof.Machine

/-! ### The clocks at a tick (R1, R2) -/

theorem execTick_running (a : Bool) (p : BitVec 8) (s : State) (h : s.src.inReset = false) :
    exec (.tick a p) s = .next (tick a p s) := by
  simp [exec, execTick, h]

@[simp] theorem tick_tbu (a : Bool) (p : BitVec 8) (s : State) : (tick a p s).tbu = s.tbu.tick := rfl

/-- The three courses of R2. -/
theorem Tbu.tick_advances (x : Tbu) (hh : x.hold = false) (hd : x.slewDebt = 0) :
    x.tick = { x with localClock := timeOnward x.localClock 1, clusterTime := timeOnward x.clusterTime 1 } := by
  simp [Tbu.tick, hh, hd]

theorem Tbu.tick_holds (x : Tbu) (hh : x.hold = false) (hd : 0 < x.slewDebt) :
    x.tick = { x with localClock := timeOnward x.localClock 1, slewDebt := x.slewDebt - 1, hold := true } := by
  simp [Tbu.tick, hh, Nat.pos_iff_ne_zero.1 hd]

theorem Tbu.tick_afterHold (x : Tbu) (hh : x.hold = true) :
    x.tick = { x with
      localClock := timeOnward x.localClock 1, clusterTime := timeOnward x.clusterTime 1, hold := false } := by
  simp [Tbu.tick, hh]

@[simp] theorem Tbu.tick_localClock (x : Tbu) : x.tick.localClock = timeOnward x.localClock 1 := by
  unfold Tbu.tick; dsimp only; split_ifs <;> rfl

/-- A tick changes the two clocks, the debt and the hold marker alone. -/
theorem Tbu.tick_frame (x : Tbu) :
    x.tick = { x with
      localClock := x.tick.localClock, clusterTime := x.tick.clusterTime, slewDebt := x.tick.slewDebt,
      hold := x.tick.hold } := by
  unfold Tbu.tick; dsimp only; split_ifs <;> rfl

/-- One tick of debt is paid in two ticks: the first holds, the second advances. -/
theorem Tbu.tick_tick_pays (x : Tbu) (hh : x.hold = false) (hd : 0 < x.slewDebt)
    (hc : x.clusterTime.toNat + 1 < 2 ^ 64) :
    x.tick.tick.hold = false ∧ x.tick.tick.slewDebt = x.slewDebt - 1 ∧
      x.tick.tick.clusterTime.toNat = x.clusterTime.toNat + 1 := by
  rw [x.tick_holds hh hd, Tbu.tick_afterHold _ rfl]
  exact ⟨rfl, rfl, timeOnward_toNat _ 1 hc⟩

/-- A debt of k is paid in 2k − 1 ticks, over which cluster time advances k − 1; the next tick advances (R2). -/
theorem Tbu.debt_paid (k : Nat) (x : Tbu) (hk : 0 < k) (hh : x.hold = false) (hd : x.slewDebt = k)
    (hc : x.clusterTime.toNat + k < 2 ^ 64) :
    (Tbu.tick^[2 * k - 1] x).slewDebt = 0 ∧
      (Tbu.tick^[2 * k - 1] x).clusterTime.toNat = x.clusterTime.toNat + (k - 1) ∧
      (Tbu.tick^[2 * k] x).clusterTime.toNat = x.clusterTime.toNat + k := by
  induction k generalizing x with
  | zero => cases hk
  | succ k ih =>
    obtain ⟨hh2, hd2, hc2⟩ := x.tick_tick_pays hh (by omega) (by omega)
    cases k with
    | zero =>
      refine ⟨?_, ?_, hc2⟩ <;> simp only [Function.iterate_one, Nat.zero_add, Nat.mul_one, Nat.reduceSub]
      · rw [x.tick_holds hh (by omega)]; simp [hd]
      · rw [x.tick_holds hh (by omega)]; rfl
    | succ k =>
      obtain ⟨h1, h2, h3⟩ := ih x.tick.tick (by omega) hh2 (by omega) (by omega)
      rw [show 2 * (k + 1 + 1) - 1 = 2 * (k + 1) - 1 + 2 by omega, show 2 * (k + 1 + 1) = 2 * (k + 1) + 2 by omega,
        Function.iterate_add_apply, Function.iterate_add_apply]
      exact ⟨h1, by rw [show Tbu.tick^[2] x = x.tick.tick from rfl, h2]; omega,
        by rw [show Tbu.tick^[2] x = x.tick.tick from rfl, h3]; omega⟩

/-- Settles O8: the three courses by their equations, the debt by induction on k. -/
theorem tickRunsTheClocks : Obligations.TickRunsTheClocks := by
  unfold Obligations.TickRunsTheClocks
  refine ⟨fun a p s hr hl hc => ⟨_, execTick_running a p s hr, ?_, ?_, ?_, ?_⟩,
    fun k x hk hh hd _ hc => Tbu.debt_paid k x hk hh hd hc⟩
  · simpa using timeOnward_toNat _ 1 hl
  · intro hh hd
    rw [tick_tbu, Tbu.tick_advances _ hh hd]
    exact ⟨timeOnward_toNat _ 1 hc, hd, hh⟩
  · intro hh hd
    rw [tick_tbu, Tbu.tick_holds _ hh hd]
    exact ⟨rfl, rfl, rfl⟩
  · intro hh
    rw [tick_tbu, Tbu.tick_afterHold _ hh]
    exact ⟨timeOnward_toNat _ 1 hc, rfl, rfl⟩

/-! ### What else a tick does (R39, R63, R74, R144, R184) -/

/-- The idle timer at a quiet tick: its largest value is free, at or above 2,710 (R63). -/
theorem idleQuiet_below (n : Nat) (h : n < 2710) : idleQuiet n = n + 1 := if_pos h

theorem idleQuiet_above (n : Nat) (h : 2710 ≤ n) : idleQuiet n = n ∨ idleQuiet n = n + 1 := by
  rw [idleQuiet, if_neg (by omega)]
  split
  · exact .inr rfl
  · exact .inl rfl

theorem Receiver.tick_eq (n : Nat) (r : Receiver) :
    r.tick n = if r = .ignoring ∧ 20 ≤ n then .ready else r := by
  by_cases hn : 20 ≤ n <;> cases r <;> simp [Receiver.tick, Config.frameEndTicks, hn]

theorem tick_channel (a : Bool) (p : BitVec 8) (s : State) (l : LineNo) :
    (tick a p s).tlu.channels.get l = (s.tlu.channels.get l).tick := by
  simp [tick, Tlu.tick]

/-- Settles O9: block by block, the channels by their four states. -/
theorem tickRunsTheTimers : Obligations.TickRunsTheTimers := by
  unfold Obligations.TickRunsTheTimers
  intro a p s hr
  refine ⟨_, execTick_running a p s hr, ?_, ?_, ?_, ?_, Receiver.tick_eq _ _, fun l => ?_⟩
  · rw [tick_tbu, ← Tbu.tick_frame]
    rfl
  · rintro (ha | ho)
    · simp [tick, Lif.tick, ha]
    · simp [tick, Lif.tick, ho]
  · intro ha ho hi
    simpa [tick, Lif.tick, ha, ho] using idleQuiet_below _ hi
  · intro ha ho hi
    simpa [tick, Lif.tick, ha, ho] using idleQuiet_above _ hi
  · rw [tick_channel]
    refine ⟨fun w g r n h => ?_, fun w g r n h => ?_, fun h => ?_, fun h => ?_⟩ <;> rw [h] <;> rfl

/-! ### Cluster time within SYNC, STABLE and HOLDOVER (R3) -/

theorem Tbu.tick_clusterTime_le (x : Tbu) : x.clusterTime.toNat ≤ x.tick.clusterTime.toNat := by
  unfold Tbu.tick
  dsimp only
  split_ifs
  · exact timeOnward_le _ _
  · exact timeOnward_le _ _
  · exact le_rfl

/-- A correction outside TENTATIVE steps forward or leaves cluster time to the slew (R15). -/
theorem applyOutcome_clusterTime_le (o : Outcome) (s : State) (ht : s.syc.state ≠ .tentative) :
    s.tbu.clusterTime.toNat ≤ (applyOutcome o s).tbu.clusterTime.toNat := by
  cases o with
  | none => exact le_rfl
  | exceeded x => exact le_rfl
  | applied x =>
    simp only [applyOutcome, countCorrection_tbu_clusterTime, stepTime]
    split_ifs
    · exact timeOnward_le _ _
    · exact le_rfl
    · exact le_rfl

theorem settleEvent_clusterTime (c : Cfg) (o : Outcome) (a : Nat) (before : Time) (s : State) :
    (settleEvent c o a before s).tbu.clusterTime = s.tbu.clusterTime := by
  refine settleEvent_keeps (fun x => x.tbu.clusterTime = s.tbu.clusterTime) c o a before s rfl ?_ ?_ ?_ ?_
  · exact fun _ _ h => by simpa using h
  · exact fun _ h => by simpa using h
  · exact fun _ h => by simpa using h
  · rintro new reason mid u hu hmid -
    exact (changeState_clusterTime c new reason mid u (by rcases hmid with rfl | rfl <;> simp)).trans hu

/-- A beacon is adopted in LISTEN and FOUNDING alone (R44, R47): elsewhere cluster time stands. -/
theorem deliverBeacon_clusterTime (c : Cfg) (b : Beacon) (l k : Time) (s : State) (hs : s.syc.state.synced = true) :
    (deliverBeacon c b l k s).tbu.clusterTime = s.tbu.clusterTime := by
  have hnot : ∀ x : SyncState, x.synced = true → ¬(x = .listen ∨ x = .founding ∨ x = .tentative) := by
    rintro x hx (rfl | rfl | rfl) <;> cases hx
  refine (deliverBeacon_keeps (fun x => x.tbu.clusterTime = s.tbu.clusterTime ∧ x.syc.state.synced = true) c b l k s
    ⟨rfl, hs⟩ ?_ ?_ ?_ ?_).1
  · exact fun _ _ h => h
  · exact fun h => absurd h (hnot _ hs)
  · exact fun _ _ _ => by simpa using hs
  · exact fun _ u hu h => absurd (h.imp_right .inl) (hnot _ hu.2)

theorem effect_clusterTime_le (i : Instr) (s t : State) (hs : s.syc.state.synced = true)
    (ht : t.syc.state.synced = true) (he : Effect i s t) : s.tbu.clusterTime.toNat ≤ t.tbu.clusterTime.toNat := by
  have hreset : ∀ cause hold u, (resetState cause hold u).syc.state.synced ≠ true := by
    simp [Syc.reset, SyncState.synced]
  cases he with
  | reset | restartReset | leaveTimeout => exact absurd ht (hreset _ _ _)
  | tick a p => exact s.tbu.tick_clusterTime_le
  | byteReady g => simp [loadReady, SyncState.synced] at ht
  | listenTimeout c _ _ _ hl => simp [hl, SyncState.synced] at hs
  | correction c =>
    rw [correctionAt_eq, settleEvent_clusterTime, corrected, ageRecords_tbu]
    refine applyOutcome_clusterTime_le _ (awaitNext c _ s) fun ht => ?_
    rw [show s.syc.state = .tentative from ht] at hs
    cases hs
  | collideTrigger c => rw [collideTrigger_frame]; exact le_rfl
  | collideBeacon c => rw [collideBeacon_frame]; exact le_rfl
  | completeBeacon _ _ _ l =>
    unfold completeBeacon at ht ⊢
    dsimp only at ht ⊢
    split at ht
    · exact absurd ht (hreset _ _ _)
    · rw [if_neg ‹_›]; exact le_rfl
  | beacon _ l k c b =>
    exact (congrArg BitVec.toNat (deliverBeacon_clusterTime c b l k (countReceived (afterReception s)) hs)).ge
  | trigger => rw [judgeTriggerFrame_tbu]; exact le_rfl
  | edge => rw [qualifyEdge_tbu]
  | raise => simp [raiseCommand]
  | _ =>
    simp [Machine.release, Machine.tickInReset, withByte, Machine.beaconDue, afterCollision, afterReception,
      Machine.completeTrigger, afterComplete, countReceived, cancelCommand, beginLeave]

/-- Settles O24, by the effect of the command taken. -/
theorem clusterTimeNeverFallsInSync : Obligations.ClusterTimeNeverFallsInSync := by
  unfold Obligations.ClusterTimeNeverFallsInSync
  intro c s t _ _ hs hst ht
  cases hp : s.pending with
  | nil => rw [step_idle s hp] at hst; cases hst; exact le_rfl
  | cons i rest =>
    rw [step_front s i rest hp] at hst
    rcases exec_effect i _ t hst with rfl | he
    · exact le_rfl
    · exact effect_clusterTime_le i (s.withPending rest) t hs ht he

/-! ### Attention, vector and basis (R4, R37, R173) -/

theorem journalPending_iff (s : State) :
    journalPending s = true ↔ ∃ n, s.rdp.threshold = some n ∧ n ≤ s.jnl.records.length := by
  unfold journalPending
  cases s.rdp.threshold <;> simp

theorem attentionAsserted_iff (s : State) (h : s.src.inReset = false) :
    attentionAsserted s = true ↔
      (s.rdp.mask.journal = true ∧ ∃ n, s.rdp.threshold = some n ∧ n ≤ s.jnl.records.length) ∨
        (s.rdp.mask.flags = true ∧ s.rdp.flags.any = true) ∨ (s.rdp.mask.state = true ∧ s.rdp.statePending = true) ∨
        (s.rdp.mask.load = true ∧ s.rdp.loadPending = true) := by
  simp only [attentionAsserted, h, flagsPending, Bool.not_false, Bool.true_and, Bool.or_eq_true, Bool.and_eq_true,
    journalPending_iff, or_assoc]

theorem SyncState.basis_localBasis_iff (x : SyncState) :
    x.basis = .localBasis ↔ x = .off ∨ x = .listen ∨ x = .clash := by
  cases x <;> simp [SyncState.basis]

theorem SyncState.basis_provisional_iff (x : SyncState) :
    x.basis = .provisional ↔ x = .founding ∨ x = .tentative := by
  cases x <;> simp [SyncState.basis]

theorem SyncState.basis_cluster_iff (x : SyncState) :
    x.basis = .cluster ↔ x = .sync ∨ x = .stable ∨ x = .holdover := by
  cases x <;> simp [SyncState.basis]

/-- Settles O55: each view by its own lemma. -/
theorem attentionVectorAndBasisFollowTheState : Obligations.AttentionVectorAndBasisFollowTheState := by
  unfold Obligations.AttentionVectorAndBasisFollowTheState
  intro s hr
  refine ⟨attentionAsserted_iff s hr, fun n => ?_, SyncState.basis_localBasis_iff _,
    SyncState.basis_provisional_iff _, SyncState.basis_cluster_iff _⟩
  rw [membershipVector_bit]
  simp [Option.any_eq_true]

/-! ### The state after reset (R4, R17, R19, R22, R39, R64, R77, R84, R119, R139, R152, R176) -/

theorem reset_atReset : AtReset State.reset := by
  have hvector : membershipVector State.reset = 0 := by
    apply BitVec.eq_of_getLsbD_eq
    intro n hn
    rw [show n = (⟨n, hn⟩ : Station).val from rfl, membershipVector_bit]
    simp [State.reset, Mbu.reset, Syc.reset, Peer.absentRecord, SyncState.synced]
  constructor
  case members => exact ⟨rfl, rfl, rfl, rfl, hvector⟩
  case outputs => intro l; simp [State.reset, Tlu.reset, lineDrive]
  all_goals
    simp [State.reset, Tbu.reset, Mbu.reset, Syc.reset, Lif.reset, Tge.reset, Scu.reset, Tlu.reset, Jnl.reset,
      Rdp.reset, Src.reset, InputChan.reset, Flags.clear, Flags.any, State.basis, SyncState.basis]

theorem reset_peersFormed : PeersFormed State.reset := by
  intro n
  constructor <;> simp [State.reset, Mbu.reset, Peer.absentRecord]

theorem reset_selfStands : SelfStands State.reset := by
  constructor <;> simp [State.reset, Mbu.reset]

/-- The invariants of the reset state are those of a part held in reset: what they read is the same. -/
theorem reset_coherent : Coherent State.reset :=
  (resetState_coherent .power 0 State.reset).of_view rfl

/-- Settles O3: the table item by item, and each invariant. -/
theorem resetStateStands : Obligations.ResetStateStands := by
  unfold Obligations.ResetStateStands
  refine ⟨reset_atReset, rfl, rfl, rfl, ?_, ⟨?_, ?_, ?_⟩, ⟨?_, ?_⟩, ⟨?_, ?_⟩, reset_coherent, reset_peersFormed,
    reset_selfStands, ?_, ?_, ?_⟩
  · exact Nat.zero_le 8
  · exact Nat.zero_le 128
  · exact nofun
  · exact nofun
  · exact List.Pairwise.nil
  · exact nofun
  · intro p; simp [placesTaken, State.reset, Scu.reset]
  · simp [State.reset, Scu.reset]
  · exact (resetState_statistics .power 0 State.reset).of_tbu rfl
  · exact (resetState_sequence .power 0 State.reset).of_tge rfl
  · exact (resetState_formed .power 0 State.reset).of_channels rfl

end Sys2Proof.Machine

/-! ## The snapshots, the reference point, receptions and the trimmed mean (O50, O26, O29, O14) -/

namespace Sys2Proof.Machine

/-! ### The snapshots (R168, R189) -/

theorem answer_eq (status : Status) (fields : List Byte) (s : State) :
    answer status fields s = answered (byte status.code) fields s := rfl

/-- A snapshot taken from READY on. -/
theorem readyCommand_answers (s : State) (fields : State → List Byte) (h : PortReady s) :
    takeCommand s (fun s => whenReady s fun s => answer .ok (fields s) s) = .next (answered 0x00 (fields s) s) := by
  obtain ⟨hr, hb, hl⟩ := h
  rw [takeCommand_begun s _ hr hb, whenReady_ready s _ hl]
  rfl

theorem beBytes_one (n : Nat) : beBytes 1 n = [byte n] := by simp [beBytes, byte]

@[simp] theorem laid_nil : laid [] = [] := rfl

@[simp] theorem laid_cons (n v : Nat) (fs : List (Nat × Nat)) : laid ((n, v) :: fs) = beBytes n v ++ laid fs := rfl

/-- An absent field is sent as 0 (R189). -/
theorem optNat_eq {w : Nat} (x : Option (BitVec w)) : optNat x = (x.getD 0).toNat := by
  cases x <;> simp [optNat]

theorem offsetBytes_eq (z : Int) :
    offsetBytes z = signedBytes 8 (max (-9223372036854775808) (min z 9223372036854775807)) := rfl

theorem peerFields_eq (p : Peer) :
    peerFields p =
      laid [(1, p.kind.code),
          (1, bit p.uniqueId.isSome 0 + bit p.reported.isSome 1 + bit p.lastArrival.isSome 2 +
            bit p.freshOffset.isSome 3 + bit p.expected.isSome 4),
          (1, bit p.foreign 0 + bit p.heard 1), (8, (p.uniqueId.getD 0).toNat),
          (1, (p.reported.map Reported.code).getD 0), (8, (p.lastArrival.getD 0).toNat)] ++
        signedBytes 8 (max (-9223372036854775808) (min (p.freshOffset.getD 0) 9223372036854775807)) ++
        laid [(1, p.missed), (2, (p.expected.getD 0).toNat), (2, p.lost.toNat), (2, p.resync.toNat)] := by
  simp [peerFields, beBytes_one, optNat_eq, offsetBytes_eq]

theorem scheduleFields_eq (u : Scu) :
    scheduleFields u =
      laid [(1, u.entries.length), (1, bit (!u.entries.isEmpty) 0),
          (8, (u.entries.map fun e => e.due.toNat).headD 0)] ++
        laid [(1, u.quota.get 0), (1, u.space.get 0), (4, (u.drops.get 0).toNat),
          (1, u.quota.get 1), (1, u.space.get 1), (4, (u.drops.get 1).toNat),
          (1, u.quota.get 2), (1, u.space.get 2), (4, (u.drops.get 2).toNat),
          (1, u.quota.get 3), (1, u.space.get 3), (4, (u.drops.get 3).toNat)] ++
        laid [(4, u.lateDrop.toNat), (4, u.lateFire.toNat), (4, u.cancelled.toNat)] := by
  have hfour : List.finRange 4 = [0, 1, 2, 3] := rfl
  cases he : u.entries <;>
    simp [scheduleFields, partitionFields, he, hfour, beBytes_one, optNat]

theorem counterFields_eq (s : State) :
    (counterList s).flatMap (fun n => beBytes 4 n.toNat) =
      laid [(4, s.lif.beaconsSent.toNat), (4, s.lif.copiesSent.toNat), (4, s.lif.framesReceived.toNat),
          (4, s.lif.badFrames.toNat), (4, s.lif.collisions.toNat), (4, s.lif.abandons.toNat), (4, s.tge.raised.toNat),
          (4, s.tge.refused.toNat), (4, s.tge.accepted.toNat), (4, s.tge.duplicate.toNat), (4, s.tge.notReady.toNat),
          (4, s.tge.notMember.toNat), (4, s.tge.selfNumbered.toNat), (4, s.tge.chainLimit.toNat)] ++
        laid ((List.finRange 8).flatMap fun k : LineNo =>
          [(4, (s.tlu.inputs.get k).events.toNat), (4, (s.tlu.overruns.get k).toNat)]) := by
  simp [counterList, laid, List.flatMap_assoc]

theorem identityFields_eq (s : State) :
    identityFields s =
      [0x32, 0x08] ++ beBytes 8 s.uniqueId.toNat ++
        (match s.cfg with
          | some c => [0x01, byte c.station] ++ beBytes 2 c.signature.toNat
          | none => [0x00, 0x00, 0x00, 0x00]) ++
        [32, 8, 64, 48, 4, 8, 128, 0x10, 0x00] := by
  have hdevice : beBytes 2 0x3208 = [0x32, 0x08] := by decide
  have hcapacity : capacityFields = [32, 8, 64, 48, 4, 8, 128, 0x10, 0x00] := by decide
  have hzero : beBytes 2 0 = [0x00, 0x00] := by decide
  unfold identityFields
  rw [hdevice, hcapacity]
  cases s.cfg <;> simp [hzero, bit, byte]

/-- Settles O50, snapshot by snapshot. -/
theorem snapshotsChangeNothing : Obligations.SnapshotsChangeNothing := by
  unfold Obligations.SnapshotsChangeNothing
  refine ⟨fun s h => ⟨readyCommand_answers s timeFields h, readyCommand_answers s syncFields h, ?_, ?_, ?_⟩, ?_⟩
  · rintro arg n p ha rfl
    rw [← peerFields_eq]
    obtain ⟨hr, hb, hl⟩ := h
    have hn : station? arg.toNat = some n := by rw [ha]; exact dif_pos n.isLt
    change execReadPeer arg s = _
    rw [execReadPeer, takeCommand_begun s _ hr hb, whenReady_ready s _ hl, hn]
    rfl
  · rw [← scheduleFields_eq]
    exact readyCommand_answers s (fun s => scheduleFields s.scu) h
  · rw [← counterFields_eq]
    exact readyCommand_answers s (fun s => (counterList s).flatMap fun n => beBytes 4 n.toNat) h
  · intro s hr hb
    exact (takeCommand_begun s _ hr hb).trans
      (congrArg (fun fields => Host.Outcome.next (answered 0x00 fields s)) (identityFields_eq s))

/-! ### The reference point (R59, R72, R74) -/

theorem openReception_receiver (s : State) :
    (openReception s).lif.receiver =
      if s.lif.receiver = .ready then .receiving s.tbu.localClock s.tbu.clusterTime false else s.lif.receiver := by
  unfold openReception
  cases h : s.lif.receiver <;> simp [h]

theorem openReception_frame (s : State) :
    openReception s = { s with lif := { s.lif with receiver := (openReception s).lif.receiver } } := by
  unfold openReception
  cases s.lif.receiver <;> rfl

theorem SyncState.standsDown_eq (x : SyncState) : x.standsDown = (x == .listen || x == .clash) := by
  cases x <;> rfl

theorem departingFlag_eq (s : State) :
    departingFlag s = (s.src.supplyWarning || s.src.leaveTimer.isSome || s.syc.state == .listen ||
      s.syc.state == .clash) := by
  rw [departingFlag, State.leaving, SyncState.standsDown_eq, ← Bool.or_assoc]

/-- Settles O26: what leaves the line at the reference point, and the reception that opens there. -/
theorem referencePointFillsTheBeacon : Obligations.ReferencePointFillsTheBeacon := by
  unfold Obligations.ReferencePointFillsTheBeacon
  intro f s hr hf hl
  have he : exec .sendReferencePoint s = .next (openReception
      (s.withLif { s.lif with onLine := some { f with frame := f.frame.passReference s, refLeft := true } })) := by
    change execSendReferencePoint s = _
    rw [execSendReferencePoint, live_running s _ hr, hf]
    simp [hl]
  refine ⟨_, he, ?_, fun h => ?_, fun h => ?_, fun tr n h => ?_, fun b x l r h hs => ?_⟩
  · conv_lhs => rw [openReception_frame]
    simp [State.withLif]
  · rw [openReception_receiver]; simp [h]
  · rw [openReception_receiver]; simp [h]
  · simp [h, LineFrame.passReference]
  · have hor : s.syc.state.reported.or s.syc.lastSynchronizing = some r := by
      rcases hs with h | ⟨h1, h2⟩
      · simp [h]
      · simp [h1, h2]
    simp [h, LineFrame.passReference, fillBeacon, hor, departingFlag_eq, State.leaving]

/-! ### Receptions (R74, R75, R187) -/

/-- Bits in a whole number of bytes are the bits of bytes. -/
theorem exists_bytesToBits (body : List Bool) (h : body.length % 8 = 0) : ∃ bs : List Byte, bytesToBits bs = body := by
  have hbyte : ∀ b7 b6 b5 b4 b3 b2 b1 b0 : Bool,
      byteBits (byte (bit b7 7 + bit b6 6 + bit b5 5 + bit b4 4 + bit b3 3 + bit b2 2 + bit b1 1 + bit b0 0)) =
        [b7, b6, b5, b4, b3, b2, b1, b0] := by decide +kernel
  induction body using bitsToBytes.induct with
  | case1 => exact ⟨[], rfl⟩
  | case2 b7 b6 b5 b4 b3 b2 b1 b0 rest ih =>
    obtain ⟨bs, hbs⟩ := ih (by simp only [List.length_cons] at h; omega)
    refine ⟨byte (bit b7 7 + bit b6 6 + bit b5 5 + bit b4 4 + bit b3 3 + bit b2 2 + bit b1 1 + bit b0 0) :: bs, ?_⟩
    change byteBits _ ++ bytesToBits bs = _
    rw [hbyte, hbs]
    rfl
  | case3 bits h1 h2 =>
    exfalso
    match bits, h1, h2 with
    | [], h1, _ => exact h1 rfl
    | b7 :: b6 :: b5 :: b4 :: b3 :: b2 :: b1 :: b0 :: rest, _, h2 => exact h2 _ _ _ _ _ _ _ _ _ rfl
    | [_], _, _ | [_, _], _, _ | [_, _, _], _, _ | [_, _, _, _], _, _ | [_, _, _, _, _], _, _
    | [_, _, _, _, _, _], _, _ | [_, _, _, _, _, _, _], _, _ => simp at h

theorem station?_eq_none (n : Nat) : station? n = none ↔ 31 < n := by
  unfold station?; split <;> simp <;> omega

theorem class?_eq_none (n : Nat) : class? n = none ↔ 63 < n := by
  unfold class?; split <;> simp <;> omega

theorem judgeBeacon_eq_none (bs : List Byte) :
    judgeBeacon bs = none ↔
      bs.length ≠ 31 ∨ checkAgrees bs = false ∨ 31 < byteAt bs 1 ∨ byteAt bs 2 % 8 = 0 ∨ 5 < byteAt bs 2 % 8 := by
  unfold judgeBeacon
  simp only [field_one, ← station?_eq_none, ← Reported.ofCode_none]
  by_cases hl : bs.length = 31
  · cases hc : checkAgrees bs
    · simp
    · cases station? (byteAt bs 1) <;> cases Reported.ofCode (byteAt bs 2 % 8) <;> simp [hl]
  · simp [hl]

theorem judgeRoot_eq_none (bs : List Byte) (present : Bool) :
    judgeRoot bs present = none ↔ present = true ∧ 31 < byteAt bs 14 := by
  cases present <;> simp [judgeRoot, field_one, station?_eq_none]

/-- The root-present bit of a TRIGGER body agrees with its depth (R75). -/
theorem rootAgrees_iff (n d : Nat) (hd : d < 4) :
    (n % 2 == 1) = ((⟨d, hd⟩ : Fin 4) != 0) ↔ (n % 2 = 1 ↔ 0 < d) := by
  have hzero : (⟨d, hd⟩ : Fin 4) = 0 ↔ d = 0 := Fin.ext_iff
  rw [Bool.eq_iff_iff, beq_iff_eq, bne_iff_ne, ne_eq, hzero, Nat.pos_iff_ne_zero]

theorem judgeTrigger_eq_none (bs : List Byte) :
    judgeTrigger bs = none ↔
      bs.length ≠ (if byteAt bs 2 % 2 = 1 then 21 else 18) ∨ checkAgrees bs = false ∨ byteAt bs 2 / 64 = 0 ∨
        ¬(byteAt bs 2 % 2 = 1 ↔ 0 < byteAt bs 2 / 16 % 4) ∨ 31 < byteAt bs 1 ∨ 63 < byteAt bs 3 ∨
        (byteAt bs 2 % 2 = 1 ∧ 31 < byteAt bs 14) := by
  have hroot : judgeRoot bs (byteAt bs 2 % 2 == 1) = none ↔ byteAt bs 2 % 2 = 1 ∧ 31 < byteAt bs 14 := by
    rw [judgeRoot_eq_none, beq_iff_eq]
  have hlength : (if byteAt bs 2 % 2 = 1 then 21 else 18) = if byteAt bs 2 % 2 == 1 then 21 else 18 := by simp
  rw [← station?_eq_none, ← class?_eq_none, ← hroot, hlength]
  unfold judgeTrigger
  simp only [field_one]
  generalize (if byteAt bs 2 % 2 == 1 then 21 else 18) = length
  split
  · rename_i hg
    simp only [Bool.and_eq_true, beq_iff_eq, bne_iff_ne, rootAgrees_iff] at hg
    obtain ⟨⟨⟨hl, hc⟩, hcopy⟩, hr⟩ := hg
    cases station? (byteAt bs 1) <;> cases class? (byteAt bs 3) <;> cases judgeRoot bs (byteAt bs 2 % 2 == 1) <;>
      simp [hl, hc, hcopy, hr]
  · rename_i hg
    simp only [Bool.and_eq_true, beq_iff_eq, bne_iff_ne, rootAgrees_iff] at hg
    simp only [true_iff]
    by_contra hn
    simp only [not_or, not_not, Bool.not_eq_false, ne_eq] at hn
    obtain ⟨hl, hc, hcopy, hr, -⟩ := hn
    exact hg ⟨⟨⟨hl, hc⟩, hcopy⟩, hr⟩

/-- The bodies that are bad are those that meet a case of R75. -/
theorem judgeFrame_eq_none (bs : List Byte) : judgeFrame (bytesToBits bs) = none ↔ BadBody bs := by
  have hcheck : checkAgrees bs = false ↔ bs.drop (bs.length - 4) ≠ fourBytes (crc32 (bs.take (bs.length - 4))) := by
    rw [← Bool.not_eq_true, checkAgrees_iff]
  rw [judgeFrame_bytes]
  by_cases h1 : byteAt bs 0 = 1
  · rw [if_pos h1, judgeBeacon_eq_none, hcheck]
    constructor
    · rintro (h | h | h | h)
      · exact .beaconLength h1 h
      · exact .check h
      · exact .station h
      · exact .reported h1 h
    · rintro (h | ⟨h, -⟩ | ⟨-, h⟩ | ⟨h, -⟩ | h | h | ⟨h, -, -⟩ | ⟨-, h⟩ | ⟨h, -⟩ | ⟨h, -⟩ | ⟨h, -⟩)
      · simp [h, byteAt] at h1
      · exact absurd h1 h
      · exact .inl h
      · omega
      · exact .inr (.inl h)
      · exact .inr (.inr (.inl h))
      · omega
      · exact .inr (.inr (.inr h))
      · omega
      · omega
      · omega
  · by_cases h2 : byteAt bs 0 = 2
    · rw [if_neg h1, if_pos h2, judgeTrigger_eq_none, hcheck]
      constructor
      · rintro (h | h | h | h | h | h | h)
        · exact .triggerLength h2 h
        · exact .check h
        · exact .copy h2 h
        · exact .root h2 h
        · exact .station h
        · exact .cls h2 h
        · exact .rootOrigin h2 h.1 h.2
      · rintro (h | ⟨-, h⟩ | ⟨h, -⟩ | ⟨-, h⟩ | h | h | ⟨-, h, h'⟩ | ⟨h, -⟩ | ⟨-, h⟩ | ⟨-, h⟩ | ⟨-, h⟩)
        · simp [h, byteAt] at h2
        · exact absurd h2 h
        · exact absurd h h1
        · exact .inl h
        · exact .inr (.inl h)
        · exact .inr (.inr (.inr (.inr (.inl h))))
        · exact .inr (.inr (.inr (.inr (.inr (.inr ⟨h, h'⟩)))))
        · exact absurd h h1
        · exact .inr (.inr (.inr (.inr (.inr (.inl h)))))
        · exact .inr (.inr (.inl h))
        · exact .inr (.inr (.inr (.inl h)))
    · rw [if_neg h1, if_neg h2]
      exact ⟨fun _ => .kind h1 h2, fun _ => rfl⟩

/-- FRAME_END before 20 quiet ticks (R74). -/
theorem execFrameEnd_early (body : List Bool) (l k : Time) (own : Bool) (s : State) (hr : s.src.inReset = false)
    (hv : s.lif.receiver = .receiving l k own) (hi : s.lif.idleTimer < 20) : exec (.frameEnd body) s = .next s := by
  change execFrameEnd body s = _
  simp [execFrameEnd, live_running s _ hr, hv, Config.frameEndTicks, Nat.not_le.2 hi]

/-- FRAME_END of the own frame, sent to the end (R69). -/
theorem execFrameEnd_own (body : List Bool) (l k : Time) (s : State) (hr : s.src.inReset = false)
    (hv : s.lif.receiver = .receiving l k true) (hi : 20 ≤ s.lif.idleTimer) :
    exec (.frameEnd body) s = .next (afterReception s) := by
  change execFrameEnd body s = _
  simp [execFrameEnd, live_running s _ hr, hv, Config.frameEndTicks, hi, afterReception]

/-- FRAME_END of a bad body (R75). -/
theorem execFrameEnd_bad (body : List Bool) (l k : Time) (s : State) (hr : s.src.inReset = false)
    (hv : s.lif.receiver = .receiving l k false) (hi : 20 ≤ s.lif.idleTimer) (hj : judgeFrame body = none) :
    exec (.frameEnd body) s = .next (countBadFrame (afterReception s)) := by
  change execFrameEnd body s = _
  simp [execFrameEnd, live_running s _ hr, hv, Config.frameEndTicks, hi, hj, afterReception]

/-- FRAME_END of a good body (R76). -/
theorem execFrameEnd_good (body : List Bool) (l k : Time) (f : RxFrame) (s : State) (hr : s.src.inReset = false)
    (hv : s.lif.receiver = .receiving l k false) (hi : 20 ≤ s.lif.idleTimer) (hj : judgeFrame body = some f) :
    exec (.frameEnd body) s = .next (deliver l k f (afterReception s)) := by
  change execFrameEnd body s = _
  simp [execFrameEnd, live_running s _ hr, hv, Config.frameEndTicks, hi, hj, afterReception]

/-- Settles O29: the bodies by R75's cases, the receptions by the receiver's state. -/
theorem receptionOpensAndEnds : Obligations.ReceptionOpensAndEnds := by
  unfold Obligations.ReceptionOpensAndEnds
  refine ⟨fun body h => ?_, judgeFrame_eq_none, exists_bytesToBits, fun s hr => ⟨fun hv => ⟨?_, ?_⟩, ?_, ?_, ?_⟩⟩
  · simp [judgeFrame, bitsToBytes_none body h]
  · change execStartMarkReceived s = _
    rw [execStartMarkReceived, live_running s _ hr, openReception_frame, openReception_receiver, if_pos hv]
  · change execNotAFrame s = _
    rw [execNotAFrame, live_running s _ hr, hv]
    rfl
  · exact fun body l k hv hi => execFrameEnd_own body l k s hr hv hi
  · exact fun body l k hv hi hj => execFrameEnd_bad body l k s hr hv hi hj
  · exact fun body l k own hv hi => execFrameEnd_early body l k own s hr hv hi

/-! ### The trimmed mean (R12, R13) -/

/-- The least value of a set is the member that lies at or below every member. -/
theorem least_eq (x : Int) (xs : List Int) (low : Int) (hm : low ∈ x :: xs) (hl : ∀ y ∈ x :: xs, low ≤ y) :
    least x xs = low := by
  induction xs generalizing x with
  | nil => exact (List.mem_singleton.1 hm).symm
  | cons y ys ih =>
    simp only [List.mem_cons, forall_eq_or_imp] at hm hl
    obtain ⟨hx, hy, hys⟩ := hl
    refine ih (min x y) ?_ ?_
    · rcases hm with rfl | rfl | hm
      · simp [hy]
      · simp [hx]
      · simp [hm]
    · simpa [hx, hy] using hys

/-- The greatest likewise. -/
theorem greatest_eq (x : Int) (xs : List Int) (high : Int) (hm : high ∈ x :: xs) (hl : ∀ y ∈ x :: xs, y ≤ high) :
    greatest x xs = high := by
  induction xs generalizing x with
  | nil => exact (List.mem_singleton.1 hm).symm
  | cons y ys ih =>
    simp only [List.mem_cons, forall_eq_or_imp] at hm hl
    obtain ⟨hx, hy, hys⟩ := hl
    refine ih (max x y) ?_ ?_
    · rcases hm with rfl | rfl | hm
      · simp [hy]
      · simp [hx]
      · simp [hm]
    · simpa [hx, hy] using hys

/-- Fewer than four values: nothing is trimmed. -/
theorem trimmedMean_few (xs : List Int) (h1 : 1 ≤ xs.length) (h3 : xs.length ≤ 3) :
    trimmedMean xs = some (xs.sum.tdiv xs.length) := by
  cases xs with
  | nil => cases h1
  | cons x xs =>
    rw [trimmedMean, if_neg (by omega)]

/-- Four or more: one least and one greatest value leave. -/
theorem trimmedMean_many (xs middle : List Int) (low high : Int) (h2 : 2 ≤ middle.length)
    (hp : xs.Perm (low :: high :: middle)) (hm : ∀ x ∈ middle, low ≤ x ∧ x ≤ high) (hlh : low ≤ high) :
    trimmedMean xs = some (middle.sum.tdiv middle.length) := by
  have hlen : xs.length = middle.length + 2 := hp.length_eq
  have hsum : xs.sum = low + (high + middle.sum) := by rw [hp.sum_eq]; simp
  have hmem : ∀ y, y ∈ xs ↔ y = low ∨ y = high ∨ y ∈ middle := fun y => by rw [hp.mem_iff]; simp
  cases xs with
  | nil => cases hlen
  | cons x xs =>
    have hleast : least x xs = low := by
      refine least_eq x xs low ((hmem low).2 (.inl rfl)) fun y hy => ?_
      rcases (hmem y).1 hy with rfl | rfl | hy
      · exact le_rfl
      · exact hlh
      · exact (hm y hy).1
    have hgreatest : greatest x xs = high := by
      refine greatest_eq x xs high ((hmem high).2 (.inr (.inl rfl))) fun y hy => ?_
      rcases (hmem y).1 hy with rfl | rfl | hy
      · exact hlh
      · exact le_rfl
      · exact (hm y hy).2
    rw [trimmedMean, if_pos (by omega), hleast, hgreatest, hsum, hlen]
    congr 2
    ring

theorem tentativeSource_eq (p : Peer) :
    p.tentativeSource =
      if p.kind ≠ .self ∧ p.foreign = false ∧
          (p.reported = some .founding ∨ p.reported = some .sync ∨ p.reported = some .stable ∨
            p.reported = some .holdover) then p.freshOffset
      else none := by
  have hreported : (p.reported.any fun r => r != .tentative) = true ↔
      (p.reported = some .founding ∨ p.reported = some .sync ∨ p.reported = some .stable ∨
        p.reported = some .holdover) := by
    cases p.reported with
    | none => simp
    | some r => cases r <;> simp
  unfold Peer.tentativeSource
  simp only [Bool.and_eq_true, bne_iff_ne, Bool.not_eq_true', hreported, and_assoc]

theorem correctionSet_tentative (s : State) (h : s.syc.state = .tentative) :
    correctionSet s = s.mbu.peers.toList.filterMap Peer.tentativeSource := by
  simp [correctionSet, h]

theorem correctionSet_synced (s : State) (h : s.syc.state.synced = true) :
    correctionSet s = 0 :: s.mbu.peers.toList.filterMap Peer.memberSource := by
  cases hs : s.syc.state <;> simp_all [correctionSet, SyncState.synced]

/-- Settles O14: the mean by the number of values, the set by the sync state. -/
theorem correctionIsTheTrimmedMean : Obligations.CorrectionIsTheTrimmedMean := by
  unfold Obligations.CorrectionIsTheTrimmedMean
  refine ⟨rfl, trimmedMean_few, trimmedMean_many, fun s => ⟨fun h => ?_, fun h => ?_, fun h => ?_⟩,
    fun c s => ⟨fun h => ?_, fun x h => ?_⟩⟩
  · rw [correctionSet_tentative s h]
    exact List.filterMap_congr fun p _ => tentativeSource_eq p
  · exact correctionSet_synced s (by rcases h with h | h | h <;> rw [h] <;> rfl)
  · rcases h with h | h | h | h <;> simp [correctionSet, h]
  · rw [correctionOutcome, h]
  · rw [correctionOutcome, h]

end Sys2Proof.Machine

/-! ## Founding, adoption and beacons received (O13, O31, O32, O33) -/

namespace Sys2Proof.Machine

/-! ### A change of sync state with no stand-down order -/

/-- What such a change touches (R39 to R41, R156). -/
theorem changeState_moves_frame (c : Cfg) (new : SyncState) (r : Reason) (s : State) (hn : new.standsDown = false) :
    changeState c new r id s = { s with
      syc := (changeState c new r id s).syc,
      tlu := { s.tlu with inputs := (changeState c new r id s).tlu.inputs },
      jnl := (changeState c new r id s).jnl,
      rdp := { s.rdp with flags := (changeState c new r id s).rdp.flags, statePending := true } } := by
  have hset := setSyncState_eq c new s
  have hhand := handRecord_eq (stateRecord (setSyncState c new s) s.syc.state new r none) .state (setSyncState c new s)
  have ht : changeState c new r id s =
      handRecord (stateRecord (setSyncState c new s) s.syc.state new r none) .state (setSyncState c new s) := by
    rw [changeState_moves c new r id s hn, writeStateRecord_hands, setSyncState_syc]
  rw [ht]
  rw [hset] at hhand ⊢
  simpa using hhand

/-- The last-edge records behind it (R156). -/
theorem changeState_moves_inputs (c : Cfg) (new : SyncState) (r : Reason) (s : State) (hn : new.standsDown = false)
    (l : LineNo) : (changeState c new r id s).tlu.inputs.get l =
      if s.basis = new.basis then s.tlu.inputs.get l else { s.tlu.inputs.get l with lastEdge := none } := by
  rw [changeState_moves c new r id s hn, writeStateRecord_tlu, setSyncState_inputs, State.basis]
  split <;> simp

/-- Its STATE record (R41). -/
theorem changeState_moves_recorded (c : Cfg) (new : SyncState) (r : Reason) (s : State) (hn : new.standsDown = false) :
    Recorded (stateRecord (changeState c new r id s) s.syc.state new r none) .state s (changeState c new r id s) := by
  have hrecord : stateRecord (changeState c new r id s) s.syc.state new r none =
      stateRecord (setSyncState c new s) s.syc.state new r none := by
    simp [changeState_moves c new r id s hn, stateRecord]
  rw [hrecord, changeState_moves c new r id s hn, writeStateRecord_hands, setSyncState_syc]
  exact ⟨handRecord_jnl_eq _ _ _ _ (by simp), handRecord_flags_eq _ _ _ _ (by simp) (by simp)⟩

/-! ### Cluster time set by an adoption or a founding (R9, R10, R36, R46, R57) -/

theorem setClusterTime_tbu_eq (c : Cfg) (x : Time) (s : State) :
    (setClusterTime c x s).tbu = { s.tbu with
      clusterTime := x, slewDebt := 0, hold := false, nextBoundary := some (boundaryAfter c.cluster.bper x) } := rfl

theorem setClusterTime_lif_eq (c : Cfg) (x : Time) (s : State) :
    (setClusterTime c x s).lif =
      { s.lif with receiver := s.lif.receiver.move (x.toNat - s.tbu.clusterTime.toNat) } := rfl

theorem setClusterTime_mbu_eq (c : Cfg) (x : Time) (s : State) :
    (setClusterTime c x s).mbu = (clearFresh s).mbu := rfl

theorem setClusterTime_nextBeaconDue (c : Cfg) (x : Time) (s : State) :
    (setClusterTime c x s).syc.nextBeaconDue = some (beaconDueAfter c x) := rfl

/-- What a founding and an adoption leave: cluster time at `x` with what follows it, the new sync state with its record,
and what stands. -/
structure TimeTaken (c : Cfg) (x : Time) (new : SyncState) (r : Reason) (s t : State) : Prop where
  tbu : t.tbu = { s.tbu with
    clusterTime := x, slewDebt := 0, hold := false, nextBoundary := some (boundaryAfter c.cluster.bper x) }
  syc : t.syc =
    { state := new, lastSynchronizing := new.reported, goodRounds := 0, stableRounds := 0, holdoverRounds := 0,
      listenTimer := none, nextBeaconDue := some (beaconDueAfter c x) }
  mbu : t.mbu = (clearFresh s).mbu
  lif : t.lif = { s.lif with receiver := s.lif.receiver.move (x.toNat - s.tbu.clusterTime.toNat) }
  tlu : t.tlu = { s.tlu with inputs := t.tlu.inputs }
  inputs : ∀ l : LineNo, t.tlu.inputs.get l =
    if s.basis = new.basis then s.tlu.inputs.get l else { s.tlu.inputs.get l with lastEdge := none }
  rdp : t.rdp = { s.rdp with flags := t.rdp.flags, statePending := true }
  record : Recorded (stateRecord t s.syc.state new r none) .state s t
  stands : t.scu = s.scu ∧ t.tge = s.tge ∧ t.amp = s.amp ∧ t.src = s.src ∧ t.cfg = s.cfg

theorem changeState_timeTaken (c : Cfg) (x : Time) (new : SyncState) (r : Reason) (s : State)
    (hn : new.active = true) : TimeTaken c x new r s (changeState c new r id (setClusterTime c x s)) := by
  have hstands : new.standsDown = false := SyncState.standsDown_of_active hn
  have hlisten : new ≠ .listen := by rintro rfl; cases hn
  have hframe := changeState_moves_frame c new r (setClusterTime c x s) hstands
  have hinputs := changeState_moves_inputs c new r (setClusterTime c x s) hstands
  have hrecord := changeState_moves_recorded c new r (setClusterTime c x s) hstands
  have hsyc := changeState_syc c new r id (setClusterTime c x s) fun _ => rfl
  obtain ⟨y, hy⟩ := Option.isSome_iff_exists.1 (show new.reported.isSome = true from hn)
  generalize changeState c new r id (setClusterTime c x s) = t at hframe hinputs hrecord hsyc ⊢
  rw [hstands, if_neg hlisten, hy] at hsyc
  constructor
  · rw [hframe]; rfl
  · rw [hsyc, hy]; rfl
  · rw [hframe]; rfl
  · rw [hframe]; rfl
  · rw [hframe]; rfl
  · exact hinputs
  · rw [hframe]; rfl
  · obtain ⟨hjnl, hflags⟩ := hrecord
    exact ⟨hjnl.trans (handRecord_jnl_eq _ _ _ _ rfl), hflags.trans (handRecord_flags_eq _ _ _ _ rfl rfl)⟩
  · rw [hframe]; exact ⟨rfl, rfl, rfl, rfl, rfl⟩

theorem clearFresh_get (s : State) (n : Station) :
    (clearFresh s).mbu.peers.get n = { s.mbu.peers.get n with freshOffset := none } := by
  simp

theorem clearFresh_mbu_frame (s : State) : (clearFresh s).mbu = { s.mbu with peers := (clearFresh s).mbu.peers } := rfl

/-- Settles O13: a founding takes the local clock as cluster time. -/
theorem listenTimeoutFounds : Obligations.ListenTimeoutFounds := by
  unfold Obligations.ListenTimeoutFounds
  intro c s hr hc hs hl hb hfit
  have he : exec .listenTimeout s = .next (found c s) := by
    change execListenTimeout s = _
    rw [execListenTimeout, live_running s _ hr, withCfg_some s _ c hc, if_pos ⟨hs, hl⟩]
  have h : TimeTaken c s.tbu.localClock .founding .listenTimeout s (found c s) :=
    changeState_timeTaken c s.tbu.localClock .founding .listenTimeout s rfl
  refine ⟨_, he, ?_⟩
  generalize found c s = t at h
  obtain ⟨htbu, hsyc, hmbu, hlif, htlu, hinputs, hrdp, hrecord, hscu, htge, hamp, hsrc, hcfg⟩ := h
  refine ⟨by rw [htbu], by rw [htbu], by rw [htbu], by rw [htbu],
    ⟨_, by rw [htbu], boundaryAfter_next _ _ hb hfit⟩, ⟨_, by rw [hsyc], beaconDueAfter_next c _ hb hfit⟩,
    by rw [hsyc], by rw [State.basis, hsyc]; rfl, by rw [hsyc]; rfl, by rw [hsyc],
    by rw [hsyc]; exact ⟨rfl, rfl, rfl⟩, by rw [hrdp], by rw [← hs]; exact hrecord,
    fun n => by rw [hmbu, clearFresh_get], fun l => ?_, by rw [htbu]; exact ⟨rfl, rfl, rfl, rfl, rfl⟩,
    ArrivalMoved.of_move s t (by rw [hlif, htbu]), by rw [hlif], by rw [hlif], by rw [hlif], by rw [hlif],
    by rw [hlif], htlu, by rw [hmbu, ← clearFresh_mbu_frame], hrdp, hamp, hscu, htge, hsrc, hcfg⟩
  rw [hinputs, if_neg (by simp [State.basis, hs, SyncState.basis])]

/-! ### A beacon taken into its record (R23 to R30) -/

theorem sat16_toNat (x : BitVec 16) (d : Nat) : (sat16 x d).toNat = min 65535 (x.toNat + d) := by
  rw [sat16, BitVec.toNat_ofNat]
  omega

theorem conflicts_iff (b : Beacon) (p : Peer) :
    p.conflicts b = true ↔ p.kind ≠ .absent ∧ p.uniqueId ≠ some b.uniqueId := by
  simp [Peer.conflicts]

theorem disagrees_iff (c : Cfg) (basis : Basis) (offset : Int) :
    disagrees c basis offset = true ↔ basis ≠ .localBasis ∧ c.cluster.maxCorr < offset.natAbs := by
  simp [disagrees]

theorem beaconFlags_eq (c : Cfg) (b : Beacon) (basis : Basis) (offset : Int) (p : Peer) (f : Flags) :
    beaconFlags c b basis offset p f = flagsOfBeacon c b basis offset p f := by
  unfold beaconFlags flagsOfBeacon
  simp only [conflicts_iff, disagrees_iff]
  split_ifs <;> rfl

/-- The announced-sequence check touches the expected sequence and the resync count alone (R30). -/
theorem announced_frame (b : Beacon) (p : Peer) :
    p.announced b = { p with expected := (p.announced b).expected, resync := (p.announced b).resync } := by
  unfold Peer.announced
  split
  · rfl
  · split <;> rfl

theorem announced_none (b : Beacon) (p : Peer) (h : p.expected = none) :
    (p.announced b).expected = some b.nextSequence ∧ (p.announced b).resync = p.resync := by
  simp [Peer.announced, h]

theorem announced_near (b : Beacon) (p : Peer) (e : Sequence) (h : p.expected = some e)
    (hd : (b.nextSequence - e).toNat ≤ 1023) :
    (p.announced b).expected = some e ∧ (p.announced b).resync = p.resync := by
  simp only [Peer.announced, h, if_pos hd]
  exact ⟨trivial, trivial⟩

theorem announced_far (b : Beacon) (p : Peer) (e : Sequence) (h : p.expected = some e)
    (hd : 1024 ≤ (b.nextSequence - e).toNat) :
    (p.announced b).expected = some b.nextSequence ∧
      (p.announced b).resync.toNat = min 65535 (p.resync.toNat + 1) := by
  simp only [Peer.announced, h]
  rw [if_neg (by omega)]
  exact ⟨rfl, sat16_toNat _ _⟩

/-- The judgement touches the kind and the foreign mark alone (R28). -/
theorem judged_frame (c : Cfg) (b : Beacon) (d : Bool) (p : Peer) :
    p.judged c b d = { p with kind := (p.judged c b d).kind, foreign := (p.judged c b d).foreign } := by
  unfold Peer.judged
  split <;> rfl

theorem judged_foreign (c : Cfg) (b : Beacon) (d : Bool) (p : Peer) :
    (p.judged c b d).foreign = true ↔ b.signature ≠ c.signature := by
  unfold Peer.judged
  split <;> simp_all

theorem judged_kind (c : Cfg) (b : Beacon) (basis : Basis) (offset : Int) (p : Peer) :
    (p.judged c b (disagrees c basis offset)).kind =
      if b.signature ≠ c.signature then PeerKind.heard
      else if b.departing = true then .departed
      else if basis ≠ .localBasis ∧ c.cluster.maxCorr < offset.natAbs then .heard
      else if b.reported = .founding ∨ b.reported = .tentative then .heard
      else .member := by
  have hreported : b.reported.synced = true ↔ ¬(b.reported = .founding ∨ b.reported = .tentative) := by
    cases b.reported <;> simp [Reported.synced]
  unfold Peer.judged
  simp only [disagrees_iff, hreported]
  split_ifs <;> rfl

/-- The record before the announced-sequence check: conflict, stored fields and judgement (R25 to R28). -/
def beforeAnnounced (c : Cfg) (b : Beacon) (arrival : Time) (basis : Basis) (offset : Int) (p : Peer) : Peer :=
  ((if p.conflicts b then p.restarted else p).stored b arrival basis offset).judged c b (disagrees c basis offset)

theorem takeBeacon_eq (c : Cfg) (b : Beacon) (arrival : Time) (basis : Basis) (offset : Int) (p : Peer) :
    p.takeBeacon c b arrival basis offset = (beforeAnnounced c b arrival basis offset p).announced b := rfl

theorem beforeAnnounced_stored (c : Cfg) (b : Beacon) (arrival : Time) (basis : Basis) (offset : Int) (p : Peer) :
    let q := beforeAnnounced c b arrival basis offset p
    q.uniqueId = some b.uniqueId ∧ q.reported = some b.reported ∧ q.lastArrival = some arrival ∧ q.missed = 0 ∧
      q.heard = true := by
  dsimp only
  rw [beforeAnnounced, judged_frame]
  exact ⟨rfl, rfl, rfl, rfl, rfl⟩

/-- A record in conflict starts its sequence anew (R25). -/
theorem beforeAnnounced_conflict (c : Cfg) (b : Beacon) (arrival : Time) (basis : Basis) (offset : Int) (p : Peer)
    (h : p.conflicts b = true) :
    let q := beforeAnnounced c b arrival basis offset p
    q.expected = none ∧ q.lost = 0 ∧ q.resync = 0 := by
  dsimp only
  rw [beforeAnnounced, judged_frame, if_pos h]
  exact ⟨rfl, rfl, rfl⟩

theorem beforeAnnounced_accord (c : Cfg) (b : Beacon) (arrival : Time) (basis : Basis) (offset : Int) (p : Peer)
    (h : p.conflicts b = false) :
    let q := beforeAnnounced c b arrival basis offset p
    q.expected = p.expected ∧ q.lost = p.lost ∧ q.resync = p.resync := by
  dsimp only
  rw [beforeAnnounced, judged_frame, if_neg (by simp [h])]
  exact ⟨rfl, rfl, rfl⟩

/-- The five steps of a beacon's update make of the record what R23 says. -/
theorem takeBeacon_took (c : Cfg) (b : Beacon) (arrival : Time) (basis : Basis) (offset : Int) (p : Peer) :
    TookBeacon c b arrival basis offset p (p.takeBeacon c b arrival basis offset) := by
  have hstored := beforeAnnounced_stored c b arrival basis offset p
  have hconflict := beforeAnnounced_conflict c b arrival basis offset p
  have haccord := beforeAnnounced_accord c b arrival basis offset p
  have hkind : (beforeAnnounced c b arrival basis offset p).kind = _ := judged_kind c b basis offset _
  have hforeign : (beforeAnnounced c b arrival basis offset p).foreign = true ↔ _ := judged_foreign c b _ _
  rw [takeBeacon_eq]
  generalize beforeAnnounced c b arrival basis offset p = q at *
  have hframe := announced_frame b q
  constructor
  · rw [hframe]; exact hstored
  · rw [hframe]; exact hkind
  · rw [hframe]; exact hforeign
  · intro hp hu
    obtain ⟨he, hl, hr⟩ := hconflict ((conflicts_iff b p).2 ⟨hp, hu⟩)
    obtain ⟨he', hr'⟩ := announced_none b q he
    exact ⟨he', by rw [hframe]; exact hl, hr'.trans hr⟩
  · intro hp
    obtain ⟨he, hl, hr⟩ := haccord (by
      rw [← Bool.not_eq_true, conflicts_iff]; rintro ⟨h1, h2⟩; exact hp.elim h1 h2)
    rw [← he, ← hr]
    exact ⟨by rw [hframe]; exact hl, announced_none b q,
      fun e h => ⟨announced_near b q e h, announced_far b q e h⟩⟩

/-- The fresh offset at an update (R8, R25, R26). -/
theorem takeBeacon_freshOffset (c : Cfg) (b : Beacon) (arrival : Time) (basis : Basis) (offset : Int) (p : Peer) :
    (p.takeBeacon c b arrival basis offset).freshOffset =
      if basis = .localBasis then
        if p.kind ≠ .absent ∧ p.uniqueId ≠ some b.uniqueId then none else p.freshOffset
      else some offset := by
  rw [takeBeacon_eq, announced_frame, beforeAnnounced, judged_frame]
  simp only [Peer.stored, conflicts_iff]
  split_ifs <;> rfl

/-- `TookBeacon` does not look at the fresh offset. -/
theorem TookBeacon.clearFresh {c : Cfg} {b : Beacon} {k : Time} {basis : Basis} {offset : Int} {p q : Peer}
    (h : TookBeacon c b k basis offset p q) : TookBeacon c b k basis offset p { q with freshOffset := none } :=
  ⟨h.stored, h.kind, h.foreign, h.conflict, h.announced⟩

/-- What an update of a record changes (R23). -/
theorem updateRecord_eq (c : Cfg) (b : Beacon) (k : Time) (offset : Int) (s : State) :
    updateRecord c b k offset s = { s with
      mbu := { s.mbu with
        peers := s.mbu.peers.set b.station ((s.mbu.peers.get b.station).takeBeacon c b k s.basis offset) },
      rdp := { s.rdp with flags := flagsOfBeacon c b s.basis offset (s.mbu.peers.get b.station) s.rdp.flags } } := by
  rw [← beaconFlags_eq]
  rfl

/-! ### FRAME_END with a beacon -/

/-- A frame delivered and counted, the receiver ready again (R74, R76). -/
def received (s : State) : State :=
  { s with lif := { s.lif with receiver := .ready, framesReceived := s.lif.framesReceived + 1 } }

theorem execFrameEnd_beacon (c : Cfg) (b : Beacon) (body : List Bool) (l k : Time) (s : State)
    (hr : s.src.inReset = false) (hc : s.cfg = some c) (hv : s.lif.receiver = .receiving l k false)
    (hi : 20 ≤ s.lif.idleTimer) (hj : judgeFrame body = some (.beacon b)) :
    exec (.frameEnd body) s = .next (deliverBeacon c b l k (received s)) := by
  rw [execFrameEnd_good body l k _ s hr hv hi hj, deliver]
  exact congrArg Host.Outcome.next (withCfg_some (received s) _ c hc)

/-- A beacon of another station that R44 and R47 do not adopt updates its record (R31). -/
theorem deliverBeacon_records (c : Cfg) (b : Beacon) (l k : Time) (s : State) (ho : s.syc.state ≠ .off)
    (hb : b.station ≠ c.station) (hl : s.syc.state = .listen → adoptable c b = false)
    (hf : s.syc.state = .founding → yieldsTo c b = false) :
    deliverBeacon c b l k s = updateRecord c b k (beaconOffset c b k) s := by
  rw [deliverBeacon, if_neg ho, if_neg hb, takeHandedBeacon, updateRecord_syc]
  split
  · rw [if_neg (by simp [hl ‹_›])]
  · rw [if_neg (by simp [hf ‹_›])]
  all_goals rfl

/-- One that they adopt moves the part to TENTATIVE as well (R46). -/
theorem deliverBeacon_adopts (c : Cfg) (b : Beacon) (l k : Time) (s : State) (hb : b.station ≠ c.station)
    (h : (s.syc.state = .listen ∧ adoptable c b = true) ∨ (s.syc.state = .founding ∧ yieldsTo c b = true)) :
    deliverBeacon c b l k s =
      adopt c (if s.syc.state = .listen then .adopted else .founderYield) b l
        (updateRecord c b k (beaconOffset c b k) s) := by
  rcases h with ⟨hs, ha⟩ | ⟨hs, hy⟩
  · simp [deliverBeacon, takeHandedBeacon, hb, hs, ha]
  · simp [deliverBeacon, takeHandedBeacon, hb, hs, hy]

/-- The own number: no effect with the own unique ID, in CLASH and in OFF (R24). -/
theorem deliverBeacon_ignored (c : Cfg) (b : Beacon) (l k : Time) (s : State) (hb : b.station = c.station)
    (h : b.uniqueId = s.uniqueId ∨ s.syc.state = .clash ∨ s.syc.state = .off) : deliverBeacon c b l k s = s := by
  rcases h with h | h | h
  · simp [deliverBeacon, ownNumberBeacon, hb, h]
  · simp [deliverBeacon, ownNumberBeacon, hb, h]
  · simp [deliverBeacon, h]

/-- Another unique ID: NUMBER_CONFLICT in SYNC, STABLE and HOLDOVER (R24). -/
theorem deliverBeacon_conflicts (c : Cfg) (b : Beacon) (l k : Time) (s : State) (hb : b.station = c.station)
    (hu : b.uniqueId ≠ s.uniqueId) (hs : s.syc.state.synced = true) :
    deliverBeacon c b l k s = s.raiseFlag (Flags.raiseNumberConflict c.station) := by
  cases hx : s.syc.state <;> simp [hx, SyncState.synced] at hs <;> simp [deliverBeacon, ownNumberBeacon, hb, hu, hx]

/-- Another unique ID: CLASH from LISTEN, FOUNDING and TENTATIVE (R53). -/
theorem deliverBeacon_clashes (c : Cfg) (b : Beacon) (l k : Time) (s : State) (hb : b.station = c.station)
    (hu : b.uniqueId ≠ s.uniqueId)
    (hs : s.syc.state = .listen ∨ s.syc.state = .founding ∨ s.syc.state = .tentative) :
    deliverBeacon c b l k s = changeState c .clash .clashDetected id s := by
  rcases hs with hs | hs | hs <;> simp [deliverBeacon, ownNumberBeacon, hb, hu, hs]

/-- Settles O31: the record by `takeBeacon_took`, and nothing adopted. -/
theorem beaconUpdatesItsRecord : Obligations.BeaconUpdatesItsRecord := by
  unfold Obligations.BeaconUpdatesItsRecord
  rintro c b body l k offset s hr hc hv hi hj hb rfl hs
  have ho : s.syc.state ≠ .off := by
    rintro ho
    simp [ho, SyncState.synced] at hs
  have hlisten : s.syc.state = .listen → adoptable c b = false := by
    intro h
    simpa [h, adoptable, SyncState.synced, or_iff_not_imp_left] using hs
  have hfounding : s.syc.state = .founding → yieldsTo c b = false := by
    intro h
    have hs : b.signature ≠ c.signature ∨ b.reported = .tentative ∨
        (b.reported = .founding ∧ c.station.val < b.station.val) := by simpa [h, SyncState.synced] using hs
    rcases hs with h | h | ⟨h, hlt⟩
    · simp [yieldsTo, h]
    · simp [yieldsTo, h, Reported.synced]
    · simpa [yieldsTo, h, Reported.synced] using fun _ => hlt.le
  have he := execFrameEnd_beacon c b body l k s hr hc hv hi hj
  rw [deliverBeacon_records c b l k (received s) ho hb hlisten hfounding, updateRecord_eq] at he
  refine ⟨_, _, _, he, rfl, rfl, rfl, fun n hn => get_set_ne _ _ _ _ hn.symm, ?_, fun hbasis => ?_,
    fun hbasis => ?_⟩
  all_goals dsimp only; rw [get_set_self]
  · exact takeBeacon_took _ _ _ _ _ _
  · exact (takeBeacon_freshOffset _ _ _ _ _ _).trans (if_neg hbasis)
  · exact (takeBeacon_freshOffset _ _ _ _ _ _).trans (if_pos hbasis)

/-! ### An adoption (R9, R44, R46, R47) -/

/-- The time that an adoption sets, within 64 bits (R9). -/
theorem adoptedTime_toNat (c : Cfg) (b : Beacon) (l : Time) (s : State) (hl : l.toNat ≤ s.tbu.localClock.toNat)
    (hfit : b.sendStamp.toNat + c.cluster.lineDelay + (s.tbu.localClock.toNat - l.toNat) < 2 ^ 64) :
    (adoptedTime c b l s).toNat =
      b.sendStamp.toNat + c.cluster.lineDelay + (s.tbu.localClock.toNat - l.toNat) := by
  have hz : (b.sendStamp.toNat + c.cluster.lineDelay + s.tbu.localClock.toNat - l.toNat : Int) =
      (b.sendStamp.toNat + c.cluster.lineDelay + (s.tbu.localClock.toNat - l.toNat) : Nat) := by omega
  rw [adoptedTime, hz]
  exact time64_nat _ hfit

theorem adoptedTime_of_tbu (c : Cfg) (b : Beacon) (l : Time) (s t : State) (h : s.tbu = t.tbu) :
    adoptedTime c b l s = adoptedTime c b l t := by
  rw [adoptedTime, adoptedTime, h]

theorem adopt_timeTaken (c : Cfg) (r : Reason) (b : Beacon) (l : Time) (s : State) :
    TimeTaken c (adoptedTime c b l s) .tentative r s (adopt c r b l s) :=
  changeState_timeTaken c _ .tentative r s rfl

/-- Settles O32: the record's update, and then the time and the state of an adoption. -/
theorem adoptionTakesTheBeaconsTime : Obligations.AdoptionTakesTheBeaconsTime := by
  unfold Obligations.AdoptionTakesTheBeaconsTime
  rintro c b body l k offset s hr hc hv hi hj hb hsig hbper hl hfit rfl hs
  have hadopts : (s.syc.state = .listen ∧ adoptable c b = true) ∨
      (s.syc.state = .founding ∧ yieldsTo c b = true) := by
    rcases hs with ⟨hs, hrep⟩ | ⟨hs, ⟨hrep, hlt⟩ | hrep⟩
    · exact .inl ⟨hs, by simp [adoptable, hsig, hrep]⟩
    · exact .inr ⟨hs, by simp [yieldsTo, hsig, hrep, hlt]⟩
    · exact .inr ⟨hs, by simp [yieldsTo, hsig, hrep]⟩
  have he := execFrameEnd_beacon c b body l k s hr hc hv hi hj
  rw [deliverBeacon_adopts c b l k (received s) hb hadopts] at he
  have htime := adoptedTime_toNat c b l s hl (by omega)
  obtain ⟨t, ht, h⟩ : ∃ t, exec (.frameEnd body) s = .next t ∧ TimeTaken c (adoptedTime c b l s) .tentative
      (if s.syc.state = .listen then .adopted else .founderYield)
      (updateRecord c b k (beaconOffset c b k) (received s)) t := by
    have h := adopt_timeTaken c (if s.syc.state = .listen then .adopted else .founderYield) b l
      (updateRecord c b k (beaconOffset c b k) (received s))
    rw [adoptedTime_of_tbu c b l _ s (updateRecord_tbu c b k _ (received s))] at h
    exact ⟨_, he, h⟩
  refine ⟨t, ht, ?_⟩
  rw [updateRecord_eq] at h
  obtain ⟨htbu, hsyc, hmbu, hlif, htlu, hinputs, hrdp, ⟨hjnl, hflags⟩, hscu, htge, hamp, hsrc, hcfg⟩ := h
  have hclock : t.tbu.clusterTime = adoptedTime c b l s := by rw [htbu]
  have hbasis : t.basis = .provisional := by rw [State.basis, hsyc]; rfl
  refine ⟨by rw [hclock, htime], by rw [htbu]; rfl, by rw [htbu], by rw [htbu],
    ⟨_, by rw [htbu], by rw [hclock]; exact boundaryAfter_next _ _ hbper (by omega)⟩,
    by rw [htbu]; exact ⟨rfl, rfl, rfl, rfl, rfl⟩,
    ⟨_, by rw [hsyc], by rw [hclock]; exact beaconDueAfter_next c _ hbper (by omega)⟩,
    by rw [hsyc], hbasis, by rw [hsyc]; exact ⟨rfl, rfl, rfl⟩, by rw [hsyc], by rw [hsyc]; rfl,
    fun n => by rw [hmbu, clearFresh_get], fun n hn => ?_, ?_, by rw [hmbu, clearFresh_mbu_frame]; rfl, ?_, hrdp,
    fun n => ?_, htlu, hlif, hscu, htge, hamp, hsrc, hcfg⟩
  · rw [hmbu, clearFresh_get]
    dsimp only
    rw [get_set_ne _ _ _ _ hn.symm]
    rfl
  · rw [hmbu, clearFresh_get]
    dsimp only
    rw [get_set_self]
    exact (takeBeacon_took c b k s.basis _ _).clearFresh
  · exact ⟨hjnl.trans (handRecord_jnl_eq _ _ _ _ rfl), hflags.trans (handRecord_flags_eq _ _ _ _ rfl rfl)⟩
  · rw [hinputs]
    rcases hs with ⟨hs, -⟩ | ⟨hs, -⟩ <;> simp [State.basis, SyncState.basis, received, hs]

/-! ### A beacon with the own number (R24, R53) -/

/-- Settles O33: by the unique ID and the sync state. -/
theorem ownNumberBeaconClashes : Obligations.OwnNumberBeaconClashes := by
  unfold Obligations.OwnNumberBeaconClashes
  refine ⟨fun b body l k s hr hc hv hi hj => ?_, ?_⟩
  · rw [execFrameEnd_good body l k _ s hr hv hi hj, deliver, withCfg]
    simp [afterReception, hc, State.withLif]
  · rintro c b body l k s r hr hc hv hi hj hb rfl
    have he := execFrameEnd_beacon c b body l k s hr hc hv hi hj
    refine ⟨fun h => ?_, fun hu hs => ?_, fun hu hs => ?_⟩
    · rw [he, deliverBeacon_ignored c b l k (received s) hb h]
      rfl
    · rw [he, deliverBeacon_conflicts c b l k (received s) hb hu hs]
      rfl
    · rw [deliverBeacon_clashes c b l k (received s) hb hu hs] at he
      have ho : s.syc.state ≠ .off := by rcases hs with h | h | h <;> simp [h]
      have hy : s.syc.state.synced = false := by rcases hs with h | h | h <;> simp [h, SyncState.synced]
      have hdown := changeState_stoodDown c .clash .clashDetected (received s) (received s) rfl ho hy rfl
      have hmbu := (changeState_mbu c .clash .clashDetected id (received s) fun _ => rfl).trans (if_pos rfl)
      exact ⟨_, he, by rw [hdown.syc], by rw [hdown.syc]; rfl, by rw [hdown.tbu]; rfl, hdown,
        by rw [hmbu, clearFresh_mbu_frame]; rfl, fun n => by rw [hmbu, clearFresh_get]; rfl⟩

end Sys2Proof.Machine

/-! ## A correction event's effect on time (O21) -/

namespace Sys2Proof.Machine

/-! ### The step of a correction (R15, R17) -/

theorem stepTime_forward (x : Int) (s : State) (hx : 0 < x) :
    (stepTime x s).tbu = { s.tbu with clusterTime := timeOnward s.tbu.clusterTime x.natAbs } := by
  rw [stepTime, if_pos hx]; rfl

theorem stepTime_zero (s : State) : stepTime 0 s = s := rfl

theorem stepTime_back (x : Int) (s : State) (hx : x < 0) (ht : s.syc.state = .tentative) :
    (stepTime x s).tbu = { s.tbu with clusterTime := time64 (s.tbu.clusterTime.toNat + x) } := by
  rw [stepTime, if_neg (by omega), if_pos hx, if_pos ht]; rfl

theorem stepTime_owed (x : Int) (s : State) (hx : x < 0) (ht : s.syc.state ≠ .tentative) :
    (stepTime x s).tbu = { s.tbu with slewDebt := s.tbu.slewDebt + x.natAbs } := by
  rw [stepTime, if_neg (by omega), if_pos hx, if_neg ht]; rfl

/-- Cluster time and the slew debt that an applied correction leaves. -/
structure Stepped (x : Int) (s : State) (y : Tbu) : Prop where
  forward : 0 < x → s.tbu.clusterTime.toNat + x.natAbs < 2 ^ 64 →
    y.clusterTime.toNat = s.tbu.clusterTime.toNat + x.natAbs
  zero : x = 0 → y.clusterTime = s.tbu.clusterTime
  back : x < 0 → s.syc.state = .tentative → x.natAbs ≤ s.tbu.clusterTime.toNat →
    y.clusterTime.toNat = s.tbu.clusterTime.toNat - x.natAbs
  owed : x < 0 → s.syc.state ≠ .tentative → y.clusterTime = s.tbu.clusterTime
  debt : y.slewDebt = if x < 0 ∧ s.syc.state ≠ .tentative then s.tbu.slewDebt + x.natAbs else s.tbu.slewDebt

theorem stepTime_stepped (x : Int) (s : State) : Stepped x s (stepTime x s).tbu := by
  rcases lt_trichotomy x 0 with hx | rfl | hx
  · by_cases ht : s.syc.state = .tentative
    · rw [stepTime_back x s hx ht]
      have hback (hfit : x.natAbs ≤ s.tbu.clusterTime.toNat) :
          (time64 (s.tbu.clusterTime.toNat + x)).toNat = s.tbu.clusterTime.toNat - x.natAbs := by
        have hlt := s.tbu.clusterTime.isLt
        exact (time64_toNat _ (by omega) (by omega)).trans (by omega)
      exact ⟨by omega, by omega, fun _ _ => hback, fun _ hn => absurd ht hn, by simp [ht]⟩
    · rw [stepTime_owed x s hx ht]
      exact ⟨by omega, by omega, fun _ h => absurd h ht, fun _ _ => rfl, by simp [hx, ht]⟩
  · rw [stepTime_zero]
    exact ⟨by omega, fun _ => rfl, by omega, by omega, rfl⟩
  · rw [stepTime_forward x s hx]
    exact ⟨fun _ => timeOnward_toNat _ _, by omega, by omega, by omega, by rw [if_neg (by omega)]⟩

/-- What the judgement of a correction event finds at the clocks (R11, R14, R15, R17). -/
theorem corrected_tbu (c : Cfg) (b : Time) (s : State) :
    (corrected c b s).tbu = (applyOutcome (correctionOutcome c s) (awaitNext c b s)).tbu := ageRecords_tbu c _

theorem corrected_stands (c : Cfg) (b : Time) (s : State) :
    (corrected c b s).tge = s.tge ∧ (corrected c b s).amp = s.amp ∧ (corrected c b s).src = s.src ∧
      (corrected c b s).cfg = s.cfg ∧ (corrected c b s).uniqueId = s.uniqueId ∧
      (corrected c b s).pending = s.pending ∧ (corrected c b s).rdp = s.rdp ∧ (corrected c b s).scu = s.scu ∧
      (corrected c b s).tlu = s.tlu ∧ (corrected c b s).syc = s.syc ∧ (corrected c b s).jnl = s.jnl := by
  simp [corrected, awaitNext]

/-- The receiver's stamp moves with cluster time, and nothing else at the line interface changes (R7, R15). -/
theorem corrected_lif (c : Cfg) (b : Time) (s : State) :
    (corrected c b s).lif = { s.lif with
      receiver :=
        s.lif.receiver.move ((corrected c b s).tbu.clusterTime.toNat - s.tbu.clusterTime.toNat) } := by
  rw [corrected_tbu]
  exact (show (corrected c b s).lif = _ from ageRecords_lif c _).trans (applyOutcome_lif _ _)

/-! ### What the settling of a correction event leaves -/

/-- What no settling touches: the clocks, the statistics of the corrections and the reception. -/
def clockView (s : State) : Time × Time × (Int × Int × Int × BitVec 32) × Receiver :=
  (s.tbu.clusterTime, s.tbu.localClock,
    (s.tbu.lastCorrection, s.tbu.minCorrection, s.tbu.maxCorrection, s.tbu.correctionCount), s.lif.receiver)

theorem changeState_clockView (c : Cfg) (new : SyncState) (r : Reason) (mid : State → State) (s : State)
    (ht : ∀ s, (mid s).tbu = s.tbu) (hl : ∀ s, (mid s).lif = s.lif) :
    clockView (changeState c new r mid s) = clockView s :=
  changeState_keeps c new r mid s clockView (by simp [clockView, ht, hl]) (by simp [clockView]) (by simp [clockView])
    (by simp [clockView]) (by simp [clockView, purge]) (by simp [clockView]) (by simp [clockView])

theorem settleEvent_clockView (c : Cfg) (o : Outcome) (a : Nat) (before : Time) (s : State) :
    clockView (settleEvent c o a before s) = clockView s := by
  refine settleEvent_keeps (fun w => clockView w = clockView s) c o a before s rfl ?_ ?_ ?_ ?_
  · exact fun _ _ h => by simpa [clockView] using h
  · exact fun _ h => by simpa [clockView] using h
  · exact fun _ h => by simpa [clockView] using h
  · rintro new reason mid u hu hmid -
    exact (changeState_clockView c new reason mid u (by rcases hmid with rfl | rfl <;> simp)
      (by rcases hmid with rfl | rfl <;> simp)).trans hu

/-- What a settling leaves that does not end in LISTEN: firings reach the schedule, the channels with their overrun
counts and the flags, and the change of state the last-edge records, the STATE source and the journal. -/
def settledView (s : State) :=
  (s.tbu, s.lif, (s.tge, s.amp, s.src, s.cfg, s.uniqueId, s.pending),
    (s.rdp.txn, s.rdp.armed, s.rdp.loadPending, s.rdp.mask, s.rdp.threshold),
    (s.scu.quota, s.scu.drops, s.scu.lateDrop, s.scu.lateFire, s.scu.cancelled), s.tlu.lines, s.tlu.pins)

theorem changeState_settledView (c : Cfg) (new : SyncState) (r : Reason) (mid : State → State) (s : State)
    (hn : new.standsDown = false) : settledView (changeState c new r mid s) = settledView s := by
  rw [changeState_moves c new r mid s hn]
  simp [settledView]

/-- A correction event moves to SYNC, STABLE, HOLDOVER or LISTEN (R48 to R52). -/
theorem judgeEvent_stands (c : Cfg) (o : Outcome) (a : Nat) (y : Syc) (new : SyncState) (reason : Reason)
    (h : (judgeEvent c o a y).1 = some (new, reason)) (hl : new ≠ .listen) : new.standsDown = false := by
  obtain ⟨-, rfl | rfl | rfl | rfl, -⟩ := judgeEvent_change c o a y new reason h
  · rfl
  · rfl
  · rfl
  · exact absurd rfl hl

theorem settleEvent_settledView (c : Cfg) (o : Outcome) (a : Nat) (before : Time) (s : State)
    (hl : (settleEvent c o a before s).syc.state ≠ .listen) :
    settledView (settleEvent c o a before s) = settledView s := by
  refine settleEvent_keeps (fun w => w.syc.state ≠ .listen → settledView w = settledView s) c o a before s
    (fun _ => rfl) ?_ ?_ ?_ ?_ hl
  · exact fun _ _ h => by simpa [settledView] using h
  · exact fun _ h => by simpa [settledView] using h
  · exact fun _ h => by simpa [settledView] using h
  · intro new reason mid u hu hmid hj hstate
    rw [changeState_syc c new reason mid u (by rcases hmid with rfl | rfl <;> simp)] at hstate
    rw [changeState_settledView c new reason mid u (judgeEvent_stands c o a _ new reason hj hstate)]
    refine hu fun hu => ?_
    obtain ⟨hactive, -, -⟩ := judgeEvent_change c o a _ new reason hj
    rw [hu] at hactive
    cases hactive

/-- The settling of an event that the judgement moves nowhere. -/
theorem settleEvent_stays (c : Cfg) (o : Outcome) (a : Nat) (before : Time) (s : State)
    (hj : (judgeEvent c o a s.syc).1 = none) :
    settleEvent c o a before s =
      setRounds (judgeEvent c o a s.syc).2 (if o.forward then fireDue (some before) s else s) := by
  unfold settleEvent
  split
  · rename_i r he; rw [he]
  · rename_i new reason r he; rw [he] at hj; cases hj

/-- The settling of an event that moves to another state. -/
theorem settleEvent_moves (c : Cfg) (o : Outcome) (a : Nat) (before : Time) (s : State) (new : SyncState)
    (reason : Reason) (hj : (judgeEvent c o a s.syc).1 = some (new, reason)) :
    settleEvent c o a before s =
      if headDue s && (o.forward || new.standsDown) then changeOvertaking c new reason before s
      else changeState c new reason id s := by
  unfold settleEvent
  split
  · rename_i r he; rw [he] at hj; cases hj
  · rename_i new' reason' r he
    rw [he] at hj
    cases hj
    rfl

/-- Without a firing the schedule and the lines stand where the event does not end in LISTEN (R125, R128). -/
theorem settleEvent_unfired (c : Cfg) (o : Outcome) (a : Nat) (before : Time) (s : State)
    (hl : (settleEvent c o a before s).syc.state ≠ .listen) (h : headDue s = false ∨ o.forward = false) :
    (settleEvent c o a before s).scu = s.scu ∧
      (settleEvent c o a before s).tlu = { s.tlu with inputs := (settleEvent c o a before s).tlu.inputs } := by
  cases hj : (judgeEvent c o a s.syc).1 with
  | none =>
    have hfire : (if o.forward then fireDue (some before) s else s) = s := by
      rcases h with h | h
      · rw [fireDue_none _ s h, ite_self]
      · rw [h]; rfl
    rw [settleEvent_stays c o a before s hj, hfire]
    exact ⟨rfl, rfl⟩
  | some change =>
    obtain ⟨new, reason⟩ := change
    have hne : new ≠ .listen := by
      rintro rfl
      refine hl ?_
      rw [settleEvent_moves c o a before s _ _ hj]
      split <;> simp [changeOvertaking]
    have hn := judgeEvent_stands c o a _ new reason hj hne
    have hnot : (headDue s && (o.forward || new.standsDown)) = false := by
      rcases h with h | h <;> simp [h, hn]
    rw [settleEvent_moves c o a before s _ _ hj, if_neg (by simp [hnot]), changeState_moves_frame c new reason s hn]
    exact ⟨rfl, rfl⟩

/-- The next boundary goes in LISTEN (R5). -/
theorem settleEvent_listen_boundary (c : Cfg) (o : Outcome) (a : Nat) (before : Time) (s : State)
    (hs : s.syc.state ≠ .listen) (hl : (settleEvent c o a before s).syc.state = .listen) :
    (settleEvent c o a before s).tbu.nextBoundary = none := by
  cases hj : (judgeEvent c o a s.syc).1 with
  | none =>
    rw [settleEvent_stays c o a before s hj] at hl
    refine absurd ?_ hs
    rw [← hl]
    split <;> simp
  | some change =>
    obtain ⟨new, reason⟩ := change
    rw [settleEvent_moves c o a before s _ _ hj] at hl ⊢
    have hnew : new = .listen := by
      rw [← hl]
      split <;> simp [changeOvertaking]
    subst hnew
    split <;> simp [changeOvertaking, SyncState.standsDown]

/-! ### CORRECTION_EVENT -/

theorem execCorrectionEvent_at (c : Cfg) (s : State) (h : AtEvent c s) :
    exec .correctionEvent s = .next (correctionAt c s.tbu.clusterTime s) := by
  obtain ⟨hr, hc, hb⟩ := h
  change execCorrectionEvent s = _
  rw [execCorrectionEvent, live_running s _ hr, withCfg_some s _ c hc, if_pos hb]

theorem correctionAt_clockView (c : Cfg) (b : Time) (s : State) :
    clockView (correctionAt c b s) = clockView (corrected c b s) := by
  rw [correctionAt_eq, settleEvent_clockView]

theorem correctionAt_settledView (c : Cfg) (b : Time) (s : State) (hl : (correctionAt c b s).syc.state ≠ .listen) :
    settledView (correctionAt c b s) = settledView (corrected c b s) :=
  settleEvent_settledView c _ _ _ _ hl

theorem correctionAt_arrivalMoved (c : Cfg) (b : Time) (s : State) : ArrivalMoved s (correctionAt c b s) := by
  obtain ⟨htime, -, -, hreceiver⟩ : _ ∧ _ ∧ _ ∧ _ := by
    simpa only [clockView, Prod.mk.injEq] using correctionAt_clockView c b s
  refine ArrivalMoved.of_move s _ ?_
  rw [hreceiver, htime, corrected_lif]

/-- No entry fires, as the settling of the event sees it (R125, R128). -/
theorem noneFires_settled (c : Cfg) (s t : State) (h : NoneFires c s t)
    (ht : t.tbu.clusterTime = (corrected c s.tbu.clusterTime s).tbu.clusterTime) :
    headDue (corrected c s.tbu.clusterTime s) = false ∨ (correctionOutcome c s).forward = false := by
  refine h.imp (fun hlater => headDue_of_later _ ?_) fun h => h.1
  rw [← ht]
  simpa [corrected, awaitNext] using hlater

/-- A settled event that does not end in LISTEN leaves the rest of the part as it was. -/
theorem correctionAt_eventFrame (c : Cfg) (s : State)
    (hl : (correctionAt c s.tbu.clusterTime s).syc.state ≠ .listen) :
    EventFrame c s (correctionAt c s.tbu.clusterTime s) := by
  have hview := correctionAt_settledView c s.tbu.clusterTime s hl
  have htime := settleEvent_clusterTime c (correctionOutcome c s) (agreementCount c s) s.tbu.clusterTime
    (corrected c s.tbu.clusterTime s)
  have hunfired := settleEvent_unfired c (correctionOutcome c s) (agreementCount c s) s.tbu.clusterTime
    (corrected c s.tbu.clusterTime s) hl
  have hnone := noneFires_settled c s (correctionAt c s.tbu.clusterTime s)
  have hlif := corrected_lif c s.tbu.clusterTime s
  have hlosses : (corrected c s.tbu.clusterTime s).tbu.syncLossCount = s.tbu.syncLossCount := by
    rw [corrected_tbu]; simp [awaitNext]
  obtain ⟨htge, hamp, hsrc, hcfg, huid, hpending, hrdp, hscu, htlu, -, -⟩ := corrected_stands c s.tbu.clusterTime s
  rw [← correctionAt_eq] at htime hunfired
  generalize correctionAt c s.tbu.clusterTime s = t at *
  generalize corrected c s.tbu.clusterTime s = u at *
  simp only [settledView, Prod.mk.injEq, htge, hamp, hsrc, hcfg, huid, hpending, hrdp, hscu, htlu] at hview hunfired
  obtain ⟨htbu, hlift, hstands, ⟨htxn, harmed, hload, hmask, hthreshold⟩,
    ⟨hquota, hdrops, hlateDrop, hlateFire, hcancelled⟩, hlines, hpins⟩ := hview
  constructor
  case lif => rw [hlift, hlif]
  case stands => exact hstands
  case rdp => dsimp only; rw [← htxn, ← harmed, ← hload, ← hmask, ← hthreshold]
  case syncLosses => rw [htbu, hlosses]
  case scu => dsimp only; rw [← hquota, ← hdrops, ← hlateDrop, ← hlateFire, ← hcancelled]
  case tlu => dsimp only; rw [← hlines, ← hpins]
  case unfired => exact fun h => hunfired (hnone h htime)

theorem correctionOutcome_applied_le (c : Cfg) (s : State) (x : Int) (h : correctionOutcome c s = .applied x) :
    x.natAbs ≤ c.cluster.maxCorr := by
  unfold correctionOutcome at h
  split at h
  · cases h
  · split at h
    · cases h; assumption
    · cases h

theorem corrected_withheld (c : Cfg) (b : Time) (s : State)
    (h : correctionOutcome c s = .none ∨ ∃ x, correctionOutcome c s = .exceeded x) :
    (corrected c b s).tbu = (awaitNext c b s).tbu := by
  rw [corrected_tbu]
  rcases h with h | ⟨x, h⟩ <;> rw [h] <;> rfl

theorem corrected_applied (c : Cfg) (b : Time) (s : State) (x : Int) (h : correctionOutcome c s = .applied x) :
    (corrected c b s).tbu = (countCorrection x (stepTime x (awaitNext c b s))).tbu := by
  rw [corrected_tbu, h]
  rfl

/-- Settles O21: the outcome works on the clocks before the judgement, which leaves them. -/
theorem correctionIsApplied : Obligations.CorrectionIsApplied := by
  unfold Obligations.CorrectionIsApplied
  intro c s h
  have hclock := correctionAt_clockView c s.tbu.clusterTime s
  have hview := correctionAt_settledView c s.tbu.clusterTime s
  have hlisten := settleEvent_listen_boundary c (correctionOutcome c s) (agreementCount c s) s.tbu.clusterTime
    (corrected c s.tbu.clusterTime s)
  have hwithheld := corrected_withheld c s.tbu.clusterTime s
  have happlied := corrected_applied c s.tbu.clusterTime s
  have hboundary : (corrected c s.tbu.clusterTime s).tbu.nextBoundary =
      some (timePlus s.tbu.clusterTime c.cluster.bper) := by
    simp [corrected, awaitNext]
  have hhold : (corrected c s.tbu.clusterTime s).tbu.hold = s.tbu.hold := by simp [corrected, awaitNext]
  have hlocal : (corrected c s.tbu.clusterTime s).tbu.localClock = s.tbu.localClock := by simp [corrected, awaitNext]
  have hsyc : (corrected c s.tbu.clusterTime s).syc = s.syc := by simp [corrected, awaitNext]
  have hframe := correctionAt_eventFrame c s
  have harrival := correctionAt_arrivalMoved c s.tbu.clusterTime s
  rw [← correctionAt_eq, hsyc] at hlisten
  refine ⟨_, execCorrectionEvent_at c s h, ?_⟩
  generalize correctionAt c s.tbu.clusterTime s = t at *
  generalize corrected c s.tbu.clusterTime s = u at *
  simp only [clockView, settledView, Prod.mk.injEq] at hclock hview
  obtain ⟨htime, hclockLocal, ⟨hlast, hmin, hmax, hcount⟩, -⟩ := hclock
  refine ⟨hclockLocal.trans hlocal, harrival, hframe, fun hl hfit => ?_, hlisten, fun ho => ?_, fun x hx => ?_⟩
  · obtain ⟨htbu, -⟩ := hview hl
    exact ⟨_, htbu ▸ hboundary, timePlus_toNat _ _ hfit⟩
  · have hu := hwithheld ho
    rw [htime, hlast, hmin, hmax, hcount, hu]
    refine ⟨rfl, rfl, rfl, rfl, rfl, fun hl => ?_⟩
    obtain ⟨htbu, -⟩ := hview hl
    rw [htbu, hu]
    exact ⟨rfl, rfl⟩
  · have hu := happlied x hx
    have hle := correctionOutcome_applied_le c s x hx
    obtain ⟨hulast, humin, humax, hucount⟩ : u.tbu.lastCorrection = x ∧
        u.tbu.minCorrection = min s.tbu.minCorrection x ∧ u.tbu.maxCorrection = max s.tbu.maxCorrection x ∧
        u.tbu.correctionCount = s.tbu.correctionCount + 1 := by
      rw [hu]; simp [countCorrection, awaitNext]
    obtain ⟨hforward, hzero, hback, howed, hdebt⟩ := stepTime_stepped x (awaitNext c s.tbu.clusterTime s)
    have hutime : u.tbu.clusterTime = (stepTime x (awaitNext c s.tbu.clusterTime s)).tbu.clusterTime := by rw [hu]; rfl
    have hudebt : u.tbu.slewDebt = (stepTime x (awaitNext c s.tbu.clusterTime s)).tbu.slewDebt := by rw [hu]; rfl
    rw [htime, hutime]
    refine ⟨hle, hlast.trans hulast, hmin.trans humin, hmax.trans humax, hcount.trans hucount, ?_, hzero, ?_, howed,
      ?_⟩
    · exact fun hx hfit => hforward hx (lt_of_le_of_lt (Nat.add_le_add_left hle _) hfit)
    · exact fun hx ht hfit => hback hx ht (hle.trans hfit)
    · intro hl
      obtain ⟨htbu, -⟩ := hview hl
      rw [htbu]
      exact ⟨hudebt.trans hdebt, hhold⟩

end Sys2Proof.Machine

/-! ## The loss of sync (O22) -/

namespace Sys2Proof.Machine

/-! ### What meets the stand-down orders (R148; log 12) -/

/-- Nothing, or some of the entries that are due. -/
def Meets (before : Time) (mid : State → State) : Prop := mid = id ∨ mid = fireSome (some before)

section
variable {before : Time} {mid : State → State} (h : Meets before mid) (s : State)
include h

theorem Meets.tbu : (mid s).tbu = s.tbu := by rcases h with rfl | rfl <;> simp
theorem Meets.mbu : (mid s).mbu = s.mbu := by rcases h with rfl | rfl <;> simp
theorem Meets.syc : (mid s).syc = s.syc := by rcases h with rfl | rfl <;> simp
theorem Meets.lif : (mid s).lif = s.lif := by rcases h with rfl | rfl <;> simp

theorem Meets.tge : (mid s).tge = s.tge := by rcases h with rfl | rfl <;> simp
theorem Meets.amp : (mid s).amp = s.amp := by rcases h with rfl | rfl <;> simp
theorem Meets.src : (mid s).src = s.src := by rcases h with rfl | rfl <;> simp
theorem Meets.cfg : (mid s).cfg = s.cfg := by rcases h with rfl | rfl <;> simp
theorem Meets.lines : (mid s).tlu.lines = s.tlu.lines := by rcases h with rfl | rfl <;> simp
theorem Meets.inputs : (mid s).tlu.inputs = s.tlu.inputs := by rcases h with rfl | rfl <;> simp
theorem Meets.pins : (mid s).tlu.pins = s.tlu.pins := by rcases h with rfl | rfl <;> simp

/-- At the port firings reach the flags alone (R145, R164). -/
theorem Meets.rdp : (mid s).rdp = { s.rdp with flags := (mid s).rdp.flags } := by
  have hrdp : (mid s).rdp.txn = s.rdp.txn ∧ (mid s).rdp.armed = s.rdp.armed ∧
      (mid s).rdp.statePending = s.rdp.statePending ∧ (mid s).rdp.loadPending = s.rdp.loadPending ∧
      (mid s).rdp.mask = s.rdp.mask ∧ (mid s).rdp.threshold = s.rdp.threshold := by
    rcases h with rfl | rfl <;> simp
  obtain ⟨htxn, harmed, hstate, hload, hmask, hthreshold⟩ := hrdp
  dsimp only
  rw [← htxn, ← harmed, ← hstate, ← hload, ← hmask, ← hthreshold]

/-- The entries that fire there, and what they do to a state that looks alike. -/
theorem Meets.fired {x : State} (hx : Alike True s x) :
    ∃ n, Fired n s (mid s) ∧ Alike True (mid s) ((s.scu.entries.take n).foldl (fireAtEvent before) x) := by
  rcases h with rfl | rfl
  · exact ⟨0, Fired.none _ _ rfl, hx⟩
  · exact fireSome_fired before s x hx

end

/-! ### Runs of firings, and the flush behind them (R125, R130) -/

theorem Fired.add {k m : Nat} {s t t' w : State} (hk : Fired k s t) (hm : Fired m t' w) (hscu : t'.scu = t.scu)
    (htime : t'.tbu.clusterTime = s.tbu.clusterTime) : Fired (k + m) s w := by
  obtain ⟨hklen, hkdue, hkentries, hkspace, hkrest⟩ := hk
  obtain ⟨hmlen, hmdue, hmentries, hmspace, hmrest⟩ := hm
  rw [hscu, hkentries] at hmlen hmdue hmentries
  rw [hscu, hkrest] at hmrest
  rw [List.length_drop] at hmlen
  refine ⟨by omega, fun e he => ?_, by rw [hmentries, List.drop_drop], fun p => ?_, hmrest⟩
  · rw [List.take_add, List.mem_append] at he
    exact he.elim (hkdue e) fun he => htime ▸ hmdue e he
  · rw [hmspace p, hscu, hkspace p, hkentries, List.take_add, List.countP_append, Nat.add_assoc]

theorem flush_scu (s : State) :
    (flush s).scu = { s.scu with
      entries := [], space := s.scu.entries.foldl (fun sp e => freePlace e.part sp) s.scu.space,
      cancelled := s.scu.cancelled + BitVec.ofNat 32 s.scu.entries.length } := by
  simp [flush, removeUnfired]

/-- The schedule behind a run of firings and the flush. -/
theorem Fired.flushed {n : Nat} {s w : State} (h : Fired n s w) :
    (flush w).scu = { s.scu with
      entries := [], space := (flush w).scu.space,
      cancelled := s.scu.cancelled + BitVec.ofNat 32 (s.scu.entries.length - n) } := by
  obtain ⟨-, -, hentries, -, hrest⟩ := h
  have hlength : w.scu.entries.length = s.scu.entries.length - n := by rw [hentries, List.length_drop]
  rw [← hlength, flush_scu]
  generalize w.scu.entries.foldl _ _ = space
  generalize w.scu.entries.length = len
  rw [hrest]

/-- Every place comes back (R118, R130). -/
theorem Fired.places {n : Nat} {s w : State} (h : Fired n s w) (p : Partition) :
    (flush w).scu.space.get p = s.scu.space.get p + placesTaken s p := by
  obtain ⟨-, -, hentries, hspace, -⟩ := h
  rw [flush_scu, foldl_freePlace, hspace p, hentries, placesTaken, Nat.add_assoc, ← List.countP_append,
    List.take_append_drop]

/-! ### A change into LISTEN out of a synchronized state -/

/-- The state as the firings meet it between the train end order and the flush (R148). -/
def ordered (c : Cfg) (s : State) : State := trainEnd (dropTime s.syc.state.synced (setSyncState c .listen s))

/-- What the change to LISTEN and the train end order are to a firing (R147, R148). -/
def trainEnded (s : State) : State :=
  { s with
    syc := { s.syc with state := .listen }, tlu := { s.tlu with channels := s.tlu.channels.map Channel.trainEnd } }

theorem Alike.ordered (c : Cfg) {s x : State} (h : Alike True s x) :
    Alike True (Machine.ordered c s) (trainEnded x) := by
  obtain ⟨hchannels, hoverruns, hlines, htime, -, hflags, hjournal⟩ := h
  constructor
  · simp [Machine.ordered, trainEnded, trainEnd, hchannels]
  · simpa [Machine.ordered, trainEnded] using hoverruns
  · simpa [Machine.ordered, trainEnded] using hlines
  · simpa [Machine.ordered, trainEnded] using htime
  · simp [Machine.ordered, trainEnded]
  · simpa [Machine.ordered, trainEnded] using hflags
  · simpa [Machine.ordered, trainEnded] using hjournal

theorem changeState_listen (c : Cfg) (reason : Reason) (mid : State → State) (s : State) (ho : s.syc.state ≠ .off) :
    changeState c .listen reason mid s =
      writeStateRecord s.syc.state reason (some (mid (ordered c s)).scu.entries.length)
        (flush (purge (mid (ordered c s)))) := by
  rw [changeState]
  exact (if_pos rfl).trans (if_neg ho)

theorem SyncState.ne_off_of_synced {x : SyncState} (h : x.synced = true) : x ≠ .off := by
  rintro rfl
  cases h

theorem settleEvent_listen (c : Cfg) (o : Outcome) (a : Nat) (before : Time) (s : State) (reason : Reason)
    (hj : (judgeEvent c o a s.syc).1 = some (.listen, reason)) (hs : s.syc.state.synced = true) :
    ∃ mid, Meets before mid ∧ settleEvent c o a before s = changeState c .listen reason mid (mid s) := by
  rw [settleEvent_moves c o a before s .listen reason hj]
  split
  · have ho : (fireSome (some before) s).syc.state ≠ .off := by
      rw [fireSome_syc]
      exact SyncState.ne_off_of_synced hs
    have hentries :
        (changeState c .listen reason (fireSome (some before)) (fireSome (some before) s)).scu.entries = [] := by
      rw [changeState_entries, if_pos ⟨rfl, ho⟩]
    refine ⟨_, .inr rfl, ?_⟩
    rw [changeOvertaking, fireDue, hentries, fireDueFrom]
  · exact ⟨id, .inl rfl, rfl⟩

/-- What a loss of sync leaves, but for the schedule, the channels and the record (R18, R36, R39, R40, R56, R73,
R156). -/
structure LostSync (c : Cfg) (s t : State) : Prop where
  syc : t.syc =
    { state := .listen, lastSynchronizing := s.syc.lastSynchronizing, goodRounds := 0, stableRounds := 0,
      holdoverRounds := 0, listenTimer := some c.listenTime, nextBeaconDue := none }
  tbu : t.tbu = { s.tbu with
    slewDebt := 0, hold := false, nextBoundary := none, syncLossCount := sat16 s.tbu.syncLossCount 1 }
  mbu : t.mbu = (clearFresh s).mbu
  lif : t.lif = { s.lif with
    queue := [], slot := none, onLine := s.lif.onLine.map fun f => { f with purged := true } }
  rdp : t.rdp = { s.rdp with flags := t.rdp.flags, statePending := true }
  lines : t.tlu.lines = s.tlu.lines
  pins : t.tlu.pins = s.tlu.pins
  inputs : ∀ l : LineNo, t.tlu.inputs.get l = { s.tlu.inputs.get l with lastEdge := none }
  stands : t.tge = s.tge ∧ t.amp = s.amp ∧ t.src = s.src ∧ t.cfg = s.cfg

theorem ordered_rdp (c : Cfg) (s : State) : (ordered c s).rdp = { s.rdp with statePending := true } := by
  rw [show (ordered c s).rdp = (setSyncState c .listen s).rdp from rfl, setSyncState_eq]

/-- The time basis changes to the local clock, so no last-edge record stays (R156). -/
theorem ordered_inputs (c : Cfg) (s : State) (hs : s.syc.state.synced = true) :
    (ordered c s).tlu.inputs = s.tlu.inputs.map fun ch => { ch with lastEdge := none } := by
  rw [show (ordered c s).tlu.inputs = (setSyncState c .listen s).tlu.inputs from rfl, setSyncState_inputs, if_neg]
  cases hstate : s.syc.state <;> simp_all [SyncState.synced, SyncState.basis]

/-- A STATE record reaches the flags alone at the port (R163). -/
theorem writeStateRecord_rdp (old : SyncState) (r : Reason) (n : Option Nat) (s : State) :
    (writeStateRecord old r n s).rdp = { s.rdp with flags := (writeStateRecord old r n s).rdp.flags } := by
  rw [writeStateRecord_hands, handRecord_eq]

theorem changeState_lostSync (c : Cfg) (reason : Reason) (before : Time) (mid : State → State) (s : State)
    (h : Meets before mid) (hs : s.syc.state.synced = true) :
    LostSync c s (changeState c .listen reason mid (mid s)) := by
  have hsynced : (mid s).syc.state.synced = true := by rw [h.syc, hs]
  have ht := changeState_listen c reason mid (mid s) (SyncState.ne_off_of_synced hsynced)
  have hrdp : (mid (ordered c (mid s))).rdp =
      { s.rdp with flags := (mid (ordered c (mid s))).rdp.flags, statePending := true } := by
    rw [h.rdp, ordered_rdp, h.rdp]
  have hlif : (mid (ordered c (mid s))).lif = s.lif := by rw [h.lif]; simp [ordered, h.lif]
  have hmbu : (clearFresh (mid s)).mbu = (clearFresh s).mbu := by simp [clearFresh, mapPeers, h.mbu]
  have htlu : (changeState c .listen reason mid (mid s)).tlu = (mid (ordered c (mid s))).tlu := by
    rw [ht, writeStateRecord_tlu]; rfl
  constructor
  case syc => rw [changeState_syc c .listen reason mid _ h.syc, h.syc]; rfl
  case tbu => rw [changeState_tbu c .listen reason mid _ h.tbu, h.tbu, h.syc, hs]; rfl
  case mbu => rw [changeState_mbu c .listen reason mid _ h.mbu]; exact hmbu
  case lif => rw [ht, writeStateRecord_lif, ← hlif]; rfl
  case rdp =>
    rw [ht, writeStateRecord_rdp, show ∀ x, (flush (purge x)).rdp = x.rdp from fun _ => rfl, hrdp]
  case lines => rw [changeState_lines c .listen reason mid _ h.lines, h.lines]
  case pins => rw [htlu, h.pins]; simp [ordered, h.pins]
  case inputs => intro l; rw [htlu, h.inputs, ordered_inputs c _ hsynced, h.inputs]; simp
  case stands =>
    rw [changeState_tge c .listen reason mid _ h.tge, changeState_amp c .listen reason mid _ h.amp,
      changeState_src c .listen reason mid _ h.src, changeState_cfg c .listen reason mid _ h.cfg]
    exact ⟨h.tge s, h.amp s, h.src s, h.cfg s⟩

theorem judgeEvent_loses (c : Cfg) (o : Outcome) (a : Nat) (y : Syc) (hs : y.state.synced = true)
    (h : (∃ x, o = .exceeded x) ∨ Expires c a y) :
    ∃ reason, (judgeEvent c o a y).1 = some (.listen, reason) ∧
      ((∃ x, o = .exceeded x) → reason = .boundExceeded) ∧
      ((∀ x, o ≠ .exceeded x) → reason = .holdoverExpired) := by
  have hexceeded (x : Int) (ho : o = .exceeded x) : (judgeEvent c o a y).1 = some (.listen, .boundExceeded) := by
    cases hy : y.state <;> simp_all [judgeEvent, SyncState.synced]
  have hexpires (he : Expires c a y) (hne : ∀ x, o ≠ .exceeded x) :
      (judgeEvent c o a y).1 = some (.listen, .holdoverExpired) := by
    obtain ⟨hy, hq, hr⟩ := he
    have hquorum : ¬c.cluster.quorum ≤ a := by omega
    cases o with
    | exceeded x => exact absurd rfl (hne x)
    | none => simp [judgeEvent, hy, hquorum, hr]
    | applied x => simp [judgeEvent, hy, hquorum, hr]
  by_cases hx : ∃ x, o = .exceeded x
  · obtain ⟨x, ho⟩ := hx
    exact ⟨_, hexceeded x ho, fun _ => rfl, fun hne => absurd ho (hne x)⟩
  · have hne : ∀ x, o ≠ .exceeded x := fun x ho => hx ⟨x, ho⟩
    exact ⟨_, hexpires (h.resolve_left hx) hne, fun h => absurd h hx, fun _ => rfl⟩

/-- The firings of a loss of sync (R125 to R128, R130, R131, R147, R148): `k` before the change, `m` between the train
end order and the flush, and the flush takes the rest; `x` is the state as the first of them sees it. -/
structure FiredAndFlushed (before : Time) (reason : Reason) (k m : Nat) (s x t : State) : Prop where
  fired : ∃ w, Fired (k + m) s w ∧ t.scu = (flush w).scu
  channels : ∀ u v : State, u = (s.scu.entries.take k).foldl (fireAtEvent before) x →
    v = ((s.scu.entries.drop k).take m).foldl (fireAtEvent before) (trainEnded u) →
    t.tlu.channels = v.tlu.channels ∧ t.tlu.overruns = v.tlu.overruns ∧
      Recorded (stateRecord t s.syc.state .listen reason (some (s.scu.entries.length - (k + m)))) .state v t

theorem changeState_firedAndFlushed (c : Cfg) (reason : Reason) (before : Time) (mid : State → State) (s x : State)
    (h : Meets before mid) (hs : s.syc.state.synced = true) (hx : Alike True s x) :
    ∃ k m, FiredAndFlushed before reason k m s x (changeState c .listen reason mid (mid s)) := by
  obtain ⟨k, hk, halike⟩ := h.fired s hx
  obtain ⟨m, hm, halike⟩ := h.fired (ordered c (mid s)) (halike.ordered c)
  have hscu : (ordered c (mid s)).scu = (mid s).scu := by simp [ordered]
  have htime : (ordered c (mid s)).tbu.clusterTime = s.tbu.clusterTime := by simp [ordered, h.tbu]
  have hfired := hk.add hm hscu htime
  have hlength : (mid (ordered c (mid s))).scu.entries.length = s.scu.entries.length - (k + m) := by
    rw [hfired.entries, List.length_drop]
  have hlocal : (mid (ordered c (mid s))).tbu.localClock = s.tbu.localClock := by
    rw [h.tbu]; simp [ordered, h.tbu]
  have htlocal : (changeState c .listen reason mid (mid s)).tbu.localClock = s.tbu.localClock := by
    rw [changeState_localClock c .listen reason mid _ h.tbu, h.tbu]
  have hstate : (mid (ordered c (mid s))).syc.state = .listen := by rw [h.syc]; simp [ordered]
  have hsynced : (mid s).syc.state.synced = true := by rw [h.syc, hs]
  have ht := changeState_listen c reason mid (mid s) (SyncState.ne_off_of_synced hsynced)
  rw [hlength, h.syc s] at ht
  rw [hscu, hk.entries] at halike
  generalize changeState c .listen reason mid (mid s) = t at *
  generalize mid (ordered c (mid s)) = y at *
  have hrecord : stateRecord (flush (purge y)) s.syc.state .listen reason (some (s.scu.entries.length - (k + m))) =
      stateRecord t s.syc.state .listen reason (some (s.scu.entries.length - (k + m))) := by
    simp only [stateRecord, SyncState.basis, if_true, flush_tbu, purge_tbu, hlocal, htlocal]
  have hhands : t = handRecord (stateRecord t s.syc.state .listen reason (some (s.scu.entries.length - (k + m)))) .state
      (flush (purge y)) := by
    rw [← hrecord, ht, writeStateRecord_hands, flush_syc, purge_syc, hstate]
  refine ⟨k, m, ⟨_, hfired, by rw [ht, writeStateRecord_scu]; rfl⟩, ?_⟩
  rintro u v rfl rfl
  obtain ⟨hjnl, hflags⟩ := halike.journal trivial
  refine ⟨?_, ?_, ?_, ?_⟩
  · rw [ht, writeStateRecord_tlu]; exact halike.channels
  · rw [ht, writeStateRecord_tlu]; exact halike.overruns
  · conv_lhs => rw [hhands]
    exact handRecord_jnl_eq _ _ _ _ hjnl
  · conv_lhs => rw [hhands]
    exact handRecord_flags_eq _ _ _ _ hjnl hflags

/-! ### CORRECTION_EVENT -/

/-- In a synchronized state a correction that is no forward step leaves cluster time (R14, R15). -/
theorem corrected_clusterTime_stands (c : Cfg) (b : Time) (s : State) (hs : s.syc.state.synced = true)
    (hf : (correctionOutcome c s).forward = false) : (corrected c b s).tbu.clusterTime = s.tbu.clusterTime := by
  have ht : s.syc.state ≠ .tentative := by intro h; rw [h] at hs; cases hs
  cases ho : correctionOutcome c s with
  | none => rw [corrected_withheld c b s (.inl ho)]; rfl
  | exceeded x => rw [corrected_withheld c b s (.inr ⟨x, ho⟩)]; rfl
  | applied x =>
    obtain ⟨-, hzero, -, howed, -⟩ := stepTime_stepped x (awaitNext c b s)
    rw [corrected_applied c b s x ho, countCorrection_tbu_clusterTime]
    rcases lt_trichotomy x 0 with hx | hx | hx
    · exact howed hx ht
    · exact hzero hx
    · rw [ho] at hf
      simp [Outcome.forward, hx] at hf

/-- The state as the first firing of the event sees it: cluster time is the event's. -/
theorem corrected_alike (c : Cfg) (b x : Time) (s : State) (hx : x = (corrected c b s).tbu.clusterTime) :
    Alike True (corrected c b s) { s with tbu := { s.tbu with clusterTime := x } } := by
  obtain ⟨-, -, -, -, -, -, hrdp, -, htlu, hsyc, hjnl⟩ := corrected_stands c b s
  exact ⟨by rw [htlu], by rw [htlu], by rw [htlu], hx.symm, by rw [hsyc], by rw [hrdp],
    fun _ => ⟨hjnl, by rw [hrdp]⟩⟩

/-- A hand-over depends on the journal and the flags before it alone (R163, R164). -/
theorem Recorded.of_eq {r : Record} {k : LostKind} {s x t : State} (h : Recorded r k x t) (hj : x.jnl = s.jnl)
    (hf : x.rdp.flags = s.rdp.flags) : Recorded r k s t := by
  obtain ⟨hjnl, hflags⟩ := h
  exact ⟨hjnl.trans (handRecord_jnl_eq r k x s hj), hflags.trans (handRecord_flags_eq r k x s hj hf)⟩

/-- Settles O22: the judgement is LISTEN, and the entries that are due meet its orders. -/
theorem syncLossStandsDown : Obligations.SyncLossStandsDown := by
  unfold Obligations.SyncLossStandsDown
  intro c s h hs hloss
  obtain ⟨reason, hj, hexceeded, hexpired⟩ :=
    judgeEvent_loses c (correctionOutcome c s) (agreementCount c s) s.syc hs hloss
  have hlif := corrected_lif c s.tbu.clusterTime s
  have harrival := correctionAt_arrivalMoved c s.tbu.clusterTime s
  have htime : (correctionAt c s.tbu.clusterTime s).tbu.clusterTime =
      (corrected c s.tbu.clusterTime s).tbu.clusterTime := settleEvent_clusterTime c _ _ _ _
  have halike := corrected_alike c s.tbu.clusterTime _ s htime
  have hforward := corrected_clusterTime_stands c s.tbu.clusterTime s hs
  have hlosses : (corrected c s.tbu.clusterTime s).tbu.syncLossCount = s.tbu.syncLossCount := by
    rw [corrected_tbu]; simp [awaitNext]
  obtain ⟨htge, hamp, hsrc, hcfg, -, -, hrdp, hscu, htlu, hsyc, -⟩ := corrected_stands c s.tbu.clusterTime s
  have hexec := execCorrectionEvent_at c s h
  rw [← hsyc] at hj hs
  obtain ⟨mid, hmid, hsettle⟩ := settleEvent_listen c _ _ s.tbu.clusterTime _ reason hj hs
  rw [← correctionAt_eq] at hsettle
  obtain ⟨k, m, hfired⟩ := changeState_firedAndFlushed c reason s.tbu.clusterTime mid _ _ hmid hs halike
  have hlost := changeState_lostSync c reason s.tbu.clusterTime mid _ hmid hs
  rw [← hsettle] at hfired hlost
  refine ⟨_, reason, k, m, hexec, hexceeded, hexpired, ?_⟩
  generalize correctionAt c s.tbu.clusterTime s = t at *
  generalize corrected c s.tbu.clusterTime s = u at *
  obtain ⟨⟨w, hrun, hflush⟩, hchannels⟩ := hfired
  obtain ⟨htsyc, httbu, htmbu, htlif, htrdp, htlines, htpins, htinputs, httge, htamp, htsrc, htcfg⟩ := hlost
  have hflushed := hrun.flushed
  have hplaces := hrun.places
  have hlen := hrun.length
  have hdue := hrun.due
  simp only [hscu, hsyc, placesTaken] at hchannels hflushed hplaces hlen hdue
  rw [← hflush] at hflushed hplaces
  refine ⟨by rw [htsyc], by rw [State.basis, htsyc]; rfl, by rw [htsyc]; rfl, by rw [htsyc], by rw [htsyc, hsyc],
    by rw [htsyc]; exact ⟨rfl, rfl, rfl⟩, by rw [htrdp, hrdp], by rw [httbu, ← hlosses, sat16_toNat],
    by rw [httbu], by rw [httbu], by rw [httbu], fun n => by rw [htmbu, clearFresh_get], fun n => ?_, by rw [htlif, hlif],
    harrival, fun hf => ?_, hlen, fun e he => ?_, by rw [hflushed], hplaces, by rw [hflushed], by rw [hflushed],
    by rw [hflushed], by rw [hflushed], by rw [hflushed], hchannels, fun hkm => ?_, by rw [htlines, htlu],
    by rw [htpins, htlu], fun l => by rw [htinputs, htlu], by rw [httge, htge], by rw [htamp, hamp],
    by rw [htsrc, hsrc], by rw [htcfg, hcfg]⟩
  · rw [membershipVector_bit, htsyc]
    simp [SyncState.synced]
  · rw [htlif, hlif, hforward hf]
    simp
  · rw [htime]
    exact SchedEntry.isDue_iff.1 (hdue e he)
  · obtain ⟨rfl, rfl⟩ : k = 0 ∧ m = 0 := by omega
    obtain ⟨hchannel, hoverruns, hrecorded⟩ := hchannels _ _ rfl rfl
    refine ⟨fun l => ?_, hoverruns, hrecorded.of_eq rfl rfl⟩
    rw [hchannel]
    simp only [List.take_zero, List.foldl_nil, trainEnded, Vector.get_map]
    cases s.tlu.channels.get l <;> rfl

end Sys2Proof.Machine

/-! ## The peer table stays formed (O59) -/

namespace Sys2Proof.Machine

/-! ### One record -/

/-- What every step keeps between a record and what it makes of it: the record stays formed, and no peer record turns
into the SELF record. -/
structure Peer.Becomes (p q : Peer) : Prop where
  formed : p.Formed → q.Formed
  self : q.kind = .self → p.kind = .self

theorem Peer.Becomes.refl (p : Peer) : p.Becomes p := ⟨id, id⟩

theorem Peer.Becomes.trans {p q r : Peer} (h : p.Becomes q) (h' : q.Becomes r) : p.Becomes r :=
  ⟨fun hp => h'.formed (h.formed hp), fun hr => h.self (h'.self hr)⟩

theorem absentRecord_formed : Peer.absentRecord.Formed :=
  ⟨fun _ => rfl, by simp [Peer.absentRecord], by simp [Peer.absentRecord]⟩

theorem selfRecord_formed (u : UniqueId) : (Peer.selfRecord u).Formed :=
  ⟨by simp [Peer.selfRecord], by simp [Peer.selfRecord], by simp [Peer.selfRecord]⟩

/-- `Formed` of a record that is not ABSENT looks at the kind, the unique ID, the reported state and the foreign mark
alone. -/
theorem Peer.Formed.of_eq {p q : Peer} (h : p.Formed) (hn : p.kind ≠ .absent) (hk : q.kind = p.kind)
    (hu : q.uniqueId = p.uniqueId) (hr : q.reported = p.reported) (hf : q.foreign = p.foreign) : q.Formed :=
  ⟨fun ha => absurd (hk ▸ ha) hn, by rw [hk, hu, hr]; exact h.present, by rw [hk, hf, hr]; exact h.member⟩

/-- Dropping a fresh offset (R36). -/
theorem Peer.becomes_dropFresh (p : Peer) : p.Becomes { p with freshOffset := none } := by
  refine ⟨fun h => ?_, id⟩
  by_cases ha : p.kind = .absent
  · rw [h.absent ha]; exact absentRecord_formed
  · exact h.of_eq ha rfl rfl rfl rfl

/-- A record ages in one of four ways (R33). -/
theorem Peer.aged_cases (limit : Nat) (p : Peer) :
    ((p.kind = .self ∨ p.kind = .absent) ∧ p.aged limit = p) ∨
    ((p.kind ≠ .self ∧ p.kind ≠ .absent) ∧
      ((p.heard = true ∧ p.aged limit = { p with heard := false }) ∨
        (p.heard = false ∧ p.missed + 1 = limit ∧ p.aged limit = Peer.absentRecord) ∨
        (p.heard = false ∧ p.missed + 1 ≠ limit ∧ p.aged limit = { p with missed := p.missed + 1 }))) := by
  unfold Peer.aged
  split
  case h_1 h => exact .inl ⟨.inl h, rfl⟩
  case h_2 h => exact .inl ⟨.inr h, rfl⟩
  all_goals
    rename_i h
    refine .inr ⟨by simp [h], ?_⟩
    split_ifs with hh hm
    · exact .inl ⟨hh, rfl⟩
    · exact .inr (.inl ⟨by simpa using hh, hm, rfl⟩)
    · exact .inr (.inr ⟨by simpa using hh, hm, rfl⟩)

theorem Peer.becomes_aged (limit : Nat) (p : Peer) : p.Becomes (p.aged limit) := by
  rcases p.aged_cases limit with ⟨-, h⟩ | ⟨⟨-, ha⟩, ⟨-, h⟩ | ⟨-, -, h⟩ | ⟨-, -, h⟩⟩ <;> rw [h]
  · exact .refl p
  · exact ⟨fun hp => hp.of_eq ha rfl rfl rfl rfl, id⟩
  · exact ⟨fun _ => absentRecord_formed, nofun⟩
  · exact ⟨fun hp => hp.of_eq ha rfl rfl rfl rfl, id⟩

/-- The sequence check touches the expected sequence and the lost count of a record that is not ABSENT (R32, R100). -/
theorem Peer.becomes_checkTrigger (q : Sequence) (p : Peer) : p.Becomes (p.checkTrigger q).1 := by
  unfold Peer.checkTrigger
  split
  · exact .refl p
  · rename_i ha
    split
    · exact ⟨fun hp => hp.of_eq ha rfl rfl rfl rfl, id⟩
    · dsimp only
      split
      · exact ⟨fun hp => hp.of_eq ha rfl rfl rfl rfl, id⟩
      · exact .refl p

/-- A record that has taken a beacon is a formed peer record, whatever it was before (R26, R28). -/
theorem TookBeacon.becomes {c : Cfg} {b : Beacon} {k : Time} {basis : Basis} {offset : Int} {p q : Peer}
    (h : TookBeacon c b k basis offset p q) : p.Becomes q := by
  obtain ⟨⟨hid, hrep, -, -, -⟩, hkind, hforeign, -, -⟩ := h
  have hpeer : q.kind ≠ .absent ∧ q.kind ≠ .self := by
    rw [hkind]; split_ifs <;> simp
  refine ⟨fun _ => ⟨fun ha => absurd ha hpeer.1, fun _ => by simp [hid, hrep], fun hm => ?_⟩,
    fun hs => absurd hs hpeer.2⟩
  rw [hm] at hkind
  split_ifs at hkind with hsig hdep hdis hrept
  refine ⟨?_, b.reported, hrep, ?_⟩
  · rw [← Bool.not_eq_true, hforeign]; exact hsig
  · cases hb : b.reported <;> simp_all [Reported.synced]

/-! ### The table -/

/-- What a step without a reset or a READY keeps of the peer table: every record becomes one that it may, the SELF record
at the own number stands, and before READY the table stays ABSENT. -/
structure TableKept (s t : State) : Prop where
  cfg : t.cfg = s.cfg
  uniqueId : t.uniqueId = s.uniqueId
  records : ∀ n : Station, (s.mbu.peers.get n).Becomes (t.mbu.peers.get n)
  own : ∀ c, s.cfg = some c → s.mbu.peers.get c.station = Peer.selfRecord s.uniqueId →
    t.mbu.peers.get c.station = Peer.selfRecord s.uniqueId
  before : s.cfg = none → ∀ n : Station, s.mbu.peers.get n = Peer.absentRecord →
    t.mbu.peers.get n = Peer.absentRecord

theorem TableKept.peersFormed {s t : State} (h : TableKept s t) (hs : PeersFormed s) : PeersFormed t :=
  fun n => (h.records n).formed (hs n)

theorem TableKept.selfStands {s t : State} (h : TableKept s t) (hs : SelfStands s) : SelfStands t where
  own c hc := by
    rw [h.cfg] at hc
    rw [h.uniqueId]
    exact h.own c hc (hs.own c hc)
  others c n hc hn hk := by
    rw [h.cfg] at hc
    exact hs.others c n hc hn ((h.records n).self hk)
  before hc n := by
    rw [h.cfg] at hc
    exact h.before hc n (hs.before hc n)

/-- What `PeersFormed` and `SelfStands` read. -/
def tableView (s : State) := (s.mbu.peers, s.cfg, s.uniqueId)

theorem TableKept.of_view {s t : State} (h : tableView t = tableView s) : TableKept s t := by
  obtain ⟨hpeers, hcfg, hid⟩ : t.mbu.peers = s.mbu.peers ∧ t.cfg = s.cfg ∧ t.uniqueId = s.uniqueId := by
    simpa [tableView] using h
  exact ⟨hcfg, hid, fun n => by rw [hpeers]; exact .refl _, fun c _ h => by rw [hpeers, h],
    fun _ n h => by rw [hpeers, h]⟩

theorem TableKept.trans {s t u : State} (h : TableKept s t) (h' : TableKept t u) : TableKept s u where
  cfg := h'.cfg.trans h.cfg
  uniqueId := h'.uniqueId.trans h.uniqueId
  records n := (h.records n).trans (h'.records n)
  own c hc hs := by
    rw [← h.uniqueId]
    exact h'.own c (h.cfg.trans hc) ((h.own c hc hs).trans (by rw [h.uniqueId]))
  before hc n hs := h'.before (h.cfg.trans hc) n (h.before hc n hs)

/-- One function over every record, which leaves the SELF and ABSENT records as they are. -/
theorem TableKept.of_map {s t : State} (f : Peer → Peer) (hpeers : t.mbu.peers = s.mbu.peers.map f)
    (hcfg : t.cfg = s.cfg) (hid : t.uniqueId = s.uniqueId) (hf : ∀ p : Peer, p.Becomes (f p))
    (hself : ∀ u, f (Peer.selfRecord u) = Peer.selfRecord u) (habsent : f Peer.absentRecord = Peer.absentRecord) :
    TableKept s t := by
  have hget : ∀ n, t.mbu.peers.get n = f (s.mbu.peers.get n) := fun n => by rw [hpeers, get_map]
  exact ⟨hcfg, hid, fun n => by rw [hget]; exact hf _, fun c _ h => by rw [hget, h, hself],
    fun _ n h => by rw [hget, h, habsent]⟩

/-- One record of another number, of a configured part. -/
theorem TableKept.of_set {s t : State} {c : Cfg} (n : Station) (q : Peer) (hc : s.cfg = some c)
    (hn : n ≠ c.station) (hq : (s.mbu.peers.get n).Becomes q) (hpeers : t.mbu.peers = s.mbu.peers.set n q)
    (hcfg : t.cfg = s.cfg) (hid : t.uniqueId = s.uniqueId) : TableKept s t where
  cfg := hcfg
  uniqueId := hid
  records k := by
    rw [hpeers, get_set]
    split
    · subst k; exact hq
    · exact .refl _
  own c' hc' h := by
    obtain rfl : c = c' := Option.some.inj (hc.symm.trans hc')
    rw [hpeers, get_set_ne _ _ _ _ hn, h]
  before hc' := by rw [hc] at hc'; cases hc'

theorem clearFresh_tableKept (s : State) : TableKept s (clearFresh s) :=
  .of_map _ (clearFresh_peers s) rfl rfl Peer.becomes_dropFresh (fun _ => rfl) rfl

/-- What a correction event makes of a record (R33, R36). -/
def Peer.agedFresh (limit : Nat) (p : Peer) : Peer := { p.aged limit with freshOffset := none }

theorem ageRecords_peers (c : Cfg) (s : State) :
    (ageRecords c s).mbu.peers = s.mbu.peers.map (Peer.agedFresh c.cluster.missLimit) :=
  Vector.map_map ..

theorem ageRecords_tableKept (c : Cfg) (s : State) : TableKept s (ageRecords c s) :=
  .of_map _ (ageRecords_peers c s) (by simp) (by simp)
    (fun p => (p.becomes_aged _).trans (Peer.becomes_dropFresh _)) (fun _ => rfl) rfl

/-! ### The operations on the table -/

/-- A change of sync state drops the fresh offsets where it stands down (R36). -/
theorem changeState_tableKept (c : Cfg) (new : SyncState) (r : Reason) (mid : State → State) (s : State)
    (hmid : mid = id ∨ ∃ b, mid = fireSome b) : TableKept s (changeState c new r mid s) := by
  obtain ⟨hm, hc, hu⟩ : (∀ s, (mid s).mbu = s.mbu) ∧ (∀ s, (mid s).cfg = s.cfg) ∧
      ∀ s, (mid s).uniqueId = s.uniqueId := by
    rcases hmid with rfl | ⟨b, rfl⟩ <;> simp
  have hmbu := changeState_mbu c new r mid s hm
  have hcfg := changeState_cfg c new r mid s hc
  have hid := changeState_uniqueId c new r mid s hu
  split at hmbu
  · exact (clearFresh_tableKept s).trans (.of_view (by simp [tableView, hmbu, hcfg, hid]))
  · exact .of_view (by simp [tableView, hmbu, hcfg, hid])

theorem setClusterTime_tableKept (c : Cfg) (x : Time) (s : State) : TableKept s (setClusterTime c x s) :=
  (clearFresh_tableKept s).trans (.of_view rfl)

theorem correctionAt_tableKept (c : Cfg) (b : Time) (s : State) : TableKept s (correctionAt c b s) := by
  have hcorrected : TableKept s (corrected c b s) :=
    .trans (.of_view (by simp [tableView, awaitNext])) (ageRecords_tableKept c _)
  rw [correctionAt_eq]
  refine settleEvent_keeps (TableKept s) c _ _ _ _ hcorrected ?_ ?_ ?_ ?_
  · exact fun _ _ h => h.trans (.of_view (by simp [tableView]))
  · exact fun _ h => h.trans (.of_view (by simp [tableView]))
  · exact fun _ h => h.trans (.of_view (by simp [tableView]))
  · exact fun new reason mid u h hmid _ =>
      h.trans (changeState_tableKept c new reason mid u (hmid.imp_right fun hm => ⟨_, hm⟩))

theorem withPending_tableKept (s : State) (q : List Instr) : TableKept s (s.withPending q) := .of_view rfl

theorem received_tableKept (s : State) : TableKept s (received s) := .of_view rfl

/-- A beacon of another number changes the record at that number (R23, R24). -/
theorem deliverBeacon_tableKept (c : Cfg) (b : Beacon) (l k : Time) (s : State) (hc : s.cfg = some c) :
    TableKept s (deliverBeacon c b l k s) := by
  refine deliverBeacon_keeps (TableKept s) c b l k s (.of_view rfl) (fun _ _ h => h.trans (.of_view rfl))
    (fun _ => changeState_tableKept c _ _ id s (.inl rfl)) (fun x _ hn => ?_) (fun reason u h _ => ?_)
  · exact .of_set b.station _ hc hn (takeBeacon_took c b k s.basis x _).becomes rfl rfl rfl
  · exact h.trans ((setClusterTime_tableKept c _ u).trans (changeState_tableKept c _ reason id _ (.inl rfl)))

/-- A trigger of another origin changes the record at that origin (R96, R101). -/
theorem judgeTriggerFrame_tableKept (c : Cfg) (t : Trigger) (s : State) (hc : s.cfg = some c) :
    TableKept s (judgeTriggerFrame c t s) := by
  refine judgeTriggerFrame_keeps (TableKept s) c t s (.of_view rfl) (fun _ _ h _ _ _ => h.trans (.of_view rfl))
    (fun hn => ?_) (fun u h _ => h.trans (.of_view (by simp [tableView])))
  exact .of_set t.origin _ hc hn (Peer.becomes_checkTrigger _ _) rfl rfl rfl

theorem qualifyEdge_tableView (c : Cfg) (l : LineNo) (ic : InputCfg) (cand : Candidate) (s : State) :
    tableView (qualifyEdge c l ic cand s) = tableView s :=
  qualifyEdge_keeps (fun x => tableView x = tableView s) c l ic cand s rfl (by simp [tableView]) (by simp [tableView])
    (by simp [tableView]) (fun r u h _ => by simpa [tableView] using h)

/-! ### The tables that a reset and READY make -/

theorem resetState_get (cause : ResetCause) (hold : Nat) (s : State) (n : Station) :
    (resetState cause hold s).mbu.peers.get n = Peer.absentRecord := by
  simp [Mbu.reset]

theorem resetState_peersFormed (cause : ResetCause) (hold : Nat) (s : State) :
    PeersFormed (resetState cause hold s) :=
  fun n => by rw [resetState_get]; exact absentRecord_formed

theorem resetState_selfStands (cause : ResetCause) (hold : Nat) (s : State) : SelfStands (resetState cause hold s) :=
  ⟨nofun, nofun, fun _ => resetState_get cause hold s⟩

/-- The table at READY: the SELF record at the own number, and the fresh offsets gone (R21, R36). -/
theorem loadReady_mbu (g : ImageConfig) (s : State) :
    (loadReady g s).mbu = { s.mbu with
      peers := (s.mbu.peers.set g.cfg.station (Peer.selfRecord s.uniqueId)).map
        fun p => { p with freshOffset := none } } :=
  changeState_mbu g.cfg .listen .loadDone id _ fun _ => rfl

theorem loadReady_get (g : ImageConfig) (s : State) (n : Station) :
    (loadReady g s).mbu.peers.get n =
      if g.cfg.station = n then Peer.selfRecord s.uniqueId else { s.mbu.peers.get n with freshOffset := none } := by
  rw [loadReady_mbu, get_map, get_set]
  split <;> rfl

theorem loadReady_cfg (g : ImageConfig) (s : State) : (loadReady g s).cfg = some g.cfg := by
  rw [loadReady, changeState_cfg _ _ _ id _ fun _ => rfl]
  rfl

theorem loadReady_uniqueId (g : ImageConfig) (s : State) : (loadReady g s).uniqueId = s.uniqueId := by
  simp [loadReady]

theorem loadReady_peersFormed (g : ImageConfig) (s : State) (h : PeersFormed s) : PeersFormed (loadReady g s) := by
  intro n
  rw [loadReady_get]
  split
  · exact selfRecord_formed _
  · exact (Peer.becomes_dropFresh _).formed (h n)

/-- Before READY the part is not configured, and its table is ABSENT throughout (R22, R182). -/
theorem SelfStands.absent_of_loading {s : State} (h : SelfStands s) (hcoh : Coherent s)
    (hl : s.src.loadState = .loading) (n : Station) : s.mbu.peers.get n = Peer.absentRecord :=
  h.before (by simpa [hl] using hcoh.configured) n

theorem loadReady_selfStands (g : ImageConfig) (s : State)
    (h : ∀ n : Station, s.mbu.peers.get n = Peer.absentRecord) : SelfStands (loadReady g s) where
  own c hc := by
    rw [loadReady_cfg] at hc
    cases hc
    rw [loadReady_get, if_pos rfl, loadReady_uniqueId]
  others c n hc hn := by
    rw [loadReady_cfg] at hc
    cases hc
    rw [loadReady_get, if_neg hn.symm, h]
    simp [Peer.absentRecord]
  before hc := by rw [loadReady_cfg] at hc; cases hc

/-! ### Every command -/

/-- What a command can do to the peer table: a reset, the READY of a load, or a change that keeps it. -/
inductive TableEffect (s t : State) : Prop where
  | reset (cause : ResetCause) (hold : Nat) (u : State) : t = resetState cause hold u → TableEffect s t
  | ready (g : ImageConfig) (b : Byte) : s.src.loadState = .loading → t = loadReady g (withByte b s) → TableEffect s t
  | kept : TableKept s t → TableEffect s t

theorem completeBeacon_tableEffect (leavingAtRef : Bool) (s : State) :
    TableEffect s (completeBeacon leavingAtRef (afterComplete s)) := by
  unfold completeBeacon
  dsimp only
  split
  · exact .reset _ _ _ rfl
  · exact .kept (.of_view rfl)

theorem effect_table (i : Instr) (s t : State) (he : Effect i s t) : TableEffect s t := by
  cases he with
  | reset | restartReset | leaveTimeout => exact .reset _ _ _ rfl
  | byteReady b g _ _ hl => exact .ready g b hl rfl
  | completeBeacon _ _ _ l => exact completeBeacon_tableEffect l s
  | listenTimeout c =>
    exact .kept ((setClusterTime_tableKept c _ s).trans (changeState_tableKept c _ _ id _ (.inl rfl)))
  | correction c => exact .kept (correctionAt_tableKept c _ s)
  | beacon _ l k c b _ _ _ _ _ hc =>
    exact .kept ((received_tableKept s).trans (deliverBeacon_tableKept c b l k (received s) hc))
  | trigger _ _ _ c x _ _ _ _ _ _ hc =>
    exact .kept ((received_tableKept s).trans (judgeTriggerFrame_tableKept c x (received s) hc))
  | edge l c ic cand => exact .kept (.of_view (qualifyEdge_tableView c l ic cand s))
  | collideTrigger c => exact .kept (.of_view (by rw [collideTrigger_frame]; rfl))
  | collideBeacon c => exact .kept (.of_view (by rw [collideBeacon_frame]; rfl))
  | _ =>
    refine .kept (.of_view ?_)
    simp [tableView, Machine.release, Machine.tickInReset, Machine.tick, withByte, Machine.beaconDue, afterCollision,
      afterReception, Machine.completeTrigger, afterComplete, countReceived, raiseCommand, cancelCommand, beginLeave]

theorem effect_peersFormed (i : Instr) (s t : State) (h : PeersFormed s) (he : Effect i s t) : PeersFormed t := by
  rcases effect_table i s t he with ⟨cause, hold, u, rfl⟩ | ⟨g, b, -, rfl⟩ | hkept
  · exact resetState_peersFormed cause hold u
  · exact loadReady_peersFormed g (withByte b s) h
  · exact hkept.peersFormed h

theorem effect_selfStands (i : Instr) (s t : State) (hcoh : Coherent s) (h : SelfStands s) (he : Effect i s t) :
    SelfStands t := by
  rcases effect_table i s t he with ⟨cause, hold, u, rfl⟩ | ⟨g, b, hl, rfl⟩ | hkept
  · exact resetState_selfStands cause hold u
  · exact loadReady_selfStands g (withByte b s) (h.absent_of_loading hcoh hl)
  · exact hkept.selfStands h

/-- Settles O59, by what a command can do to the peer table. -/
theorem peerTableStaysFormed : Obligations.PeerTableStaysFormed := by
  unfold Obligations.PeerTableStaysFormed
  refine fun s t hst => ⟨fun h => ?_, fun hcoh hself => ?_⟩
  · exact step_keeps_of_effect PeersFormed (fun _ _ h => h) effect_peersFormed s t h hst
  · refine (step_keeps_of_effect (fun s => Coherent s ∧ SelfStands s) ?_ ?_ s t ⟨hcoh, hself⟩ hst).2
    · rintro u q ⟨hcoh, hself⟩
      exact ⟨hcoh.of_view rfl, (withPending_tableKept u q).selfStands hself⟩
    · rintro i u v ⟨hcoh, hself⟩ he
      exact ⟨effect_coherent i u v hcoh he, effect_selfStands i u v hcoh hself he⟩

end Sys2Proof.Machine

/-! ## The last byte of a good image (O11) -/

namespace Sys2Proof.Machine

/-! ### The change from OFF to LISTEN (R42) -/

/-- The change hands over its record once the sync state and the time are set. -/
theorem changeState_fromOff_hands (c : Cfg) (r : Reason) (s : State) (ho : s.syc.state = .off) :
    changeState c .listen r id s =
      handRecord (stateRecord (dropTime false (setSyncState c .listen s)) .off .listen r none) .state
        (dropTime false (setSyncState c .listen s)) := by
  rw [changeState_fromOff c .listen r s rfl ho, writeStateRecord_hands, dropTime_syc, setSyncState_syc]

/-- What the change touches: the time basis stays LOCAL, and there is nothing to stand down. -/
theorem changeState_fromOff_frame (c : Cfg) (r : Reason) (s : State) (ho : s.syc.state = .off) :
    changeState c .listen r id s = { s with
      tbu := { s.tbu with slewDebt := 0, hold := false, nextBoundary := none },
      mbu := (changeState c .listen r id s).mbu,
      syc := (changeState c .listen r id s).syc,
      jnl := (changeState c .listen r id s).jnl,
      rdp := { s.rdp with flags := (changeState c .listen r id s).rdp.flags, statePending := true } } := by
  have hinputs : (setSyncState c .listen s).tlu.inputs = s.tlu.inputs := by
    rw [setSyncState_inputs, if_pos (by rw [ho]; rfl)]
  have hset := setSyncState_eq c .listen s
  have hhand := handRecord_eq
    (stateRecord (dropTime false (setSyncState c .listen s)) .off .listen r none) .state
    (dropTime false (setSyncState c .listen s))
  rw [hinputs] at hset
  rw [changeState_fromOff_hands c r s ho, handRecord_mbu, handRecord_syc]
  rw [hset] at hhand ⊢
  exact hhand

/-- Its STATE record (R41). -/
theorem changeState_fromOff_recorded (c : Cfg) (r : Reason) (s : State) (ho : s.syc.state = .off) :
    Recorded (stateRecord (changeState c .listen r id s) .off .listen r none) .state s
      (changeState c .listen r id s) := by
  have hrecord : stateRecord (changeState c .listen r id s) .off .listen r none =
      stateRecord (dropTime false (setSyncState c .listen s)) .off .listen r none := by
    simp [changeState_fromOff_hands c r s ho, stateRecord]
  rw [hrecord, changeState_fromOff_hands c r s ho]
  exact ⟨handRecord_jnl_eq _ _ _ _ (by simp), handRecord_flags_eq _ _ _ _ (by simp) (by simp)⟩

/-! ### IMAGE_BYTE -/

theorem execImageByte_ready (b : Byte) (g : ImageConfig) (s : State) (hr : s.src.inReset = false)
    (hl : s.src.loadState = .loading) (hj : judgeImage (s.src.image ++ [b]) = .ok g) :
    exec (.imageByte b) s = .next (loadReady g (withByte b s)) := by
  change execImageByte b s = _
  rw [execImageByte, live_running s _ hr, if_pos hl, takeImageByte, hj]
  rfl

/-- What the blocks hold at READY, from a part in OFF (R21, R42, R105, R118, R138, R152, R173, R181). -/
theorem loadReady_frame (g : ImageConfig) (s : State) (ho : s.syc.state = .off) :
    loadReady g s = { s with
      tbu := { s.tbu with slewDebt := 0, hold := false, nextBoundary := none },
      mbu := (loadReady g s).mbu,
      syc := (loadReady g s).syc,
      amp := g.amp,
      scu := { s.scu with quota := g.quota, space := g.quota },
      tlu := { s.tlu with
        lines := g.lines,
        inputs := Vector.ofFn fun k => startInput s.tlu.pins g.lines k (s.tlu.inputs.get k) },
      jnl := (loadReady g s).jnl,
      rdp := { s.rdp with
        mask := g.mask, threshold := some g.threshold, loadPending := true, statePending := true,
        flags := (loadReady g s).rdp.flags },
      src := { s.src with loadState := .ready, loadResult := some .ok },
      cfg := some g.cfg } := by
  have hframe := changeState_fromOff_frame g.cfg .loadDone (distribute g (endLoad .ready .ok s))
    (by simpa using ho)
  rw [← loadReady] at hframe
  generalize loadReady g s = t at hframe ⊢
  simpa [distribute, endLoad] using hframe

theorem loadReady_syc (g : ImageConfig) (s : State) :
    (loadReady g s).syc =
      { state := .listen, lastSynchronizing := s.syc.lastSynchronizing, goodRounds := 0, stableRounds := 0,
        holdoverRounds := 0, listenTimer := some g.cfg.listenTime, nextBeaconDue := none } :=
  changeState_syc g.cfg .listen .loadDone id _ fun _ => rfl

theorem loadReady_recorded (g : ImageConfig) (s : State) (ho : s.syc.state = .off) :
    Recorded (stateRecord (loadReady g s) .off .listen .loadDone none) .state s (loadReady g s) :=
  (changeState_fromOff_recorded g.cfg .loadDone (distribute g (endLoad .ready .ok s))
    (by simpa using ho)).of_eq (by simp) (by simp)

/-! ### The lines at READY -/

theorem startInput_input (pins : BitVec 8) (lines : Vector LineCfg 8) (k : LineNo) (ch : InputChan) (i : InputCfg)
    (h : lines.get k = .input i) : startInput pins lines k ch = { ch with settled := some (pins.getLsbD k) } := by
  rw [startInput, h]

theorem startInput_other (pins : BitVec 8) (lines : Vector LineCfg 8) (k : LineNo) (ch : InputChan)
    (h : ∀ i, lines.get k ≠ .input i) : startInput pins lines k ch = ch := by
  rw [startInput]
  split
  · exact absurd ‹_› (h _)
  all_goals rfl

/-- An OUTPUT line rests at its inactive level while its channel is IDLE (R138). -/
theorem lineDrive_idle (s : State) (l : LineNo) (activeHigh : Bool) (q : Retrigger) (hr : s.src.inReset = false)
    (hl : s.tlu.lines.get l = .output activeHigh q) (hc : s.tlu.channels.get l = .idle) :
    lineDrive s l = some !activeHigh := by
  simp [lineDrive, hl, hr, hc]

/-- Settles O11: the part loads in OFF, with nothing to stand down. -/
theorem lastImageByteMakesReady : Obligations.LastImageByteMakesReady := by
  unfold Obligations.LastImageByteMakesReady
  intro b g s hr hl hj hcoh hself
  have ho : s.syc.state = .off := hcoh.off.2 (by simpa [hl] using hcoh.configured)
  obtain ⟨hdebt, hhold, -, -⟩ := hcoh.unburdened (by rw [ho]; rfl)
  have hboundary : s.tbu.nextBoundary = none := by
    simpa [ho, SyncState.active, SyncState.reported] using hcoh.boundary
  have habsent := hself.absent_of_loading hcoh hl
  have hframe := loadReady_frame g (withByte b s) ho
  have hsyc := loadReady_syc g (withByte b s)
  have hmbu := loadReady_mbu g (withByte b s)
  have hpeer := loadReady_get g (withByte b s)
  have hrecord := loadReady_recorded g (withByte b s) ho
  refine ⟨_, execImageByte_ready b g s hr hl hj, ?_⟩
  generalize loadReady g (withByte b s) = t at *
  have htlu : t.tlu = { s.tlu with
      lines := g.lines,
      inputs := Vector.ofFn fun k => startInput s.tlu.pins g.lines k (s.tlu.inputs.get k) } := by
    rw [hframe]; rfl
  have hinput (l : LineNo) : t.tlu.inputs.get l = startInput s.tlu.pins g.lines l (s.tlu.inputs.get l) := by
    rw [htlu, get_ofFn]
  refine ⟨by rw [hframe]; rfl, by rw [hframe], by rw [hpeer, if_pos rfl]; rfl, fun n hn => ?_,
    by rw [hmbu]; rfl, by rw [hframe]; rfl, by rw [hframe], by rw [htlu], fun l i hi => ?_, fun l hi => ?_,
    fun l h q hidle ho => ?_, by rw [hframe]; rfl, by rw [hsyc]; rfl, by rw [State.basis, hsyc]; rfl,
    hrecord.of_eq rfl rfl, ?_, by rw [hframe]; rfl, by rw [hframe]; rfl⟩
  · rw [hpeer, if_neg hn.symm]
    exact congrArg (fun p : Peer => { p with freshOffset := none }) (habsent n)
  · rw [hinput, startInput_input _ _ _ _ i hi]
  · rw [hinput, startInput_other _ _ _ _ hi]
  · exact lineDrive_idle t l h q (by rw [hframe]; exact hr) (by rw [htlu]; exact ho) (by rw [htlu]; exact hidle)
  · rw [hframe]
    dsimp only [withByte, State.withSrc]
    rw [← hdebt, ← hhold, ← hboundary]

end Sys2Proof.Machine

/-! ## The records and counts of a correction event (O15) -/

namespace Sys2Proof.Machine

/-! ### The aging of the table (R33 to R36) -/

/-- A dropped fresh offset makes no difference to the member count (R35). -/
theorem memberCount_agedFresh (limit : Nat) (s : State) :
    memberCount (mapPeers (Peer.aged limit) s) =
      1 + (s.mbu.peers.map (Peer.agedFresh limit)).toList.countP fun p => p.kind == .member := by
  simp [memberCount, mapPeers, Vector.toList_map, List.countP_map, Function.comp_def, Peer.agedFresh]

theorem ageRecords_mbu (c : Cfg) (s : State) (members : Nat)
    (hm : members = 1 +
      (s.mbu.peers.map (Peer.agedFresh c.cluster.missLimit)).toList.countP fun p => p.kind == .member) :
    (ageRecords c s).mbu =
      { peers := s.mbu.peers.map (Peer.agedFresh c.cluster.missLimit),
        agreement := agreementCount c s, members := members,
        minMembers := if s.syc.state.synced then min s.mbu.minMembers members else s.mbu.minMembers,
        maxMembers := if s.syc.state.synced then max s.mbu.maxMembers members else s.mbu.maxMembers } := by
  rw [hm, ← memberCount_agedFresh]
  exact congrArg (fun peers => Mbu.mk peers _ _ _ _) (ageRecords_peers c s)

/-- The aging looks at the MBU and the sync state alone. -/
theorem ageRecords_mbu_eq (c : Cfg) (s t : State) (hm : t.mbu = s.mbu) (hy : t.syc = s.syc) :
    (ageRecords c t).mbu = (ageRecords c s).mbu := by
  rw [ageRecords_mbu c s _ rfl, ageRecords_mbu c t _ rfl, agreementCount, agreementCount, hm, hy]

/-! ### The event -/

/-- The judged change drops no fresh offset that the aging has left (R36), so that settling leaves the MBU. -/
theorem settleEvent_mbu (c : Cfg) (o : Outcome) (a : Nat) (before : Time) (s : State)
    (h : (clearFresh s).mbu = s.mbu) : (settleEvent c o a before s).mbu = s.mbu := by
  refine settleEvent_keeps (fun x => x.mbu = s.mbu) c o a before s rfl ?_ ?_ ?_ ?_
  · exact fun _ _ hu => by simpa using hu
  · exact fun _ hu => by simpa using hu
  · exact fun _ hu => by simpa using hu
  · intro new reason mid u hu hmid _
    have hclear : (clearFresh u).mbu = s.mbu := by
      rw [← h, clearFresh_mbu_frame, clearFresh_mbu_frame s, clearFresh_peers, clearFresh_peers, hu]
    rw [changeState_mbu c new reason mid u (by rcases hmid with rfl | rfl <;> simp), hclear, hu, ite_self]

theorem clearFresh_clearFresh_mbu (s : State) : (clearFresh (clearFresh s)).mbu = (clearFresh s).mbu := by
  rw [clearFresh_mbu_frame, clearFresh_peers, clearFresh_peers, Vector.map_map]
  rfl

/-- The MBU at a correction event is the aged one of the table as it stood. -/
theorem correctionAt_mbu (c : Cfg) (b : Time) (s : State) : (correctionAt c b s).mbu = (ageRecords c s).mbu := by
  rw [correctionAt_eq, settleEvent_mbu]
  · exact ageRecords_mbu_eq c s _ (by simp [awaitNext]) (by simp [awaitNext])
  · exact clearFresh_clearFresh_mbu _

/-- The record at an event, by R33's cases. -/
theorem Peer.agedFresh_cases (limit : Nat) (p : Peer) :
    (p.kind = .self ∨ p.kind = .absent → p.agedFresh limit = { p with freshOffset := none }) ∧
    (p.kind ≠ .self → p.kind ≠ .absent →
      (p.heard = true → p.agedFresh limit = { p with heard := false, freshOffset := none }) ∧
      (p.heard = false → p.missed + 1 ≠ limit →
        p.agedFresh limit = { p with missed := p.missed + 1, freshOffset := none }) ∧
      (p.heard = false → p.missed + 1 = limit → p.agedFresh limit = Peer.absentRecord)) := by
  unfold Peer.agedFresh
  rcases p.aged_cases limit with ⟨hk, h⟩ | ⟨⟨hs, ha⟩, ⟨hh, h⟩ | ⟨hh, hm, h⟩ | ⟨hh, hm, h⟩⟩ <;> rw [h]
  · exact ⟨fun _ => rfl, fun hs ha => absurd hk (not_or.2 ⟨hs, ha⟩)⟩
  · exact ⟨fun hk => absurd hk (not_or.2 ⟨hs, ha⟩), fun _ _ => ⟨fun _ => rfl, by simp [hh], by simp [hh]⟩⟩
  · exact ⟨fun hk => absurd hk (not_or.2 ⟨hs, ha⟩),
      fun _ _ => ⟨by simp [hh], fun _ hn => absurd hm hn, fun _ _ => rfl⟩⟩
  · exact ⟨fun hk => absurd hk (not_or.2 ⟨hs, ha⟩),
      fun _ _ => ⟨by simp [hh], fun _ _ => rfl, fun _ hn => absurd hn hm⟩⟩

/-- Settles O15: the MBU is the aged one, record by record. -/
theorem eventAgesAndCounts : Obligations.EventAgesAndCounts := by
  unfold Obligations.EventAgesAndCounts
  intro c s h
  refine ⟨_, execCorrectionEvent_at c s h, ?_⟩
  rw [correctionAt_mbu, ageRecords_mbu c s _ rfl]
  refine ⟨rfl, rfl, fun hs => ?_, fun hs => ?_, fun n => ?_⟩
  · exact ⟨if_pos hs, if_pos hs⟩
  · exact ⟨if_neg (by simp [hs]), if_neg (by simp [hs])⟩
  · rw [get_map]
    exact Peer.agedFresh_cases _ _

end Sys2Proof.Machine

/-! ## A trigger frame turned away (O34) -/

namespace Sys2Proof.Machine

/-! ### The checks of R96, one by one -/

theorem judgeTriggerFrame_off (c : Cfg) (t : Trigger) (s : State) (ho : s.syc.state = .off) :
    judgeTriggerFrame c t s = s := if_pos ho

theorem judgeTriggerFrame_selfNumbered (c : Cfg) (t : Trigger) (s : State) (ho : s.syc.state ≠ .off)
    (hn : t.origin = c.station) :
    judgeTriggerFrame c t s = s.withTge { s.tge with selfNumbered := s.tge.selfNumbered + 1 } := by
  rw [judgeTriggerFrame, if_neg ho, if_pos hn]

theorem judgeTriggerFrame_notReady (c : Cfg) (t : Trigger) (s : State) (ho : s.syc.state ≠ .off)
    (hn : t.origin ≠ c.station) (hs : s.syc.state.synced = false) :
    judgeTriggerFrame c t s =
      (setPeer t.origin ((s.mbu.peers.get t.origin).checkTrigger t.sequence).1 s).withTge
        { s.tge with notReady := s.tge.notReady + 1 } := by
  rw [judgeTriggerFrame, if_neg ho, if_neg hn]
  simp [hs]

theorem judgeTriggerFrame_notMember (c : Cfg) (t : Trigger) (s : State) (hn : t.origin ≠ c.station)
    (hs : s.syc.state.synced = true) (hm : (s.mbu.peers.get t.origin).kind ≠ .member) :
    judgeTriggerFrame c t s = s.withTge { s.tge with notMember := s.tge.notMember + 1 } := by
  rw [judgeTriggerFrame, if_neg (SyncState.ne_off_of_synced hs), if_neg hn]
  simp [hs, hm]

/-- A trigger that the sequence window turns away leaves its record as it was (R100). -/
theorem Peer.checkTrigger_old (q : Sequence) (p : Peer) (h : (p.checkTrigger q).2 = false) :
    (p.checkTrigger q).1 = p := by
  unfold Peer.checkTrigger at h ⊢
  by_cases ha : p.kind = .absent
  · rw [if_pos ha]
  · rw [if_neg ha] at h ⊢
    cases he : p.expected with
    | none => rw [he] at h; cases h
    | some e =>
      simp only [he] at h ⊢
      by_cases hd : (q - e).toNat ≤ 1023
      · rw [if_pos hd] at h; cases h
      · rw [if_neg hd]

theorem judgeTriggerFrame_duplicate (c : Cfg) (t : Trigger) (s : State) (hn : t.origin ≠ c.station)
    (hs : s.syc.state.synced = true) (hm : (s.mbu.peers.get t.origin).kind = .member)
    (hq : ((s.mbu.peers.get t.origin).checkTrigger t.sequence).2 = false) :
    judgeTriggerFrame c t s = s.withTge { s.tge with duplicate := s.tge.duplicate + 1 } := by
  have hpeer : setPeer t.origin ((s.mbu.peers.get t.origin).checkTrigger t.sequence).1 s = s := by
    rw [Peer.checkTrigger_old _ _ hq, setPeer, set_get]
    rfl
  rw [judgeTriggerFrame, if_neg (SyncState.ne_off_of_synced hs), if_neg hn]
  simp [hs, hm, hq, hpeer]

/-! ### FRAME_END with a trigger -/

theorem withCfg_none (s : State) (f : Cfg → State) (h : s.cfg = none) : withCfg s f = s := by
  simp [withCfg, h]

/-- Before READY a good frame of either kind is counted and discarded (R23, R96). -/
theorem execFrameEnd_unconfigured (body : List Bool) (l k : Time) (f : RxFrame) (s : State)
    (hr : s.src.inReset = false) (hc : s.cfg = none) (hv : s.lif.receiver = .receiving l k false)
    (hi : 20 ≤ s.lif.idleTimer) (hj : judgeFrame body = some f) : exec (.frameEnd body) s = .next (received s) := by
  rw [execFrameEnd_good body l k f s hr hv hi hj, deliver]
  exact congrArg Host.Outcome.next (withCfg_none (received s) _ hc)

theorem execFrameEnd_trigger (c : Cfg) (t : Trigger) (n : Nat) (body : List Bool) (l k : Time) (s : State)
    (hr : s.src.inReset = false) (hc : s.cfg = some c) (hv : s.lif.receiver = .receiving l k false)
    (hi : 20 ≤ s.lif.idleTimer) (hj : judgeFrame body = some (.trigger t n)) :
    exec (.frameEnd body) s = .next (judgeTriggerFrame c t (received s)) := by
  rw [execFrameEnd_good body l k _ s hr hv hi hj, deliver]
  exact congrArg Host.Outcome.next (withCfg_some (received s) _ c hc)

/-- Settles O34, check by check. -/
theorem triggerFrameIsTurnedAway : Obligations.TriggerFrameIsTurnedAway := by
  unfold Obligations.TriggerFrameIsTurnedAway
  refine ⟨fun tr n body l k s hr hc hv hi hj => execFrameEnd_unconfigured body l k _ s hr hc hv hi hj, ?_⟩
  rintro c tr n body l k s r hr hc hv hi hj rfl
  rw [execFrameEnd_trigger c tr n body l k s hr hc hv hi hj]
  refine ⟨fun ho => ?_, fun ho hn => ?_, fun ho hs hn => ?_, fun hs hn hm => ?_, fun hs hn hm hq => ?_⟩
  · exact congrArg Host.Outcome.next (judgeTriggerFrame_off c tr (received s) ho)
  · exact congrArg Host.Outcome.next (judgeTriggerFrame_selfNumbered c tr (received s) ho hn)
  · exact congrArg Host.Outcome.next (judgeTriggerFrame_notReady c tr (received s) ho hn hs)
  · exact congrArg Host.Outcome.next (judgeTriggerFrame_notMember c tr (received s) hn hs hm)
  · exact congrArg Host.Outcome.next (judgeTriggerFrame_duplicate c tr (received s) hn hs hm hq)

end Sys2Proof.Machine

/-! ## A correction event's judgement, sync state by sync state (O16 to O20) -/

namespace Sys2Proof.Machine

/-! ### An event at which the sync state stays -/

/-- The counts alone change at the SYC (R48 to R52); firings reach neither the STATE source nor the input channels. -/
theorem correctionAt_stayed (c : Cfg) (s : State) (r : Rounds)
    (hj : judgeEvent c (correctionOutcome c s) (agreementCount c s) s.syc = (none, r)) :
    Stayed c s (correctionAt c s.tbu.clusterTime s) r.good r.stable r.holdover := by
  obtain ⟨-, -, -, -, -, -, hrdp, -, htlu, hsyc, hjnl⟩ := corrected_stands c s.tbu.clusterTime s
  have hstays := settleEvent_stays c (correctionOutcome c s) (agreementCount c s) s.tbu.clusterTime
    (corrected c s.tbu.clusterTime s) (by rw [hsyc, hj])
  rw [← correctionAt_eq, hsyc, hj] at hstays
  constructor
  case syc => rw [hstays]; split <;> simp [setRounds, hsyc]
  case pending => rw [hstays]; split <;> simp [hrdp]
  case edges => rw [hstays]; split <;> simp [htlu]
  case record =>
    intro hnone
    have hnotDue := noneFires_settled c s _ hnone (settleEvent_clusterTime c _ _ _ _)
    have hfire : (if (correctionOutcome c s).forward then fireDue (some s.tbu.clusterTime)
        (corrected c s.tbu.clusterTime s) else corrected c s.tbu.clusterTime s) =
          corrected c s.tbu.clusterTime s := by
      rcases hnotDue with h | h
      · rw [fireDue_none _ _ h, ite_self]
      · rw [h]; rfl
    rw [hstays, hfire]
    exact ⟨hjnl, congrArg Rdp.flags hrdp⟩

/-! ### A change of sync state, whatever meets it -/

section
variable (c : Cfg) (new : SyncState) (r : Reason) (mid : State → State) (s : State)

/-- Every change makes the STATE source pending (R40). -/
theorem changeState_statePending (h : ∀ s, (mid s).rdp.statePending = s.rdp.statePending) :
    (changeState c new r mid s).rdp.statePending = true := by
  unfold changeState
  dsimp only
  split
  · split <;> simp [h]
  · simp

/-- The last-edge records go where the time basis changes (R156). -/
theorem changeState_inputs (h : ∀ s, (mid s).tlu.inputs = s.tlu.inputs) :
    (changeState c new r mid s).tlu.inputs =
      if s.syc.state.basis = new.basis then s.tlu.inputs
      else s.tlu.inputs.map fun ch => { ch with lastEdge := none } := by
  unfold changeState
  dsimp only
  split
  · split <;> simp [h, setSyncState_inputs]
  · simp [setSyncState_inputs]

end

/-- The STATE record of a change that nothing meets, with the cancelled count of the stand-down (R41). -/
theorem changeState_recorded (c : Cfg) (new : SyncState) (r : Reason) (s : State) (ho : s.syc.state ≠ .off) :
    Recorded
      (stateRecord (changeState c new r id s) s.syc.state new r
        (if new.standsDown then some s.scu.entries.length else none)) .state s (changeState c new r id s) := by
  cases hn : new.standsDown with
  | false => exact changeState_moves_recorded c new r s hn
  | true =>
    have hstands := changeState_standsDown c new r s hn ho
    set y := flush (purge (trainEnd (dropTime s.syc.state.synced (setSyncState c new s)))) with hy
    have hrecord : stateRecord y s.syc.state y.syc.state r (some s.scu.entries.length) =
        stateRecord (changeState c new r id s) s.syc.state new r (some s.scu.entries.length) := by
      simp [hstands, stateRecord, hy]
    rw [if_pos rfl, ← hrecord, hstands, writeStateRecord_hands]
    exact ⟨handRecord_jnl_eq _ _ _ _ (by simp [hy]), handRecord_flags_eq _ _ _ _ (by simp [hy]) (by simp [hy])⟩

/-! ### An event at which the sync state changes -/

/-- What no firing at an event touches: the SYC's items, the STATE source and the input channels. -/
def changeView (s : State) : Syc × Bool × Vector InputChan 8 := (s.syc, s.rdp.statePending, s.tlu.inputs)

/-- The change of an event shows there as a change that nothing meets (R125, R128, R148). -/
theorem settleEvent_changeView (c : Cfg) (o : Outcome) (a : Nat) (before : Time) (s : State) (new : SyncState)
    (reason : Reason) (hj : (judgeEvent c o a s.syc).1 = some (new, reason)) :
    changeView (settleEvent c o a before s) = changeView (changeState c new reason id s) := by
  rw [settleEvent_moves c o a before s new reason hj]
  split
  · simp [changeOvertaking, changeView, changeState_statePending, changeState_inputs]
  · rfl

/-- Where nothing is due, nothing meets the change (R128, R148). -/
theorem settleEvent_unmet (c : Cfg) (o : Outcome) (a : Nat) (before : Time) (s : State) (new : SyncState)
    (reason : Reason) (hj : (judgeEvent c o a s.syc).1 = some (new, reason))
    (h : headDue s = false ∨ (o.forward = false ∧ new.standsDown = false)) :
    settleEvent c o a before s = changeState c new reason id s := by
  rw [settleEvent_moves c o a before s new reason hj, if_neg]
  rcases h with h | ⟨hf, hn⟩
  · simp [h]
  · simp [hf, hn]

/-- A judged change of state is made as R39 to R41, R43, R57 and R156 say. -/
theorem correctionAt_moved (c : Cfg) (s : State) (new : SyncState) (reason : Reason)
    (hj : (judgeEvent c (correctionOutcome c s) (agreementCount c s) s.syc).1 = some (new, reason)) :
    Moved c s (correctionAt c s.tbu.clusterTime s) new reason := by
  obtain ⟨hactive, hnew, -⟩ := judgeEvent_change c _ _ _ new reason hj
  have ho : s.syc.state ≠ .off := by
    intro h
    rw [h] at hactive
    cases hactive
  have hstandsDown : new.standsDown = true ↔ new = .listen := by
    rcases hnew with rfl | rfl | rfl | rfl <;> decide
  obtain ⟨-, -, -, -, -, -, hrdp, hscu, htlu, hsyc, hjnl⟩ := corrected_stands c s.tbu.clusterTime s
  rw [← hsyc] at hj
  have hview := settleEvent_changeView c _ _ s.tbu.clusterTime _ new reason hj
  have hunmet := settleEvent_unmet c _ _ s.tbu.clusterTime _ new reason hj
  rw [← correctionAt_eq] at hview hunmet
  simp only [changeView, Prod.mk.injEq, changeState_statePending c new reason id _ fun _ => rfl,
    changeState_inputs c new reason id _ fun _ => rfl, changeState_syc c new reason id _ fun _ => rfl, hsyc, htlu] at hview
  obtain ⟨htsyc, htpending, htinputs⟩ := hview
  constructor
  case state => rw [htsyc]
  case counts => rw [htsyc]; exact ⟨rfl, rfl, rfl⟩
  case basis => rw [State.basis, htsyc]
  case pending => exact htpending
  case timer => rw [htsyc]; rfl
  case last => rw [htsyc]
  case beacon => rw [htsyc]; simp only [hstandsDown]
  case edges =>
    intro l
    rw [htinputs, State.basis]
    split <;> simp
  case record =>
    intro hnone
    have htime := settleEvent_clusterTime c (correctionOutcome c s) (agreementCount c s) s.tbu.clusterTime
      (corrected c s.tbu.clusterTime s)
    have hquiet : headDue (corrected c s.tbu.clusterTime s) = false ∨
        ((correctionOutcome c s).forward = false ∧ new.standsDown = false) := by
      refine hnone.imp (fun h => headDue_of_later _ ?_) fun ⟨hf, hl⟩ => ⟨hf, ?_⟩
      · rw [← htime, hscu]; exact h
      · rw [htsyc] at hl
        exact Bool.eq_false_iff.2 fun h => hl (hstandsDown.1 h)
    have hrecorded := changeState_recorded c new reason (corrected c s.tbu.clusterTime s) (by rw [hsyc]; exact ho)
    rw [← hunmet hquiet, hsyc, hscu] at hrecorded
    exact hrecorded.of_eq hjnl (congrArg Rdp.flags hrdp)

/-! ### The outcome by the sync state (R11, R12) -/

/-- FOUNDING has no correction set. -/
theorem correctionOutcome_founding (c : Cfg) (s : State) (hs : s.syc.state = .founding) :
    correctionOutcome c s = .none := by
  simp [correctionOutcome, correctionSet, hs, trimmedMean]

/-- A set that is not empty has a mean (R13). -/
theorem trimmedMean_cons (x : Int) (xs : List Int) : ∃ m, trimmedMean (x :: xs) = some m := by
  rw [trimmedMean]
  split_ifs
  · exact ⟨_, rfl⟩
  · exact ⟨_, rfl⟩

/-- A synchronized part's set holds its own 0. -/
theorem correctionOutcome_synced (c : Cfg) (s : State) (hs : s.syc.state.synced = true) :
    correctionOutcome c s ≠ .none := by
  obtain ⟨m, hm⟩ := trimmedMean_cons 0 (s.mbu.peers.toList.filterMap Peer.memberSource)
  rw [correctionOutcome, correctionSet_synced s hs, hm]
  dsimp only
  split
  · simp
  · simp

/-- Of a withheld correction the next boundary and the peer table alone know (R11, R14). -/
theorem corrected_exceeded (c : Cfg) (b : Time) (s : State) (x : Int) (h : correctionOutcome c s = .exceeded x) :
    corrected c b s = { s with
      tbu := { s.tbu with nextBoundary := (corrected c b s).tbu.nextBoundary }, mbu := (corrected c b s).mbu } := by
  rw [corrected, h]
  rfl

/-! ### The five sync states -/

/-- Settles O16. -/
theorem eventInFounding : Obligations.EventInFounding := by
  unfold Obligations.EventInFounding
  intro c s h hs
  refine ⟨correctionOutcome_founding c s hs, _, execCorrectionEvent_at c s h, fun hq => ?_, fun hq => ?_⟩
  · exact correctionAt_moved c s _ _ (by simp [judgeEvent, hs, hq])
  · exact correctionAt_stayed c s ⟨_, _, _⟩ (by simp [judgeEvent, hs, hq])

/-- Settles O17: a TENTATIVE part's schedule is empty, so nothing meets the stand-down. -/
theorem eventInTentative : Obligations.EventInTentative := by
  unfold Obligations.EventInTentative
  intro c s h hcoh hs
  have hsynced : s.syc.state.synced = false := by rw [hs]; rfl
  refine ⟨_, execCorrectionEvent_at c s h, fun ho => ?_, fun x ho => ?_, fun x ho hq => ⟨fun hr => ?_, fun hr => ?_⟩,
    fun x ho hq => ?_⟩
  · exact correctionAt_stayed c s ⟨0, _, _⟩ (by simp [judgeEvent, hs, ho])
  · have hj : (judgeEvent c (correctionOutcome c s) (agreementCount c s) s.syc).1 = some (.listen, .boundExceeded) := by
      simp [judgeEvent, hs, ho]
    have hstood : StoodDown c s (correctionAt c s.tbu.clusterTime s) .listen .boundExceeded := by
      obtain ⟨-, -, -, -, -, -, -, hscu, -, hsyc, -⟩ := corrected_stands c s.tbu.clusterTime s
      have hnotDue : headDue (corrected c s.tbu.clusterTime s) = false := by
        simp [headDue, hscu, hcoh.schedule hsynced]
      rw [correctionAt_eq, settleEvent_unmet c _ _ _ _ .listen .boundExceeded (by rw [hsyc]; exact hj) (.inl hnotDue)]
      exact changeState_stoodDown c .listen .boundExceeded s _ rfl (by simp [hs]) hsynced
        (corrected_exceeded c s.tbu.clusterTime s x ho)
    exact ⟨correctionAt_moved c s _ _ hj, by rw [hstood.tbu], hstood⟩
  · exact correctionAt_moved c s _ _ (by simp [judgeEvent, hs, ho, hq, hr])
  · exact correctionAt_stayed c s ⟨_, _, _⟩ (by simp [judgeEvent, hs, ho, hq, hr])
  · exact correctionAt_stayed c s ⟨0, _, _⟩ (by simp [judgeEvent, hs, ho, hq])

/-- Settles O18. -/
theorem eventInSync : Obligations.EventInSync := by
  unfold Obligations.EventInSync
  intro c s h hs
  refine ⟨correctionOutcome_synced c s (by rw [hs]; rfl), _, execCorrectionEvent_at c s h, fun x ho => ?_,
    fun x ho => ⟨fun hq => ?_, fun hq => ⟨fun hx hr => ?_, fun hx hr => ?_, fun hx => ?_⟩⟩⟩
  · exact correctionAt_moved c s _ _ (by simp [judgeEvent, hs, ho])
  · exact correctionAt_moved c s _ _ (by simp [judgeEvent, hs, ho, hq])
  · exact correctionAt_moved c s _ _ (by simp [judgeEvent, hs, ho, hq, hx, hr])
  · exact correctionAt_stayed c s ⟨_, _, _⟩ (by simp [judgeEvent, hs, ho, hq, hx, hr])
  · exact correctionAt_stayed c s ⟨_, 0, _⟩ (by simp [judgeEvent, hs, ho, hq, hx])

/-- Settles O19; the fall back to SYNC does not end in LISTEN, so the sync-loss count stands (R18). -/
theorem eventInStable : Obligations.EventInStable := by
  unfold Obligations.EventInStable
  intro c s h hs
  refine ⟨_, execCorrectionEvent_at c s h, fun x ho => ?_,
    fun x ho => ⟨fun hq => ?_, fun hq hx => ?_, fun hq hx => ?_⟩⟩
  · exact correctionAt_moved c s _ _ (by simp [judgeEvent, hs, ho])
  · exact correctionAt_moved c s _ _ (by simp [judgeEvent, hs, ho, hq])
  · have hmoved := correctionAt_moved c s .sync .correctionUnstable (by simp [judgeEvent, hs, ho, hq, hx])
    exact ⟨hmoved, (correctionAt_eventFrame c s (by rw [hmoved.state]; decide)).syncLosses⟩
  · exact correctionAt_stayed c s ⟨_, _, _⟩ (by simp [judgeEvent, hs, ho, hq, hx])

/-- Settles O20. -/
theorem eventInHoldover : Obligations.EventInHoldover := by
  unfold Obligations.EventInHoldover
  intro c s h hs
  refine ⟨_, execCorrectionEvent_at c s h, fun x ho => ?_,
    fun x ho => ⟨fun hq => ?_, fun hq => ⟨fun hr => ?_, fun hr => ?_⟩⟩⟩
  · exact correctionAt_moved c s _ _ (by simp [judgeEvent, hs, ho])
  · exact correctionAt_moved c s _ _ (by simp [judgeEvent, hs, ho, hq])
  · exact correctionAt_moved c s _ _ (by simp [judgeEvent, hs, ho, hq.not_ge, hr])
  · exact correctionAt_stayed c s ⟨_, _, _⟩ (by simp [judgeEvent, hs, ho, hq.not_ge, hr])

end Sys2Proof.Machine

/-! ## The beacon that falls due, the restart and the supply warning (O23, O54, O6) -/

namespace Sys2Proof.Machine

/-! ### BEACON_DUE -/

/-- What BEACON_DUE does of a running, configured part (R57, R58). -/
theorem execBeaconDue_at (c : Cfg) (d : Time) (s : State) (hr : s.src.inReset = false) (hc : s.cfg = some c)
    (hd : s.syc.nextBeaconDue = some d) :
    exec .beaconDue s = .next (if d.toNat ≤ s.tbu.clusterTime.toNat then beaconDue c d s else s) := by
  change execBeaconDue s = _
  rw [execBeaconDue, live_running s _ hr, withCfg_some s _ c hc, hd]

/-- Settles O23. -/
theorem beaconDuePlacesABeacon : Obligations.BeaconDuePlacesABeacon := by
  unfold Obligations.BeaconDuePlacesABeacon
  intro c d s hr hc hd
  rw [execBeaconDue_at c d s hr hc hd]
  refine ⟨fun hdue hfit => ?_, fun hlater => ?_⟩
  · rw [if_pos hdue, beaconDue, timePlus_eq_add d _ hfit]
    rfl
  · rw [if_neg (by omega)]

/-! ### RESTART_ARM and RESTART -/

/-- A reset of any cause leaves every item at its reset value (R176); the levels outside are no such item. -/
theorem resetState_atReset (cause : ResetCause) (hold : Nat) (s : State) : AtReset (resetState cause hold s) := by
  obtain ⟨hclocks, hcorrections, hbasis, hpeers, hmembers, hsync, hline, hlineCounters, hsequence, htriggerCounters,
    hmap, hschedule, -, hinputs, hjournal, hflags, hport, -⟩ := reset_atReset
  exact ⟨hclocks, hcorrections, hbasis, hpeers, hmembers, hsync, hline, hlineCounters, hsequence, htriggerCounters,
    hmap, hschedule, fun l => by simp [Tlu.reset, lineDrive], hinputs, hjournal, hflags, hport,
    ⟨rfl, rfl, rfl, rfl, rfl⟩⟩

/-- The arm's answer clears the armed flag, and the arm sets it behind the answer (R166, R174). -/
theorem execRestartArm_begun (s : State) (hr : s.src.inReset = false) (hb : s.rdp.txn = .begun) :
    exec .restartArm s = .next { s with rdp := { s.rdp with txn := .taken [0x00] false, armed := true } } := by
  change execRestartArm s = _
  rw [execRestartArm, takeCommand_begun s _ hr hb]
  rfl

/-- An armed RESTART whose transaction has begun hands the restart on (R175). -/
theorem execRestart_armed (s : State) (hr : s.src.inReset = false) (hb : s.rdp.txn = .begun)
    (ha : s.rdp.armed = true) : exec .restart s = .next (restartPart (answered 0x00 [] s)) := by
  change execRestart s = _
  rw [execRestart, takeCommand_begun s _ hr hb, if_pos ha]
  rfl

/-- No leave where nothing is to be left (R183). -/
theorem restartPart_resets (s : State) (h : s.src.loadState ≠ .ready ∨ s.syc.state.active = false) :
    restartPart s = portReset s := by
  rw [restartPart, if_neg]
  rintro ⟨hl, ha⟩
  rcases h with h | h
  · exact h hl
  · rw [ha] at h; cases h

/-- In an active state the leave begins, once (R183, R184). -/
theorem restartPart_leaves (c : Cfg) (s : State) (hl : s.src.loadState = .ready) (ha : s.syc.state.active = true)
    (hc : s.cfg = some c) : restartPart s = if s.leaving then s else beginLeave c s := by
  rw [restartPart, if_pos ⟨hl, ha⟩, withCfg_some s _ c hc]

/-- Settles O54. -/
theorem restartResetsOrLeaves : Obligations.RestartResetsOrLeaves := by
  unfold Obligations.RestartResetsOrLeaves
  intro s hr hb
  refine ⟨execRestartArm_begun s hr hb, fun harmed hs => ?_, fun c harmed hl hactive hc => ?_⟩
  · rw [execRestart_armed s hr hb harmed, restartPart_resets (answered 0x00 [] s) hs]
    exact ⟨_, rfl, resetState_atReset _ _ _, rfl, rfl, rfl⟩
  · rw [execRestart_armed s hr hb harmed, restartPart_leaves c (answered 0x00 [] s) hl hactive hc]
    refine ⟨fun hleave => ?_, fun hleave => ?_⟩
    · rw [if_neg (by simp [State.leaving, answered, hleave])]
      rfl
    · rw [if_pos (show (answered 0x00 [] s).leaving = true from Option.isSome_iff_ne_none.2 hleave)]

/-! ### The supply warning -/

/-- Settles O6. -/
theorem supplyWarningIsSetAndCleared : Obligations.SupplyWarningIsSetAndCleared := by
  unfold Obligations.SupplyWarningIsSetAndCleared
  intro s hr
  refine ⟨?_, ?_, fun hw => ?_⟩
  · change execSupplyWarningSet s = _
    rw [execSupplyWarningSet, live_running s _ hr]
    rfl
  · change execSupplyWarningClear s = _
    rw [execSupplyWarningClear, live_running s _ hr]
    rfl
  · simp [departingFlag, hw]

end Sys2Proof.Machine

/-! ## The transmit queue and the journal stay bounded (O56) -/

namespace Sys2Proof.Machine

/-! ### The transmit queue (R64, R65, R73, R88) -/

/-- A queue that grew by nothing is within its places where the old one was. -/
theorem QueueBounded.of_le {s t : State} (h : QueueBounded s) (hle : t.lif.queue.length ≤ s.lif.queue.length) :
    QueueBounded t :=
  hle.trans h

theorem QueueBounded.of_queue {s t : State} (h : QueueBounded s) (hq : t.lif.queue = s.lif.queue) : QueueBounded t :=
  h.of_le (by rw [hq])

theorem resetState_queueBounded (cause : ResetCause) (hold : Nat) (s : State) :
    QueueBounded (resetState cause hold s) := by
  simp [QueueBounded, Lif.reset]

/-- A change of sync state empties the queue or leaves it (R73). -/
theorem changeState_queueBounded (c : Cfg) (new : SyncState) (r : Reason) (mid : State → State) (s : State)
    (h : QueueBounded s) : QueueBounded (changeState c new r mid s) := by
  refine h.of_le ?_
  rw [changeState_queue]
  split <;> simp

theorem correctionAt_queueBounded (c : Cfg) (b : Time) (s : State) (h : QueueBounded s) :
    QueueBounded (correctionAt c b s) := by
  rw [correctionAt_eq]
  exact settleEvent_keeps QueueBounded c _ _ _ _ (h.of_queue (by simp [corrected, awaitNext]))
    (fun _ _ h => h.of_queue (by simp)) (fun _ h => h.of_queue (by simp)) (fun _ h => h.of_queue (by simp))
    (fun new reason mid s h _ _ => changeState_queueBounded c new reason mid s h)

theorem deliverBeacon_queueBounded (c : Cfg) (b : Beacon) (l k : Time) (s : State) (h : QueueBounded s) :
    QueueBounded (deliverBeacon c b l k s) :=
  deliverBeacon_keeps QueueBounded c b l k s h (fun _ _ h => h)
    (fun _ => changeState_queueBounded c _ _ id s h) (fun _ _ _ => h.of_queue (by simp))
    (fun _ _ h _ => changeState_queueBounded c _ _ id _ (h.of_queue (by simp)))

/-- A raise is refused where the 8 places are taken, so that an accepted one finds room (R65, R88). -/
theorem enqueue_queueBounded (c : Cfg) (t : Trigger) (b : Bool) (s : State) (hr : raiseRefusal b s = none) :
    QueueBounded (enqueue c t s) := by
  obtain ⟨-, -, -, hroom⟩ := (raiseRefusal_none b s).1 hr
  simpa [QueueBounded, enqueue] using hroom

theorem insertion_queueBounded (t : Trigger) (s : State) (im : MapIndex × MapEntry) (h : QueueBounded s) :
    QueueBounded (fireSome none (insertAction t s im)) :=
  h.of_queue (by simp)

theorem process_queueBounded (c : Cfg) (n : Nat) (t : Trigger) (s : State) (h : QueueBounded s) :
    QueueBounded (process c n t s) :=
  process_keeps QueueBounded c insertion_queueBounded (fun _ _ h => h) (fun _ h => h)
    (fun t s _ hr => enqueue_queueBounded c t true s hr) n t s h

theorem raiseTrigger_queueBounded (c : Cfg) (k : TrigClass) (x : Time) (b : Bool) (s : State) (h : QueueBounded s) :
    QueueBounded (raiseTrigger c k x b s).1 :=
  raiseTrigger_keeps QueueBounded c insertion_queueBounded (fun _ _ h => h) (fun _ h => h)
    (fun t b s _ hr => enqueue_queueBounded c t b s hr) k x b s h

theorem judgeTriggerFrame_queueBounded (c : Cfg) (t : Trigger) (s : State) (h : QueueBounded s) :
    QueueBounded (judgeTriggerFrame c t s) :=
  judgeTriggerFrame_keeps QueueBounded c t s h (fun _ _ h _ _ _ => h) (fun _ => h)
    (fun s h _ => process_queueBounded c 4 t s h)

theorem qualifyEdge_queueBounded (c : Cfg) (l : LineNo) (ic : InputCfg) (cand : Candidate) (s : State)
    (h : QueueBounded s) : QueueBounded (qualifyEdge c l ic cand s) :=
  qualifyEdge_keeps QueueBounded c l ic cand s h (fun _ _ h => h) (raiseTrigger_queueBounded c) (fun _ h => h)
    (fun _ _ h _ => h.of_queue (by simp))

/-- A collided copy's entry stays at the front, or leaves (R70, R71). -/
theorem collideTrigger_queueBounded (c : Cfg) (s : State) (h : QueueBounded s) : QueueBounded (collideTrigger c s) := by
  unfold collideTrigger
  split
  · rename_i e rest hq
    dsimp only
    split <;> exact h.of_le (by simp [hq])
  · exact h

theorem collideBeacon_queueBounded (c : Cfg) (b : BeaconEntry) (s : State) (h : QueueBounded s) :
    QueueBounded (collideBeacon c b s) := by
  unfold collideBeacon
  dsimp only
  split <;> exact h

/-- A completed copy's entry stays at the front, or leaves (R72). -/
theorem copyDone_length_le (q : List TrigEntry) : (copyDone q).length ≤ q.length := by
  unfold copyDone
  split
  · split <;> simp
  · exact le_rfl

theorem completeTrigger_queueBounded (purged : Bool) (s : State) (h : QueueBounded s) :
    QueueBounded (completeTrigger purged s) := by
  refine h.of_le ?_
  simp only [completeTrigger, State.withLif_lif]
  split
  · exact le_rfl
  · exact copyDone_length_le _

theorem completeBeacon_queueBounded (leavingAtRef : Bool) (s : State) (h : QueueBounded s) :
    QueueBounded (completeBeacon leavingAtRef s) := by
  unfold completeBeacon
  dsimp only
  split
  · exact resetState_queueBounded _ _ _
  · exact h

/-- The queue grows by an accepted raise alone. -/
theorem effect_queueBounded (i : Instr) (s t : State) (h : QueueBounded s) (he : Effect i s t) : QueueBounded t := by
  cases he with
  | reset | restartReset | leaveTimeout => exact resetState_queueBounded _ _ _
  | byteReady g => exact changeState_queueBounded _ _ _ id _ (h.of_queue (by simp [withByte]))
  | listenTimeout c => exact changeState_queueBounded c _ _ id _ (h.of_queue (by simp))
  | correction c => exact correctionAt_queueBounded c _ s h
  | startTrigger c e rest _ _ _ _ _ _ hq => exact h.of_le (by simp [hq])
  | collideTrigger c => exact collideTrigger_queueBounded c _ h
  | collideBeacon c _ b => exact collideBeacon_queueBounded c b _ h
  | completeTrigger f => exact completeTrigger_queueBounded f.purged _ h
  | completeBeacon _ _ _ l => exact completeBeacon_queueBounded l _ h
  | beacon _ l k c b => exact deliverBeacon_queueBounded c b l k _ h
  | trigger _ _ _ c t => exact judgeTriggerFrame_queueBounded c t _ h
  | edge l c ic cand => exact qualifyEdge_queueBounded c l ic cand s h
  | raise _ k c => exact raiseTrigger_queueBounded c k _ true s h
  | _ =>
    exact h.of_queue (by
      simp [Machine.release, Machine.tickInReset, Machine.tick, Lif.tick, withByte, Machine.beaconDue, afterCollision,
        afterReception, countReceived, cancelCommand, beginLeave])

/-! ### The journal (R162, R163) -/

theorem JournalFormed.of_records {s t : State} (h : JournalFormed s) (hr : t.jnl.records = s.jnl.records) :
    JournalFormed t :=
  ⟨by rw [hr]; exact h.bounded, by rw [hr]; exact h.newest, by rw [hr]; exact h.counted⟩

/-- Every record but a GAP record is as it was handed over. -/
theorem Record.counted_of_not_gap {r : Record} (h : r.isGap = false) : r.counted = true := by
  cases r with
  | gap => cases h
  | _ => rfl

/-- The journal after a hand-over: the records stand, or the record is written behind them, with a GAP record of the
lost count ahead of it where records were lost (R163). -/
theorem handRecord_records (r : Record) (k : LostKind) (s : State) :
    (handRecord r k s).jnl.records = s.jnl.records ∨
      (s.jnl.records.length + 1 ≤ 128 ∧ (handRecord r k s).jnl.records = s.jnl.records ++ [r]) ∨
      (s.jnl.lost ≠ 0 ∧ s.jnl.records.length + 2 ≤ 128 ∧
        (handRecord r k s).jnl.records = s.jnl.records ++ [.gap s.jnl.lost, r]) := by
  unfold handRecord
  dsimp only
  split
  · split
    · exact .inr (.inl ⟨‹_›, rfl⟩)
    · exact .inl rfl
  · split
    · exact .inr (.inr ⟨‹_›, ‹_›, rfl⟩)
    · exact .inl rfl

/-- A record that is no GAP record keeps the journal formed: it is the newest, and a GAP record ahead of it carries a
count that is not 0. -/
theorem handRecord_journalFormed (r : Record) (k : LostKind) (s : State) (hr : r.isGap = false)
    (h : JournalFormed s) : JournalFormed (handRecord r k s) := by
  have hcounted := Record.counted_of_not_gap hr
  rcases handRecord_records r k s with he | ⟨hroom, he⟩ | ⟨hlost, hroom, he⟩
  · exact h.of_records he
  · refine ⟨by simpa [he] using hroom, fun x hx => ?_, fun x hx => ?_⟩
    · rw [he, List.getLast?_concat, Option.some.injEq] at hx
      exact hx ▸ hr
    · rw [he, List.mem_append, List.mem_singleton] at hx
      rcases hx with hx | rfl
      · exact h.counted x hx
      · exact hcounted
  · refine ⟨by simpa [he] using hroom, fun x hx => ?_, fun x hx => ?_⟩
    · rw [he, List.getLast?_append_cons, List.getLast?_cons_cons, List.getLast?_singleton, Option.some.injEq] at hx
      exact hx ▸ hr
    · rw [he, List.mem_append, List.mem_pair] at hx
      rcases hx with hx | rfl | rfl
      · exact h.counted x hx
      · simpa [Record.counted] using hlost
      · exact hcounted

theorem writeStateRecord_journalFormed (old : SyncState) (r : Reason) (n : Option Nat) (s : State)
    (h : JournalFormed s) : JournalFormed (writeStateRecord old r n s) :=
  handRecord_journalFormed _ _ s rfl h

/-- The head record leaves at the end of its transfer; the newest stays the newest (R169). -/
theorem JournalFormed.of_drop {s t : State} (h : JournalFormed s) (n : Nat)
    (hr : t.jnl.records = s.jnl.records.drop n) : JournalFormed t := by
  refine ⟨?_, fun x hx => ?_, fun x hx => ?_⟩
  · rw [hr, List.length_drop]
    exact (Nat.sub_le _ _).trans h.bounded
  · rw [hr, List.getLast?_drop] at hx
    split at hx
    · cases hx
    · exact h.newest x hx
  · rw [hr] at hx
    exact h.counted x (List.mem_of_mem_drop hx)

theorem resetState_journalFormed (cause : ResetCause) (hold : Nat) (s : State) :
    JournalFormed (resetState cause hold s) := by
  constructor <;> simp [Jnl.reset]

/-- A firing hands over at most its FIRE record (R127). -/
theorem fireEntry_journalFormed (b : Option Time) (e : SchedEntry) (rest : List SchedEntry) (s : State)
    (h : JournalFormed s) : JournalFormed (fireEntry b e rest s) := by
  have hfired : JournalFormed ((lineList e.lines).foldl (fireCommand e.action)
      (s.withScu { s.scu with entries := rest, space := freePlace e.part s.scu.space })) :=
    h.of_records (by simp)
  unfold fireEntry
  dsimp only
  split
  · exact handRecord_journalFormed _ _ _ rfl hfired
  · exact hfired

theorem fireDue_journalFormed (b : Option Time) (s : State) (h : JournalFormed s) : JournalFormed (fireDue b s) :=
  fireDue_keeps JournalFormed b (fun e r s h _ _ => fireEntry_journalFormed b e r s h) s h

theorem fireSome_journalFormed (b : Option Time) (s : State) (h : JournalFormed s) : JournalFormed (fireSome b s) :=
  fireSome_keeps JournalFormed b (fun e r s h _ _ => fireEntry_journalFormed b e r s h)
    (fun _ _ h => h.of_records rfl) s h

/-- A change of sync state hands over its STATE record behind what fires within it (R41, R148). -/
theorem changeState_journalFormed (c : Cfg) (new : SyncState) (r : Reason) (mid : State → State) (s : State)
    (hmid : mid = id ∨ ∃ b, mid = fireSome b) (h : JournalFormed s) :
    JournalFormed (changeState c new r mid s) := by
  have hset : JournalFormed (setSyncState c new s) := h.of_records (by simp)
  have hdropped : JournalFormed (dropTime s.syc.state.synced (setSyncState c new s)) := hset.of_records (by simp)
  have hmet : JournalFormed (mid (trainEnd (dropTime s.syc.state.synced (setSyncState c new s)))) := by
    have hend : JournalFormed (trainEnd (dropTime s.syc.state.synced (setSyncState c new s))) :=
      hdropped.of_records (by simp)
    rcases hmid with rfl | ⟨b, rfl⟩
    · exact hend
    · exact fireSome_journalFormed b _ hend
  unfold changeState
  dsimp only
  split
  · split
    · exact writeStateRecord_journalFormed _ _ _ _ hdropped
    · exact writeStateRecord_journalFormed _ _ _ _ (hmet.of_records (by simp))
  · exact writeStateRecord_journalFormed _ _ _ _ hset

theorem correctionAt_journalFormed (c : Cfg) (b : Time) (s : State) (h : JournalFormed s) :
    JournalFormed (correctionAt c b s) := by
  rw [correctionAt_eq]
  exact settleEvent_keeps JournalFormed c _ _ _ _ (h.of_records (by simp [corrected, awaitNext]))
    (fun _ _ h => h.of_records (by simp)) (fun s h => fireDue_journalFormed _ s h)
    (fun s h => fireSome_journalFormed _ s h)
    (fun new reason mid s h hmid _ =>
      changeState_journalFormed c new reason mid s (hmid.imp_right fun hm => ⟨_, hm⟩) h)

theorem deliverBeacon_journalFormed (c : Cfg) (b : Beacon) (l k : Time) (s : State) (h : JournalFormed s) :
    JournalFormed (deliverBeacon c b l k s) :=
  deliverBeacon_keeps JournalFormed c b l k s h (fun _ _ h => h.of_records rfl)
    (fun _ => changeState_journalFormed c _ _ id s (.inl rfl) h) (fun _ _ _ => h.of_records (by simp))
    (fun _ _ h _ => changeState_journalFormed c _ _ id _ (.inl rfl) (h.of_records (by simp)))

theorem insertion_journalFormed (t : Trigger) (s : State) (im : MapIndex × MapEntry) (h : JournalFormed s) :
    JournalFormed (fireSome none (insertAction t s im)) :=
  fireSome_journalFormed none _ (h.of_records (by simp))

theorem process_journalFormed (c : Cfg) (n : Nat) (t : Trigger) (s : State) (h : JournalFormed s) :
    JournalFormed (process c n t s) :=
  process_keeps JournalFormed c insertion_journalFormed (fun _ _ h => h.of_records rfl) (fun _ h => h.of_records rfl)
    (fun _ _ h _ => h.of_records rfl) n t s h

theorem raiseTrigger_journalFormed (c : Cfg) (k : TrigClass) (x : Time) (b : Bool) (s : State)
    (h : JournalFormed s) : JournalFormed (raiseTrigger c k x b s).1 :=
  raiseTrigger_keeps JournalFormed c insertion_journalFormed (fun _ _ h => h.of_records rfl)
    (fun _ h => h.of_records rfl) (fun _ _ _ h _ => h.of_records rfl) k x b s h

theorem judgeTriggerFrame_journalFormed (c : Cfg) (t : Trigger) (s : State) (h : JournalFormed s) :
    JournalFormed (judgeTriggerFrame c t s) :=
  judgeTriggerFrame_keeps JournalFormed c t s h (fun _ _ h _ _ _ => h.of_records rfl) (fun _ => h.of_records rfl)
    (fun s h _ => process_journalFormed c 4 t s h)

/-- An edge hands over at most its CAPTURE record (R159). -/
theorem qualifyEdge_journalFormed (c : Cfg) (l : LineNo) (ic : InputCfg) (cand : Candidate) (s : State)
    (h : JournalFormed s) : JournalFormed (qualifyEdge c l ic cand s) := by
  refine qualifyEdge_keeps JournalFormed c l ic cand s h (fun _ _ h => h.of_records rfl)
    (raiseTrigger_journalFormed c) (fun _ h => h.of_records rfl) (fun r s h hr => ?_)
  refine handRecord_journalFormed r _ s ?_ h
  cases r with
  | capture => rfl
  | _ => cases hr

/-- The journal changes by a reset, a hand-over and the end of a transfer alone. -/
theorem effect_journalFormed (i : Instr) (s t : State) (h : JournalFormed s) (he : Effect i s t) :
    JournalFormed t := by
  cases he with
  | reset | restartReset | leaveTimeout => exact resetState_journalFormed _ _ _
  | byteReady g => exact changeState_journalFormed _ _ _ id _ (.inl rfl) (h.of_records (by simp [withByte]))
  | listenTimeout c => exact changeState_journalFormed c _ _ id _ (.inl rfl) (h.of_records (by simp))
  | correction c => exact correctionAt_journalFormed c _ s h
  | collideTrigger c => exact h.of_records (by rw [collideTrigger_frame]; rfl)
  | collideBeacon c => exact h.of_records (by rw [collideBeacon_frame]; rfl)
  | completeBeacon _ _ _ l =>
    unfold completeBeacon
    dsimp only
    split
    · exact resetState_journalFormed _ _ _
    · exact h.of_records rfl
  | beacon _ l k c b => exact deliverBeacon_journalFormed c b l k _ (h.of_records rfl)
  | trigger _ _ _ c t => exact judgeTriggerFrame_journalFormed c t _ (h.of_records rfl)
  | edge l c ic cand => exact qualifyEdge_journalFormed c l ic cand s h
  | fire e rest => exact fireEntry_journalFormed none e rest s h
  | transferDone => exact h.of_drop 1 rfl
  | raise _ k c =>
    exact (raiseTrigger_journalFormed c k _ true s h).of_records rfl
  | _ =>
    exact h.of_records (by
      simp [Machine.release, Machine.tickInReset, Machine.tick, withByte, Machine.beaconDue, afterCollision,
        afterReception, Machine.completeTrigger, afterComplete, countReceived, cancelCommand, beginLeave])

/-- Settles O56, by what a command can do to the queue and to the journal. -/
theorem queueAndJournalStayBounded : Obligations.QueueAndJournalStayBounded := by
  unfold Obligations.QueueAndJournalStayBounded
  exact fun s t hst =>
    ⟨fun h => step_keeps_of_effect _ (fun _ _ h => h) effect_queueBounded s t h hst,
      fun h => step_keeps_of_effect _ (fun _ _ h => h.of_records rfl) effect_journalFormed s t h hst⟩

end Sys2Proof.Machine

/-! ## The cluster line's own frames, and the end of the leave (O7, O25, O27, O28) -/

namespace Sys2Proof.Machine

/-! ### LEAVE_TIMEOUT and FRAME_COMPLETE (R72, R73, R184) -/

/-- What LEAVE_TIMEOUT does of a running part (R184). -/
theorem execLeaveTimeout_at (s : State) (hr : s.src.inReset = false) :
    exec .leaveTimeout s = .next (if s.src.leaveTimer = some 0 then portReset s else s) :=
  live_running s _ hr

/-- A PORT reset leaves every item at its reset value and holds for 100 ticks (R176, R184). -/
theorem portReset_atReset (s : State) :
    AtReset (portReset s) ∧ (portReset s).src.inReset = true ∧ (portReset s).src.resetCause = .port ∧
      (portReset s).src.portHold = 100 :=
  ⟨resetState_atReset _ _ _, rfl, rfl, rfl⟩

/-- FRAME_COMPLETE of a trigger copy. -/
theorem execFrameComplete_trigger (f : OnLine) (tr : Trigger) (n : Nat) (s : State) (hr : s.src.inReset = false)
    (hf : s.lif.onLine = some f) (hl : f.refLeft = true) (hk : f.frame = .trigger tr n) :
    exec .frameComplete s = .next (completeTrigger f.purged (afterComplete s)) := by
  change execFrameComplete s = _
  rw [execFrameComplete, live_running s _ hr, hf]
  simp only [hl, hk]
  rfl

/-- FRAME_COMPLETE of a beacon. -/
theorem execFrameComplete_beacon (f : OnLine) (b : BeaconEntry) (x : Option Beacon) (l : Bool) (s : State)
    (hr : s.src.inReset = false) (hf : s.lif.onLine = some f) (hl : f.refLeft = true) (hk : f.frame = .beacon b x l) :
    exec .frameComplete s = .next (completeBeacon l (afterComplete s)) := by
  change execFrameComplete s = _
  rw [execFrameComplete, live_running s _ hr, hf]
  simp only [hl, hk]
  rfl

/-- A completed beacon ends the leave where its reference point left in it (R72, R184). -/
theorem completeBeacon_leaves (s : State) (hl : s.leaving = true) :
    completeBeacon true s = portReset (s.withLif { s.lif with beaconsSent := s.lif.beaconsSent + 1 }) :=
  if_pos hl

/-- Any other completed beacon is counted alone (R72). -/
theorem completeBeacon_stays (l : Bool) (s : State) (h : l = false ∨ s.leaving = false) :
    completeBeacon l s = s.withLif { s.lif with beaconsSent := s.lif.beaconsSent + 1 } := by
  have hn : (l && s.leaving) = false := by rcases h with h | h <;> simp [h]
  exact if_neg (Bool.eq_false_iff.1 hn)

/-- Settles O7. -/
theorem leaveEndsWithAPortReset : Obligations.LeaveEndsWithAPortReset := by
  unfold Obligations.LeaveEndsWithAPortReset
  refine ⟨fun s hr h => ?_, fun s hr h => ?_, fun f b x s hr hf hl hk hleave => ?_⟩
  · rw [execLeaveTimeout_at s hr, if_pos h]
    exact ⟨_, rfl, portReset_atReset s⟩
  · rw [execLeaveTimeout_at s hr, if_neg h]
  · rw [execFrameComplete_beacon f b x true s hr hf hl hk, completeBeacon_leaves (afterComplete s) hleave]
    exact ⟨_, rfl, portReset_atReset _⟩

/-- A reception under way is marked, and any other receiver stays (R69, R74). -/
theorem Receiver.markOwn_eq (r x : Receiver) (hm : ∀ l k own, r = .receiving l k own → x = .receiving l k true)
    (hs : (∀ l k own, r ≠ .receiving l k own) → x = r) : r.markOwn = x := by
  cases r with
  | receiving l k own => exact (hm l k own rfl).symm
  | ignoring => exact (hs nofun).symm
  | ready => exact (hs nofun).symm

/-- Settles O28: the copies by their entry, the beacons by what ends a leave. -/
theorem frameCompleteCounts : Obligations.FrameCompleteCounts := by
  unfold Obligations.FrameCompleteCounts
  intro f s receiver hr hf hl hm hs
  obtain rfl := Receiver.markOwn_eq s.lif.receiver receiver hm hs
  refine ⟨fun tr n hk => ⟨_, execFrameComplete_trigger f tr n s hr hf hl hk, rfl, fun hp => ?_, fun hp hq => ?_,
    fun e rest hp hq => ?_⟩, fun b x l hk hleave => ?_⟩
  · simp [completeTrigger, afterComplete, hp]
  · simp [completeTrigger, afterComplete, hp, hq, copyDone_nil]
  · simp [completeTrigger, afterComplete, hp, hq, copyDone]
  · have hstays : l = false ∨ (afterComplete s).leaving = false :=
      hleave.imp_right fun h => by simp [State.leaving, afterComplete, h]
    rw [execFrameComplete_beacon f b x l s hr hf hl hk, completeBeacon_stays l _ hstays]
    rfl

/-! ### FRAME_START (R67, R68) -/

/-- A part that may start a frame: running, configured and READY, in FOUNDING to HOLDOVER, with no own frame on the
line. -/
theorem execFrameStart_at (c : Cfg) (s : State) (hr : s.src.inReset = false) (hc : s.cfg = some c)
    (hl : s.src.loadState = .ready) (ha : s.syc.state.active = true) (ho : s.lif.onLine = none) :
    exec .frameStart s = .next (startOffered c s) := by
  change execFrameStart s = _
  rw [execFrameStart, live_running s _ hr, withCfg_some s _ c hc, if_pos ⟨hl, ha, ho⟩]

/-- Any other part starts none. -/
theorem execFrameStart_stays (s : State)
    (h : s.src.loadState ≠ .ready ∨ s.syc.state.active = false ∨ s.lif.onLine ≠ none) :
    exec .frameStart s = .next s := by
  have hn : ¬(s.src.loadState = .ready ∧ s.syc.state.active = true ∧ s.lif.onLine = none) := by
    rintro ⟨hl, ha, ho⟩
    rcases h with h | h | h
    · exact h hl
    · rw [ha] at h; cases h
    · exact h ho
  change execFrameStart s = _
  cases hc : s.cfg <;> simp [execFrameStart, live, withCfg, hn, hc]

theorem startOffered_trigger (c : Cfg) (e : TrigEntry) (rest : List TrigEntry) (s : State)
    (hq : s.lif.queue = e :: rest) :
    startOffered c s =
      if 80 + e.backoff ≤ s.lif.idleTimer then
        s.withLif { s.lif with
          queue := { e with onLine := true } :: rest,
          onLine := some (OnLine.start (.trigger e.trigger (copyNumber c e))) }
      else s := by
  rw [startOffered, hq]
  rfl

theorem startOffered_beacon (c : Cfg) (b : BeaconEntry) (s : State) (hq : s.lif.queue = [])
    (hb : s.lif.slot = some b) :
    startOffered c s =
      if 160 + b.backoff ≤ s.lif.idleTimer then
        s.withLif { s.lif with slot := none, onLine := some (OnLine.start (.beacon b none false)) }
      else s := by
  rw [startOffered, hq, hb]
  rfl

theorem startOffered_nothing (c : Cfg) (s : State) (hq : s.lif.queue = []) (hb : s.lif.slot = none) :
    startOffered c s = s := by
  rw [startOffered, hq, hb]

/-- Settles O25, by what is offered. -/
theorem frameStartSendsTheOfferedFrame : Obligations.FrameStartSendsTheOfferedFrame := by
  unfold Obligations.FrameStartSendsTheOfferedFrame
  refine ⟨fun c s hr hc hl ha ho => ?_, execFrameStart_stays⟩
  rw [execFrameStart_at c s hr hc hl ha ho]
  refine ⟨fun e rest hq => ?_, fun b hq hb => ?_, fun hq hb => ?_⟩
  · rw [startOffered_trigger c e rest s hq]
    exact ⟨fun hgap => by rw [if_pos hgap]; rfl, fun hgap => by rw [if_neg (Nat.not_le.2 hgap)]⟩
  · rw [startOffered_beacon c b s hq hb]
    exact ⟨fun hgap => by rw [if_pos hgap]; rfl, fun hgap => by rw [if_neg (Nat.not_le.2 hgap)]⟩
  · rw [startOffered_nothing c s hq hb]

/-! ### COLLISION (R70, R71, R73) -/

/-- COLLISION of a frame whose entry was purged (R73). -/
theorem execCollision_purged (c : Cfg) (f : OnLine) (s : State) (hr : s.src.inReset = false) (hc : s.cfg = some c)
    (hf : s.lif.onLine = some f) (hp : f.purged = true) : exec .collision s = .next (afterCollision s) := by
  change execCollision s = _
  rw [execCollision, live_running s _ hr, withCfg_some s _ c hc, hf]
  simp only [hp, if_true]
  rfl

/-- COLLISION of a trigger copy (R70). -/
theorem execCollision_trigger (c : Cfg) (f : OnLine) (tr : Trigger) (n : Nat) (s : State)
    (hr : s.src.inReset = false) (hc : s.cfg = some c) (hf : s.lif.onLine = some f) (hp : f.purged = false)
    (hk : f.frame = .trigger tr n) : exec .collision s = .next (collideTrigger c (afterCollision s)) := by
  change execCollision s = _
  rw [execCollision, live_running s _ hr, withCfg_some s _ c hc, hf]
  simp only [hp, hk]
  rfl

/-- COLLISION of a beacon (R70). -/
theorem execCollision_beacon (c : Cfg) (f : OnLine) (b : BeaconEntry) (x : Option Beacon) (l : Bool) (s : State)
    (hr : s.src.inReset = false) (hc : s.cfg = some c) (hf : s.lif.onLine = some f) (hp : f.purged = false)
    (hk : f.frame = .beacon b x l) : exec .collision s = .next (collideBeacon c b (afterCollision s)) := by
  change execCollision s = _
  rw [execCollision, live_running s _ hr, withCfg_some s _ c hc, hf]
  simp only [hp, hk]
  rfl

theorem owedBackoff_eq (c : Cfg) (k : Nat) : owedBackoff c k = 10 * (32 * k + c.station) := rfl

/-- The collided copy's entry (R70, R71). -/
theorem collideTrigger_cons (c : Cfg) (e : TrigEntry) (rest : List TrigEntry) (s : State)
    (hq : s.lif.queue = e :: rest) :
    collideTrigger c s =
      if e.attempts + 1 < 8 then
        s.withLif { s.lif with
          queue := { e with
            attempts := e.attempts + 1, backoff := owedBackoff c (e.attempts + 1), onLine := false } :: rest }
      else countAbandon .trigger (some e.trigger.cls) (s.withLif { s.lif with queue := rest }) := by
  rw [collideTrigger, hq]
  rfl

/-- The collided beacon, or the newer one in its place (R70, R71). -/
theorem collideBeacon_eq (c : Cfg) (b : BeaconEntry) (s : State) :
    collideBeacon c b s =
      if b.attempts + 1 < 8 then
        s.withLif { s.lif with
          slot := some { s.lif.slot.getD b with
            attempts := b.attempts + 1, backoff := owedBackoff c (b.attempts + 1) } }
      else countAbandon .beacon none (s.withLif { s.lif with slot := none }) := rfl

/-- Settles O27, by the frame and by the count of its collisions. -/
theorem collisionBacksOffOrAbandons : Obligations.CollisionBacksOffOrAbandons := by
  unfold Obligations.CollisionBacksOffOrAbandons
  intro c f s hr hc hf
  refine ⟨execCollision_purged c f s hr hc hf, fun tr n e rest hp hk hq => ?_, fun b x l hp hk => ?_⟩
  · rw [execCollision_trigger c f tr n s hr hc hf hp hk, collideTrigger_cons c e rest (afterCollision s) hq]
    refine ⟨fun hbelow => ?_, fun hlimit => ?_⟩
    · rw [if_pos hbelow, owedBackoff_eq]
      rfl
    · rw [if_neg (Nat.not_lt.2 hlimit)]
      rfl
  · rw [execCollision_beacon c f b x l s hr hc hf hp hk, collideBeacon_eq, owedBackoff_eq]
    refine ⟨fun hbelow hslot => ?_, fun newer hbelow hslot => ?_, fun hlimit => ?_⟩
    · rw [if_pos hbelow]
      simp [afterCollision, State.withLif, hslot]
    · rw [if_pos hbelow]
      simp [afterCollision, State.withLif, hslot]
    · rw [if_neg (Nat.not_lt.2 hlimit)]
      rfl

end Sys2Proof.Machine

/-! ## Frames on the line (O30) -/

namespace Sys2Proof.Machine

/-! ### The checks, bit by bit (R187) -/

theorem bytesToBits_cons (x : Byte) (bs : List Byte) :
    bytesToBits (x :: bs) =
      [x.getLsbD 7, x.getLsbD 6, x.getLsbD 5, x.getLsbD 4, x.getLsbD 3, x.getLsbD 2, x.getLsbD 1, x.getLsbD 0] ++
        bytesToBits bs := rfl

/-- A bit that agrees with the highest bit of the check shifts it; any other adds the polynomial as well. -/
theorem crcStep_eq {w : Nat} (poly : BitVec w) :
    crcStep poly = fun (c : BitVec w) b => if c.msb = b then c <<< 1 else (c <<< 1) ^^^ poly := by
  funext c b
  by_cases h : c.msb = b <;> simp [crcStep, h]

theorem crc32_eq (bs : List Byte) :
    crc32 bs = (bytesToBits bs).foldl
      (fun (c : BitVec 32) b => if c.msb = b then c <<< 1 else (c <<< 1) ^^^ 0x04C11DB7#32) 0xFFFFFFFF#32 := by
  rw [crc32, crcStep_eq]

theorem crc16_eq (bs : List Byte) :
    crc16 bs = (bytesToBits bs).foldl
      (fun (c : BitVec 16) b => if c.msb = b then c <<< 1 else (c <<< 1) ^^^ 0x1021#16) 0xFFFF#16 := by
  rw [crc16, crcStep_eq]

/-! ### The bodies as they are built (R186) -/

theorem checked_eq (bs : List Byte) : checked bs = bs ++ fourBytes (crc32 bs) := by
  rw [checked, beBytes_four]

/-- A body with its own check behind it passes the check. -/
theorem checkAgrees_checked (bs : List Byte) : checkAgrees (checked bs) = true := by
  have hlength : (checked bs).length - 4 = bs.length := by simp [checked_eq, fourBytes]
  rw [checkAgrees_iff, hlength, checked_eq, List.drop_left, List.take_left]

theorem Reported.code_eq (r : Reported) : r.code = reportedCode r := by cases r <;> rfl

theorem beaconBody_eq (b : Beacon) : beaconBody b = checked (beaconLayout b) := by
  simp only [beaconBody, beaconLayout, beBytes_two, beBytes_four, beBytes_eight, Reported.code_eq]
  rfl

theorem triggerBody_eq (t : Trigger) (n : Nat) : triggerBody t n = checked (triggerLayout t n) := by
  simp only [triggerBody, triggerLayout, beBytes_two, beBytes_eight, Nat.mul_comm n, Nat.mul_comm t.depth.val]
  rfl

/-! ### Numbers read from a body (R186) -/

/-- The bytes of a number spell it. -/
theorem beNat_twoBytes (x : BitVec 16) : beNat (twoBytes x) = x.toNat := by
  simp only [beNat, twoBytes, List.foldl_cons, List.foldl_nil, BitVec.extractLsb'_toNat, Nat.shiftRight_eq_div_pow]
  omega

theorem beNat_fourBytes (x : BitVec 32) : beNat (fourBytes x) = x.toNat := by
  simp only [beNat, fourBytes, List.foldl_cons, List.foldl_nil, BitVec.extractLsb'_toNat, Nat.shiftRight_eq_div_pow]
  omega

theorem beNat_eightBytes (x : BitVec 64) : beNat (eightBytes x) = x.toNat := by
  simp only [beNat, eightBytes, List.foldl_cons, List.foldl_nil, BitVec.extractLsb'_toNat, Nat.shiftRight_eq_div_pow]
  omega

/-- A number that stands in a body is the one that is read there. -/
theorem ofNat_field_two {bs : List Byte} {i : Nat} {x : BitVec 16} (h : twoBytes x = (bs.drop i).take 2) :
    BitVec.ofNat 16 (field bs i 2) = x := by
  rw [field, ← h, beNat_twoBytes, BitVec.ofNat_toNat, BitVec.setWidth_eq]

theorem ofNat_field_four {bs : List Byte} {i : Nat} {x : BitVec 32} (h : fourBytes x = (bs.drop i).take 4) :
    BitVec.ofNat 32 (field bs i 4) = x := by
  rw [field, ← h, beNat_fourBytes, BitVec.ofNat_toNat, BitVec.setWidth_eq]

theorem ofNat_field_eight {bs : List Byte} {i : Nat} {x : BitVec 64} (h : eightBytes x = (bs.drop i).take 8) :
    BitVec.ofNat 64 (field bs i 8) = x := by
  rw [field, ← h, beNat_eightBytes, BitVec.ofNat_toNat, BitVec.setWidth_eq]

theorem station?_eq_some (n : Nat) (x : Station) : station? n = some x ↔ x.val = n := by
  unfold station?
  split
  · rw [Option.some.injEq, Fin.ext_iff, eq_comm]
  · have := x.isLt
    simp only [reduceCtorEq, false_iff]
    omega

theorem class?_eq_some (n : Nat) (x : TrigClass) : class? n = some x ↔ x.val = n := by
  unfold class?
  split
  · rw [Option.some.injEq, Fin.ext_iff, eq_comm]
  · have := x.isLt
    simp only [reduceCtorEq, false_iff]
    omega

/-! ### What a good body is read as (R75, R186) -/

/-- A body of kind BEACON is judged good as `f` where it has its length and its check and `f` is the beacon that stands
in it. -/
theorem judgeBeacon_eq_some (bs : List Byte) (f : RxFrame) (hk : byteAt bs 0 = 1) :
    judgeBeacon bs = some f ↔
      bs.length = 31 ∧ checkAgrees bs = true ∧ ∃ b, f = .beacon b ∧ ReadsBeacon bs b := by
  unfold judgeBeacon
  simp only [field_one]
  constructor
  · intro h
    split at h
    · rename_i hg
      simp only [Bool.and_eq_true, beq_iff_eq] at hg
      obtain ⟨hl, hc⟩ := hg
      split at h
      · rename_i station reported hstation hreported
        cases h
        exact ⟨hl, hc, _, rfl, hk, (station?_eq_some _ _).1 hstation, decide_eq_true_iff,
          (Reported.ofCode_some _ _).1 hreported, eightBytes_field bs 3 (by omega), eightBytes_field bs 11 (by omega),
          fourBytes_field bs 19 (by omega), twoBytes_field bs 23 (by omega), twoBytes_field bs 25 (by omega)⟩
      · cases h
    · cases h
  · rintro ⟨hl, hc, b, rfl, -, hstation, hdeparting, hreported, huid, hstamp, hvector, hnext, hsignature⟩
    have hdeparting : decide (128 ≤ byteAt bs 2) = b.departing := by
      rw [Bool.eq_iff_iff, decide_eq_true_iff, hdeparting]
    simp only [hl, hc, (station?_eq_some _ _).2 hstation, (Reported.ofCode_some _ _).2 hreported, hdeparting,
      ofNat_field_eight huid, ofNat_field_eight hstamp, ofNat_field_four hvector, ofNat_field_two hnext,
      ofNat_field_two hsignature]
    rfl

/-- The root reference that a TRIGGER body holds: none without the root-present bit, else the one that stands there. -/
theorem judgeRoot_eq_some (bs : List Byte) (root : Option Root) (hl : byteAt bs 2 % 2 = 1 → 17 ≤ bs.length) :
    judgeRoot bs (byteAt bs 2 % 2 == 1) = some root ↔
      (byteAt bs 2 % 2 = 0 → root = none) ∧
        (byteAt bs 2 % 2 = 1 →
          ∃ r, root = some r ∧ r.origin.val = byteAt bs 14 ∧ twoBytes r.sequence = (bs.drop 15).take 2) := by
  rcases Nat.mod_two_eq_zero_or_one (byteAt bs 2) with h | h
  · simp [judgeRoot, h, eq_comm]
  · simp only [judgeRoot, h, beq_self_eq_true, if_true, field_one, Option.map_eq_some_iff, station?_eq_some,
      one_ne_zero, false_implies, true_and, forall_const]
    constructor
    · rintro ⟨o, ho, rfl⟩
      exact ⟨_, rfl, ho, twoBytes_field bs 15 (hl h)⟩
    · rintro ⟨r, rfl, ho, hs⟩
      exact ⟨r.origin, ho, by rw [ofNat_field_two hs]⟩

/-- A body of kind TRIGGER is judged good as `f` where it has its length and its check, a copy number, a root-present bit
that agrees with the depth, and `f` is the copy that stands in it. -/
theorem judgeTrigger_eq_some (bs : List Byte) (f : RxFrame) (hk : byteAt bs 0 = 2) :
    judgeTrigger bs = some f ↔
      bs.length = (if byteAt bs 2 % 2 = 1 then 21 else 18) ∧ checkAgrees bs = true ∧ byteAt bs 2 / 64 ≠ 0 ∧
        (byteAt bs 2 % 2 = 1 ↔ 0 < byteAt bs 2 / 16 % 4) ∧ ∃ t n, f = .trigger t n ∧ ReadsTrigger bs t n := by
  have hlength : (if byteAt bs 2 % 2 = 1 then 21 else 18) = if byteAt bs 2 % 2 == 1 then 21 else 18 := by simp
  have h18 : 18 ≤ if byteAt bs 2 % 2 == 1 then 21 else 18 := by split <;> omega
  rw [hlength]
  unfold judgeTrigger
  simp only [field_one]
  generalize (if byteAt bs 2 % 2 == 1 then 21 else 18) = length at h18 ⊢
  constructor
  · intro h
    split at h
    · rename_i hg
      simp only [Bool.and_eq_true, beq_iff_eq, bne_iff_ne, rootAgrees_iff] at hg
      obtain ⟨⟨⟨hl, hc⟩, hcopy⟩, hr⟩ := hg
      split at h
      · rename_i origin cls root horigin hcls hroot
        cases h
        obtain ⟨habsent, hpresent⟩ := (judgeRoot_eq_some bs root fun _ => by omega).1 hroot
        exact ⟨hl, hc, hcopy, hr, _, _, rfl, hk, (station?_eq_some _ _).1 horigin, rfl, rfl,
          (class?_eq_some _ _).1 hcls, twoBytes_field bs 4 (by omega), eightBytes_field bs 6 (by omega), habsent,
          hpresent⟩
      · cases h
    · cases h
  · rintro ⟨hl, hc, hcopy, hr, t, n, rfl, -, horigin, rfl, hdepth, hcls, hsequence, hstamp, habsent, hpresent⟩
    have hdepth : (⟨byteAt bs 2 / 16 % 4, Nat.mod_lt _ (by decide)⟩ : Fin 4) = t.depth := Fin.ext hdepth.symm
    rw [if_pos]
    · simp only [(station?_eq_some _ _).2 horigin, (class?_eq_some _ _).2 hcls,
        (judgeRoot_eq_some bs t.root fun _ => by omega).2 ⟨habsent, hpresent⟩, ofNat_field_two hsequence,
        ofNat_field_eight hstamp, hdepth]
    · simp only [Bool.and_eq_true, beq_iff_eq, bne_iff_ne, rootAgrees_iff]
      exact ⟨⟨⟨hl, hc⟩, hcopy⟩, hr⟩

/-- A good frame is the beacon, or the trigger copy, that stands in its body. -/
theorem judgeFrame_reads (bs : List Byte) (f : RxFrame) (h : judgeFrame (bytesToBits bs) = some f) :
    (∃ b, f = .beacon b ∧ ReadsBeacon bs b) ∨ ∃ t n, f = .trigger t n ∧ ReadsTrigger bs t n := by
  rw [judgeFrame_bytes] at h
  split at h
  · rename_i hk
    obtain ⟨-, -, hbeacon⟩ := (judgeBeacon_eq_some bs f hk).1 h
    exact .inl hbeacon
  · split at h
    · rename_i hk
      obtain ⟨-, -, -, -, htrigger⟩ := (judgeTrigger_eq_some bs f hk).1 h
      exact .inr htrigger
    · cases h

theorem judgeFrame_readsBeacon (bs : List Byte) (b : Beacon) (h : judgeFrame (bytesToBits bs) = some (.beacon b)) :
    ReadsBeacon bs b := by
  rcases judgeFrame_reads bs _ h with ⟨b', hb, hreads⟩ | ⟨t, n, hb, -⟩ <;> cases hb
  exact hreads

theorem judgeFrame_readsTrigger (bs : List Byte) (t : Trigger) (n : Nat)
    (h : judgeFrame (bytesToBits bs) = some (.trigger t n)) : ReadsTrigger bs t n := by
  rcases judgeFrame_reads bs _ h with ⟨b, ht, -⟩ | ⟨t', n', ht, hreads⟩ <;> cases ht
  exact hreads

/-! ### A body built is judged as what it was built for (R75, R186) -/

theorem beaconBody_length (b : Beacon) : (beaconBody b).length = 31 := by
  rw [beaconBody_eq, checked_eq]
  rfl

/-- A number below 256 is the value of its byte. -/
theorem toNat_ofNat_byte (n : Nat) (h : n < 256) : (BitVec.ofNat 8 n).toNat = n := by
  rw [BitVec.toNat_ofNat]
  exact Nat.mod_eq_of_lt h

theorem beaconBody_reads (b : Beacon) : ReadsBeacon (beaconBody b) b := by
  have hcode : 1 ≤ reportedCode b.reported ∧ reportedCode b.reported ≤ 5 := by
    cases b.reported <;> decide
  have hflags : byteAt (beaconBody b) 2 = (if b.departing then 128 else 0) + reportedCode b.reported := by
    rw [beaconBody_eq, checked_eq]
    exact toNat_ofNat_byte _ (by split <;> omega)
  constructor
  case station =>
    rw [beaconBody_eq, checked_eq]
    exact (toNat_ofNat_byte _ (by omega)).symm
  case departing =>
    rw [hflags]
    split
    · exact iff_of_true ‹_› (by omega)
    · exact iff_of_false ‹_› (by omega)
  case reported => rw [hflags]; split <;> omega
  all_goals
    rw [beaconBody_eq, checked_eq]
    rfl

theorem judgeFrame_beaconBody (b : Beacon) : judgeFrame (bytesToBits (beaconBody b)) = some (.beacon b) := by
  have hreads := beaconBody_reads b
  have hcheck : checkAgrees (beaconBody b) = true := by rw [beaconBody_eq]; exact checkAgrees_checked _
  rw [judgeFrame_bytes, if_pos hreads.kind]
  exact (judgeBeacon_eq_some _ _ hreads.kind).2 ⟨beaconBody_length b, hcheck, b, rfl, hreads⟩

theorem triggerBody_length (t : Trigger) (n : Nat) :
    (triggerBody t n).length = if t.root.isSome then 21 else 18 := by
  rw [triggerBody_eq, checked_eq, triggerLayout]
  cases t.root <;> rfl

/-- The flag byte of a TRIGGER body: copy number, depth and root-present bit. -/
theorem triggerBody_flags (t : Trigger) (n : Nat) (hn : n ≤ 3) :
    byteAt (triggerBody t n) 2 = 64 * n + 16 * t.depth.val + if t.root.isSome then 1 else 0 := by
  rw [triggerBody_eq, checked_eq]
  exact toNat_ofNat_byte _ (by split <;> omega)

theorem triggerBody_reads (t : Trigger) (n : Nat) (hn : n ≤ 3) : ReadsTrigger (triggerBody t n) t n := by
  have hflags := triggerBody_flags t n hn
  constructor
  case origin =>
    rw [triggerBody_eq, checked_eq]
    exact (toNat_ofNat_byte _ (by omega)).symm
  case cls =>
    rw [triggerBody_eq, checked_eq]
    exact (toNat_ofNat_byte _ (by omega)).symm
  case copy => rw [hflags]; split <;> omega
  case depth => rw [hflags]; split <;> omega
  case absent =>
    intro h
    rw [hflags] at h
    cases hr : t.root with
    | none => rfl
    | some r =>
      rw [hr, Option.isSome_some, if_pos rfl] at h
      omega
  case present =>
    intro h
    rw [hflags] at h
    cases hr : t.root with
    | none =>
      rw [hr, if_neg (by simp)] at h
      omega
    | some r =>
      refine ⟨r, rfl, ?_, ?_⟩ <;> rw [triggerBody_eq, checked_eq, triggerLayout, hr]
      · exact (toNat_ofNat_byte _ (by omega)).symm
      · rfl
  all_goals
    rw [triggerBody_eq, checked_eq]
    rfl

theorem judgeFrame_triggerBody (t : Trigger) (n : Nat) (h1 : 1 ≤ n) (h3 : n ≤ 3)
    (hroot : t.root.isSome = true ↔ t.depth ≠ 0) :
    judgeFrame (bytesToBits (triggerBody t n)) = some (.trigger t n) := by
  have hreads := triggerBody_reads t n h3
  have hcheck : checkAgrees (triggerBody t n) = true := by rw [triggerBody_eq]; exact checkAgrees_checked _
  have hbit : byteAt (triggerBody t n) 2 % 2 = 1 ↔ t.root.isSome = true := by
    rw [triggerBody_flags t n h3]
    split
    · exact iff_of_true (by omega) ‹_›
    · exact iff_of_false (by omega) ‹_›
  have hkind : byteAt (triggerBody t n) 0 = 2 := hreads.kind
  rw [judgeFrame_bytes, if_neg (by omega), if_pos hkind]
  refine (judgeTrigger_eq_some _ _ hkind).2 ⟨?_, hcheck, ?_, ?_, t, n, rfl, hreads⟩
  · simp only [triggerBody_length, hbit]
  · rw [← hreads.copy]
    omega
  · rw [hbit, ← hreads.depth, hroot, Nat.pos_iff_ne_zero, ne_eq, Fin.ext_iff]
    rfl

/-! ### Symbols (R62, R69, R70, R74) -/

theorem symbolOf_eq : symbolOf = fun b => if b then Symbol.recessive else Symbol.dominant := rfl

theorem Symbol.bit_symbolOf (b : Bool) : (symbolOf b).bit = b := by cases b <;> rfl

theorem Symbol.symbolOf_bit (x : Symbol) : symbolOf x.bit = x := by cases x <;> rfl

theorem Symbol.bit_eq : Symbol.bit = fun x => x == Symbol.recessive := by
  funext x
  cases x <;> rfl

/-- Symbols stand for bits where they are the symbols of those bits. -/
theorem map_bit_eq_iff (xs : List Symbol) (bits : List Bool) : xs.map Symbol.bit = bits ↔ xs = bits.map symbolOf := by
  constructor
  · rintro rfl
    simp [Function.comp_def, Symbol.symbolOf_bit]
  · rintro rfl
    simp [Function.comp_def, Symbol.bit_symbolOf]

theorem startSymbols_length : startSymbols.length = 16 := rfl

/-- A frame whose body is fixed goes out as the start mark and that body. -/
theorem symbols_of_body (f : LineFrame) (body : List Byte) (h : f.body = some body) :
    f.symbols = startSymbols ++ (bytesToBits body).map symbolOf := by
  rw [LineFrame.symbols, h, Option.getD_some]

/-- It opens as a start mark, and ends with the bits of its body (R74, R75). -/
theorem openingCommand_symbols (f : LineFrame) : openingCommand f.symbols = .startMarkReceived := by
  rw [openingCommand, LineFrame.symbols, List.take_left' startSymbols_length, if_pos rfl]

theorem closingCommand_symbols (f : LineFrame) (body : List Byte) (h : f.body = some body) :
    closingCommand (f.symbols.drop 16) = .frameEnd (bytesToBits body) := by
  rw [symbols_of_body f body h, List.drop_left' startSymbols_length, closingCommand, (map_bit_eq_iff _ _).2 rfl]

theorem openingCommand_iff (carried : List Symbol) :
    openingCommand carried = .startMarkReceived ↔
      (carried.take 16).map (fun x => x == Symbol.recessive) = startMark := by
  rw [← Symbol.bit_eq, map_bit_eq_iff, openingCommand]
  split <;> simpa [startSymbols]

theorem lineSymbol_dominant (sent : List Symbol) (h : Symbol.dominant ∈ sent) : lineSymbol sent = some .dominant := by
  simp [lineSymbol, h]

theorem lineSymbol_recessive (sent : List Symbol) (hne : sent ≠ []) (h : Symbol.dominant ∉ sent) :
    lineSymbol sent = some .recessive := by
  cases sent with
  | nil => exact absurd rfl hne
  | cons x xs =>
    cases x with
    | dominant => simp at h
    | recessive => simpa [lineSymbol] using h

/-- Settles O30: the checks, the bodies built and judged, and the symbols. -/
theorem framesSurviveTheLine : Obligations.FramesSurviveTheLine := by
  unfold Obligations.FramesSurviveTheLine
  refine ⟨⟨by decide +kernel, by decide +kernel, rfl, bytesToBits_cons, fun bs => ⟨crc32_eq bs, crc16_eq bs⟩⟩,
    fun b => ?_, fun t n _ _ => ?_, judgeFrame_readsBeacon, judgeFrame_readsTrigger,
    fun b => ⟨judgeFrame_beaconBody b, beaconBody_length b⟩, fun t n h1 h3 hroot => ⟨?_, ?_⟩, fun f body h => ?_,
    fun carried _ => ⟨?_, openingCommand_iff carried⟩, fun sent => ⟨?_, ?_, ?_⟩, fun x y => ⟨?_, ?_⟩⟩
  · rw [beaconBody_eq, checked_eq]
  · rw [triggerBody_eq, checked_eq]
  · exact judgeFrame_triggerBody t n h1 h3 hroot
  · rw [triggerBody_length]
    simp [hroot]
  · have hbody : f.body = some body := by
      rcases h with ⟨t, n, rfl, rfl⟩ | ⟨e, b, l, rfl, rfl⟩ <;> rfl
    refine ⟨?_, openingCommand_symbols f, closingCommand_symbols f body hbody⟩
    rw [symbols_of_body f body hbody, startSymbols, ← List.map_append, symbolOf_eq]
    rfl
  · rw [openingCommand]
    exact (ite_eq_or_eq _ _ _)
  · exact lineSymbol_dominant sent
  · exact lineSymbol_recessive sent
  · rintro rfl
    rfl
  · exact fun h => if_pos h
  · exact fun h => if_neg h

end Sys2Proof.Machine

/-! ## Triggers accepted, derived and raised (O35, O36, O38, O39, O40, O43) -/

namespace Sys2Proof.Machine

/-! ### The sequence window (R32, R100) -/

/-- A count to which nothing is added stands. -/
theorem sat16_zero (x : BitVec 16) : sat16 x 0 = x :=
  BitVec.eq_of_toNat_eq (by rw [sat16_toNat]; have := x.isLt; omega)

theorem Peer.checkTrigger_absent (q : Sequence) (p : Peer) (ha : p.kind = .absent) : p.checkTrigger q = (p, true) :=
  if_pos ha

theorem Peer.checkTrigger_first (q : Sequence) (p : Peer) (ha : p.kind ≠ .absent) (he : p.expected = none) :
    p.checkTrigger q = ({ p with expected := some (q + 1) }, true) := by
  rw [checkTrigger, if_neg ha, he]

/-- A sequence at most 1,023 ahead of the expected one is new. -/
theorem Peer.checkTrigger_near (q e : Sequence) (p : Peer) (ha : p.kind ≠ .absent) (he : p.expected = some e)
    (hd : (q - e).toNat ≤ 1023) :
    p.checkTrigger q = ({ p with expected := some (q + 1), lost := sat16 p.lost (q - e).toNat }, true) := by
  rw [checkTrigger, if_neg ha, he]
  exact if_pos hd

/-- One further ahead is old. -/
theorem Peer.checkTrigger_far (q e : Sequence) (p : Peer) (ha : p.kind ≠ .absent) (he : p.expected = some e)
    (hd : 1024 ≤ (q - e).toNat) : p.checkTrigger q = (p, false) := by
  rw [checkTrigger, if_neg ha, he]
  exact if_neg (by omega)

/-- Settles O35, by the expected sequence and the distance from it. -/
theorem sequenceWindowJudges : Obligations.SequenceWindowJudges := by
  unfold Obligations.SequenceWindowJudges
  refine fun q p => ⟨p.checkTrigger_absent q, p.checkTrigger_first q, fun e ha he => ⟨?_, fun _ hd => ?_, fun hd => ?_⟩⟩
  · rintro rfl
    rw [p.checkTrigger_near q q ha he (by simp)]
    simp [sat16_zero]
  · rw [p.checkTrigger_near q e ha he hd]
    exact ⟨rfl, rfl⟩
  · exact p.checkTrigger_far q e ha he hd

/-! ### The insertions that processing begins with (R95, R107) -/

/-- The state after the insertions of a trigger, with the free firings behind each. -/
def inserted (t : Trigger) (s : State) : State :=
  (matching s.amp t).foldl (fun s im => fireSome none (insertAction t s im)) s

@[simp] theorem inserted_lif (t : Trigger) (s : State) : (inserted t s).lif = s.lif := foldl_insertAction_lif t _ s

@[simp] theorem inserted_tge (t : Trigger) (s : State) : (inserted t s).tge = s.tge := foldl_insertAction_tge t _ s

@[simp] theorem inserted_src (t : Trigger) (s : State) : (inserted t s).src = s.src := foldl_insertAction_src t _ s

@[simp] theorem inserted_syc (t : Trigger) (s : State) : (inserted t s).syc = s.syc := foldl_insertAction_syc t _ s

/-- Insertions do not decide whether a raise is refused (R86). -/
@[simp] theorem raiseRefusal_inserted (b : Bool) (t : Trigger) (s : State) :
    raiseRefusal b (inserted t s) = raiseRefusal b s := by
  simp [raiseRefusal, State.leaving]

/-- Nor what a derived trigger is (R89, R112). -/
@[simp] theorem derivedTrigger_inserted (c : Cfg) (t : Trigger) (k : TrigClass) (o : Nat) (d : Fin 4) (s : State) :
    derivedTrigger c t k o d (inserted t s) = derivedTrigger c t k o d s := by
  simp [derivedTrigger]

theorem fireCommand_chainLimit (a : Action) (s : State) (l : LineNo) :
    (fireCommand a s l).rdp.flags.chainLimit = s.rdp.flags.chainLimit := by
  unfold fireCommand
  split
  · split <;> rfl
  · rfl
  · rfl

theorem fireEntry_chainLimit (b : Option Time) (e : SchedEntry) (rest : List SchedEntry) (s : State) :
    (fireEntry b e rest s).rdp.flags.chainLimit = s.rdp.flags.chainLimit := by
  have hlines := foldl_keeps (fun x => x.rdp.flags.chainLimit = s.rdp.flags.chainLimit) (fireCommand e.action)
    (fun x l hx => (fireCommand_chainLimit e.action x l).trans hx) (lineList e.lines)
    (s.withScu { s.scu with entries := rest, space := freePlace e.part s.scu.space }) rfl
  unfold fireEntry
  dsimp only
  split
  · rw [handRecord_flags_but]
    exact hlines
  · exact hlines

theorem spaceCheck_chainLimit (e : SchedEntry) (s : State) :
    (spaceCheck e s).rdp.flags.chainLimit = s.rdp.flags.chainLimit := by
  unfold spaceCheck
  split <;> rfl

theorem insertAction_chainLimit (t : Trigger) (s : State) (im : MapIndex × MapEntry) :
    (insertAction t s im).rdp.flags.chainLimit = s.rdp.flags.chainLimit := by
  unfold insertAction
  dsimp only
  split
  · split
    · rfl
    · exact spaceCheck_chainLimit _ _
  · exact spaceCheck_chainLimit _ _

/-- Insertions raise no CHAIN_LIMIT, nor do the firings behind them. -/
@[simp] theorem inserted_chainLimit (t : Trigger) (s : State) :
    (inserted t s).rdp.flags.chainLimit = s.rdp.flags.chainLimit :=
  foldl_keeps (fun x => x.rdp.flags.chainLimit = s.rdp.flags.chainLimit) _
    (fun x im hx => fireSome_keeps _ none (fun e r y hy _ _ => (fireEntry_chainLimit none e r y).trans hy)
      (fun _ _ hy => hy) _ ((insertAction_chainLimit t x im).trans hx)) _ s rfl

/-! ### Processing, by what it derives (R95, R111, R113) -/

theorem process_plain (c : Cfg) (n : Nat) (t : Trigger) (s : State) (h : NoneDerives s t) :
    process c (n + 1) t s = inserted t s := process_noneDerives c n t s h

theorem noneDerives_of_matching_nil {s : State} {t : Trigger} (h : matching s.amp t = []) : NoneDerives s t := by
  intro i m hi ha
  have hm := (mem_matching s.amp t i m).2 ⟨hi, ha⟩
  rw [h] at hm
  cases hm

/-- A trigger that no map entry answers is processed by nothing. -/
theorem process_unanswered (c : Cfg) (n : Nat) (t : Trigger) (s : State) (h : matching s.amp t = []) :
    process c (n + 1) t s = s := by
  rw [process_plain c n t s (noneDerives_of_matching_nil h), inserted, h]
  rfl

theorem nextDepth_eq_some {d d' : Fin 4} (h : d'.val = d.val + 1) : nextDepth d = some d' := by
  rw [nextDepth, dif_pos (by have := d'.isLt; omega)]
  exact congrArg some (Fin.ext h.symm)

section
variable (c : Cfg) (n : Nat) {t : Trigger} {s : State} {k : TrigClass} {o : Nat}

theorem process_stopped (h : LowestDerives s t k o) (hd : t.depth = 3) :
    process c (n + 1) t s = stopChain t (inserted t s) := by
  have hn : nextDepth t.depth = none := by rw [hd]; rfl
  simp only [process, deriving_lowest s t k o h, hn]
  rfl

theorem process_refused (h : LowestDerives s t k o) {d : Fin 4} (hd : d.val = t.depth.val + 1) {x : RaiseOutcome}
    (hr : raiseRefusal true s = some x) : process c (n + 1) t s = countRefused (inserted t s) := by
  simp only [process, deriving_lowest s t k o h, nextDepth_eq_some hd]
  rw [← inserted, raiseRefusal_inserted, hr]

theorem process_raised (h : LowestDerives s t k o) {d : Fin 4} (hd : d.val = t.depth.val + 1)
    (hr : raiseRefusal true s = none) :
    process c (n + 1) t s =
      process c n (derivedTrigger c t k o d s) (enqueue c (derivedTrigger c t k o d s) (inserted t s)) := by
  simp only [process, deriving_lowest s t k o h, nextDepth_eq_some hd]
  rw [← inserted, raiseRefusal_inserted, hr]
  simp only [derivedTrigger_inserted]

end

/-- Processing takes no entry from the transmit queue and places new ones at its back (R65, R113). -/
theorem process_queue (c : Cfg) (n : Nat) (t : Trigger) (s : State) :
    ∃ rest, (process c n t s).lif.queue = s.lif.queue ++ rest := by
  refine process_keeps (fun x => ∃ rest, x.lif.queue = s.lif.queue ++ rest) c (fun _ _ _ h => by simpa using h)
    (fun _ _ h => h) (fun _ h => h) ?_ n t s ⟨[], (List.append_nil _).symm⟩
  rintro t x ⟨rest, h⟩ -
  exact ⟨_, (congrArg (· ++ _) h).trans (List.append_assoc _ _ _)⟩

/-- The child, field by field, where its stamp fits in 64 bits (R83, R94, R112). -/
theorem derivedTrigger_eq (c : Cfg) (t : Trigger) (k : TrigClass) (o : Nat) (d : Fin 4) (s : State)
    (h : t.stamp.toNat + o < 2 ^ 64) :
    derivedTrigger c t k o d s =
      { origin := c.station, sequence := s.tge.ownSequence, cls := k, stamp := t.stamp + BitVec.ofNat 64 o, depth := d,
        root := some (t.root.getD { origin := t.origin, sequence := t.sequence }) } := by
  rw [derivedTrigger, timeOnward_eq _ _ h, timePlus_eq_add _ _ h, derivedRoot]
  cases t.root <;> rfl

/-- A raise is refused in LEAVING, outside SYNC, STABLE and HOLDOVER or off the CLUSTER basis, and at a full queue
(R86). -/
theorem raiseRefusal_of_refused (b : Bool) (s : State)
    (h : s.src.leaveTimer.isSome = true ∨ s.syc.state.synced = false ∨ b = false ∨ 8 ≤ s.lif.queue.length) :
    ∃ x, raiseRefusal b s = some x := by
  rw [← Option.ne_none_iff_exists']
  intro hn
  obtain ⟨hl, hs, hb, hq⟩ := (raiseRefusal_none b s).1 hn
  rcases h with h | h | h | h
  · rw [State.leaving, h] at hl; cases hl
  · rw [hs] at h; cases h
  · rw [hb] at h; cases h
  · omega

theorem raiseRefusal_of_free (s : State) (hl : s.src.leaveTimer = none) (hs : s.syc.state.synced = true)
    (hq : s.lif.queue.length < 8) : raiseRefusal true s = none :=
  (raiseRefusal_none true s).2 ⟨by rw [State.leaving, hl]; rfl, hs, rfl, hq⟩

/-- Settles O38: the processing by its first derivation, and the whole of it by `process_processing`. -/
theorem derivationRaisesOrStops : Obligations.DerivationRaisesOrStops := by
  unfold Obligations.DerivationRaisesOrStops
  refine ⟨fun c fuel tr s h => ⟨process_processed c fuel tr s h, ?_⟩,
    fun c tr s => process_processing c 4 tr s (by omega), fun c fuel tr k o s h => ⟨fun hd => ?_, fun d hd => ⟨?_, ?_⟩⟩⟩
  · rw [process_plain c fuel tr s h]
    exact ⟨inserted_lif tr s, inserted_tge tr s, inserted_chainLimit tr s⟩
  · rw [process_stopped c fuel h hd]
    refine ⟨inserted_lif tr s, ?_, ?_⟩
    · rw [← inserted_tge tr s]; rfl
    · rw [← inserted_chainLimit tr s]; rfl
  · intro hr
    obtain ⟨x, hx⟩ := raiseRefusal_of_refused true s (by tauto)
    rw [process_refused c fuel h hd hx]
    exact ⟨inserted_lif tr s, by rw [← inserted_tge tr s]; rfl⟩
  · intro hl hs hq ho
    rw [process_raised c fuel h hd (raiseRefusal_of_free s hl hs hq), derivedTrigger_eq c tr k o d s ho]
    obtain ⟨rest, hrest⟩ := process_queue c fuel _ (enqueue c _ (inserted tr s))
    refine ⟨rest, hrest.trans ?_⟩
    rw [enqueue, State.withLif, inserted_lif]
    simp

/-! ### FRAME_END with a trigger that is accepted (R95, R96, R101) -/

/-- The record of the origin, and the accepted count, as an acceptance leaves them (R100, R101). -/
def accept (t : Trigger) (s : State) : State :=
  { s with
    mbu := { s.mbu with
      peers := s.mbu.peers.set t.origin ((s.mbu.peers.get t.origin).checkTrigger t.sequence).1 },
    tge := { s.tge with accepted := s.tge.accepted + 1 } }

theorem judgeTriggerFrame_accepted (c : Cfg) (t : Trigger) (s : State) (hn : t.origin ≠ c.station)
    (hs : s.syc.state.synced = true) (hm : (s.mbu.peers.get t.origin).kind = .member)
    (hq : ((s.mbu.peers.get t.origin).checkTrigger t.sequence).2 = true) :
    judgeTriggerFrame c t s = process c 4 t (accept t s) := by
  rw [judgeTriggerFrame, if_neg (SyncState.ne_off_of_synced hs), if_neg hn]
  simp only [hs, hm, hq]
  rfl

/-- Settles O36: the state of the acceptance, processed. -/
theorem triggerFrameIsAccepted : Obligations.TriggerFrameIsAccepted := by
  unfold Obligations.TriggerFrameIsAccepted
  refine ⟨fun amp tr => ⟨fun i m => mem_matching amp tr i m, matching_ascending amp tr⟩, ?_⟩
  intro c tr n body l k s hr hc hv hi hj hs hn hm hq
  have hexec : exec (.frameEnd body) s = .next (process c 4 tr (accept tr (received s))) := by
    rw [execFrameEnd_trigger c tr n body l k s hr hc hv hi hj]
    exact congrArg Host.Outcome.next (judgeTriggerFrame_accepted c tr (received s) hn hs hm hq)
  refine ⟨_, hexec, process_tge_accepted .., process_tge_duplicate .., process_tge_notReady ..,
    process_tge_notMember .., process_tge_selfNumbered .., process_lif_framesReceived .., process_mbu ..,
    process_tbu .., process_syc .., process_amp .., process_src .., process_cfg .., ?_⟩
  rw [process_mbu]
  exact ⟨process_processing c 4 tr _ (by omega), process_processed c 3 tr (accept tr (received s)),
    process_unanswered c 3 tr (accept tr (received s))⟩

/-! ### A raise behind the hold-off (R85 to R89) -/

/-- A raise is refused by the first of R86's checks that holds. -/
theorem raiseRefusal_leaving (b : Bool) (s : State) (hl : s.src.leaveTimer.isSome = true) :
    raiseRefusal b s = some .leaving := if_pos hl

theorem raiseRefusal_state (b : Bool) (s : State) (hl : s.src.leaveTimer = none)
    (hs : s.syc.state.synced = false ∨ b = false) : raiseRefusal b s = some .refusedState := by
  rw [raiseRefusal, if_neg (by rw [State.leaving, hl]; simp), if_pos (by rcases hs with h | h <;> simp [h])]

theorem raiseRefusal_queue (s : State) (hl : s.src.leaveTimer = none) (hs : s.syc.state.synced = true)
    (hq : 8 ≤ s.lif.queue.length) : raiseRefusal true s = some .refusedQueue := by
  rw [raiseRefusal, if_neg (by rw [State.leaving, hl]; simp), if_neg (by simp [hs])]
  exact if_pos hq

/-- No refusal behind the hold-off carries a sequence (R157, R170). -/
theorem raiseRefusal_some {b : Bool} {s : State} {o : RaiseOutcome} (h : raiseRefusal b s = some o) :
    o = .leaving ∨ o = .refusedState ∨ o = .refusedQueue := by
  unfold raiseRefusal at h
  split_ifs at h <;> cases h <;> simp

theorem raiseTrigger_refused (c : Cfg) (k : TrigClass) (x : Time) (b : Bool) (s : State) (o : RaiseOutcome)
    (h : raiseRefusal b s = some o) : raiseTrigger c k x b s = (countRefused s, o) := by
  rw [raiseTrigger, h]

/-- An accepted raise at depth 0: sequence, counts and entry, and then the trigger's processing (R89). -/
theorem raiseTrigger_accepted (c : Cfg) (k : TrigClass) (x : Time) (b : Bool) (s : State) (tr : Trigger)
    (htr : tr = { origin := c.station, sequence := s.tge.ownSequence, cls := k, stamp := x, depth := 0, root := none })
    (h : raiseRefusal b s = none) :
    raiseTrigger c k x b s = (process c 4 tr (raisedWith c tr s), .raised s.tge.ownSequence) := by
  subst htr
  rw [raiseTrigger, h]
  rfl

/-- What an accepted raise leaves of the transmit queue: the trigger's entry behind what stood there, and then what is
derived, nothing where no answering entry derives (R65, R111, R113). -/
theorem process_raisedWith_queue (c : Cfg) (n : Nat) (tr : Trigger) (s : State) :
    ∃ rest, (process c (n + 1) tr (raisedWith c tr s)).lif.queue =
        s.lif.queue ++
          { trigger := tr, copies := c.cluster.trigRepeat, attempts := 0, backoff := 0, onLine := false } :: rest ∧
      (NoneDerives s tr → rest = [] ∧
        (process c (n + 1) tr (raisedWith c tr s)).lif.queue = (raisedWith c tr s).lif.queue) := by
  obtain ⟨rest, h⟩ := process_queue c (n + 1) tr (raisedWith c tr s)
  refine ⟨rest, h.trans (by simp [raisedWith]), fun hn => ?_⟩
  have hq : (process c (n + 1) tr (raisedWith c tr s)).lif.queue = (raisedWith c tr s).lif.queue := by
    rw [process_plain c n tr (raisedWith c tr s) hn, inserted_lif]
  exact ⟨by simpa [hq] using h, hq⟩

/-! ### RAISE (R93, R170) -/

theorem execRaise_ready (c : Cfg) (arg : Byte) (k : TrigClass) (s : State) (h : PortReady s) (hc : s.cfg = some c)
    (hk : arg.toNat = k.val) : exec (.raise arg) s = .next (raiseCommand c k s) := by
  obtain ⟨hr, hb, hl⟩ := h
  change execRaise arg s = _
  rw [execRaise, takeCommand_begun s _ hr hb, whenReady_ready s _ hl, (class?_eq_some arg.toNat k).2 hk.symm]
  exact congrArg Host.Outcome.next (withCfg_some s _ c hc)

/-- A refused RAISE is counted and answered with its outcome and no sequence. -/
theorem raiseCommand_refused (c : Cfg) (k : TrigClass) (s : State) (o : RaiseOutcome)
    (h : raiseRefusal true s = some o) :
    raiseCommand c k s = answered 0x00 [byte o.code, 0, 0] (countRefused s) := by
  have hfields : raiseFields o = [byte o.code, 0, 0] := by
    rcases raiseRefusal_some h with rfl | rfl | rfl <;> simp [raiseFields, RaiseOutcome.sequence?, optNat, beBytes]
  rw [raiseCommand, raiseTrigger_refused c k _ true s o h, answer_eq, hfields]
  rfl

/-- Settles O39, refusal by refusal. -/
theorem raiseIsRefused : Obligations.RaiseIsRefused := by
  unfold Obligations.RaiseIsRefused
  intro c arg s code hp hc harg h
  rw [execRaise_ready c arg ⟨arg.toNat, by omega⟩ s hp hc rfl]
  refine congrArg Host.Outcome.next ?_
  rcases h with ⟨hl, rfl⟩ | ⟨hl, hs, rfl⟩ | ⟨hl, hs, hq, rfl⟩
  · exact raiseCommand_refused c _ s _ (raiseRefusal_leaving true s hl)
  · exact raiseCommand_refused c _ s _ (raiseRefusal_state true s hl (.inl hs))
  · exact raiseCommand_refused c _ s _ (raiseRefusal_queue s hl hs hq)

/-- Settles O40: the accepted raise, processed, and its answer. -/
theorem raiseTakesASequence : Obligations.RaiseTakesASequence := by
  unfold Obligations.RaiseTakesASequence
  intro c k arg s tr hp hc harg hl hs hq htr
  have hexec : exec (.raise arg) s =
      .next (answered 0x00 ([0x01] ++ beBytes 2 s.tge.ownSequence.toNat) (process c 4 tr (raisedWith c tr s))) := by
    rw [execRaise_ready c arg k s hp hc harg, raiseCommand,
      raiseTrigger_accepted c k _ true s tr htr (raiseRefusal_of_free s hl hs hq)]
    rfl
  obtain ⟨rest, hqueue, hplain⟩ := process_raisedWith_queue c 3 tr s
  refine ⟨_, rest, hexec, hqueue, rfl, rfl, process_tge_holdOffEnd .., process_tge_accepted .., process_tbu ..,
    process_mbu .., process_syc .., process_amp .., process_src .., process_cfg ..,
    ⟨_, process_processing c 4 tr _ (by omega), rfl⟩, fun hn => ?_, fun hm => ?_⟩
  · obtain ⟨hrest, hstands⟩ := hplain hn
    refine ⟨hrest, _, ?_, rfl⟩
    dsimp only [answered]
    rw [hstands]
    exact process_processed c 3 tr (raisedWith c tr s) hn
  · refine ⟨(hplain (noneDerives_of_matching_nil hm)).1, ?_⟩
    rw [process_unanswered c 3 tr (raisedWith c tr s) hm]
    exact ⟨rfl, rfl, rfl, rfl, rfl⟩

/-! ### The raise of a qualified edge (R86, R91, R92) -/

theorem heldOff_iff (l : LineNo) (x : Candidate) (s : State) :
    heldOff l x s = true ↔ ∃ h, s.tge.holdOffEnd.get l = some h ∧ x.localClock.toNat < h.toNat := by
  simp [heldOff, Option.any_eq_true]

theorem heldOff_over (l : LineNo) (x : Candidate) (s : State)
    (h : ∀ e, s.tge.holdOffEnd.get l = some e → e.toNat ≤ x.localClock.toNat) : heldOff l x s = false := by
  rw [Bool.eq_false_iff]
  intro hh
  obtain ⟨e, he, hlt⟩ := (heldOff_iff l x s).1 hh
  exact absurd (h e he) (by omega)

section
variable (c : Cfg) (l : LineNo) (i : InputCfg) (k : TrigClass) (x : Candidate) (s : State)

theorem requestRaise_heldOff (h : heldOff l x s = true) : requestRaise c l i k x s = (s, .heldOff) := if_pos h

theorem requestRaise_refused (h : heldOff l x s = false) {o : RaiseOutcome}
    (hr : raiseRefusal (decide (x.basis = .cluster)) s = some o) :
    requestRaise c l i k x s = (countRefused s, o) := by
  rw [requestRaise, if_neg (by simp [h]), raiseTrigger_refused c k x.stamp _ s o hr]
  rcases raiseRefusal_some hr with rfl | rfl | rfl <;> rfl

/-- Behind the hold-off the first of LEAVING, REFUSED_STATE and REFUSED_QUEUE that holds is the outcome, and each is
counted. -/
theorem requestRaise_refusals (h : heldOff l x s = false) :
    (s.src.leaveTimer.isSome = true → (requestRaise c l i k x s).2 = .leaving) ∧
    (s.src.leaveTimer = none → (s.syc.state.synced = false ∨ x.basis ≠ .cluster) →
      (requestRaise c l i k x s).2 = .refusedState) ∧
    (s.src.leaveTimer = none → s.syc.state.synced = true → x.basis = .cluster → 8 ≤ s.lif.queue.length →
      (requestRaise c l i k x s).2 = .refusedQueue) ∧
    (s.src.leaveTimer.isSome = true ∨ s.syc.state.synced = false ∨ x.basis ≠ .cluster ∨ 8 ≤ s.lif.queue.length →
      (requestRaise c l i k x s).1 = countRefused s) := by
  refine ⟨fun hl => ?_, fun hl hs => ?_, fun hl hs hb hq => ?_, fun hany => ?_⟩
  · rw [requestRaise_refused c l i k x s h (raiseRefusal_leaving _ s hl)]
  · rw [requestRaise_refused c l i k x s h (raiseRefusal_state _ s hl (by simpa using hs))]
  · have hfull := raiseRefusal_queue s hl hs hq
    rw [← decide_eq_true hb] at hfull
    rw [requestRaise_refused c l i k x s h hfull]
  · obtain ⟨o, ho⟩ := raiseRefusal_of_refused (decide (x.basis = .cluster)) s (by simpa using hany)
    rw [requestRaise_refused c l i k x s h ho]

theorem requestRaise_raised (h : heldOff l x s = false) (hr : raiseRefusal (decide (x.basis = .cluster)) s = none)
    {tr : Trigger} (htr : tr =
      { origin := c.station, sequence := s.tge.ownSequence, cls := k, stamp := x.stamp, depth := 0, root := none }) :
    requestRaise c l i k x s =
      (startHoldOff l i x (process c 4 tr (raisedWith c tr s)), .raised s.tge.ownSequence) := by
  rw [requestRaise, if_neg (by simp [h]), raiseTrigger_accepted c k x.stamp _ s tr htr hr]

/-- The hold-off end that an accepted raise sets, where it fits in 64 bits (R92). -/
theorem startHoldOff_eq (h : x.localClock.toNat + i.holdOff < 2 ^ 64) :
    startHoldOff l i x s = { s with tge := { s.tge with
      holdOffEnd := s.tge.holdOffEnd.set l (some (x.localClock + BitVec.ofNat 64 i.holdOff)) } } := by
  rw [startHoldOff, timePlus_eq_add _ _ h]
  rfl

/-- Whatever the raise comes to, the input channels, time, membership, the sync state and the supply stand. -/
theorem requestRaise_stands :
    (requestRaise c l i k x s).1.tlu.inputs = s.tlu.inputs ∧ (requestRaise c l i k x s).1.tbu = s.tbu ∧
      (requestRaise c l i k x s).1.mbu = s.mbu ∧ (requestRaise c l i k x s).1.syc = s.syc ∧
      (requestRaise c l i k x s).1.src = s.src := by
  cases h : heldOff l x s with
  | true => rw [requestRaise_heldOff c l i k x s h]; exact ⟨rfl, rfl, rfl, rfl, rfl⟩
  | false =>
    cases hr : raiseRefusal (decide (x.basis = .cluster)) s with
    | some o => rw [requestRaise_refused c l i k x s h hr]; exact ⟨rfl, rfl, rfl, rfl, rfl⟩
    | none =>
      rw [requestRaise_raised c l i k x s h hr rfl]
      exact ⟨process_tlu_inputs .., process_tbu .., process_mbu .., process_syc .., process_src ..⟩

end

/-! ### EDGE_QUALIFIED of a selected edge (R153, R155, R156, R159) -/

theorem intervalOf_eq (x : Candidate) (last : Option LastEdge) :
    intervalOf x last = last.bind fun e =>
      if e.basis = x.basis then some (BitVec.ofNat 32 (min 4294967295 (x.localClock.toNat - e.localClock.toNat)))
      else none := by
  cases last <;> rfl

theorem EdgeSelect.names_iff (e : EdgeSelect) (rising : Bool) :
    e.names rising = true ↔ e = .both ∨ (e = .rising ∧ rising = true) ∨ (e = .falling ∧ rising = false) := by
  cases e <;> cases rising <;> simp [names]

/-- The input channel of a selected edge as the edge leaves it: settled, counted, the last edge (R153, R155, R156). -/
def edgeCounted (l : LineNo) (x : Candidate) (s : State) : State :=
  { s with tlu := { s.tlu with
    inputs := s.tlu.inputs.set l
      { settled := some (s.tlu.pins.getLsbD l), candidate := none,
        lastEdge := some { localClock := x.localClock, basis := x.basis },
        events := (s.tlu.inputs.get l).events + 1 } } }

@[simp] theorem setInput_get_self (l : LineNo) (ch : InputChan) (s : State) :
    (setInput l ch s).tlu.inputs.get l = ch := get_set_self _ _ _

/-- Of two values that a channel takes, the later stands. -/
@[simp] theorem setInput_setInput (l : LineNo) (ch ch' : InputChan) (s : State) :
    setInput l ch' (setInput l ch s) = setInput l ch' s := by
  simp [setInput, State.withTlu]

/-- A selected edge is counted, offered as a raise, and captured with what came of it. -/
theorem qualifyEdge_selected (c : Cfg) (l : LineNo) (i : InputCfg) (x : Candidate) (s : State)
    (h : i.select.names (s.tlu.pins.getLsbD l) = true) :
    qualifyEdge c l i x s =
      if i.capture then
        handRecord
          (captureRecord l (s.tlu.pins.getLsbD l) x (edgeRaise c l i x (edgeCounted l x s)).2
            (intervalOf x (s.tlu.inputs.get l).lastEdge) ((s.tlu.inputs.get l).events + 1))
          .capture (edgeRaise c l i x (edgeCounted l x s)).1
      else (edgeRaise c l i x (edgeCounted l x s)).1 := by
  rw [qualifyEdge, if_pos h, takeEdge]
  simp only [setInput_get_self, setInput_setInput]
  rfl

theorem execEdgeQualified_at (c : Cfg) (l : LineNo) (i : InputCfg) (x : Candidate) (s : State)
    (hr : s.src.inReset = false) (hc : s.cfg = some c) (hi : s.tlu.lines.get l = .input i)
    (hx : (s.tlu.inputs.get l).candidate = some x) (hd : (s.tlu.inputs.get l).settled = some (!s.tlu.pins.getLsbD l))
    (hq : i.qualification ≤ s.tbu.localClock.toNat - x.localClock.toNat) :
    exec (.edgeQualified l) s = .next (qualifyEdge c l i x s) := by
  have hdiff : differs l s = true := by simp [differs, hd]
  change execEdgeQualified l s = _
  rw [execEdgeQualified, live_running s _ hr, withCfg_some s _ c hc, withInput, hi]
  dsimp only
  rw [hx]
  exact congrArg Host.Outcome.next (if_pos ⟨hdiff, hq⟩)

/-- On a line with a class the edge's raise is requested. -/
theorem edgeRaise_some (c : Cfg) (l : LineNo) (i : InputCfg) (k : TrigClass) (x : Candidate) (s : State)
    (hk : i.cls = some k) : edgeRaise c l i x s = requestRaise c l i k x s := by
  rw [edgeRaise, hk]

/-- Settles O43: the edge counted, its raise by R86's checks in order, and the CAPTURE record of what came of it. -/
theorem edgeRaisesATrigger : Obligations.EdgeRaisesATrigger := by
  unfold Obligations.EdgeRaisesATrigger
  rintro c l i k x _ s _ tr hr hc hi hset hx rfl hq hsel hk rfl htr
  rw [execEdgeQualified_at c l i x s hr hc hi hx hset hq,
    qualifyEdge_selected c l i x s ((EdgeSelect.names_iff _ _).2 hsel), edgeRaise_some c l i k x _ hk, captureRecord,
    intervalOf_eq]
  obtain ⟨hinputs, htbu, hmbu, hsyc, hsrc⟩ := requestRaise_stands c l i k x (edgeCounted l x s)
  generalize hraise : requestRaise c l i k x (edgeCounted l x s) = r at hinputs htbu hmbu hsyc hsrc
  refine ⟨_, r.1, r.2, rfl, ?_⟩
  generalize ht : (if i.capture = true then _ else r.1) = t
  have hframe : t = { r.1 with jnl := t.jnl, rdp := { r.1.rdp with flags := t.rdp.flags } } := by
    rw [← ht]
    split
    · exact handRecord_eq _ _ _
    · rfl
  have hlif : t.lif = r.1.lif := by rw [hframe]
  have htge : t.tge = r.1.tge := by rw [hframe]
  refine ⟨hframe, fun hcap => ?_, fun hcap => ?_, by rw [hframe]; exact hinputs, by rw [hframe]; exact htbu,
    by rw [hframe]; exact hmbu, by rw [hframe]; exact hsyc, by rw [hframe]; exact hsrc, fun h hh hlt => ?_,
    fun hover => ?_⟩
  · rw [← ht, if_neg (by simp [hcap])]
  · rw [← ht, if_pos hcap]
    exact ⟨rfl, rfl⟩
  · rw [← hraise, requestRaise_heldOff c l i k x _ ((heldOff_iff l x (edgeCounted l x s)).2 ⟨h, hh, hlt⟩)]
    exact ⟨rfl, rfl⟩
  have hnot : heldOff l x (edgeCounted l x s) = false := heldOff_over l x _ hover
  obtain ⟨hleaving, hstate, hfull, hcounted⟩ := requestRaise_refusals c l i k x (edgeCounted l x s) hnot
  rw [hraise] at hleaving hstate hfull hcounted
  refine ⟨hleaving, hstate, hfull, hcounted, fun hl hs hb hfree hfit => ?_⟩
  have hnone : raiseRefusal (decide (x.basis = .cluster)) (edgeCounted l x s) = none := by
    rw [decide_eq_true hb]
    exact raiseRefusal_of_free (edgeCounted l x s) hl hs hfree
  rw [requestRaise_raised c l i k x _ hnot hnone htr, startHoldOff_eq l i x _ hfit, process_tge_holdOffEnd] at hraise
  obtain ⟨rest, hqueue, hplain⟩ := process_raisedWith_queue c 3 tr (edgeCounted l x s)
  rw [hlif, htge, ← hraise]
  refine ⟨rfl, ⟨rest, hqueue, fun hn => ?_⟩, ⟨_, process_processing c 4 tr _ (by omega), rfl⟩, rfl,
    process_tge_accepted ..⟩
  obtain ⟨hrest, hstands⟩ := hplain hn
  refine ⟨hrest, _, ?_, rfl⟩
  dsimp only
  rw [hstands]
  exact process_processed c 3 tr (raisedWith c tr (edgeCounted l x s)) hn

end Sys2Proof.Machine

/-! ## The values of an image (O12) -/

namespace Sys2Proof.Machine

/-! ### Checks in their order (R178, order 11) -/

theorem firstFails_cons (ok : Bool) (checks : List Bool) (k : Nat) :
    FirstFails (ok :: checks) k ↔
      (ok = false ∧ k = 0) ∨ (ok = true ∧ ∃ j, k = j + 1 ∧ FirstFails checks j) := by
  cases k with
  | zero => simp [FirstFails]
  | succ k =>
    have hshift : (∀ j, j < k + 1 → (ok :: checks)[j]? = some true) ↔
        ok = true ∧ ∀ j, j < k → checks[j]? = some true := by
      rw [Nat.forall_lt_succ_left]
      simp
    simp only [FirstFails, hshift, List.getElem?_cons_succ]
    simp [and_left_comm]

theorem allPass_cons (ok : Bool) (checks : List Bool) : AllPass (ok :: checks) ↔ ok = true ∧ AllPass checks :=
  List.forall_mem_cons

theorem allPass_or_firstFails (checks : List Bool) : AllPass checks ∨ ∃ k, FirstFails checks k := by
  induction checks with
  | nil => exact .inl nofun
  | cons ok checks ih =>
    cases ok with
    | false => exact .inr ⟨0, (firstFails_cons _ _ _).2 (.inl ⟨rfl, rfl⟩)⟩
    | true =>
      obtain hpass | ⟨k, hfail⟩ := ih
      · exact .inl ((allPass_cons _ _).2 ⟨rfl, hpass⟩)
      · exact .inr ⟨k + 1, (firstFails_cons _ _ _).2 (.inr ⟨rfl, k, rfl, hfail⟩)⟩

/-- What a block's reader does with the checks still to come, the next of number `item`: the first that fails
ends it with its number, and where all pass it gives contents of which `P` holds. -/
structure Judged {α : Type} (item : Nat) (checks : List Bool) (P : α → Prop) (r : Except Nat α) : Prop where
  fails : ∀ k, FirstFails checks k → r = .error (item + k)
  passes : AllPass checks → ∃ a, r = .ok a ∧ P a

section
variable {α : Type} {item : Nat} {ok : Bool} {checks : List Bool} {P : α → Prop} {r : Except Nat α}

theorem Judged.done {a : α} (h : P a) : Judged item [] P (.ok a) :=
  ⟨nofun, fun _ => ⟨a, rfl, h⟩⟩

/-- The next check, and what comes behind it. -/
theorem Judged.cons (hfail : ok = false → r = .error item) (hpass : ok = true → Judged (item + 1) checks P r) :
    Judged item (ok :: checks) P r where
  fails k hk := by
    obtain ⟨hok, rfl⟩ | ⟨hok, j, rfl, hj⟩ := (firstFails_cons _ _ _).1 hk
    · exact hfail hok
    · rw [(hpass hok).fails j hj, Nat.add_assoc, Nat.add_comm 1 j]
  passes h := by
    obtain ⟨hok, hrest⟩ := (allPass_cons _ _).1 h
    exact (hpass hok).passes hrest

theorem Judged.need {f : Unit → Except Nat α} (h : Judged (item + 1) checks P (f ())) :
    Judged item (ok :: checks) P (need ok item >>= f) :=
  .cons (by rintro rfl; rfl) (by rintro rfl; exact h)

/-- What was read has passed. -/
theorem Judged.of_ok {a : α} (h : Judged item checks P r) (hr : r = .ok a) : AllPass checks ∧ P a := by
  obtain hpass | ⟨k, hk⟩ := allPass_or_firstFails checks
  · obtain ⟨b, hb, hP⟩ := h.passes hpass
    cases hr.symm.trans hb
    exact ⟨hpass, hP⟩
  · cases hr.symm.trans (h.fails k hk)

end

/-! ### Numbers and codes in an item (R190) -/

theorem beNat_lt (bs : List Byte) : beNat bs < 256 ^ bs.length := by
  induction bs using List.reverseRecOn with
  | nil => simp [beNat]
  | append_singleton bs b ih =>
    have hsnoc : beNat (bs ++ [b]) = beNat bs * 256 + b.toNat := by simp [beNat]
    have hb := b.isLt
    rw [hsnoc, List.length_append, List.length_singleton, pow_succ]
    omega

/-- A field of `n` bytes is below `256 ^ n`. -/
theorem field_lt (bs : List Byte) (i n : Nat) : field bs i n < 256 ^ n :=
  (beNat_lt _).trans_le (Nat.pow_le_pow_right (by decide) (List.length_take_le _ _))

/-- A field that lies within the first bytes. -/
theorem field_take (bs : List Byte) (m i n : Nat) (h : i + n ≤ m) : field (bs.take m) i n = field bs i n := by
  rw [field, field, List.drop_take, List.take_take, min_eq_left (by omega)]

theorem inRange_iff (low high n : Nat) : inRange low high n = true ↔ low ≤ n ∧ n ≤ high := decide_eq_true_iff

theorem within_eq (n low high : Nat) : within n low high = inRange low high n := (Bool.decide_and _ _).symm

theorem EdgeSelect.ofCode_eq (n : Nat) : EdgeSelect.ofCode n = [EdgeSelect.never, .rising, .falling, .both][n]? := by
  rcases n with _ | _ | _ | _ | n <;> rfl

theorem Retrigger.ofCode_eq (n : Nat) : Retrigger.ofCode n = [Retrigger.keep, .restart][n]? := by
  rcases n with _ | _ | n <;> rfl

theorem LatePolicy.ofCode_eq (n : Nat) : LatePolicy.ofCode n = [LatePolicy.drop, .fire][n]? := by
  rcases n with _ | _ | n <;> rfl

theorem flag?_eq (n : Nat) : flag? n = [false, true][n]? := by
  rcases n with _ | _ | n <;> rfl

/-- The codes of a list of values are 0 up to the last one's. -/
theorem exists_code_iff {α : Type} (x : α) (xs : List α) (n : Nat) :
    (∃ a, (x :: xs)[n]? = some a) ↔ inRange 0 xs.length n = true := by
  rw [← Option.isSome_iff_exists, isSome_getElem?, inRange_iff, List.length_cons]
  omega

theorem exists_station?_iff (n : Nat) : (∃ own, station? n = some own) ↔ n ≤ 31 := by
  rw [← Option.ne_none_iff_exists', Ne, station?_eq_none, not_lt]

theorem exists_class?_iff (n : Nat) : (∃ k, class? n = some k) ↔ inRange 0 63 n = true := by
  rw [← Option.ne_none_iff_exists', Ne, class?_eq_none, inRange_iff]
  omega

/-! ### CLUSTER, LOCAL and PARTITIONS (R179) -/

theorem readCluster_judged (p : List Byte) :
    Judged 0 (clusterChecks p)
      (· =
        { bper := field p 0 4, quorum := field p 4 1, maxCorr := field p 5 2, stableBound := field p 7 2,
          tentRounds := field p 9 1, stabRounds := field p 10 1, holdRounds := field p 11 1,
          missLimit := field p 12 1, listenRounds := field p 13 1, lineDelay := field p 14 2,
          trigRepeat := field p 16 1 })
      (readCluster p) := by
  simp only [readCluster, within_eq]
  exact .need (.need (.need (.need (.need (.need (.need (.need (.need (.need (.need (.need (.done rfl))))))))))))

/-- Item 1, the mask, takes any value. -/
theorem readLocal_judged (p : List Byte) :
    Judged 0 (localChecks p)
      (· =
        ({ journal := (field p 0 1).testBit 0, flags := (field p 0 1).testBit 1, state := (field p 0 1).testBit 2,
           load := (field p 0 1).testBit 3 }, field p 1 1))
      (readLocal p) := by
  simp only [readLocal, within_eq]
  exact .need (.cons nofun fun _ => .need (.done rfl))

theorem readPartitions_judged (p : List Byte) :
    Judged 0 (partitionChecks p) (fun v => ∀ q : Partition, v.get q = field p q 1) (readPartitions p) := by
  simp only [readPartitions, within_eq, Config.schedulePlaces]
  exact .need (.need (.need (.need (.need (.done (by simp [Fin.forall_fin_succ, get_eq]))))))

/-! ### LINES (R180) -/

/-- Item `i + 1` of the LINES block. -/
def lineItem (p : List Byte) (i : Nat) : List Byte := (p.drop (9 * i)).take 9

/-- The check of one LINES item, as `lineChecks` makes it of each. -/
def lineCheck (item : List Byte) : Bool :=
  (field item 0 1 == 0) ||
    (field item 0 1 == 1 && inRange 0 3 (field item 1 1) && (inRange 0 63 (field item 7 1) || field item 7 1 == 255) &&
      inRange 0 1 (field item 8 1)) ||
    (field item 0 1 == 2 && inRange 0 1 (field item 1 1) && inRange 0 1 (field item 2 1))

theorem lineChecks_eq (p : List Byte) :
    lineChecks p =
      [decide (p.length = 72), lineCheck (lineItem p 0), lineCheck (lineItem p 1), lineCheck (lineItem p 2),
        lineCheck (lineItem p 3), lineCheck (lineItem p 4), lineCheck (lineItem p 5), lineCheck (lineItem p 6),
        lineCheck (lineItem p 7)] := rfl

theorem inputClass?_eq_none (n : Nat) : inputClass? n = some none ↔ n = 255 := by
  unfold inputClass?
  split <;> simp_all

theorem inputClass?_eq_some (n : Nat) (k : TrigClass) : inputClass? n = some (some k) ↔ k.val = n := by
  have hk := k.isLt
  unfold inputClass?
  split
  · simp; omega
  · simp [class?_eq_some]

theorem exists_inputClass?_iff (n : Nat) :
    (∃ c, inputClass? n = some c) ↔ (inRange 0 63 n || n == 255) = true := by
  rw [Option.exists]
  simp [inputClass?_eq_none, inputClass?_eq_some, ← exists_class?_iff, class?_eq_some, or_comm]

/-- What one LINES item is read as, by its mode (R180, R190). -/
inductive LineRead (item : List Byte) : LineCfg → Prop where
  | off : field item 0 1 = 0 → LineRead item .off
  | input (select : EdgeSelect) (cls : Option TrigClass) (capture : Bool) : field item 0 1 = 1 →
      EdgeSelect.ofCode (field item 1 1) = some select → inputClass? (field item 7 1) = some cls →
      flag? (field item 8 1) = some capture →
      LineRead item (.input
        { select := select, qualification := field item 2 2, holdOff := field item 4 3, cls := cls,
          capture := capture })
  | output (low : Bool) (policy : Retrigger) : field item 0 1 = 2 → flag? (field item 1 1) = some low →
      Retrigger.ofCode (field item 2 1) = some policy → LineRead item (.output (!low) policy)

theorem readLine_eq_some (item : List Byte) (x : LineCfg) : readLine item = some x ↔ LineRead item x := by
  constructor
  · intro h
    unfold readLine at h
    split at h
    case h_1 hmode =>
      cases h
      exact .off hmode
    case h_2 hmode =>
      split at h <;> cases h
      exact .input _ _ _ hmode ‹_› ‹_› ‹_›
    case h_3 hmode =>
      split at h <;> cases h
      exact .output _ _ hmode ‹_› ‹_›
    case h_4 => cases h
  · rintro (hmode | ⟨select, cls, capture, hmode, hselect, hcls, hcapture⟩ | ⟨low, policy, hmode, hlow, hpolicy⟩)
    · simp [readLine, hmode]
    · simp [readLine, hmode, hselect, hcls, hcapture]
    · simp [readLine, hmode, hlow, hpolicy]

theorem exists_edgeSelect_iff (n : Nat) : (∃ e, EdgeSelect.ofCode n = some e) ↔ inRange 0 3 n = true := by
  rw [EdgeSelect.ofCode_eq]
  exact exists_code_iff _ _ n

theorem exists_retrigger_iff (n : Nat) : (∃ q, Retrigger.ofCode n = some q) ↔ inRange 0 1 n = true := by
  rw [Retrigger.ofCode_eq]
  exact exists_code_iff _ _ n

theorem exists_latePolicy_iff (n : Nat) : (∃ q, LatePolicy.ofCode n = some q) ↔ inRange 0 1 n = true := by
  rw [LatePolicy.ofCode_eq]
  exact exists_code_iff _ _ n

theorem exists_flag?_iff (n : Nat) : (∃ b, flag? n = some b) ↔ inRange 0 1 n = true := by
  rw [flag?_eq]
  exact exists_code_iff _ _ n

theorem flag?_eq_some (n : Nat) (b : Bool) : flag? n = some b ↔ n = b.toNat := by
  rw [flag?_eq]
  rcases n with _ | _ | n <;> cases b <;> simp

/-- An item passes its check exactly where it can be read. -/
theorem lineCheck_iff (item : List Byte) : lineCheck item = true ↔ ∃ x, LineRead item x := by
  simp only [lineCheck, Bool.or_eq_true (_ || _), Bool.or_eq_true (_ == _), Bool.and_eq_true, beq_iff_eq,
    ← exists_inputClass?_iff, ← exists_edgeSelect_iff, ← exists_flag?_iff (field item 8 1),
    ← exists_flag?_iff (field item 1 1), ← exists_retrigger_iff (field item 2 1)]
  constructor
  · rintro ((hmode | ⟨⟨⟨hmode, select, hs⟩, cls, hc⟩, capture, hf⟩) | ⟨⟨hmode, low, hl⟩, policy, hp⟩)
    · exact ⟨_, .off hmode⟩
    · exact ⟨_, .input select cls capture hmode hs hc hf⟩
    · exact ⟨_, .output low policy hmode hl hp⟩
  · rintro ⟨_, hmode | ⟨select, cls, capture, hmode, hs, hc, hf⟩ | ⟨low, policy, hmode, hl, hp⟩⟩
    · exact .inl (.inl hmode)
    · exact .inl (.inr ⟨⟨⟨hmode, select, hs⟩, cls, hc⟩, capture, hf⟩)
    · exact .inr ⟨⟨hmode, low, hl⟩, policy, hp⟩

/-- The line's fields, as R180 names them. -/
theorem LineRead.fields {item : List Byte} {x : LineCfg} (h : LineRead item x) : LineFields item x := by
  obtain hmode | ⟨select, cls, capture, hmode, hs, hc, hf⟩ | ⟨low, policy, hmode, hl, hp⟩ := h
  · exact ⟨fun _ => rfl, by omega, by omega⟩
  · refine ⟨by omega, fun _ => ⟨_, rfl, (EdgeSelect.ofCode_eq _).symm.trans hs, rfl, rfl, fun habsent => ?_,
      fun hpresent => ?_, ?_⟩, by omega⟩
    · simpa [inputClass?, habsent] using hc.symm
    · obtain ⟨k, hk, rfl⟩ : ∃ k, class? (field item 7 1) = some k ∧ some k = cls := by
        simpa [inputClass?, hpresent] using hc
      exact ⟨k, rfl, (class?_eq_some _ _).1 hk⟩
    · rw [(flag?_eq_some _ _).1 hf]
      exact Bool.toNat_eq_one.symm
  · refine ⟨by omega, by omega, fun _ => ?_⟩
    have hpolicy : policy = if field item 2 1 = 0 then .keep else .restart := by
      generalize field item 2 1 = n at hp
      rcases n with _ | _ | n <;> cases hp <;> rfl
    have hlow : (!low) = decide (field item 1 1 = 0) := by
      rw [(flag?_eq_some _ _).1 hl]
      cases low <;> rfl
    rw [hpolicy, hlow]

/-- A line is configured OUTPUT by mode 2. -/
theorem LineRead.isOutput {item : List Byte} {x : LineCfg} (h : LineRead item x) :
    x.isOutput = (field item 0 1 == 2) := by
  obtain hmode | ⟨_, _, _, hmode, _⟩ | ⟨_, _, hmode, _⟩ := h <;> rw [hmode] <;> rfl

/-- An input line's times lie within the ranges of R180. -/
theorem LineRead.input_ranges {item : List Byte} {i : InputCfg} (h : LineRead item (.input i)) :
    i.qualification ≤ 65535 ∧ i.holdOff ≤ 16777215 := by
  have hqual := field_lt item 2 2
  have hhold := field_lt item 4 3
  cases h
  constructor <;> dsimp only <;> omega

theorem readLineItem_read {p : List Byte} {i : Nat} {x : LineCfg} (h : LineRead (lineItem p i) x) :
    readLineItem p i = .ok x := by
  rw [readLineItem, ← lineItem, (readLine_eq_some _ _).2 h]

theorem readLineItem_unread {p : List Byte} {i : Nat} (h : ¬ ∃ x, LineRead (lineItem p i) x) :
    readLineItem p i = .error (i + 1) := by
  have hnone : readLine (lineItem p i) = none := by simpa [Option.eq_none_iff_forall_ne_some, readLine_eq_some] using h
  rw [readLineItem, ← lineItem, hnone]

/-- The next LINES item, and what comes behind it. -/
theorem Judged.line {α : Type} {p : List Byte} {i : Nat} {checks : List Bool} {P : α → Prop}
    {f : LineCfg → Except Nat α} (h : ∀ x, LineRead (lineItem p i) x → Judged (i + 2) checks P (f x)) :
    Judged (i + 1) (lineCheck (lineItem p i) :: checks) P (readLineItem p i >>= f) := by
  refine .cons (fun hfail => ?_) fun hpass => ?_
  · rw [readLineItem_unread (by simp [← lineCheck_iff, hfail])]
    rfl
  · obtain ⟨x, hx⟩ := (lineCheck_iff _).1 hpass
    rw [readLineItem_read hx]
    exact h x hx

/-- What the LINES block gives: each line is read from its item. -/
def LinesRead (p : List Byte) (lines : Vector LineCfg 8) : Prop := ∀ l : LineNo, LineRead (lineItem p l) (lines.get l)

theorem readLines_judged (p : List Byte) : Judged 0 (lineChecks p) (LinesRead p) (readLines p) := by
  rw [lineChecks_eq]
  refine .need (.line fun l0 h0 => .line fun l1 h1 => .line fun l2 h2 => .line fun l3 h3 =>
    .line fun l4 h4 => .line fun l5 h5 => .line fun l6 h6 => .line fun l7 h7 => .done ?_)
  simp only [LinesRead, Fin.forall_fin_succ]
  exact ⟨h0, h1, h2, h3, h4, h5, h6, h7, nofun⟩

/-! ### One ACTIONS item (R104, R105) -/

theorem mapIndex?_eq (n : Nat) : mapIndex? n = class? n := rfl

theorem partition?_eq_some (n : Nat) (q : Partition) : partition? n = some q ↔ q.val = n := by
  have hq := q.isLt
  unfold partition?
  split
  · rw [Option.some.injEq, Fin.ext_iff, eq_comm]
  · simp only [reduceCtorEq, false_iff]
    omega

/-- The kinds of action, each with the fields it carries (R104). -/
inductive ActionRead (kind width period count : Nat) : Action → Prop where
  | pulse : kind = 1 → 0 < width → ActionRead kind width period count (.pulse width)
  | train : kind = 2 → 0 < width → width < period → 0 < count →
      ActionRead kind width period count (.train width period count)
  | set : kind = 3 → ActionRead kind width period count .set
  | clear : kind = 4 → ActionRead kind width period count .clear

theorem readAction_eq_some (kind width period count : Nat) (a : Action) :
    readAction kind width period count = some a ↔ ActionRead kind width period count a := by
  constructor
  · intro h
    unfold readAction at h
    split at h
    case h_1 =>
      split_ifs at h with hw
      cases h
      exact .pulse rfl hw
    case h_2 =>
      split_ifs at h with hw
      cases h
      obtain ⟨hw, hp, hn⟩ := hw
      exact .train rfl hw hp hn
    case h_3 => cases h; exact .set rfl
    case h_4 => cases h; exact .clear rfl
    case h_5 => cases h
  · rintro (⟨rfl, hw⟩ | ⟨rfl, hw, hp, hn⟩ | rfl | rfl)
    · exact if_pos hw
    · exact if_pos ⟨hw, hp, hn⟩
    · rfl
    · rfl

/-- What an item derives; its fields count only where it is present (R190). -/
inductive DeriveRead (present cls offset : Nat) : Option (TrigClass × Nat) → Prop where
  | none : present = 0 → DeriveRead present cls offset none
  | some (k : TrigClass) : present = 1 → k.val = cls → DeriveRead present cls offset (some (k, offset))

theorem readDerive_eq_some (present cls offset : Nat) (d : Option (TrigClass × Nat)) :
    readDerive present cls offset = some d ↔ DeriveRead present cls offset d := by
  constructor
  · intro h
    unfold readDerive at h
    split at h
    case h_1 => cases h; exact .none rfl
    case h_2 =>
      obtain ⟨k, hk, rfl⟩ := Option.map_eq_some_iff.1 h
      exact .some k rfl ((class?_eq_some _ _).1 hk)
    case h_3 => cases h
  · rintro (rfl | ⟨k, rfl, hk⟩)
    · rfl
    · exact Option.map_eq_some_iff.2 ⟨k, (class?_eq_some _ _).2 hk, rfl⟩

/-- What one ACTIONS item of 29 bytes is read as: its index and its map entry (R104, R105, R190). -/
structure EntryRead (lines : Vector LineCfg 8) (quota : Vector Nat 4) (item : List Byte) (i : MapIndex)
    (e : MapEntry) : Prop where
  index : i.val = field item 0 1
  cls : e.cls.val = field item 1 1
  origins : e.origins = BitVec.ofNat 32 (field item 2 4)
  lineSet : e.lines = BitVec.ofNat 8 (field item 6 1)
  part : e.part.val = field item 7 1
  offset : e.offset = field item 8 4
  action : ActionRead (field item 12 1) (field item 13 3) (field item 16 3) (field item 19 2) e.action
  late : LatePolicy.ofCode (field item 21 1) = some e.late
  journal : flag? (field item 22 1) = some e.journal
  derive : DeriveRead (field item 23 1) (field item 24 1) (field item 25 4) e.derive
  placeable : placeable lines quota e.origins e.lines e.part = true

theorem readMapEntry_eq_some (lines : Vector LineCfg 8) (quota : Vector Nat 4) (item : List Byte) (i : MapIndex)
    (e : MapEntry) : readMapEntry lines quota item = some (i, e) ↔ EntryRead lines quota item i e := by
  constructor
  · intro h
    unfold readMapEntry at h
    split at h
    case h_2 => cases h
    case h_1 hindex hcls hpart haction =>
      split at h
      case h_2 => cases h
      case h_1 hlate hjournal hderive =>
        dsimp only at h
        split_ifs at h with hplace
        cases h
        exact
          { index := (class?_eq_some _ _).1 hindex, cls := (class?_eq_some _ _).1 hcls, origins := rfl, lineSet := rfl,
            part := (partition?_eq_some _ _).1 hpart, offset := rfl, action := (readAction_eq_some ..).1 haction,
            late := hlate, journal := hjournal, derive := (readDerive_eq_some ..).1 hderive, placeable := hplace }
  · rintro ⟨hindex, hcls, horigins, hlines, hpart, hoffset, haction, hlate, hjournal, hderive, hplace⟩
    simp only [readMapEntry, mapIndex?_eq, (class?_eq_some _ _).2 hindex, (class?_eq_some _ _).2 hcls,
      (partition?_eq_some _ _).2 hpart, (readAction_eq_some ..).2 haction, hlate, hjournal,
      (readDerive_eq_some ..).2 hderive, ← horigins, ← hlines, ← hoffset]
    exact if_pos hplace

/-- A map index, and likewise a class. -/
theorem exists_mapIndex_iff (n : Nat) : (∃ i : MapIndex, i.val = n) ↔ inRange 0 63 n = true := by
  simp only [← exists_class?_iff, class?_eq_some]

theorem exists_partition_iff (n : Nat) : (∃ q : Partition, q.val = n) ↔ inRange 0 3 n = true := by
  rw [inRange_iff, Fin.exists_iff]
  simp only [exists_prop, exists_eq_right]
  omega

theorem exists_actionRead_iff (kind width period count : Nat) :
    (∃ a, ActionRead kind width period count a) ↔
      ((kind == 1 && width != 0) || (kind == 2 && width != 0 && decide (width < period) && count != 0) || kind == 3 ||
        kind == 4) = true := by
  simp only [Bool.or_eq_true, Bool.and_eq_true, beq_iff_eq, bne_iff_ne, decide_eq_true_iff, ← Nat.pos_iff_ne_zero]
  constructor
  · rintro ⟨_, ⟨hk, hw⟩ | ⟨hk, hw, hp, hn⟩ | hk | hk⟩
    · exact .inl (.inl (.inl ⟨hk, hw⟩))
    · exact .inl (.inl (.inr ⟨⟨⟨hk, hw⟩, hp⟩, hn⟩))
    · exact .inl (.inr hk)
    · exact .inr hk
  · rintro (((⟨hk, hw⟩ | ⟨⟨⟨hk, hw⟩, hp⟩, hn⟩) | hk) | hk)
    · exact ⟨_, .pulse hk hw⟩
    · exact ⟨_, .train hk hw hp hn⟩
    · exact ⟨_, .set hk⟩
    · exact ⟨_, .clear hk⟩

theorem exists_deriveRead_iff (present cls offset : Nat) :
    (∃ d, DeriveRead present cls offset d) ↔ (present == 0 || (present == 1 && inRange 0 63 cls)) = true := by
  simp only [Bool.or_eq_true, Bool.and_eq_true, beq_iff_eq, ← exists_mapIndex_iff]
  constructor
  · rintro ⟨_, hp | ⟨k, hp, hk⟩⟩
    · exact .inl hp
    · exact .inr ⟨hp, k, hk⟩
  · rintro (hp | ⟨hp, k, hk⟩)
    · exact ⟨_, .none hp⟩
    · exact ⟨_, .some k hp hk⟩

theorem ofNat_bne_zero {w n : Nat} (h : n < 2 ^ w) : (BitVec.ofNat w n != 0) = (n != 0) := by
  rw [Bool.eq_iff_iff, bne_iff_ne, bne_iff_ne, Ne, ← BitVec.toNat_inj, BitVec.toNat_ofNat, Nat.mod_eq_of_lt h]
  rfl

/-- The checks of R105 that the modes and the quotas decide, asked of the payloads. -/
theorem placeable_eq {p3 p4 : List Byte} {lines : Vector LineCfg 8} {quota : Vector Nat 4} (hl : LinesRead p3 lines)
    (hq : ∀ q : Partition, quota.get q = field p4 q 1) (item : List Byte) (q : Partition) :
    placeable lines quota (BitVec.ofNat 32 (field item 2 4)) (BitVec.ofNat 8 (field item 6 1)) q =
      (field item 2 4 != 0 && field item 6 1 != 0 &&
        (List.range 8).all (fun k => !(field item 6 1).testBit k || field p3 (9 * k) 1 == 2) && field p4 q 1 != 0) := by
  have hmode (k : LineNo) : (lines.get k).isOutput = (field p3 (9 * k) 1 == 2) := by
    rw [(hl k).isOutput, lineItem, field_take _ _ _ _ (by decide), field_drop, Nat.add_zero]
  have hlines :
      (List.finRange 8).all (fun k => !(BitVec.ofNat 8 (field item 6 1)).getLsbD k || (lines.get k).isOutput) =
      (List.range 8).all (fun k => !(field item 6 1).testBit k || field p3 (9 * k) 1 == 2) := by
    rw [Bool.eq_iff_iff, List.all_eq_true, List.all_eq_true]
    simp only [List.mem_finRange, forall_true_left, List.mem_range, Fin.forall_iff, hmode, BitVec.getLsbD_ofNat]
    exact forall₂_congr fun k hk => by rw [decide_eq_true hk, Bool.true_and]
  have hpart : decide (0 < quota.get q) = (field p4 q 1 != 0) := by
    rw [hq, Bool.eq_iff_iff, decide_eq_true_iff, bne_iff_ne, Nat.pos_iff_ne_zero]
  rw [placeable, ofNat_bne_zero (field_lt item 2 4), ofNat_bne_zero (field_lt item 6 1), hlines, hpart]

/-- An item passes its check exactly where it can be read. -/
theorem actionCheck_iff {p3 p4 : List Byte} {lines : Vector LineCfg 8} {quota : Vector Nat 4} (hl : LinesRead p3 lines)
    (hq : ∀ q : Partition, quota.get q = field p4 q 1) (item : List Byte) :
    actionCheck p3 p4 item = true ↔ ∃ i e, EntryRead lines quota item i e := by
  have hplace := placeable_eq hl hq item
  rw [actionCheck]
  constructor
  · intro h
    simp only [Bool.and_eq_true] at h
    obtain ⟨⟨⟨⟨⟨⟨⟨⟨⟨⟨hindex, hcls⟩, horigins⟩, hset⟩, houtput⟩, hpart⟩, hquota⟩, haction⟩, hlate⟩, hjournal⟩,
      hderive⟩ := h
    obtain ⟨i, hi⟩ := (exists_mapIndex_iff _).2 hindex
    obtain ⟨k, hk⟩ := (exists_mapIndex_iff _).2 hcls
    obtain ⟨q, hq⟩ := (exists_partition_iff _).2 hpart
    obtain ⟨a, ha⟩ := (exists_actionRead_iff ..).2 haction
    obtain ⟨late, hlate⟩ := (exists_latePolicy_iff _).2 hlate
    obtain ⟨b, hb⟩ := (exists_flag?_iff _).2 hjournal
    obtain ⟨d, hd⟩ := (exists_deriveRead_iff _ _ (field item 25 4)).2 hderive
    rw [← hq] at hquota
    exact ⟨i, ⟨k, .ofNat 32 (field item 2 4), .ofNat 8 (field item 6 1), q, field item 8 4, a, late, b, d⟩, hi, hk, rfl,
      rfl, hq, rfl, ha, hlate, hb, hd, (hplace q).trans (by rw [horigins, hset, houtput, hquota]; rfl)⟩
  · rintro ⟨i, e, h⟩
    have hp := h.placeable
    simp only [h.origins, h.lineSet, hplace, Bool.and_eq_true, h.part] at hp
    obtain ⟨⟨⟨horigins, hset⟩, houtput⟩, hquota⟩ := hp
    rw [(exists_mapIndex_iff _).1 ⟨i, h.index⟩, (exists_mapIndex_iff _).1 ⟨e.cls, h.cls⟩, horigins, hset, houtput,
      (exists_partition_iff _).1 ⟨e.part, h.part⟩, hquota, (exists_actionRead_iff ..).1 ⟨_, h.action⟩,
      (exists_latePolicy_iff _).1 ⟨_, h.late⟩, (exists_flag?_iff _).1 ⟨_, h.journal⟩,
      (exists_deriveRead_iff ..).1 ⟨_, h.derive⟩]
    rfl

/-- The entry's fields, as R104 names them. -/
theorem EntryRead.fields {lines : Vector LineCfg 8} {quota : Vector Nat 4} {item : List Byte} {i : MapIndex}
    {e : MapEntry} (h : EntryRead lines quota item i e) : MapFields item e where
  cls := h.cls
  origins n := by rw [h.origins, BitVec.getLsbD_ofNat, decide_eq_true n.isLt, Bool.true_and]
  lines l := by rw [h.lineSet, BitVec.getLsbD_ofNat, decide_eq_true l.isLt, Bool.true_and]
  part := h.part
  offset := h.offset
  action := by
    have haction := h.action
    generalize e.action = a at haction ⊢
    obtain ⟨hkind, _⟩ | ⟨hkind, _⟩ | hkind | hkind := haction <;> simp [hkind]
  late := by
    have hlate := h.late
    constructor <;> intro hcode <;> rw [hcode] at hlate <;> exact (Option.some.inj hlate).symm
  journal := by
    rw [(flag?_eq_some _ _).1 h.journal]
    exact Bool.toNat_eq_one.symm
  derive := by
    have hderive := h.derive
    generalize e.derive = d at hderive ⊢
    obtain hpresent | ⟨k, hpresent, hk⟩ := hderive
    · simp [hpresent]
    · simp [hpresent, hk]

theorem LineCfg.isOutput_iff (x : LineCfg) : x.isOutput = true ↔ ∃ h q, x = .output h q := by
  cases x <;> simp [LineCfg.isOutput]

theorem placeable_iff (lines : Vector LineCfg 8) (quota : Vector Nat 4) (origins : StationSet) (set : LineSet)
    (q : Partition) :
    placeable lines quota origins set q = true ↔
      origins ≠ 0 ∧ set ≠ 0 ∧ (∀ l : LineNo, set.getLsbD l = true → ∃ h p, lines.get l = .output h p) ∧
        0 < quota.get q := by
  simp only [placeable, Bool.and_eq_true, bne_iff_ne, List.all_eq_true, List.mem_finRange, forall_true_left,
    Bool.or_eq_true, Bool.not_eq_true', decide_eq_true_iff, and_assoc, ← LineCfg.isOutput_iff,
    ← Bool.not_eq_true, ← imp_iff_not_or]

/-- The entry's values lie within the ranges of R104 and R105. -/
theorem EntryRead.ranges {lines : Vector LineCfg 8} {quota : Vector Nat 4} {item : List Byte} {i : MapIndex}
    {m : MapEntry} (h : EntryRead lines quota item i m) :
    m.origins ≠ 0 ∧ m.lines ≠ 0 ∧ 0 < quota.get m.part ∧ m.offset ≤ 4294967295 ∧
      (∀ l : LineNo, m.lines.getLsbD l = true → ∃ h q, lines.get l = .output h q) ∧
      (∀ w, m.action = .pulse w → 1 ≤ w ∧ w ≤ 16777215) ∧
      (∀ w p n, m.action = .train w p n → 1 ≤ w ∧ w < p ∧ p ≤ 16777215 ∧ 1 ≤ n ∧ n ≤ 65535) ∧
      ∀ k o, m.derive = some (k, o) → o ≤ 4294967295 := by
  obtain ⟨horigins, hset, houtput, hquota⟩ := (placeable_iff ..).1 h.placeable
  have hoffset := field_lt item 8 4
  have hwidth := field_lt item 13 3
  have hperiod := field_lt item 16 3
  have hcount := field_lt item 19 2
  have hderive := field_lt item 25 4
  refine ⟨horigins, hset, hquota, by rw [h.offset]; omega, houtput, fun w hw => ?_, fun w p n hw => ?_,
    fun k o hd => ?_⟩
  · obtain ⟨_, hpos⟩ := hw ▸ h.action
    omega
  · obtain ⟨_, hpos, hless, hn⟩ := hw ▸ h.action
    omega
  · obtain _ | _ := hd ▸ h.derive
    omega

/-! ### ACTIONS (R105) -/

/-- Item `n + 1` of the ACTIONS block. -/
def mapItem (p : List Byte) (n : Nat) : List Byte := (p.drop (29 * n)).take 29

theorem field_mapItem (p : List Byte) (n i k : Nat) (h : i + k ≤ 29) :
    field (mapItem p n) i k = field p (29 * n + i) k := by
  rw [mapItem, field_take _ _ _ _ h, field_drop]

/-- The check of one ACTIONS item, as `actionChecks` makes it of each. -/
def mapItemCheck (p3 p4 p : List Byte) (n : Nat) : Bool :=
  actionCheck p3 p4 (mapItem p n) && (List.range n).all fun j => field p (29 * j) 1 != field p (29 * n) 1

theorem actionChecks_eq (p3 p4 p : List Byte) :
    actionChecks p3 p4 p =
      decide (p.length % 29 = 0 ∧ p.length ≤ 1856) :: (List.range' 0 (p.length / 29)).map (mapItemCheck p3 p4 p) := by
  rw [← List.range_eq_range']
  rfl

/-- The map as the first `done` items give it: each has been read, and what stands at an index is the entry of the item
that gives that index. -/
structure MapRead (lines : Vector LineCfg 8) (quota : Vector Nat 4) (p : List Byte) (done : Nat)
    (m : Vector (Option MapEntry) 64) : Prop where
  items : ∀ n, n < done → ∃ i e, EntryRead lines quota (mapItem p n) i e
  entries : ∀ i e, m.get i = some e ↔ ∃ n, n < done ∧ EntryRead lines quota (mapItem p n) i e

section
variable {lines : Vector LineCfg 8} {quota : Vector Nat 4} {p : List Byte} {done : Nat}
  {m : Vector (Option MapEntry) 64} {i : MapIndex} {e : MapEntry}

theorem EntryRead.unique {item : List Byte} {j : MapIndex} {x : MapEntry} (h : EntryRead lines quota item i e)
    (hx : EntryRead lines quota item j x) : i = j ∧ e = x := by
  simpa using ((readMapEntry_eq_some ..).2 h).symm.trans ((readMapEntry_eq_some ..).2 hx)

theorem EntryRead.index_field {n : Nat} (h : EntryRead lines quota (mapItem p n) i e) : i.val = field p (29 * n) 1 :=
  h.index.trans (field_mapItem p n 0 1 (by decide))

theorem mapRead_none : MapRead lines quota p 0 (Vector.replicate 64 none) :=
  ⟨nofun, fun i e => by simp⟩

/-- The index of an item whose index an earlier one gives is taken, and no other is. -/
theorem MapRead.free_iff (h : MapRead lines quota p done m) (i : MapIndex) :
    m.get i = none ↔ ∀ n, n < done → field p (29 * n) 1 ≠ i.val := by
  rw [Option.eq_none_iff_forall_ne_some]
  constructor
  · intro hfree n hn hi
    obtain ⟨j, e, he⟩ := h.items n hn
    obtain rfl : j = i := Fin.ext (he.index_field.trans hi)
    exact hfree e ((h.entries j e).2 ⟨n, hn, he⟩)
  · intro hne e he
    obtain ⟨n, hn, hread⟩ := (h.entries i e).1 he
    exact hne n hn hread.index_field.symm

theorem MapRead.next (h : MapRead lines quota p done m) (he : EntryRead lines quota (mapItem p done) i e)
    (hfree : m.get i = none) : MapRead lines quota p (done + 1) (m.set i (some e)) := by
  refine ⟨fun n hn => ?_, fun j x => ?_⟩
  · obtain hlt | rfl := Nat.lt_succ_iff_lt_or_eq.1 hn
    · exact h.items n hlt
    · exact ⟨i, e, he⟩
  rw [get_set, Nat.exists_lt_succ_right, ← h.entries]
  by_cases hij : i = j
  · subst hij
    rw [if_pos rfl, hfree, Option.some.injEq]
    simp only [reduceCtorEq, false_or]
    exact ⟨fun hx => hx ▸ he, fun hx => (he.unique hx).2⟩
  · rw [if_neg hij]
    exact ⟨.inl, fun hx => hx.resolve_right fun hx => hij (he.unique hx).1⟩

/-- The next item passes its checks exactly where it can be read and its index is free. -/
theorem MapRead.mapItemCheck_iff {p3 p4 : List Byte} (hl : LinesRead p3 lines)
    (hq : ∀ q : Partition, quota.get q = field p4 q 1) (h : MapRead lines quota p done m) :
    mapItemCheck p3 p4 p done = true ↔ ∃ i e, EntryRead lines quota (mapItem p done) i e ∧ m.get i = none := by
  simp only [mapItemCheck, Bool.and_eq_true, actionCheck_iff hl hq, List.all_eq_true, List.mem_range, bne_iff_ne]
  constructor
  · rintro ⟨⟨i, e, he⟩, hne⟩
    exact ⟨i, e, he, (h.free_iff i).2 fun n hn => by rw [he.index_field]; exact hne n hn⟩
  · rintro ⟨i, e, he, hfree⟩
    exact ⟨⟨i, e, he⟩, fun n hn => he.index_field ▸ (h.free_iff i).1 hfree n hn⟩

/-- The entry at the index of an item is that item's. -/
theorem MapRead.get_of_item {n : Nat} (h : MapRead lines quota p done m) (hn : n < done)
    (hi : i.val = field p (29 * n) 1) : ∃ e, m.get i = some e ∧ MapFields (mapItem p n) e := by
  obtain ⟨j, e, he⟩ := h.items n hn
  obtain rfl : j = i := Fin.ext (he.index_field.trans hi.symm)
  exact ⟨e, (h.entries j e).2 ⟨n, hn, he⟩, he.fields⟩

theorem readMapItems_unread {left : Nat} {bs : List Byte} (h : ¬ ∃ i e, EntryRead lines quota (bs.take 29) i e) :
    readMapItems lines quota (left + 1) done m bs = .error (done + 1) := by
  have hnone : readMapEntry lines quota (bs.take 29) = none := by
    rw [Option.eq_none_iff_forall_ne_some]
    exact fun x hx => h ⟨x.1, x.2, (readMapEntry_eq_some ..).1 hx⟩
  rw [readMapItems, hnone]

theorem readMapItems_taken {left : Nat} {bs : List Byte} (h : EntryRead lines quota (bs.take 29) i e)
    (hi : m.get i ≠ none) : readMapItems lines quota (left + 1) done m bs = .error (done + 1) := by
  rw [readMapItems, (readMapEntry_eq_some ..).2 h]
  exact if_pos (Option.isSome_iff_ne_none.2 hi)

theorem readMapItems_next {left : Nat} {bs : List Byte} (h : EntryRead lines quota (bs.take 29) i e)
    (hi : m.get i = none) :
    readMapItems lines quota (left + 1) done m bs =
      readMapItems lines quota left (done + 1) (m.set i (some e)) (bs.drop 29) := by
  rw [readMapItems, (readMapEntry_eq_some ..).2 h]
  exact if_neg (by simp [hi])

theorem readMapItems_judged {p3 p4 : List Byte} (hl : LinesRead p3 lines)
    (hq : ∀ q : Partition, quota.get q = field p4 q 1) (left : Nat) (h : MapRead lines quota p done m) :
    Judged (done + 1) ((List.range' done left).map (mapItemCheck p3 p4 p)) (MapRead lines quota p (done + left))
      (readMapItems lines quota left done m (p.drop (29 * done))) := by
  induction left generalizing done m with
  | zero => exact .done h
  | succ left ih =>
    rw [List.range'_succ, List.map_cons]
    refine .cons (fun hfail => ?_) fun hpass => ?_
    · have hnot : ¬ ∃ i e, EntryRead lines quota (mapItem p done) i e ∧ m.get i = none := by
        rw [← h.mapItemCheck_iff hl hq, hfail]
        decide
      by_cases hread : ∃ i e, EntryRead lines quota (mapItem p done) i e
      · obtain ⟨i, e, he⟩ := hread
        exact readMapItems_taken he fun hfree => hnot ⟨i, e, he, hfree⟩
      · exact readMapItems_unread hread
    · obtain ⟨i, e, he, hfree⟩ := (h.mapItemCheck_iff hl hq).1 hpass
      rw [readMapItems_next he hfree, List.drop_drop, ← Nat.mul_succ, Nat.add_comm left 1, ← Nat.add_assoc]
      exact ih (h.next he hfree)

theorem readActions_judged {p3 p4 : List Byte} (hl : LinesRead p3 lines)
    (hq : ∀ q : Partition, quota.get q = field p4 q 1) (p : List Byte) :
    Judged 0 (actionChecks p3 p4 p) (MapRead lines quota p (p.length / 29)) (readActions lines quota p) := by
  have hitems := readMapItems_judged hl hq (p.length / 29) (mapRead_none (p := p))
  rw [Nat.zero_add (p.length / 29), Nat.mul_zero, List.drop_zero] at hitems
  rw [actionChecks_eq, Bool.decide_and]
  exact .need hitems

end

/-! ### The whole image -/

/-- The payloads of a list of blocks, by type; that of a block that is not there is read as empty. -/
structure PayloadsOf (bs : List Block) (p1 p2 p3 p4 p5 : List Byte) : Prop where
  cluster : (payloadOf 1 bs).getD [] = p1
  localBlock : (payloadOf 2 bs).getD [] = p2
  lines : (payloadOf 3 bs).getD [] = p3
  partitions : (payloadOf 4 bs).getD [] = p4
  actions : (payloadOf 5 bs).getD [] = p5

/-- What an accepted image gives, each from the reader of its block (R178, R181). -/
structure ValuesRead (station : Nat) (p1 p2 p3 p4 p5 : List Byte) (g : ImageConfig) : Prop where
  station : station? station = some g.cfg.station
  signature : g.cfg.signature = crc16 p1
  cluster : readCluster p1 = .ok g.cfg.cluster
  localBlock : readLocal p2 = .ok (g.mask, g.threshold)
  lines : readLines p3 = .ok g.lines
  partitions : readPartitions p4 = .ok g.quota
  actions : readActions g.lines g.quota p5 = .ok g.amp

/-- A block's first bad item ends the load (R178, order 11). -/
theorem Judged.block_fails {α β : Type} {checks : List Bool} {P : α → Prop} {r : Except Nat α} {k : Nat}
    (h : Judged 0 checks P r) (hk : FirstFails checks k) (type : Nat) (f : α → Except LoadResult β) :
    (blockValues type r >>= f) = .error (.badValue type k) := by
  rw [h.fails k hk, Nat.zero_add]
  rfl

theorem except_ok_bind {ε α β : Type} (a : α) (f : α → Except ε β) : (Except.ok a >>= f) = f a := rfl

theorem blockValues_ok {α : Type} (type : Nat) (a : α) : blockValues type (.ok a) = .ok a := rfl

theorem blockValues_bind_eq_ok {α β : Type} {type : Nat} {r : Except Nat α} {f : α → Except LoadResult β} {b : β}
    (h : (blockValues type r >>= f) = .ok b) : ∃ a, r = .ok a ∧ f a = .ok b := by
  cases r with
  | ok a => exact ⟨a, rfl, h⟩
  | error item => cases h

theorem readValues_badStation {n : Nat} (hn : 31 < n) (bs : List Block) :
    readValues n bs = .error (.badValue 0 1) := by
  rw [readValues, (station?_eq_none n).2 hn]
  rfl

theorem readValues_ok {n : Nat} {bs : List Block} {p1 p2 p3 p4 p5 : List Byte} {g : ImageConfig}
    (hp : PayloadsOf bs p1 p2 p3 p4 p5) (h : readValues n bs = .ok g) : ValuesRead n p1 p2 p3 p4 p5 g := by
  obtain hn | hn := Nat.lt_or_ge 31 n
  · cases (readValues_badStation hn bs).symm.trans h
  obtain ⟨own, hs⟩ := (exists_station?_iff n).2 hn
  simp only [readValues, hs, hp.cluster, hp.localBlock, hp.lines, hp.partitions, hp.actions, except_ok_bind] at h
  obtain ⟨c, hc, h⟩ := blockValues_bind_eq_ok h
  obtain ⟨l, hl, h⟩ := blockValues_bind_eq_ok h
  obtain ⟨lines, hlines, h⟩ := blockValues_bind_eq_ok h
  obtain ⟨quota, hquota, h⟩ := blockValues_bind_eq_ok h
  obtain ⟨amp, hamp, h⟩ := blockValues_bind_eq_ok h
  cases h
  exact ⟨hs, rfl, hc, hl, hlines, hquota, hamp⟩

theorem judgeWhole_ok {bytes : List Byte} {bs : List Block} {g : ImageConfig} (h : judgeWhole bytes bs = .ok g) :
    readValues (field bytes 4 1) bs = .ok g := by
  unfold judgeWhole at h
  split_ifs at h
  split at h
  · cases h
  · split at h <;> cases h
    assumption

/-- The verdict on a whole image that has passed to order 10 is that of its values (R178). -/
theorem judgeWhole_values {bytes : List Byte} {bs : List Block}
    (hcheck : field bytes (bytes.length - 2) 2 = (crc16 (bytes.take (bytes.length - 2))).toNat)
    (hmissing : missingType bs = none) :
    (∀ r, readValues (field bytes 4 1) bs = .error r → judgeWhole bytes bs = .fail r) ∧
      ∀ g, readValues (field bytes 4 1) bs = .ok g → judgeWhole bytes bs = .ok g := by
  rw [judgeWhole, if_neg (not_not_intro hcheck), hmissing]
  exact ⟨fun r h => by rw [h], fun g h => by rw [h]⟩

/-- What is accepted has been judged whole. -/
theorem judgeImage_ok {bytes : List Byte} {g : ImageConfig} (h : judgeImage bytes = .ok g) :
    ∃ bs, judgeWhole bytes bs = .ok g := by
  unfold judgeImage at h
  dsimp only at h
  split_ifs at h
  · split at h <;> cases h
  · split at h
    · cases h
    · cases h
    · exact ⟨_, h⟩

/-- An image that has passed to order 10 is judged by its values, read from its blocks' payloads. -/
theorem ImagePassed.judged {bytes p1 p2 p3 p4 p5 : List Byte} (h : ImagePassed bytes p1 p2 p3 p4 p5) :
    ∃ bs, PayloadsOf bs p1 p2 p3 p4 p5 ∧ missingType bs = none ∧ judgeImage bytes = judgeWhole bytes bs := by
  obtain ⟨⟨pos, seen, hparts, h1, h2, h3, h4, h5⟩, harrived, -⟩ := h
  have hunique := hparts.blocks.unique
  have hread (b : Block) (hb : b ∈ seen) := payloadOf_mem seen hunique b hb
  have e1 := hread _ h1
  have e2 := hread _ h2
  have e3 := hread _ h3
  have e4 := hread _ h4
  have e5 : (payloadOf 5 seen).getD [] = p5 := by
    obtain h5 | ⟨rfl, habsent⟩ := h5
    · rw [hread _ h5]; rfl
    · rw [payloadOf_absent seen 5 habsent]; rfl
  dsimp only at e1 e2 e3 e4
  refine ⟨seen, ⟨by rw [e1]; rfl, by rw [e2]; rfl, by rw [e3]; rfl, by rw [e4]; rfl, e5⟩, ?_,
    judgeImage_whole bytes pos seen hparts harrived⟩
  simp [missingType, e1, e2, e3, e4]

/-- The values of an image that has passed to order 10, in their order: the first out of range ends the load, and where
there is none the image is accepted (R178, order 11). -/
theorem ImagePassed.values_in_order {bytes p1 p2 p3 p4 p5 : List Byte} (h : ImagePassed bytes p1 p2 p3 p4 p5)
    (k : Nat) :
    (31 < field bytes 4 1 → judgeImage bytes = .fail (.badValue 0 1)) ∧
    (field bytes 4 1 ≤ 31 →
      (FirstFails (clusterChecks p1) k → judgeImage bytes = .fail (.badValue 1 k)) ∧
      (AllPass (clusterChecks p1) →
        (FirstFails (localChecks p2) k → judgeImage bytes = .fail (.badValue 2 k)) ∧
        (AllPass (localChecks p2) →
          (FirstFails (lineChecks p3) k → judgeImage bytes = .fail (.badValue 3 k)) ∧
          (AllPass (lineChecks p3) →
            (FirstFails (partitionChecks p4) k → judgeImage bytes = .fail (.badValue 4 k)) ∧
            (AllPass (partitionChecks p4) →
              (FirstFails (actionChecks p3 p4 p5) k → judgeImage bytes = .fail (.badValue 5 k)) ∧
              (AllPass (actionChecks p3 p4 p5) → ∃ g, judgeImage bytes = .ok g)))))) := by
  obtain ⟨bs, hp, hmissing, hjudge⟩ := h.judged
  obtain ⟨hfail, hpass⟩ := judgeWhole_values h.check hmissing
  rw [← hjudge] at hfail hpass
  refine ⟨fun hn => hfail _ (readValues_badStation hn bs), fun hn => ?_⟩
  obtain ⟨own, hs⟩ := (exists_station?_iff _).2 hn
  simp only [readValues, hs, hp.cluster, hp.localBlock, hp.lines, hp.partitions, hp.actions, except_ok_bind]
    at hfail hpass
  refine ⟨fun hk => hfail _ ((readCluster_judged p1).block_fails hk 1 _), fun hall => ?_⟩
  obtain ⟨c, hc, -⟩ := (readCluster_judged p1).passes hall
  simp only [hc, blockValues_ok, except_ok_bind] at hfail hpass
  refine ⟨fun hk => hfail _ ((readLocal_judged p2).block_fails hk 2 _), fun hall => ?_⟩
  obtain ⟨l, hl, -⟩ := (readLocal_judged p2).passes hall
  simp only [hl, blockValues_ok, except_ok_bind] at hfail hpass
  refine ⟨fun hk => hfail _ ((readLines_judged p3).block_fails hk 3 _), fun hall => ?_⟩
  obtain ⟨lines, hlines, hlread⟩ := (readLines_judged p3).passes hall
  simp only [hlines, blockValues_ok, except_ok_bind] at hfail hpass
  refine ⟨fun hk => hfail _ ((readPartitions_judged p4).block_fails hk 4 _), fun hall => ?_⟩
  obtain ⟨quota, hquota, hqread⟩ := (readPartitions_judged p4).passes hall
  simp only [hquota, blockValues_ok, except_ok_bind] at hfail hpass
  have hactions := readActions_judged hlread hqread p5
  refine ⟨fun hk => hfail _ (hactions.block_fails hk 5 _), fun hall => ?_⟩
  obtain ⟨amp, hamp, -⟩ := hactions.passes hall
  simp only [hamp, blockValues_ok, except_ok_bind] at hpass
  exact ⟨_, hpass _ rfl⟩

/-! ### What is accepted (R104, R105, R179, R180) -/

section
variable {n : Nat} {p1 p2 p3 p4 p5 : List Byte} {g : ImageConfig}

theorem ValuesRead.linesRead (h : ValuesRead n p1 p2 p3 p4 p5 g) : LinesRead p3 g.lines :=
  ((readLines_judged p3).of_ok h.lines).2

theorem ValuesRead.quotaRead (h : ValuesRead n p1 p2 p3 p4 p5 g) (q : Partition) : g.quota.get q = field p4 q 1 :=
  ((readPartitions_judged p4).of_ok h.partitions).2 q

theorem ValuesRead.mapRead (h : ValuesRead n p1 p2 p3 p4 p5 g) :
    MapRead g.lines g.quota p5 (p5.length / 29) g.amp :=
  ((readActions_judged h.linesRead h.quotaRead p5).of_ok h.actions).2

end

/-- Settles O12: each reader is judged by its block's checks, and what it reads is what the payload holds. -/
theorem acceptedImageIsInRange : Obligations.AcceptedImageIsInRange := by
  unfold Obligations.AcceptedImageIsInRange
  refine ⟨fun bytes p1 p2 p3 p4 p5 k himage => himage.values_in_order k,
    fun bytes p1 p2 p3 p4 p5 g himage hok => ?_, fun bytes g hok => ?_⟩
  · obtain ⟨bs, hp, -, hjudge⟩ := himage.judged
    have h := readValues_ok hp (judgeWhole_ok (hjudge ▸ hok))
    have hlocal := ((readLocal_judged p2).of_ok h.localBlock).2
    exact ⟨(station?_eq_some _ _).1 h.station, h.signature, ((readCluster_judged p1).of_ok h.cluster).2,
      congrArg Prod.fst hlocal, congrArg Prod.snd hlocal, h.quotaRead, fun l => (h.linesRead l).fields,
      fun n i hn hi => h.mapRead.get_of_item hn hi,
      fun i hi => (h.mapRead.free_iff i).2 fun n hn => (hi n hn).symm⟩
  · obtain ⟨bs, hwhole⟩ := judgeImage_ok hok
    have h := readValues_ok ⟨rfl, rfl, rfl, rfl, rfl⟩ (judgeWhole_ok hwhole)
    obtain ⟨hcluster, hc⟩ := (readCluster_judged _).of_ok h.cluster
    obtain ⟨hlocal, hl⟩ := (readLocal_judged _).of_ok h.localBlock
    obtain ⟨hquota, hq⟩ := (readPartitions_judged _).of_ok h.partitions
    have hthreshold : g.threshold = _ := congrArg Prod.snd hl
    simp only [clusterChecks, allPass_cons, inRange_iff] at hcluster
    simp only [localChecks, allPass_cons, inRange_iff] at hlocal
    simp only [partitionChecks, allPass_cons, Bool.and_eq_true, inRange_iff] at hquota
    obtain ⟨-, hbper, hquorum, hmaxCorr, ⟨-, hstable⟩, htent, hstab, hhold, hmiss, hlisten, ⟨-, hdelay⟩, hrepeat, -⟩ :=
      hcluster
    obtain ⟨-, -, hrange, -⟩ := hlocal
    obtain ⟨-, -, -, -, ⟨-, -, htotal⟩, -⟩ := hquota
    rw [hc, hthreshold, hq, hq, hq, hq]
    refine ⟨hbper, hquorum, hmaxCorr, hstable, htent, hstab, hhold, hmiss, hlisten, hdelay, hrepeat, hrange, htotal,
      fun l i hi => (hi ▸ h.linesRead l).input_ranges, fun i m hm => ?_⟩
    obtain ⟨n, -, hread⟩ := (h.mapRead.entries i m).1 hm
    exact hread.ranges

end Sys2Proof.Machine

/-! ## The schedule stays formed (O57) -/

namespace Sys2Proof.Machine

/-! ### An insertion by its checks (R120 to R123) -/

/-- No place is free: the entry is dropped (R122). -/
theorem spaceCheck_full (e : SchedEntry) (s : State) (h : s.scu.space.get e.part = 0) :
    spaceCheck e s =
      (s.withScu { s.scu with drops := s.scu.drops.set e.part (s.scu.drops.get e.part + 1) }).raiseFlag
        (Flags.raiseSchedFull e.part e.cls e.origin) := if_pos h

/-- The entry takes a place (R117, R123). -/
theorem spaceCheck_room (e : SchedEntry) (s : State) (h : s.scu.space.get e.part ≠ 0) :
    spaceCheck e s =
      s.withScu { s.scu with
        entries := insertEntry e s.scu.entries, space := s.scu.space.set e.part (s.scu.space.get e.part - 1) } :=
  if_neg h

/-- The late check has found an action late (R121). -/
def raisedLate (t : Trigger) (m : MapEntry) (s : State) : State :=
  s.raiseFlag
    (Flags.raiseLate t.cls t.origin (s.tbu.clusterTime.toNat - (t.stamp.toNat + m.offset)))

section
variable (t : Trigger) (i : MapIndex) (m : MapEntry) (s : State)

theorem insertAction_onTime (h : s.tbu.clusterTime.toNat < t.stamp.toNat + m.offset) :
    insertAction t s (i, m) = spaceCheck (schedEntryOf t i m false) s := by
  simp only [insertAction, if_neg h.not_ge]

theorem insertAction_lateDrop (h : t.stamp.toNat + m.offset ≤ s.tbu.clusterTime.toNat) (hm : m.late = .drop) :
    insertAction t s (i, m) =
      (raisedLate t m s).withScu { s.scu with lateDrop := s.scu.lateDrop + 1 } := by
  simp only [insertAction, if_pos h, hm]
  rfl

theorem insertAction_lateFire (h : t.stamp.toNat + m.offset ≤ s.tbu.clusterTime.toNat) (hm : m.late = .fire) :
    insertAction t s (i, m) =
      spaceCheck (schedEntryOf t i m true)
        ((raisedLate t m s).withScu { s.scu with lateFire := s.scu.lateFire + 1 }) := by
  simp only [insertAction, if_pos h, hm]
  rfl

/-- A due time beyond 64 bits is held at the largest (R120). -/
theorem schedEntryOf_capped (late : Bool) (h : (schedEntryOf t i m late).capped = true) :
    (schedEntryOf t i m late).due.toNat = 2 ^ 64 - 1 := by
  simp only [schedEntryOf, decide_eq_true_eq] at h
  simp only [schedEntryOf, BitVec.toNat_ofNat]
  omega

end

/-! ### What a step can do to the schedule -/

/-- What the invariants of the schedule read of it. -/
def scheduleView (s : State) : List SchedEntry × Vector Nat 4 × Vector Nat 4 :=
  (s.scu.entries, s.scu.space, s.scu.quota)

theorem scheduleView_of_scu {s t : State} (h : t.scu = s.scu) : scheduleView t = scheduleView s := by
  rw [scheduleView, h, scheduleView]

/-- All that can happen to the schedule short of load READY keeps a property: an entry takes a place that is free (R117,
R120, R123), the head leaves as it fires (R125), entries leave unfired (R130, R132), or the part is reset (R119). -/
structure ScheduleKept (P : State → Prop) : Prop where
  view : ∀ s t, scheduleView t = scheduleView s → P s → P t
  place : ∀ e s, (e.capped = true → e.due.toNat = 2 ^ 64 - 1) → s.scu.space.get e.part ≠ 0 → P s → P (spaceCheck e s)
  fire : ∀ before e rest s, s.scu.entries = e :: rest → P s → P (fireEntry before e rest s)
  remove : ∀ gone s, P s → P (removeUnfired gone s)
  reset : ∀ cause hold s, P (resetState cause hold s)

section
variable {P : State → Prop} (hP : ScheduleKept P)
include hP

theorem ScheduleKept.of_scu {s t : State} (h : P s) (ht : t.scu = s.scu) : P t :=
  hP.view s t (scheduleView_of_scu ht) h

theorem ScheduleKept.spaceCheck (e : SchedEntry) (s : State) (he : e.capped = true → e.due.toNat = 2 ^ 64 - 1)
    (h : P s) : P (spaceCheck e s) := by
  by_cases hs : s.scu.space.get e.part = 0
  · rw [spaceCheck_full e s hs]
    exact hP.view s _ rfl h
  · exact hP.place e s he hs h

/-- Only an action that passes the late check meets the space check (R121, R122). -/
theorem ScheduleKept.insertAction (t : Trigger) (im : MapIndex × MapEntry) (s : State) (h : P s) :
    P (insertAction t s im) := by
  obtain ⟨i, m⟩ := im
  rcases Nat.lt_or_ge s.tbu.clusterTime.toNat (t.stamp.toNat + m.offset) with hd | hd
  · rw [insertAction_onTime t i m s hd]
    exact hP.spaceCheck _ s (schedEntryOf_capped t i m false) h
  · cases hm : m.late with
    | drop =>
      rw [insertAction_lateDrop t i m s hd hm]
      exact hP.view s _ rfl h
    | fire =>
      rw [insertAction_lateFire t i m s hd hm]
      exact hP.spaceCheck _ _ (schedEntryOf_capped t i m true) (hP.view s _ rfl h)

theorem ScheduleKept.fireDue (before : Option Time) (s : State) (h : P s) : P (fireDue before s) :=
  fireDue_keeps P before (fun e rest s h _ he => hP.fire before e rest s he h) s h

theorem ScheduleKept.fireSome (before : Option Time) (s : State) (h : P s) : P (fireSome before s) :=
  fireSome_keeps P before (fun e rest s h _ he => hP.fire before e rest s he h) (fun s _ h => hP.view s _ rfl h) s h

theorem ScheduleKept.insertion (t : Trigger) (s : State) (im : MapIndex × MapEntry) (h : P s) :
    P (Machine.fireSome none (Machine.insertAction t s im)) :=
  hP.fireSome none _ (hP.insertAction t im s h)

theorem ScheduleKept.process (c : Cfg) (n : Nat) (t : Trigger) (s : State) (h : P s) : P (process c n t s) :=
  process_keeps P c hP.insertion (fun _ s h => hP.view s _ rfl h) (fun s h => hP.view s _ rfl h)
    (fun _ s h _ => hP.view s _ rfl h) n t s h

theorem ScheduleKept.raiseTrigger (c : Cfg) (k : TrigClass) (x : Time) (b : Bool) (s : State) (h : P s) :
    P (raiseTrigger c k x b s).1 :=
  raiseTrigger_keeps P c hP.insertion (fun _ s h => hP.view s _ rfl h) (fun s h => hP.view s _ rfl h)
    (fun _ _ s h _ => hP.view s _ rfl h) k x b s h

theorem ScheduleKept.judgeTriggerFrame (c : Cfg) (t : Trigger) (s : State) (h : P s) :
    P (judgeTriggerFrame c t s) :=
  judgeTriggerFrame_keeps P c t s h (fun s _ h _ _ _ => hP.view s _ rfl h) (fun _ => hP.view s _ rfl h)
    (fun s h _ => hP.process c 4 t s h)

theorem ScheduleKept.qualifyEdge (c : Cfg) (l : LineNo) (ic : InputCfg) (cand : Candidate) (s : State) (h : P s) :
    P (qualifyEdge c l ic cand s) :=
  qualifyEdge_keeps P c l ic cand s h (fun _ s h => hP.view s _ rfl h) (hP.raiseTrigger c)
    (fun s h => hP.view s _ rfl h) (fun _ _ h _ => hP.of_scu h (by simp))

/-- A change of sync state reaches the schedule by what fires within it, and by the flush (R56, R130, R148). -/
theorem ScheduleKept.changeState (c : Cfg) (new : SyncState) (r : Reason) (mid : State → State) (s : State)
    (hmid : mid = id ∨ ∃ b, mid = Machine.fireSome b) (h : P s) : P (changeState c new r mid s) := by
  have hset : P (setSyncState c new s) := hP.of_scu h (by simp)
  have hend : P (trainEnd (dropTime s.syc.state.synced (setSyncState c new s))) := hP.of_scu h (by simp)
  have hmet : P (mid (trainEnd (dropTime s.syc.state.synced (setSyncState c new s)))) := by
    rcases hmid with rfl | ⟨b, rfl⟩
    · exact hend
    · exact hP.fireSome b _ hend
  unfold Machine.changeState
  dsimp only
  split
  · split
    · exact hP.of_scu hset (by simp)
    · exact hP.of_scu (hP.remove (fun _ => true) (purge _) (hP.of_scu hmet rfl)) (by simp [flush])
  · exact hP.of_scu hset (by simp)

theorem ScheduleKept.correctionAt (c : Cfg) (b : Time) (s : State) (h : P s) : P (correctionAt c b s) := by
  rw [correctionAt_eq]
  exact settleEvent_keeps P c _ _ _ _ (hP.of_scu h (by simp [corrected, awaitNext]))
    (fun _ _ h => hP.of_scu h (by simp)) (hP.fireDue _) (hP.fireSome _)
    (fun new reason mid s h hmid _ => hP.changeState c new reason mid s (hmid.imp_right fun hm => ⟨_, hm⟩) h)

theorem ScheduleKept.deliverBeacon (c : Cfg) (b : Beacon) (l k : Time) (s : State) (h : P s) :
    P (deliverBeacon c b l k s) :=
  deliverBeacon_keeps P c b l k s h (fun _ s h => hP.view s _ rfl h)
    (fun _ => hP.changeState c _ _ id s (.inl rfl) h) (fun _ _ _ => hP.of_scu h (by simp))
    (fun _ _ h _ => hP.changeState c _ _ id _ (.inl rfl) (hP.of_scu h (by simp)))

theorem ScheduleKept.completeBeacon (leavingAtRef : Bool) (s : State) (h : P s) :
    P (completeBeacon leavingAtRef s) := by
  unfold Machine.completeBeacon
  dsimp only
  split
  · exact hP.reset _ _ _
  · exact hP.view s _ rfl h

/-- Every command keeps such a property, once load READY does. -/
theorem ScheduleKept.effect (i : Instr) (s t : State) (h : P s)
    (hready : ∀ b g, s.src.loadState = .loading → judgeImage (s.src.image ++ [b]) = .ok g →
      P (loadReady g (withByte b s))) (he : Effect i s t) : P t := by
  cases he with
  | reset | restartReset | leaveTimeout => exact hP.reset _ _ _
  | byteReady b g _ _ hl hj => exact hready b g hl hj
  | listenTimeout c => exact hP.changeState c _ _ id _ (.inl rfl) (hP.of_scu h (by simp))
  | correction c => exact hP.correctionAt c _ s h
  | collideTrigger c => exact hP.of_scu h (by rw [collideTrigger_frame]; rfl)
  | collideBeacon c => exact hP.of_scu h (by rw [collideBeacon_frame]; rfl)
  | completeBeacon _ _ _ l => exact hP.completeBeacon l _ (hP.view s _ rfl h)
  | beacon _ l k c b => exact hP.deliverBeacon c b l k _ (hP.view s _ rfl h)
  | trigger _ _ _ c t => exact hP.judgeTriggerFrame c t _ (hP.view s _ rfl h)
  | edge l c ic cand => exact hP.qualifyEdge c l ic cand s h
  | fire e rest _ _ hq => exact hP.fire none e rest s hq h
  | raise _ k c => exact hP.of_scu (hP.raiseTrigger c k _ true s h) rfl
  | cancel _ k => exact hP.of_scu (hP.remove (fun e => e.cls == k) s h) rfl
  | _ =>
    exact hP.of_scu h (by
      simp [Machine.release, Machine.tickInReset, Machine.tick, withByte, Machine.beaconDue, afterCollision,
        afterReception, Machine.completeTrigger, afterComplete, countReceived, beginLeave])

end

/-! ### The order (R117) -/

theorem ScheduleOrdered.of_sublist {s t : State} (h : ScheduleOrdered s)
    (ht : t.scu.entries.Sublist s.scu.entries) : ScheduleOrdered t := by
  obtain ⟨horder, hcapped⟩ := h
  exact ⟨horder.sublist ht, fun e he => hcapped e (ht.subset he)⟩

/-- An entry is placed behind all that it may not stand ahead of, and ahead of the rest. -/
theorem spaceCheck_ordered (e : SchedEntry) (s : State) (he : e.capped = true → e.due.toNat = 2 ^ 64 - 1)
    (hs : s.scu.space.get e.part ≠ 0) (h : ScheduleOrdered s) : ScheduleOrdered (spaceCheck e s) := by
  obtain ⟨horder, hcapped⟩ := h
  obtain ⟨front, back, hsplit, hplaced, hplace⟩ := insertEntry_split e s.scu.entries
  obtain ⟨hfront, hback⟩ := hplace horder
  rw [hsplit, List.pairwise_append] at horder
  obtain ⟨hf, hb, hfb⟩ := horder
  rw [spaceCheck_room e s hs]
  refine ⟨?_, fun x hx => ?_⟩
  · rw [State.withScu_scu, hplaced, List.pairwise_append, List.pairwise_cons]
    refine ⟨hf, ⟨fun x hx => (hback x hx).imp_right fun ⟨hdue, hi⟩ => ⟨hdue.symm, hi.le⟩, hb⟩, fun x hx y hy => ?_⟩
    rcases List.mem_cons.1 hy with rfl | hy
    · exact hfront x hx
    · exact hfb x hx y hy
  · rw [State.withScu_scu, hplaced, List.mem_append, List.mem_cons] at hx
    rcases hx with hx | rfl | hx
    · exact hcapped x (by rw [hsplit]; exact List.mem_append_left _ hx)
    · exact he
    · exact hcapped x (by rw [hsplit]; exact List.mem_append_right _ hx)

theorem scheduleOrdered_kept : ScheduleKept ScheduleOrdered where
  view s t hv h := h.of_sublist (by rw [show t.scu.entries = s.scu.entries from congrArg Prod.fst hv])
  place := spaceCheck_ordered
  fire before e rest s he h := h.of_sublist (by rw [fireEntry_entries, he]; exact List.sublist_cons_self e rest)
  remove gone s h := h.of_sublist List.filter_sublist
  reset cause hold s := by simp [ScheduleOrdered, Scu.reset]

/-- READY changes no entry, but that a part which was not in OFF would flush them. -/
theorem loadReady_ordered (b : Byte) (g : ImageConfig) (s : State) (h : ScheduleOrdered s) :
    ScheduleOrdered (loadReady g (withByte b s)) := by
  refine h.of_sublist ?_
  rw [loadReady, changeState_entries]
  split
  · exact List.nil_sublist _
  · simp [distribute, withByte]

theorem effect_ordered (i : Instr) (s t : State) (h : ScheduleOrdered s) (he : Effect i s t) : ScheduleOrdered t :=
  scheduleOrdered_kept.effect i s t h (fun b g _ _ => loadReady_ordered b g s h) he

/-! ### The places (R118) -/

theorem PlacesCounted.of_view {s t : State} (h : PlacesCounted s) (hv : scheduleView t = scheduleView s) :
    PlacesCounted t := by
  simp only [scheduleView, Prod.mk.injEq] at hv
  obtain ⟨hentries, hspace, hquota⟩ := hv
  exact ⟨fun p => by rw [placesTaken, hentries, hspace, hquota]; exact h.space p, by rw [hquota]; exact h.total⟩

theorem insertEntry_perm (e : SchedEntry) (xs : List SchedEntry) : (insertEntry e xs).Perm (e :: xs) := by
  obtain ⟨front, back, hsplit, hplaced, -⟩ := insertEntry_split e xs
  rw [hplaced, hsplit]
  exact List.perm_middle

/-- The space falls by the place that the entry takes. -/
theorem spaceCheck_placesCounted (e : SchedEntry) (s : State) (hs : s.scu.space.get e.part ≠ 0)
    (h : PlacesCounted s) : PlacesCounted (spaceCheck e s) := by
  refine ⟨fun p => ?_, by simpa using h.total⟩
  have hp := h.space p
  rw [spaceCheck_room e s hs]
  simp only [placesTaken, State.withScu_scu, (insertEntry_perm e _).countP_eq, List.countP_cons, get_set,
    beq_iff_eq] at hp ⊢
  split
  · rename_i he
    subst he
    omega
  · exact hp

/-- The place of the head returns. -/
theorem fireEntry_placesCounted (before : Option Time) (e : SchedEntry) (rest : List SchedEntry) (s : State)
    (he : s.scu.entries = e :: rest) (h : PlacesCounted s) : PlacesCounted (fireEntry before e rest s) := by
  refine ⟨fun p => ?_, by simpa using h.total⟩
  have hp := h.space p
  simp only [placesTaken, he, fireEntry_scu, List.countP_cons, freePlace_get, beq_iff_eq] at hp ⊢
  omega

/-- What leaves and what stays are the entries there were. -/
theorem removeUnfired_placesCounted (gone : SchedEntry → Bool) (s : State) (h : PlacesCounted s) :
    PlacesCounted (removeUnfired gone s) := by
  refine ⟨fun p => ?_, by simpa using h.total⟩
  have hp := h.space p
  simp only [placesTaken] at hp
  rw [List.countP_eq_countP_filter_add s.scu.entries (fun e => e.part == p) gone] at hp
  simp only [placesTaken, removeUnfired, State.withScu_scu, foldl_freePlace]
  omega

theorem placesCounted_kept : ScheduleKept PlacesCounted where
  view s t hv h := h.of_view hv
  place e s _ := spaceCheck_placesCounted e s
  fire := fireEntry_placesCounted
  remove := removeUnfired_placesCounted
  reset cause hold s := ⟨fun p => by simp [placesTaken, Scu.reset], by simp [Scu.reset]⟩

/-- An accepted image's quotas total at most 48 (R179). -/
theorem judgeImage_quota_total {bytes : List Byte} {g : ImageConfig} (h : judgeImage bytes = .ok g) :
    g.quota.get 0 + g.quota.get 1 + g.quota.get 2 + g.quota.get 3 ≤ 48 := by
  obtain ⟨-, -, hranges⟩ := acceptedImageIsInRange
  obtain ⟨-, -, -, -, -, -, -, -, -, -, -, -, htotal, -⟩ := hranges bytes g h
  exact htotal

/-- At READY the schedule is empty, and each partition's space is its quota (R119, R181). -/
theorem loadReady_placesCounted (b : Byte) (g : ImageConfig) (s : State) (h : Coherent s)
    (hl : s.src.loadState = .loading) (hj : judgeImage (s.src.image ++ [b]) = .ok g) :
    PlacesCounted (loadReady g (withByte b s)) := by
  have ho : s.syc.state = .off := h.off.2 (by simpa [hl] using h.configured)
  have hentries : s.scu.entries = [] := h.schedule (by simp [ho, SyncState.synced])
  refine placesCounted_kept.changeState _ _ _ id _ (.inl rfl) ⟨fun p => ?_, ?_⟩
  · simp [placesTaken, distribute, withByte, hentries]
  · simpa [distribute] using judgeImage_quota_total hj

theorem effect_placesCounted (i : Instr) (s t : State) (h : Coherent s ∧ PlacesCounted s) (he : Effect i s t) :
    Coherent t ∧ PlacesCounted t := by
  obtain ⟨hcoherent, hplaces⟩ := h
  exact ⟨effect_coherent i s t hcoherent he,
    placesCounted_kept.effect i s t hplaces (fun b g => loadReady_placesCounted b g s hcoherent) he⟩

/-- Settles O57, by what a command can do to the schedule. -/
theorem scheduleStaysFormed : Obligations.ScheduleStaysFormed := by
  unfold Obligations.ScheduleStaysFormed
  exact fun s t hst =>
    ⟨fun h => step_keeps_of_effect _ (fun _ _ h => h) effect_ordered s t h hst,
      fun hc hp => (step_keeps_of_effect _ (fun _ _ ⟨hc, hp⟩ => ⟨hc.of_view rfl, hp.of_view rfl⟩)
        effect_placesCounted s t ⟨hc, hp⟩ hst).2⟩

end Sys2Proof.Machine

/-! ## An insertion is judged (O37) -/

namespace Sys2Proof.Machine

/-- The flags as the late check leaves them (R121). -/
def lateFlags (t : Trigger) (m : MapEntry) (late : Bool) (s : State) : Flags :=
  if late then
    { s.rdp.flags with late := some (s.rdp.flags.late.getD (t.cls, t.origin,
      BitVec.ofNat 32 (min 4294967295 (s.tbu.clusterTime.toNat - (t.stamp.toNat + m.offset))))) }
  else s.rdp.flags

theorem lateFlags_schedFull (t : Trigger) (m : MapEntry) (late : Bool) (s : State) :
    (lateFlags t m late s).schedFull = s.rdp.flags.schedFull := by
  unfold lateFlags
  split <;> rfl

/-- The state that the space check of an action meets: a late one has been flagged and counted (R121). -/
def lateChecked (t : Trigger) (m : MapEntry) (late : Bool) (s : State) : State :=
  { s with
    scu := { s.scu with lateFire := if late then s.scu.lateFire + 1 else s.scu.lateFire },
    rdp := { s.rdp with flags := lateFlags t m late s } }

/-- An action that the late check lets pass goes on to the space check (R121). -/
theorem insertAction_passes (t : Trigger) (i : MapIndex) (m : MapEntry) (s : State) (late : Bool)
    (hlate : late = true ↔ t.stamp.toNat + m.offset ≤ s.tbu.clusterTime.toNat) (h : late = false ∨ m.late = .fire) :
    insertAction t s (i, m) = spaceCheck (schedEntryOf t i m late) (lateChecked t m late s) := by
  cases late with
  | false =>
    rw [insertAction_onTime t i m s (by simpa using hlate)]
    rfl
  | true =>
    rw [insertAction_lateFire t i m s (hlate.1 rfl) (h.resolve_left Bool.noConfusion)]
    rfl

/-- The entry of an insertion, with its due time held in 64 bits (R116, R120). -/
theorem schedEntryOf_eq (t : Trigger) (i : MapIndex) (m : MapEntry) (late : Bool) :
    schedEntryOf t i m late =
      { due := BitVec.ofNat 64 (min (t.stamp.toNat + m.offset) 18446744073709551615),
        capped := decide (18446744073709551615 < t.stamp.toNat + m.offset), lines := m.lines, action := m.action,
        cls := t.cls, origin := t.origin, sequence := t.sequence, index := i, part := m.part, journal := m.journal,
        late := late } := by
  have hcapped : decide (2 ^ 64 ≤ t.stamp.toNat + m.offset) =
      decide (18446744073709551615 < t.stamp.toNat + m.offset) := by
    rw [decide_eq_decide]
    omega
  rw [schedEntryOf, hcapped]
  rfl

/-- Settles O37, by the late check and then the space check. -/
theorem insertionIsJudged : Obligations.InsertionIsJudged := by
  unfold Obligations.InsertionIsJudged
  intro t i m s late e f hlate he hf
  obtain rfl : e = schedEntryOf t i m late := he.trans (schedEntryOf_eq t i m late).symm
  obtain rfl : f = lateFlags t m late s := hf
  refine ⟨fun hl hm => ?_, fun h => ⟨fun hfull => ?_, fun hroom => ?_⟩⟩
  · subst hl
    rw [insertAction_lateDrop t i m s (hlate.1 rfl) hm]
    rfl
  · rw [insertAction_passes t i m s late hlate h, spaceCheck_full _ _ hfull, ← lateFlags_schedFull t m late s]
    rfl
  · obtain ⟨ahead, behind, hsplit, hplaced, hplace⟩ := insertEntry_split (schedEntryOf t i m late) s.scu.entries
    refine ⟨ahead, behind, hsplit, fun hs => hplace hs.1, ?_⟩
    rw [insertAction_passes t i m s late hlate h, spaceCheck_room _ _ hroom, ← hplaced]
    rfl

end Sys2Proof.Machine

/-! ## The head of the schedule fires, and the entries of a forward step (O44) -/

namespace Sys2Proof.Machine

/-! ### A fire command at its line (R126, R140 to R145) -/

/-- What a fire command at a line reads: the line's mode, the sync state, and the line's channel with its overrun
count. -/
def lineView (l : LineNo) (s : State) : LineCfg × SyncState × Channel × Counter :=
  (s.tlu.lines.get l, s.syc.state, s.tlu.channels.get l, s.tlu.overruns.get l)

theorem lineView_eq_iff {l : LineNo} {s t : State} :
    lineView l s = lineView l t ↔
      s.tlu.lines.get l = t.tlu.lines.get l ∧ s.syc.state = t.syc.state ∧
        s.tlu.channels.get l = t.tlu.channels.get l ∧ s.tlu.overruns.get l = t.tlu.overruns.get l := by
  simp only [lineView, Prod.mk.injEq]

/-- A channel ignores a PULSE and a TRAIN in HELD, and under KEEP outside IDLE (R140, R141). -/
theorem Channel.take_eq_none (policy : Retrigger) (a : Action) (ch : Channel) :
    ch.take policy a = none ↔
      (a.kind = .pulse ∨ a.kind = .train) ∧ (ch = .held ∨ (ch ≠ .idle ∧ policy = .keep)) := by
  cases a with
  | set | clear => simp [Channel.take, Action.kind]
  | pulse | train =>
    cases ch with
    | idle | held => simp [Channel.take, Action.kind, Channel.state]
    | active | gap => cases policy <;> simp [Channel.take, Action.kind, Channel.state]

theorem Action.limited_kind (x : SyncState) (a : Action) : (a.limited x).kind = a.kind := by
  cases a with
  | train w p n => rw [Action.limited]; split <;> rfl
  | _ => rfl

/-- A command that the channel ignores is an overrun (R145). -/
theorem fireCommand_ignored {a : Action} {s : State} {l : LineNo} (h : Ignores s a l) :
    fireCommand a s l = countOverrun l a.kind s := by
  obtain ⟨hkind, high, policy, hline, hchannel⟩ := h
  have hnone := (Channel.take_eq_none policy (a.limited s.syc.state) (s.tlu.channels.get l)).2
    ⟨by rw [Action.limited_kind]; exact hkind, hchannel⟩
  rw [fireCommand, hline]
  dsimp only
  rw [hnone]

/-- A command that is not ignored reaches its line's channel alone, or nothing where the line is not OUTPUT. -/
theorem fireCommand_taken {a : Action} {s : State} {l : LineNo} (h : ¬Ignores s a l) :
    fireCommand a s l = s ∨ ∃ ch, fireCommand a s l = setChannel l ch s := by
  unfold fireCommand
  split
  · rename_i high policy hline
    split
    · exact .inr ⟨_, rfl⟩
    · rename_i hnone
      rw [Channel.take_eq_none, Action.limited_kind] at hnone
      obtain ⟨hkind, hchannel⟩ := hnone
      exact absurd ⟨hkind, high, policy, hline, hchannel⟩ h
  · exact .inl rfl
  · exact .inl rfl

theorem Ignores.congr {a : Action} {s t : State} {l : LineNo} (h : lineView l s = lineView l t)
    (hi : Ignores s a l) : Ignores t a l := by
  obtain ⟨hline, -, hchannel, -⟩ := lineView_eq_iff.1 h
  unfold Ignores at *
  rwa [← hline, ← hchannel]

/-- Nothing of another line changes. -/
theorem fireCommand_lineView_ne (a : Action) (s : State) {k l : LineNo} (h : k ≠ l) :
    lineView l (fireCommand a s k) = lineView l s := by
  by_cases hi : Ignores s a k
  · rw [fireCommand_ignored hi]
    simp [lineView, countOverrun, get_set_ne _ _ _ _ h]
  · obtain ht | ⟨ch, ht⟩ := fireCommand_taken hi
    · rw [ht]
    · rw [ht]
      simp [lineView, setChannel, get_set_ne _ _ _ _ h]

theorem fireCommand_lineView_congr (a : Action) {s t : State} {l : LineNo} (h : lineView l s = lineView l t) :
    lineView l (fireCommand a s l) = lineView l (fireCommand a t l) := by
  obtain ⟨hline, hstate, hchannel, hoverruns⟩ := lineView_eq_iff.1 h
  have hlimited := congrArg (fun x => a.limited x) hstate
  simp only [fireCommand, hline, hchannel, hlimited]
  split
  · split
    · simp [lineView, setChannel, hline, hstate, hoverruns]
    · simp [lineView, countOverrun, hline, hstate, hchannel, hoverruns]
  · exact h
  · exact h

/-- What a fire command changes, and nothing else (R126, R145). -/
def Commanded (s t : State) : Prop :=
  t = { s with
    tlu := { s.tlu with channels := t.tlu.channels, overruns := t.tlu.overruns },
    rdp := { s.rdp with flags := { s.rdp.flags with overrun := t.rdp.flags.overrun } } }

theorem Commanded.trans {s t u : State} (hst : Commanded s t) (htu : Commanded t u) : Commanded s u := by
  unfold Commanded at *
  rw [htu, hst]

theorem fireCommand_commanded (a : Action) (s : State) (l : LineNo) : Commanded s (fireCommand a s l) := by
  by_cases hi : Ignores s a l
  · rw [fireCommand_ignored hi]
    rfl
  · rcases fireCommand_taken hi with ht | ⟨ch, ht⟩ <;> rw [ht] <;> rfl

/-! ### The commands of one entry (R126) -/

theorem mem_lineList (x : LineSet) (l : LineNo) : l ∈ lineList x ↔ x.getLsbD l = true := by
  simp [lineList]

theorem lineList_ascending (x : LineSet) : (lineList x).Pairwise (· < ·) :=
  (List.pairwise_lt_finRange 8).filter _

section
variable (a : Action)

theorem foldl_fireCommand_commanded (ls : List LineNo) (s : State) : Commanded s (ls.foldl (fireCommand a) s) :=
  foldl_keeps (Commanded s) (fireCommand a) (fun t l h => h.trans (fireCommand_commanded a t l)) ls s rfl

/-- A line that is not named stands. -/
theorem foldl_fireCommand_lineView_not_mem (ls : List LineNo) (s : State) (l : LineNo) (h : l ∉ ls) :
    lineView l (ls.foldl (fireCommand a) s) = lineView l s := by
  induction ls generalizing s with
  | nil => rfl
  | cons k ks ih =>
    rw [List.mem_cons, not_or] at h
    rw [List.foldl_cons, ih _ h.2, fireCommand_lineView_ne a s (Ne.symm h.1)]

/-- A line that is named takes its command as if it were alone. -/
theorem foldl_fireCommand_lineView_mem (ls : List LineNo) (s : State) (l : LineNo) (hls : ls.Pairwise (· < ·))
    (h : l ∈ ls) : lineView l (ls.foldl (fireCommand a) s) = lineView l (fireCommand a s l) := by
  induction ls generalizing s with
  | nil => cases h
  | cons k ks ih =>
    rw [List.pairwise_cons] at hls
    obtain ⟨hk, hks⟩ := hls
    rw [List.foldl_cons]
    rcases List.mem_cons.1 h with rfl | hl
    · exact foldl_fireCommand_lineView_not_mem a ks _ l fun hl => lt_irrefl l (hk l hl)
    · rw [ih _ hks hl]
      exact fireCommand_lineView_congr a (fireCommand_lineView_ne a s (hk l hl).ne)

/-- Where no line ignores its command OVERRUN stands (R145). -/
theorem foldl_fireCommand_overrun_stands (ls : List LineNo) (s : State) (hls : ls.Pairwise (· < ·))
    (h : ∀ l ∈ ls, ¬Ignores s a l) : (ls.foldl (fireCommand a) s).rdp.flags.overrun = s.rdp.flags.overrun := by
  induction ls generalizing s with
  | nil => rfl
  | cons k ks ih =>
    rw [List.pairwise_cons] at hls
    obtain ⟨hk, hks⟩ := hls
    have hflags : (fireCommand a s k).rdp.flags = s.rdp.flags := by
      obtain ht | ⟨ch, ht⟩ := fireCommand_taken (h k List.mem_cons_self)
      · rw [ht]
      · rw [ht]; rfl
    rw [List.foldl_cons, ih _ hks, hflags]
    exact fun l hl hi =>
      h l (List.mem_cons_of_mem k hl) (hi.congr (fireCommand_lineView_ne a s (hk l hl).ne))

/-- OVERRUN keeps its first capture (R171). -/
theorem foldl_fireCommand_overrun_held (ls : List LineNo) (s : State) (x : LineNo × OutKind × ChanState)
    (h : s.rdp.flags.overrun = some x) : (ls.foldl (fireCommand a) s).rdp.flags.overrun = some x := by
  refine foldl_keeps (fun t => t.rdp.flags.overrun = some x) (fireCommand a) (fun t l ht => ?_) ls s h
  by_cases hi : Ignores t a l
  · rw [fireCommand_ignored hi, countOverrun_flags]
    simp [firstCapture, ht]
  · rcases fireCommand_taken hi with hc | ⟨ch, hc⟩ <;> rw [hc] <;> exact ht

/-- The lowest line that ignores its command raises OVERRUN (R126, R145). -/
theorem foldl_fireCommand_overrun_raised (ls : List LineNo) (s : State) (l : LineNo) (hls : ls.Pairwise (· < ·))
    (hl : l ∈ ls) (hi : Ignores s a l) (hlow : ∀ k ∈ ls, k < l → ¬Ignores s a k) :
    (ls.foldl (fireCommand a) s).rdp.flags.overrun =
      some (s.rdp.flags.overrun.getD (l, a.kind, (s.tlu.channels.get l).state)) := by
  obtain ⟨lower, upper, rfl⟩ := List.append_of_mem hl
  obtain ⟨hlower, -, hbetween⟩ := List.pairwise_append.1 hls
  have hbelow : ∀ k ∈ lower, k < l := fun k hk => hbetween k hk l List.mem_cons_self
  have hoverrun := foldl_fireCommand_overrun_stands a lower s hlower fun k hk =>
    hlow k (List.mem_append_left _ hk) (hbelow k hk)
  have hview := foldl_fireCommand_lineView_not_mem a lower s l fun hk => lt_irrefl l (hbelow l hk)
  obtain ⟨-, -, hchannel, -⟩ := lineView_eq_iff.1 hview
  rw [List.foldl_append, List.foldl_cons]
  refine foldl_fireCommand_overrun_held a upper _ _ ?_
  rw [fireCommand_ignored (hi.congr hview.symm), countOverrun_flags, hoverrun, hchannel]
  rfl

end

/-! ### The firing of the head (R125 to R127) -/

/-- The state in which the head takes its leave: its place has returned, and its commands have gone out. -/
def commanded (e : SchedEntry) (rest : List SchedEntry) (s : State) : State :=
  (lineList e.lines).foldl (fireCommand e.action)
    (s.withScu { s.scu with entries := rest, space := freePlace e.part s.scu.space })

theorem commanded_eq (e : SchedEntry) (rest : List SchedEntry) (s : State) :
    commanded e rest s = { s with
      scu := { s.scu with entries := rest, space := freePlace e.part s.scu.space },
      tlu := { s.tlu with
        channels := (commanded e rest s).tlu.channels, overruns := (commanded e rest s).tlu.overruns },
      rdp := { s.rdp with
        flags := { s.rdp.flags with overrun := (commanded e rest s).rdp.flags.overrun } } } :=
  foldl_fireCommand_commanded e.action (lineList e.lines) _

theorem fireEntry_unjournaled (before : Option Time) (e : SchedEntry) (rest : List SchedEntry) (s : State)
    (h : e.journal = false) : fireEntry before e rest s = commanded e rest s := by
  simp only [fireEntry, h]
  rfl

theorem fireEntry_journaled (before : Option Time) (e : SchedEntry) (rest : List SchedEntry) (s : State)
    (h : e.journal = true) :
    fireEntry before e rest s = handRecord (fireRecord before e s) .fire (commanded e rest s) := by
  have hrecord : fireRecord before e (commanded e rest s) = fireRecord before e s := by
    rw [commanded_eq]
    rfl
  rw [← hrecord]
  simp only [fireEntry, h]
  rfl

/-- At the lines and for OVERRUN a firing is its commands. -/
theorem fireEntry_commanded (before : Option Time) (e : SchedEntry) (rest : List SchedEntry) (s : State) :
    (fireEntry before e rest s).tlu = (commanded e rest s).tlu ∧
      (fireEntry before e rest s).rdp.flags.overrun = (commanded e rest s).rdp.flags.overrun := by
  cases hj : e.journal with
  | false => rw [fireEntry_unjournaled before e rest s hj]; exact ⟨rfl, rfl⟩
  | true =>
    rw [fireEntry_journaled before e rest s hj, handRecord_tlu, handRecord_flags_but]
    exact ⟨rfl, rfl⟩

/-- What a firing changes, and nothing else (R125 to R127). -/
theorem fireEntry_eq (before : Option Time) (e : SchedEntry) (rest : List SchedEntry) (s : State) :
    fireEntry before e rest s = { s with
      scu := { s.scu with entries := rest, space := freePlace e.part s.scu.space },
      tlu := { s.tlu with
        channels := (fireEntry before e rest s).tlu.channels,
        overruns := (fireEntry before e rest s).tlu.overruns },
      jnl := (fireEntry before e rest s).jnl,
      rdp := { s.rdp with flags := { s.rdp.flags with
        overrun := (fireEntry before e rest s).rdp.flags.overrun,
        journalLost := (fireEntry before e rest s).rdp.flags.journalLost } } } := by
  have hcommanded := commanded_eq e rest s
  cases hj : e.journal with
  | false =>
    rw [fireEntry_unjournaled before e rest s hj]
    generalize commanded e rest s = y at *
    rw [hcommanded]
  | true =>
    have hhand := handRecord_eq (fireRecord before e s) .fire (commanded e rest s)
    have hflags := handRecord_flags_but (fireRecord before e s) .fire (commanded e rest s)
    rw [fireEntry_journaled before e rest s hj]
    generalize handRecord (fireRecord before e s) .fire (commanded e rest s) = z at *
    generalize commanded e rest s = y at *
    rw [hhand, hflags, hcommanded]

/-- Whether JOURNAL_LOST is raised depends on the journal and that flag alone (R163, R164). -/
theorem handRecord_journalLost_eq (r : Record) (k : LostKind) (s t : State) (h : s.jnl = t.jnl)
    (hf : s.rdp.flags.journalLost = t.rdp.flags.journalLost) :
    (handRecord r k s).rdp.flags.journalLost = (handRecord r k t).rdp.flags.journalLost := by
  simp only [handRecord, loseRecord, h]
  split_ifs <;> simp [hf, State.raiseFlag, Flags.raiseJournalLost]

/-- The FIRE record is handed over as to the state before the firing (R127). -/
theorem fireEntry_hands (before : Option Time) (e : SchedEntry) (rest : List SchedEntry) (s : State)
    (h : e.journal = true) :
    (fireEntry before e rest s).jnl = (handRecord (fireRecord before e s) .fire s).jnl ∧
      (fireEntry before e rest s).rdp.flags.journalLost =
        (handRecord (fireRecord before e s) .fire s).rdp.flags.journalLost := by
  have hjnl : (commanded e rest s).jnl = s.jnl := by rw [commanded_eq]
  have hlost : (commanded e rest s).rdp.flags.journalLost = s.rdp.flags.journalLost := by rw [commanded_eq]
  rw [fireEntry_journaled before e rest s h]
  exact ⟨handRecord_jnl_eq _ _ _ _ hjnl, handRecord_journalLost_eq _ _ _ _ hjnl hlost⟩

theorem fireEntry_silent (before : Option Time) (e : SchedEntry) (rest : List SchedEntry) (s : State)
    (h : e.journal = false) :
    (fireEntry before e rest s).jnl = s.jnl ∧
      (fireEntry before e rest s).rdp.flags.journalLost = s.rdp.flags.journalLost := by
  rw [fireEntry_unjournaled before e rest s h, commanded_eq]
  exact ⟨rfl, rfl⟩

section
variable (before : Option Time) (e : SchedEntry) (rest : List SchedEntry) (s : State)

theorem fireEntry_lineView (l : LineNo) :
    lineView l (fireEntry before e rest s) = lineView l (commanded e rest s) := by
  obtain ⟨htlu, -⟩ := fireEntry_commanded before e rest s
  have hsyc : (commanded e rest s).syc = s.syc := by rw [commanded_eq]
  rw [lineView, htlu, fireEntry_syc, ← hsyc, lineView]

/-- Each line of the set takes its command (R126). -/
theorem fireEntry_lineView_mem (l : LineNo) (h : e.lines.getLsbD l = true) :
    lineView l (fireEntry before e rest s) = lineView l (fireCommand e.action s l) := by
  rw [fireEntry_lineView, commanded, foldl_fireCommand_lineView_mem e.action _ _ l (lineList_ascending e.lines)
    ((mem_lineList e.lines l).2 h)]
  exact fireCommand_lineView_congr e.action rfl

theorem fireEntry_lineView_not_mem (l : LineNo) (h : e.lines.getLsbD l = false) :
    lineView l (fireEntry before e rest s) = lineView l s := by
  rw [fireEntry_lineView, commanded, foldl_fireCommand_lineView_not_mem e.action _ _ l
    (by rw [mem_lineList, h]; exact Bool.false_ne_true)]
  rfl

theorem fireEntry_overrun_raised (l : LineNo) (hl : e.lines.getLsbD l = true) (hi : Ignores s e.action l)
    (hlow : ∀ j : LineNo, j < l → e.lines.getLsbD j = true → ¬Ignores s e.action j) :
    (fireEntry before e rest s).rdp.flags.overrun =
      some (s.rdp.flags.overrun.getD (l, e.action.kind, (s.tlu.channels.get l).state)) := by
  obtain ⟨-, hoverrun⟩ := fireEntry_commanded before e rest s
  rw [hoverrun]
  exact foldl_fireCommand_overrun_raised e.action _ _ l (lineList_ascending e.lines) ((mem_lineList e.lines l).2 hl)
    (hi.congr rfl) fun j hj hlt hij => hlow j hlt ((mem_lineList e.lines j).1 hj) (hij.congr rfl)

theorem fireEntry_overrun_stands (h : ∀ l : LineNo, e.lines.getLsbD l = true → ¬Ignores s e.action l) :
    (fireEntry before e rest s).rdp.flags.overrun = s.rdp.flags.overrun := by
  obtain ⟨-, hoverrun⟩ := fireEntry_commanded before e rest s
  rw [hoverrun]
  exact foldl_fireCommand_overrun_stands e.action _ _ (lineList_ascending e.lines) fun l hl hi =>
    h l ((mem_lineList e.lines l).1 hl) (hi.congr rfl)

end

/-! ### ENTRY_DUE (R120, R125) -/

theorem execEntryDue_due (e : SchedEntry) (rest : List SchedEntry) (s : State) (hr : s.src.inReset = false)
    (he : s.scu.entries = e :: rest) (hs : s.syc.state.synced = true) (hd : e.isDue s.tbu.clusterTime = true) :
    exec .entryDue s = .next (fireEntry none e rest s) := by
  change execEntryDue s = _
  rw [execEntryDue, live_running s _ hr, he]
  dsimp only
  rw [if_pos ⟨hs, hd⟩]

theorem execEntryDue_waits (e : SchedEntry) (rest : List SchedEntry) (s : State) (hr : s.src.inReset = false)
    (he : s.scu.entries = e :: rest) (hd : e.isDue s.tbu.clusterTime = false) : exec .entryDue s = .next s := by
  change execEntryDue s = _
  rw [execEntryDue, live_running s _ hr, he]
  dsimp only
  rw [if_neg (by simp [hd])]

/-! ### The firings of a forward step (R128) -/

theorem SyncState.standsDown_of_synced {x : SyncState} (h : x.synced = true) : x.standsDown = false :=
  SyncState.standsDown_of_active (SyncState.active_of_synced h)

theorem SyncState.basis_of_synced {x : SyncState} (h : x.synced = true) : x.basis = .cluster := by
  cases x <;> simp_all [SyncState.basis, SyncState.synced]

/-- The entries at the head of the schedule that are due (R125). -/
def dueEntries (s : State) : List SchedEntry := s.scu.entries.takeWhile fun e => e.isDue s.tbu.clusterTime

theorem dueEntries_nil {s : State} (h : headDue s = false) : dueEntries s = [] := by
  unfold headDue at h
  unfold dueEntries
  split at h
  · rename_i e rest he
    rw [he, List.takeWhile_cons, h]
    rfl
  · rename_i he
    rw [he]
    rfl

theorem Alike.mono {whole part : Prop} {s t : State} (h : Alike whole s t) (hp : part → whole) : Alike part s t :=
  { h with journal := fun hpart => h.journal (hp hpart) }

/-- The items that `Alike` reads on its left are as they were. -/
theorem Alike.of_eq {whole : Prop} {s t x : State} (h : Alike whole s x) (htlu : t.tlu = s.tlu) (htbu : t.tbu = s.tbu)
    (hstate : t.syc.state.standsDown = s.syc.state.standsDown) (hjnl : t.jnl = s.jnl)
    (hflags : t.rdp.flags = s.rdp.flags) : Alike whole t x := by
  obtain ⟨hchannels, hoverruns, hlines, htime, hlimited, hbut, hjournal⟩ := h
  exact ⟨by rw [htlu, hchannels], by rw [htlu, hoverruns], by rw [htlu, hlines], by rw [htbu, htime],
    by rw [hstate, hlimited], by rw [hflags]; exact hbut, by rw [hjnl, hflags]; exact hjournal⟩

/-- Some have fired, and then all that are still due: each due entry once. -/
theorem Fired.append_dueEntries {n : Nat} {s y z : State} (h : Fired n s y) (hscu : z.scu = y.scu)
    (htime : z.tbu.clusterTime = s.tbu.clusterTime) : s.scu.entries.take n ++ dueEntries z = dueEntries s := by
  rw [dueEntries, dueEntries, hscu, h.entries, htime, ← List.takeWhile_append_of_pos h.due, List.take_append_drop]

/-- A change into a synchronized state out of one is, but for its record, nothing to a firing (R39 to R41, R156). -/
theorem Alike.changeState {s x : State} (h : Alike False s x) (c : Cfg) (new : SyncState) (r : Reason)
    (mid : State → State) (hn : new.synced = true) (hs : s.syc.state.synced = true) :
    Alike False (changeState c new r mid s) x := by
  have hstands := SyncState.standsDown_of_synced hn
  rw [changeState_moves c new r mid s hstands, writeStateRecord_hands]
  refine Alike.record ?_ _ _
  obtain ⟨hchannels, hoverruns, hlines, htime, hlimited, hbut, -⟩ := h
  refine ⟨by simpa using hchannels, by simpa using hoverruns, by simpa using hlines, by simpa using htime, ?_,
    by simpa using hbut, False.elim⟩
  rw [← hlimited, setSyncState_syc, hstands, SyncState.standsDown_of_synced hs]

/-- All that is due has fired between `s` and `t`, each entry once and in order; `x` is what the first firing sees. -/
structure FiredAllDue (whole : Prop) (before : Time) (s x t : State) : Prop where
  fired : Fired (dueEntries s).length s t
  alike : Alike whole t ((dueEntries s).foldl (fireAtEvent before) x)

theorem fireDue_firesAllDue {whole : Prop} (before : Time) (s x : State) (h : Alike whole s x) :
    FiredAllDue whole before s x (fireDue (some before) s) := by
  obtain ⟨fired, hfired, hrun, halike⟩ := fireDueFrom_fires before _ s x rfl h
  subst hfired
  exact ⟨hrun, halike⟩

/-- Whichever of them fire ahead of the change, the others fire behind it (R128; log 12). -/
theorem changeOvertaking_firesAllDue (c : Cfg) (new : SyncState) (reason : Reason) (before : Time) (s x : State)
    (hn : new.synced = true) (hs : s.syc.state.synced = true) (hx : Alike False s x) :
    FiredAllDue False before s x (changeOvertaking c new reason before s) := by
  obtain ⟨n, hsome, halike⟩ := fireSome_fired before s x hx
  have hstands := SyncState.standsDown_of_synced hn
  have hmoved := halike.changeState c new reason (fireSome (some before)) hn (by rw [fireSome_syc]; exact hs)
  have hscu : (changeState c new reason (fireSome (some before)) (fireSome (some before) s)).scu =
      (fireSome (some before) s).scu := by
    simp [changeState_moves c new reason _ _ hstands]
  have htime : (changeState c new reason (fireSome (some before)) (fireSome (some before) s)).tbu.clusterTime =
      s.tbu.clusterTime := by rw [changeState_clusterTime _ _ _ _ _ (by simp), fireSome_tbu]
  unfold changeOvertaking
  generalize changeState c new reason (fireSome (some before)) (fireSome (some before) s) = y at *
  obtain ⟨hrun, halike⟩ := fireDue_firesAllDue before y _ hmoved
  have hall := hsome.append_dueEntries hscu htime
  have hlength : n + (dueEntries y).length = (dueEntries s).length := by
    rw [← hall, List.length_append, List.length_take_of_le hsome.length]
  refine ⟨?_, ?_⟩
  · rw [← hlength]
    exact hsome.add hrun hscu htime
  · rw [← hall, List.foldl_append]
    exact halike

/-- An event with a forward step that ends in a synchronized state fires all that is due; where it moves to no other
state its journal is that of the firings (R128). -/
theorem settleEvent_firesAllDue (c : Cfg) (o : Outcome) (a : Nat) (before : Time) (s x : State)
    (hf : o.forward = true) (hs : s.syc.state.synced = true)
    (hn : ∀ new reason, (judgeEvent c o a s.syc).1 = some (new, reason) → new.synced = true) (hx : Alike True s x) :
    FiredAllDue ((judgeEvent c o a s.syc).1 = none) before s x (settleEvent c o a before s) := by
  cases hj : (judgeEvent c o a s.syc).1 with
  | none =>
    obtain ⟨⟨hlen, hdue, hentries, hspace, hrest⟩, halike⟩ := fireDue_firesAllDue before s x hx
    rw [settleEvent_stays c o a before s hj, if_pos hf]
    exact ⟨⟨hlen, hdue, hentries, hspace, hrest⟩, (halike.mono fun _ => trivial).of_eq rfl rfl rfl rfl rfl⟩
  | some change =>
    obtain ⟨new, reason⟩ := change
    have hnew := hn new reason hj
    have hpart : Alike False s x := hx.mono False.elim
    suffices h : FiredAllDue False before s x (settleEvent c o a before s) from
      ⟨h.fired, h.alike.mono nofun⟩
    cases hd : headDue s with
    | true =>
      rw [settleEvent_moves c o a before s new reason hj, if_pos (by simp [hd, hf])]
      exact changeOvertaking_firesAllDue c new reason before s x hnew hs hpart
    | false =>
      have hstands := SyncState.standsDown_of_synced hnew
      rw [settleEvent_unmet c o a before s new reason hj (.inl hd)]
      refine ⟨?_, ?_⟩
      · rw [dueEntries_nil hd]
        exact Fired.none _ _ (by rw [changeState_moves_frame c new reason s hstands])
      · rw [dueEntries_nil hd]
        exact hpart.changeState c new reason id hnew hs

/-- An applied correction moves a synchronized part to a synchronized state, but where holdover expires (R50 to R52). -/
theorem judgeEvent_applied_synced (c : Cfg) (x : Int) (a : Nat) (y : Syc) (hy : y.state.synced = true)
    (he : ¬Expires c a y) (new : SyncState) (reason : Reason)
    (hj : (judgeEvent c (.applied x) a y).1 = some (new, reason)) : new.synced = true := by
  obtain ⟨-, rfl | rfl | rfl | rfl, -⟩ := judgeEvent_change c _ a y new reason hj
  · rfl
  · rfl
  · rfl
  · cases hstate : y.state with
    | sync | stable =>
      simp only [judgeEvent, hstate] at hj
      split_ifs at hj <;> cases hj
    | holdover =>
      simp only [judgeEvent, hstate] at hj
      split_ifs at hj with hq hr
      · cases hj
      · exact absurd ⟨hstate, by simpa using hq, hr⟩ he
    | _ => simp [hstate, SyncState.synced] at hy

theorem judgeEvent_keepsState (c : Cfg) (x : Int) (a : Nat) (y : Syc) (h : KeepsState c x a y) :
    (judgeEvent c (.applied x) a y).1 = none := by
  rcases h with ⟨hy, hq, hr⟩ | ⟨hy, hq, hb⟩ | ⟨hy, hq, hr⟩
  · by_cases hb : x.natAbs ≤ c.cluster.stableBound
    · simp [judgeEvent, hy, hq, hb, hr hb]
    · simp [judgeEvent, hy, hq, hb]
  · simp [judgeEvent, hy, hq, hb.not_gt]
  · simp [judgeEvent, hy, hq.not_ge, hr]

/-! ### What is left of a schedule in order (R117) -/

theorem take_length_takeWhile {α : Type} (p : α → Bool) (xs : List α) :
    xs.take (xs.takeWhile p).length = xs.takeWhile p :=
  (congrArg (List.take (xs.takeWhile p).length) List.takeWhile_append_dropWhile.symm).trans List.take_left

theorem drop_length_takeWhile {α : Type} (p : α → Bool) (xs : List α) :
    xs.drop (xs.takeWhile p).length = xs.dropWhile p :=
  (congrArg (List.drop (xs.takeWhile p).length) List.takeWhile_append_dropWhile.symm).trans List.drop_left

/-- Of entries in ascending due time, of which those up to `now` go, what is left is what lies behind it. -/
theorem mem_dropWhile_due {p : SchedEntry → Bool} {now : Nat} {xs : List SchedEntry}
    (ho : xs.Pairwise fun a b => a.due.toNat ≤ b.due.toNat) (hp : ∀ e ∈ xs, p e = true ↔ e.due.toNat ≤ now)
    (e : SchedEntry) : e ∈ xs.dropWhile p ↔ e ∈ xs ∧ now < e.due.toNat := by
  induction xs with
  | nil => simp
  | cons x xs ih =>
    rw [List.pairwise_cons] at ho
    obtain ⟨hx, ho⟩ := ho
    have hpx := hp x List.mem_cons_self
    cases hd : p x with
    | true =>
      have hle : x.due.toNat ≤ now := hpx.1 hd
      rw [List.dropWhile_cons_of_pos hd, ih ho fun y hy => hp y (List.mem_cons_of_mem x hy), List.mem_cons]
      constructor
      · exact fun ⟨he, hlt⟩ => ⟨.inr he, hlt⟩
      · rintro ⟨rfl | he, hlt⟩
        · omega
        · exact ⟨he, hlt⟩
    | false =>
      have hlt : now < x.due.toNat := by
        rw [← not_le, ← hpx, hd]
        exact Bool.false_ne_true
      rw [List.dropWhile_cons_of_neg (by simp [hd])]
      refine ⟨fun he => ⟨he, ?_⟩, And.left⟩
      rcases List.mem_cons.1 he with rfl | he
      · exact hlt
      · exact hlt.trans_le (hx e he)

/-- Below the largest cluster time, or with no due time held there, exactly the entries whose due time has come are due
(R120, R125). -/
theorem mem_drop_due {s : State} (now : Time) (hs : ScheduleOrdered s)
    (hc : now.toNat < 2 ^ 64 - 1 ∨ ∀ e ∈ s.scu.entries, e.capped = false) (e : SchedEntry) :
    e ∈ s.scu.entries.drop (s.scu.entries.takeWhile fun e => e.isDue now).length ↔
      e ∈ s.scu.entries ∧ now.toNat < e.due.toNat := by
  obtain ⟨horder, hcapped⟩ := hs
  rw [drop_length_takeWhile]
  refine mem_dropWhile_due (horder.imp fun h => ?_) (fun x hx => ?_) e
  · rcases h with h | ⟨h, -⟩
    · exact h.le
    · rw [h]
  · rw [SchedEntry.isDue_iff, and_iff_right_iff_imp]
    intro hle
    rcases hc with hc | hc
    · refine Bool.eq_false_iff.2 fun hx' => ?_
      have := hcapped x hx hx'
      omega
    · exact hc x hx

/-! ### CORRECTION_EVENT with a forward step -/

theorem corrected_clusterTime_forward (c : Cfg) (b : Time) (s : State) (x : Int)
    (ho : correctionOutcome c s = .applied x) (hx : 0 < x)
    (hfit : s.tbu.clusterTime.toNat + c.cluster.maxCorr < 2 ^ 64) :
    (corrected c b s).tbu.clusterTime.toNat = s.tbu.clusterTime.toNat + x.natAbs := by
  have hle := correctionOutcome_applied_le c s x ho
  rw [corrected_applied c b s x ho, countCorrection_tbu_clusterTime]
  exact (stepTime_stepped x (awaitNext c b s)).forward hx (lt_of_le_of_lt (Nat.add_le_add_left hle _) hfit)

/-- A correction event that leaves a synchronized part synchronized changes no time basis, so the input channels stand
(R156). -/
theorem correctionAt_inputs (c : Cfg) (s : State) (hs : s.syc.state.synced = true)
    (hn : ∀ new reason, (judgeEvent c (correctionOutcome c s) (agreementCount c s) s.syc).1 = some (new, reason) →
      new.synced = true) :
    (correctionAt c s.tbu.clusterTime s).syc.state.synced = true ∧
      (correctionAt c s.tbu.clusterTime s).tlu.inputs = s.tlu.inputs := by
  cases hj : judgeEvent c (correctionOutcome c s) (agreementCount c s) s.syc with
  | mk change r =>
    cases change with
    | none =>
      have hstayed := correctionAt_stayed c s r hj
      exact ⟨by rw [hstayed.syc]; exact hs, hstayed.edges⟩
    | some change =>
      obtain ⟨new, reason⟩ := change
      have hnew := hn new reason (by rw [hj])
      have hmoved := correctionAt_moved c s new reason (by rw [hj])
      refine ⟨by rw [hmoved.state]; exact hnew, Vector.ext fun l hl => ?_⟩
      have hedge := hmoved.edges ⟨l, hl⟩
      rwa [if_pos (by rw [State.basis, SyncState.basis_of_synced hs, SyncState.basis_of_synced hnew])] at hedge

/-- Settles O44: the head by its commands and its record, the forward step by the run of its firings. -/
theorem entryDueFiresTheHead : Obligations.EntryDueFiresTheHead := by
  unfold Obligations.EntryDueFiresTheHead
  refine ⟨fun e rest s hr he => ⟨fun hs hc hd => ?_, fun h => ?_⟩, fun c x s h hs ho hx hfit hexp => ?_⟩
  · have htaken (l : LineNo) (hl : e.lines.getLsbD l = true) :=
      lineView_eq_iff.1 (fireEntry_lineView_mem none e rest s l hl)
    have hstands (l : LineNo) (hl : e.lines.getLsbD l = false) :=
      lineView_eq_iff.1 (fireEntry_lineView_not_mem none e rest s l hl)
    refine ⟨_, execEntryDue_due e rest s hr he hs (SchedEntry.isDue_iff.2 ⟨hc, hd⟩), fireEntry_eq none e rest s,
      fun l hl => (htaken l hl).2.2, fun l hl => (hstands l hl).2.2, fireEntry_overrun_raised none e rest s,
      fireEntry_overrun_stands none e rest s, fireEntry_silent none e rest s, ?_⟩
    rintro r hj rfl
    exact fireEntry_hands none e rest s hj
  · exact execEntryDue_waits e rest s hr he (SchedEntry.isDue_eq_false.2 h)
  · have hn := judgeEvent_applied_synced c x (agreementCount c s) s.syc hs hexp
    have hkeeps := judgeEvent_keepsState c x (agreementCount c s) s.syc
    rw [← ho] at hn hkeeps
    obtain ⟨hsynced, hinputs⟩ := correctionAt_inputs c s hs hn
    have hframe := correctionAt_eventFrame c s fun hl => by rw [hl] at hsynced; cases hsynced
    have htime : (correctionAt c s.tbu.clusterTime s).tbu.clusterTime =
        (corrected c s.tbu.clusterTime s).tbu.clusterTime := settleEvent_clusterTime c _ _ _ _
    have hstep := corrected_clusterTime_forward c s.tbu.clusterTime s x ho hx hfit
    have hforward : (correctionOutcome c s).forward = true := by rw [ho]; exact decide_eq_true hx
    obtain ⟨-, -, -, -, -, -, -, hscu, -, hsyc, -⟩ := corrected_stands c s.tbu.clusterTime s
    have hall := settleEvent_firesAllDue c _ (agreementCount c s) s.tbu.clusterTime _ _ hforward
      (by rw [hsyc]; exact hs) (by rw [hsyc]; exact hn) (corrected_alike c s.tbu.clusterTime _ s htime)
    rw [← correctionAt_eq, hsyc] at hall
    obtain ⟨hrun, halike⟩ := hall
    rw [← htime] at hstep
    have hexec := execCorrectionEvent_at c s h
    have hdue : dueEntries (corrected c s.tbu.clusterTime s) = s.scu.entries.takeWhile fun e =>
        e.isDue (correctionAt c s.tbu.clusterTime s).tbu.clusterTime := by
      rw [dueEntries, hscu, htime]
    rw [hdue] at hrun halike
    generalize correctionAt c s.tbu.clusterTime s = t at *
    obtain ⟨-, -, hentries, hspace, -⟩ := hrun
    rw [hscu] at hentries hspace
    refine ⟨t, _, _, hexec, hstep, rfl, rfl, ?_, fun p => ?_, ?_, halike.flags, fun hk => halike.journal (hkeeps hk),
      fun hs hc e => ?_⟩
    · rw [hframe.scu, hentries]
      rfl
    · rw [hspace p, take_length_takeWhile]
      rfl
    · rw [hframe.tlu, hinputs, halike.channels, halike.overruns]
      rfl
    · rw [hentries]
      exact mem_drop_due _ hs hc e

end Sys2Proof.Machine

/-! ## CANCEL removes the class (O53) -/

namespace Sys2Proof.Machine

/-- Of the entries that leave, each gives its place back to its own partition (R132). -/
theorem removeUnfired_space (gone : SchedEntry → Bool) (s : State) (p : Partition) :
    (removeUnfired gone s).scu.space.get p =
      s.scu.space.get p + s.scu.entries.countP fun e => gone e && e.part == p := by
  rw [removeUnfired, State.withScu_scu, foldl_freePlace, List.countP_filter]
  simp only [Bool.and_comm]

theorem execCancel_class (k : TrigClass) (arg : Byte) (s : State) (h : PortReady s) (harg : arg.toNat = k.val) :
    exec (.cancel arg) s = .next (cancelCommand k s) := by
  obtain ⟨hruns, hbegun, hready⟩ := h
  have hclass : class? arg.toNat = some k := (class?_eq_some _ _).2 harg.symm
  change execCancel arg s = _
  rw [execCancel, takeCommand_begun s _ hruns hbegun, whenReady_ready s _ hready, hclass]

/-- Settles O53. -/
theorem cancelRemovesTheClass : Obligations.CancelRemovesTheClass := by
  unfold Obligations.CancelRemovesTheClass
  intro k arg s h harg
  refine ⟨_, execCancel_class k arg s h harg, ?_, removeUnfired_space (fun e => e.cls == k) s⟩
  rw [List.countP_eq_length_filter]
  rfl

end Sys2Proof.Machine

/-! ## An output channel takes a fire command (O45) -/

namespace Sys2Proof.Machine

/-- An OUTPUT line of a part that runs shows its active level in ACTIVE and HELD, and rests in IDLE and GAP (R138). -/
theorem lineDrive_output {s : State} {l : LineNo} {high : Bool} {policy : Retrigger}
    (hline : s.tlu.lines.get l = .output high policy) (hr : s.src.inReset = false) :
    lineDrive s l =
      some (if (s.tlu.channels.get l).state = .active ∨ (s.tlu.channels.get l).state = .held then high else !high) := by
  rw [lineDrive, hline]
  cases hch : s.tlu.channels.get l <;> simp [hr, Channel.state]

/-- SET and CLEAR are taken in every state and under both policies (R142, R143). -/
theorem Channel.take_setOrClear (policy : Retrigger) (a : Action) (ch : Channel) (h : a = .set ∨ a = .clear) :
    ch.take policy a = some a.start := by
  rcases h with rfl | rfl <;> simp [Channel.take, Action.kind]

/-- From IDLE, and under RESTART from every state but HELD, each action starts (R140, R141). -/
theorem Channel.take_starts (policy : Retrigger) (a : Action) (ch : Channel)
    (h : ch = .idle ∨ (ch ≠ .held ∧ policy = .restart)) : ch.take policy a = some a.start := by
  cases a with
  | set => exact Channel.take_setOrClear policy _ ch (.inl rfl)
  | clear => exact Channel.take_setOrClear policy _ ch (.inr rfl)
  | pulse | train =>
    rcases h with rfl | ⟨hheld, rfl⟩
    · simp [Channel.take, Action.kind, Channel.state]
    · cases ch with
      | held => exact absurd rfl hheld
      | idle | active | gap => simp [Channel.take, Action.kind, Channel.state]

/-- A TRAIN in LISTEN or CLASH is one pulse, with none to come (R148). -/
theorem Action.limited_train_start (x : SyncState) (w p n : Nat) :
    (Action.limited x (.train w p n)).start =
      .active w (some (p - w)) w (if x = .listen ∨ x = .clash then 0 else n - 1) := by
  by_cases hx : x = .listen ∨ x = .clash <;>
    simp [Action.limited, SyncState.standsDown_eq, Action.start, hx]

/-- A command that the channel takes sets that channel and leaves all else as it is (R126). -/
theorem fireCommand_output {a : Action} {s : State} {l : LineNo} {high : Bool} {policy : Retrigger} {ch : Channel}
    (hline : s.tlu.lines.get l = .output high policy)
    (htake : (s.tlu.channels.get l).take policy (a.limited s.syc.state) = some ch) :
    fireCommand a s l = setChannel l ch s := by
  rw [fireCommand, hline]
  dsimp only
  rw [htake]

/-- Settles O45: a command that is taken sets the channel, one that is ignored is an overrun. -/
theorem channelTakesAFireCommand : Obligations.ChannelTakesAFireCommand := by
  unfold Obligations.ChannelTakesAFireCommand
  intro l high policy a s hline
  refine ⟨lineDrive_output hline, ?set, ?clear, fun hstarts => ⟨?pulse, ?train⟩, fun hignores hkind => ?ignored⟩
  case set =>
    rintro rfl
    exact fireCommand_output hline (Channel.take_setOrClear policy _ _ (.inl rfl))
  case clear =>
    rintro rfl
    exact fireCommand_output hline (Channel.take_setOrClear policy _ _ (.inr rfl))
  case pulse =>
    rintro w rfl
    exact fireCommand_output hline (Channel.take_starts policy _ _ hstarts)
  case train =>
    rintro w p n rfl
    rw [fireCommand_output hline (Channel.take_starts policy _ _ hstarts), Action.limited_train_start]
    rfl
  case ignored =>
    have hpulsed : a.kind = .pulse ∨ a.kind = .train := by
      rcases hkind with ⟨w, rfl⟩ | ⟨w, p, n, rfl⟩
      · exact .inl rfl
      · exact .inr rfl
    rw [fireCommand_ignored ⟨hpulsed, high, policy, hline, hignores⟩]
    rfl

end Sys2Proof.Machine

/-! ## The ends of a width and of a gap (O46) -/

namespace Sys2Proof.Machine

theorem execWidthExpiry_running (l : LineNo) (s : State) (hr : s.src.inReset = false) :
    exec (.widthExpiry l) s = .next (setChannel l (s.tlu.channels.get l).widthExpiry s) :=
  live_running s _ hr

theorem execGapExpiry_running (l : LineNo) (s : State) (hr : s.src.inReset = false) :
    exec (.gapExpiry l) s = .next (setChannel l (s.tlu.channels.get l).gapExpiry s) :=
  live_running s _ hr

/-- A channel set to what it already holds. -/
theorem setChannel_get (l : LineNo) (s : State) : setChannel l (s.tlu.channels.get l) s = s := by
  rw [setChannel, set_get]
  rfl

/-- No width of the channel has run out: WIDTH_EXPIRY leaves the part as it is. -/
theorem execWidthExpiry_stands (l : LineNo) (s : State) (hr : s.src.inReset = false)
    (h : (s.tlu.channels.get l).widthExpiry = s.tlu.channels.get l) : exec (.widthExpiry l) s = .next s := by
  rw [execWidthExpiry_running l s hr, h, setChannel_get]

/-- No gap of the channel has run out: GAP_EXPIRY leaves the part as it is. -/
theorem execGapExpiry_stands (l : LineNo) (s : State) (hr : s.src.inReset = false)
    (h : (s.tlu.channels.get l).gapExpiry = s.tlu.channels.get l) : exec (.gapExpiry l) s = .next s := by
  rw [execGapExpiry_running l s hr, h, setChannel_get]

/-- The channel of a line at a tick of a part that runs. -/
theorem execTick_channel (a : Bool) (p : BitVec 8) (l : LineNo) (s : State) (hr : s.src.inReset = false) :
    ∃ t, exec (.tick a p) s = .next t ∧ t.tlu.channels.get l = (s.tlu.channels.get l).tick :=
  ⟨_, execTick_running a p s hr, tick_channel a p s l⟩

/-- Settles O46: each expiry by what it makes of the channel's state. -/
theorem expiryMovesTheChannel : Obligations.ExpiryMovesTheChannel := by
  unfold Obligations.ExpiryMovesTheChannel
  intro l s hr
  have hwidth := execWidthExpiry_running l s hr
  have hgap := execGapExpiry_running l s hr
  have hwidthStands := execWidthExpiry_stands l s hr
  have hgapStands := execGapExpiry_stands l s hr
  have htick := fun a p => execTick_channel a p l s hr
  generalize s.tlu.channels.get l = ch at *
  refine ⟨?lastWidth, ?widthToGap, ?gapToWidth, fun hrests => ?rests, ?widthRuns, ?gapRuns⟩
  case lastWidth =>
    rintro w g rfl
    rw [hwidth]
    cases g <;> rfl
  case widthToGap =>
    rintro w g n rfl
    exact hwidth
  case gapToWidth =>
    rintro w g n rfl
    exact hgap
  case rests =>
    cases ch with
    | idle | held => exact ⟨hwidthStands rfl, hgapStands rfl⟩
    | active | gap => rcases hrests with h | h <;> cases h
  case widthRuns =>
    rintro w g r n rfl
    exact ⟨hwidthStands (by cases g <;> rfl), hgapStands rfl, htick⟩
  case gapRuns =>
    rintro w g r n rfl
    exact ⟨hgapStands rfl, hwidthStands rfl, htick⟩

end Sys2Proof.Machine

/-! ## Input lines: the candidate, and an edge on a line without a class (O41, O42) -/

namespace Sys2Proof.Machine

/-! ### A line's level against its settled level (R153) -/

theorem withInput_input (l : LineNo) (s : State) (f : InputCfg → State) (i : InputCfg)
    (hi : s.tlu.lines.get l = .input i) : withInput l s f = f i := by
  rw [withInput, hi]

theorem differs_of_settled {l : LineNo} {s : State} {level : Bool} (h : (s.tlu.inputs.get l).settled = some level) :
    differs l s = (level != s.tlu.pins.getLsbD l) := by
  rw [differs, h]
  rfl

/-! ### INPUT_TRANSITION and INPUT_REVERSION (R153, R154) -/

section
variable (l : LineNo) (i : InputCfg) (s : State) (hr : s.src.inReset = false) (hi : s.tlu.lines.get l = .input i)
include hr hi

theorem execInputTransition_takes (hcand : (s.tlu.inputs.get l).candidate = none) (hd : differs l s = true) :
    exec (.inputTransition l) s = .next (setInput l
      { s.tlu.inputs.get l with
        candidate := some { localClock := s.tbu.localClock, stamp := stampNow s, basis := s.basis } } s) := by
  change execInputTransition l s = _
  rw [execInputTransition, live_running s _ hr, withInput_input l s _ i hi]
  exact congrArg Host.Outcome.next (if_pos ⟨hcand, hd⟩)

theorem execInputTransition_stands (hd : differs l s = false) : exec (.inputTransition l) s = .next s := by
  change execInputTransition l s = _
  rw [execInputTransition, live_running s _ hr, withInput_input l s _ i hi]
  exact congrArg Host.Outcome.next (if_neg (by simp [hd]))

theorem execInputReversion_discards (hd : differs l s = false) :
    exec (.inputReversion l) s = .next (setInput l { s.tlu.inputs.get l with candidate := none } s) := by
  change execInputReversion l s = _
  rw [execInputReversion, live_running s _ hr, withInput_input l s _ i hi, if_neg (by simp [hd])]

end

/-- Settles O41: the line's level differs from the settled one, or it is the settled one. -/
theorem candidateIsTakenAndDiscarded : Obligations.CandidateIsTakenAndDiscarded := by
  unfold Obligations.CandidateIsTakenAndDiscarded
  intro l i level s hr hi hset
  have hdiffers := differs_of_settled hset
  refine ⟨fun hcand hlevel => ?differs, fun hlevel => ?settled⟩
  case differs =>
    have hd : differs l s = true := by rw [hdiffers, bne_iff_ne]; exact hlevel.symm
    exact execInputTransition_takes l i s hr hi hcand hd
  case settled =>
    have hd : differs l s = false := by rw [hdiffers, hlevel, bne_self_eq_false]
    exact ⟨execInputReversion_discards l i s hr hi hd, execInputTransition_stands l i s hr hi hd⟩

/-! ### EDGE_QUALIFIED too early, not selected, or without a class (R153, R155, R159) -/

/-- The candidate has not yet held for the qualification time (R153). -/
theorem execEdgeQualified_early (c : Cfg) (l : LineNo) (i : InputCfg) (x : Candidate) (s : State)
    (hr : s.src.inReset = false) (hc : s.cfg = some c) (hi : s.tlu.lines.get l = .input i)
    (hx : (s.tlu.inputs.get l).candidate = some x)
    (hq : s.tbu.localClock.toNat - x.localClock.toNat < i.qualification) : exec (.edgeQualified l) s = .next s := by
  change execEdgeQualified l s = _
  rw [execEdgeQualified, live_running s _ hr, withCfg_some s _ c hc, withInput_input l s _ i hi, hx]
  exact congrArg Host.Outcome.next (if_neg fun h => Nat.not_le.2 hq h.2)

theorem EdgeSelect.names_eq_false_iff (e : EdgeSelect) (rising : Bool) :
    e.names rising = false ↔ e = .never ∨ (e = .rising ∧ rising = false) ∨ (e = .falling ∧ rising = true) := by
  cases e <;> cases rising <;> simp [names]

/-- An edge that is not selected settles the level, and that is all (R155). -/
theorem qualifyEdge_unselected (c : Cfg) (l : LineNo) (i : InputCfg) (x : Candidate) (s : State)
    (h : i.select.names (s.tlu.pins.getLsbD l) = false) :
    qualifyEdge c l i x s =
      setInput l { s.tlu.inputs.get l with settled := some (s.tlu.pins.getLsbD l), candidate := none } s :=
  if_neg (Bool.eq_false_iff.1 h)

/-- On a line without a class no raise is requested (R155, R157). -/
theorem edgeRaise_none (c : Cfg) (l : LineNo) (i : InputCfg) (x : Candidate) (s : State) (hk : i.cls = none) :
    edgeRaise c l i x s = (s, .none) := by
  rw [edgeRaise, hk]

/-- A selected edge on a line without a class is counted, and captured with outcome NONE where capture is enabled. -/
theorem qualifyEdge_classless (c : Cfg) (l : LineNo) (i : InputCfg) (x : Candidate) (s : State)
    (h : i.select.names (s.tlu.pins.getLsbD l) = true) (hk : i.cls = none) :
    qualifyEdge c l i x s =
      if i.capture then
        handRecord
          (captureRecord l (s.tlu.pins.getLsbD l) x .none (intervalOf x (s.tlu.inputs.get l).lastEdge)
            ((s.tlu.inputs.get l).events + 1))
          .capture (edgeCounted l x s)
      else edgeCounted l x s := by
  rw [qualifyEdge_selected c l i x s h, edgeRaise_none c l i x _ hk]

/-- What a record's hand-over makes of the journal and the flags does not rest on the input channels. -/
theorem recorded_edgeCounted (r : Record) (k : LostKind) (l : LineNo) (x : Candidate) (s : State) :
    Recorded r k s (handRecord r k (edgeCounted l x s)) :=
  ⟨handRecord_jnl_eq r k _ _ rfl, handRecord_flags_eq r k _ _ rfl rfl⟩

/-- Settles O42: the edge too early, not selected, and selected on a line without a class. -/
theorem edgeIsCountedAndCaptured : Obligations.EdgeIsCountedAndCaptured := by
  unfold Obligations.EdgeIsCountedAndCaptured
  rintro c l i x _ s hr hc hi hset hx rfl
  refine ⟨execEdgeQualified_early c l i x s hr hc hi hx, fun hq => ?_⟩
  rw [execEdgeQualified_at c l i x s hr hc hi hx hset hq]
  refine ⟨fun hsel => ?unselected, fun hsel hk => ?selected⟩
  case unselected =>
    rw [qualifyEdge_unselected c l i x s ((EdgeSelect.names_eq_false_iff _ _).2 hsel)]
    rfl
  case selected =>
    rw [qualifyEdge_classless c l i x s ((EdgeSelect.names_iff _ _).2 hsel) hk, captureRecord, intervalOf_eq]
    refine ⟨_, rfl, ?_⟩
    cases hcap : i.capture with
    | false => exact ⟨rfl, fun _ => ⟨rfl, rfl⟩, nofun⟩
    | true => exact ⟨handRecord_eq _ _ _, nofun, fun _ => recorded_edgeCounted _ _ l x s⟩

end Sys2Proof.Machine

/-! ## A record handed to the journal, and the release of a reset (O47, O5) -/

namespace Sys2Proof.Machine

/-! ### The hand-over of a record (R163, R164) -/

theorem handRecord_written (r : Record) (k : LostKind) (s : State) (hlost : s.jnl.lost = 0)
    (hroom : s.jnl.records.length < 128) :
    handRecord r k s = { s with jnl := { s.jnl with records := s.jnl.records ++ [r] } } := by
  rw [handRecord, if_pos hlost]
  exact if_pos hroom

theorem handRecord_behindGap (r : Record) (k : LostKind) (s : State) (hlost : s.jnl.lost ≠ 0)
    (hroom : s.jnl.records.length + 2 ≤ 128) :
    handRecord r k s = { s with jnl := { records := s.jnl.records ++ [.gap s.jnl.lost, r], lost := 0 } } := by
  rw [handRecord, if_neg hlost]
  exact if_pos hroom

theorem handRecord_lost (r : Record) (k : LostKind) (s : State)
    (h : (s.jnl.lost = 0 ∧ 128 ≤ s.jnl.records.length) ∨ (s.jnl.lost ≠ 0 ∧ 128 < s.jnl.records.length + 2)) :
    handRecord r k s = loseRecord k s := by
  rcases h with ⟨hlost, hfull⟩ | ⟨hlost, hfull⟩
  · rw [handRecord, if_pos hlost]
    exact if_neg (Nat.not_lt.2 hfull)
  · rw [handRecord, if_neg hlost]
    exact if_neg (Nat.not_le.2 hfull)

/-- Settles O47, by the pending lost count and the free places. -/
theorem journalWritesOrLoses : Obligations.JournalWritesOrLoses := by
  unfold Obligations.JournalWritesOrLoses
  intro r k s _
  refine ⟨fun hlost hroom => handRecord_written r k s hlost (by omega),
    fun hlost hroom => handRecord_behindGap r k s hlost (by omega), fun hfull => ?_⟩
  rw [handRecord_lost r k s (hfull.imp (And.imp_right fun _ => by omega) (And.imp_right fun _ => by omega))]
  rfl

/-! ### The release of a reset and the image port (R176, R177) -/

theorem execResetRelease_free (supplyLow selectLow : Bool) (s : State) (hr : s.src.inReset = true)
    (hhold : s.src.portHold = 0) :
    exec (.resetRelease supplyLow selectLow) s = .next (release supplyLow selectLow s) := by
  change execResetRelease supplyLow selectLow s = _
  rw [execResetRelease, if_pos ⟨hr, hhold⟩]

theorem execResetRelease_held (supplyLow selectLow : Bool) (s : State) (hhold : s.src.portHold ≠ 0) :
    exec (.resetRelease supplyLow selectLow) s = .next s := by
  change execResetRelease supplyLow selectLow s = _
  rw [execResetRelease, if_neg fun h => hhold h.2]

theorem imagePort_loading (s : State) (hr : s.src.inReset = false) (hl : s.src.loadState = .loading) :
    imagePort s = .selected imageRequest := by
  simp [imagePort, hr, hl]

theorem imagePort_ended (s : State) (hr : s.src.inReset = false) (hl : s.src.loadState ≠ .loading) :
    imagePort s = .idle := by
  unfold imagePort
  rw [if_neg (by simp [hr])]
  cases h : s.src.loadState with
  | loading => exact absurd h hl
  | ready | failed => rfl

/-- Settles O5. -/
theorem releaseStartsThePart : Obligations.ReleaseStartsThePart := by
  unfold Obligations.ReleaseStartsThePart
  intro supplyLow selectLow s hr
  have hfree := execResetRelease_free supplyLow selectLow s hr
  refine ⟨hfree, fun hhold hl => ⟨_, hfree hhold, imagePort_loading _ rfl hl⟩,
    execResetRelease_held supplyLow selectLow s, imagePort_ended, rfl, fun _ => rfl⟩

end Sys2Proof.Machine

/-! ## The port's transaction, and the commands it turns away (O48, O49) -/

namespace Sys2Proof

/-! ### The command that the bytes spell (R165, R166) -/

/-- A code that is none of the thirteen spells no command of its own. -/
theorem commandOf_unknown (code arg : Byte) (h : code ∉ commandCodes) : commandOf code arg = .unknownCommand code := by
  have hne : code.toNat ∉ commandCodes.map BitVec.toNat := fun hm => by
    obtain ⟨known, hk, he⟩ := List.mem_map.1 hm
    exact h (BitVec.eq_of_toNat_eq he ▸ hk)
  unfold commandOf
  split
  case h_14 => rfl
  all_goals
    rename_i he
    rw [he] at hne
    exact absurd (by decide) hne

theorem argumentCount_unknown (code : Byte) (h : code ∉ commandCodes) : argumentCount code = 0 := by
  refine if_neg ?_
  rintro (rfl | rfl | rfl) <;> exact h (by decide)

theorem portCommand_unknown (code : Byte) (rest : List Byte) (h : code ∉ commandCodes) :
    portCommand (code :: rest) = some (.unknownCommand code) := by
  rw [portCommand, argumentCount_unknown code h, if_pos rest.length.zero_le, commandOf_unknown code _ h]

/-- A command without an argument is spelled by its code (R165). -/
theorem portCommand_code (code : Byte) (rest : List Byte) (h : argumentCount code = 0) :
    portCommand (code :: rest) = some (commandOf code (rest.headD 0)) := by
  rw [portCommand, h, if_pos rest.length.zero_le]

/-- One argument byte is enough for every command; what follows is ignored (R165). -/
theorem portCommand_argument (code arg : Byte) (rest : List Byte) :
    portCommand (code :: arg :: rest) = some (commandOf code arg) := by
  have hcount : argumentCount code ≤ 1 := by
    unfold argumentCount
    split <;> decide
  rw [portCommand, if_pos (hcount.trans (by simp))]
  rfl

end Sys2Proof

namespace Sys2Proof.Machine

/-! ### The transaction and data out (R165) -/

theorem execTransactionStart_running (s : State) (hr : s.src.inReset = false) :
    exec .transactionStart s =
      .next (if s.rdp.txn = .idle then { s with rdp := { s.rdp with txn := .begun } } else s) :=
  live_running s (fun s => if s.rdp.txn = .idle then s.withRdp { s.rdp with txn := .begun } else s) hr

theorem execSelectRise_running (s : State) (hr : s.src.inReset = false) :
    exec .selectRise s = .next { s with rdp := { s.rdp with txn := .idle } } :=
  live_running s (fun s => s.withRdp { s.rdp with txn := .idle }) hr

theorem dataOut_released (s : State) (n : Nat) (h : s.src.inReset = true ∨ s.rdp.txn = .idle) :
    dataOut s n = none := by
  rcases h with h | h <;> simp [dataOut, h]

theorem dataOut_begun (s : State) (n : Nat) (hr : s.src.inReset = false) (hb : s.rdp.txn = .begun) :
    dataOut s n = some 0 := by
  simp [dataOut, hr, hb]

theorem dataOut_taken (s : State) (n : Nat) (out : List Byte) (transfer : Bool) (hr : s.src.inReset = false)
    (ht : s.rdp.txn = .taken out transfer) : dataOut s n = some (out.getD n 0) := by
  simp [dataOut, hr, ht]

/-- The bits of data out within one byte, most significant first. -/
theorem dataOutBit_byte (s : State) (n : Nat) (b : Byte) (h : dataOut s n = some b) :
    (List.range 8).map (fun i => dataOutBit s (8 * n + i)) = (byteBits b).map some := by
  have hbit : ∀ i, i < 8 → dataOutBit s (8 * n + i) = some (b.getMsbD i) := fun i hi => by
    have hdiv : (8 * n + i) / 8 = n := by omega
    have hmod : (8 * n + i) % 8 = i := by omega
    rw [dataOutBit, hdiv, hmod, h, Option.map_some]
  have hbits : (List.range 8).map b.getMsbD = byteBits b := rfl
  rw [← hbits, List.map_map]
  exact List.map_congr_left fun i hi => hbit i (List.mem_range.1 hi)

/-- Settles O48. -/
theorem transactionBeginsAndEnds : Obligations.TransactionBeginsAndEnds := by
  unfold Obligations.TransactionBeginsAndEnds
  refine ⟨fun s hr => ⟨fun hidle => ?_, fun hidle => ?_, execSelectRise_running s hr⟩,
    fun s n => ⟨dataOut_released s n, dataOut_begun s n, fun out transfer hr ht => ⟨fun h => ?_, fun h => ?_⟩,
      fun b => dataOutBit_byte s n b⟩,
    fun arg rest => ?_, ⟨rfl, rfl, rfl, rfl⟩, portCommand_unknown⟩
  · rw [execTransactionStart_running s hr, if_pos hidle]
  · rw [execTransactionStart_running s hr, if_neg hidle]
  · rw [dataOut_taken s n out transfer hr ht, List.getD_eq_getElem out 0 h]
  · rw [dataOut_taken s n out transfer hr ht, List.getD_eq_default out 0 h]
  · exact ⟨portCommand_code _ _ rfl, portCommand_code _ _ rfl, portCommand_code _ _ rfl, portCommand_code _ _ rfl,
      portCommand_argument _ _ _, portCommand_code _ _ rfl, portCommand_code _ _ rfl, portCommand_code _ _ rfl,
      portCommand_code _ _ rfl, portCommand_argument _ _ _, portCommand_argument _ _ _, portCommand_code _ _ rfl,
      portCommand_code _ _ rfl⟩

/-! ### The refusals in their order (R166) -/

section
variable (s : State) (hr : s.src.inReset = false) (hb : s.rdp.txn = .begun)
include hr hb

theorem execUnknownCommand_answers (code : Byte) (h : code ∉ commandCodes) :
    exec (.unknownCommand code) s = .next (answered 0x03 [] s) := by
  change execUnknownCommand code s = _
  rw [execUnknownCommand, takeCommand_begun s _ hr hb, if_neg (by simpa using h)]
  rfl

/-- The load-state check comes before whatever the command would do (R166, order 2). -/
theorem readyCommand_notReady (f : State → State) (h : s.src.loadState ≠ .ready) :
    takeCommand s (fun s => whenReady s f) = .next (answered 0x01 [] s) := by
  rw [takeCommand_begun s _ hr hb, whenReady_notReady s f h]
  rfl

theorem execReadPeer_badArgument (arg : Byte) (hl : s.src.loadState = .ready) (h : 32 ≤ arg.toNat) :
    exec (.readPeer arg) s = .next (answered 0x02 [] s) := by
  change execReadPeer arg s = _
  rw [execReadPeer, takeCommand_begun s _ hr hb, whenReady_ready s _ hl, (station?_eq_none _).2 h]
  rfl

theorem execRaise_badArgument (arg : Byte) (hl : s.src.loadState = .ready) (h : 64 ≤ arg.toNat) :
    exec (.raise arg) s = .next (answered 0x02 [] s) := by
  change execRaise arg s = _
  rw [execRaise, takeCommand_begun s _ hr hb, whenReady_ready s _ hl, (class?_eq_none _).2 h]
  rfl

theorem execCancel_badArgument (arg : Byte) (hl : s.src.loadState = .ready) (h : 64 ≤ arg.toNat) :
    exec (.cancel arg) s = .next (answered 0x02 [] s) := by
  change execCancel arg s = _
  rw [execCancel, takeCommand_begun s _ hr hb, whenReady_ready s _ hl, (class?_eq_none _).2 h]
  rfl

theorem execRestart_notArmed (ha : s.rdp.armed = false) : exec .restart s = .next (answered 0x04 [] s) := by
  change execRestart s = _
  rw [execRestart, takeCommand_begun s _ hr hb, if_neg (by simp [ha])]
  rfl

end

/-- Settles O49, check by check. -/
theorem portTurnsCommandsAway : Obligations.PortTurnsCommandsAway := by
  unfold Obligations.PortTurnsCommandsAway
  intro s hr hb
  refine ⟨execUnknownCommand_answers s hr hb, fun i arg hl hi => ?_, execReadPeer_badArgument s hr hb,
    fun arg hl h => ⟨execRaise_badArgument s hr hb arg hl h, execCancel_badArgument s hr hb arg hl h⟩,
    execRestart_notArmed s hr hb⟩
  simp only [List.mem_cons, List.not_mem_nil, or_false] at hi
  rcases hi with rfl | rfl | rfl | rfl | rfl | rfl | rfl | rfl | rfl <;> exact readyCommand_notReady s hr hb _ hl

end Sys2Proof.Machine

/-! ## READ_STATUS, READ_FLAGS and READ_JOURNAL (O51, O52) -/

namespace Sys2Proof.Machine

/-! ### Numbers in bytes (12, R189) -/

theorem beBytes_length (n v : Nat) : (beBytes n v).length = n := by
  induction n with
  | zero => rfl
  | succ n ih => rw [beBytes, List.length_cons, ih]

theorem beBytes_zero (n : Nat) : beBytes n 0 = List.replicate n 0 := by
  induction n with
  | zero => rfl
  | succ n ih =>
    rw [beBytes, ih, Nat.zero_div]
    rfl

/-- A byte laid out as a number is that byte. -/
theorem byte_toNat (b : Byte) : byte b.toNat = b := by simp [byte]

/-- Signed numbers go out in two's complement. -/
theorem signedBytes_four (z : Int) : signedBytes 4 z = fourBytes (BitVec.ofInt 32 z) := by
  rw [← beBytes_four, BitVec.toNat_ofInt]
  rfl

theorem signedBytes_eight (z : Int) : signedBytes 8 z = eightBytes (BitVec.ofInt 64 z) := by
  rw [← beBytes_eight, BitVec.toNat_ofInt]
  rfl

/-- A BAD_VALUE capture holds the block type in byte 2 and the item in byte 3. -/
theorem beBytes_badValue (type item : Nat) (ht : type < 256) (hi : item < 256) :
    beBytes 4 (LoadResult.badValue type item).capture =
      [0x00, 0x00, BitVec.ofNat 8 type, BitVec.ofNat 8 item] := by
  have h3 : (type * 256 + item) / 256 ^ 3 = 0 := Nat.div_eq_of_lt (by omega)
  have h2 : (type * 256 + item) / 256 ^ 2 = 0 := Nat.div_eq_of_lt (by omega)
  have h1 : (type * 256 + item) / 256 ^ 1 = type := by omega
  have h0 : BitVec.ofNat 8 (type * 256 + item) = BitVec.ofNat 8 item := by
    apply BitVec.eq_of_toNat_eq
    simp only [BitVec.toNat_ofNat]
    omega
  rw [LoadResult.capture, beBytes, beBytes, beBytes, beBytes, beBytes, h3, h2, h1, pow_zero, Nat.div_one, h0]
  rfl

/-! ### READ_STATUS and READ_FLAGS (R167, R172) -/

/-- The JOURNAL source as a test of the threshold that READY sets (R173). -/
theorem journalPending_eq (s : State) :
    journalPending s = s.rdp.threshold.any fun n => decide (n ≤ s.jnl.records.length) := by
  unfold journalPending
  cases s.rdp.threshold <;> rfl

theorem sourcesByte_eq (s : State) :
    sourcesByte s =
      byte (bit (s.rdp.threshold.any fun n => decide (n ≤ s.jnl.records.length)) 0 + bit s.rdp.flags.any 1 +
        bit s.rdp.statePending 2 + bit s.rdp.loadPending 3) := by
  rw [sourcesByte, journalPending_eq, flagsPending]

theorem execReadStatus_begun (s : State) (hr : s.src.inReset = false) (hb : s.rdp.txn = .begun) :
    exec .readStatus s =
      .next (answered 0x00 (statusFields s)
        { s with rdp := { s.rdp with statePending := false, loadPending := false } }) := by
  change execReadStatus s = _
  rw [execReadStatus, takeCommand_begun s _ hr hb]
  rfl

theorem execReadFlags_ready (s : State) (h : PortReady s) :
    exec .readFlags s =
      .next (answered 0x00 s.rdp.flags.fields { s with rdp := { s.rdp with flags := Flags.clear } }) := by
  obtain ⟨hr, hb, hl⟩ := h
  change execReadFlags s = _
  rw [execReadFlags, takeCommand_begun s _ hr hb, whenReady_ready s _ hl]
  rfl

@[simp] theorem captureBytes_none {α : Type} (size : Nat) (f : α → List Byte) :
    captureBytes size f none = List.replicate size 0 := rfl

@[simp] theorem captureBytes_some {α : Type} (size : Nat) (f : α → List Byte) (a : α) :
    captureBytes size f (some a) = f a := rfl

/-- Settles O51: the codes, the part's condition, and the flags capture by capture. -/
theorem statusAndFlagsClearOnRead : Obligations.StatusAndFlagsClearOnRead := by
  unfold Obligations.StatusAndFlagsClearOnRead
  refine ⟨⟨rfl, fun n t i => ⟨rfl, rfl, beBytes_badValue t i⟩, rfl, rfl, rfl, beBytes_two, beBytes_four, beBytes_eight,
    fun z => ⟨signedBytes_four z, signedBytes_eight z⟩, fun _ _ => rfl⟩, fun s hr hb => ?status, fun s h => ?flags⟩
  case status =>
    refine ⟨_, execReadStatus_begun s hr hb, ?_⟩
    rw [statusFields, sourcesByte_eq]
    rfl
  case flags =>
    refine ⟨_, execReadFlags_ready s h, congrArg (fun fields => answered 0x00 fields _) ?_, rfl, rfl⟩
    rw [Flags.fields, Flags.captures]
    simp only [← List.append_assoc]
    refine congrArg₂ (· ++ ·) (congrArg₂ (· ++ ·) (congrArg₂ (· ++ ·) (congrArg₂ (· ++ ·) (congrArg₂ (· ++ ·)
      (congrArg₂ (· ++ ·) (congrArg₂ (· ++ ·) (congrArg₂ (· ++ ·) (congrArg₂ (· ++ ·) ?setBits ?schedFull) ?late)
        ?chainLimit) ?txAbandon) ?numberConflict) ?foreign) ?disagree) ?overrun) ?journalLost
    case setBits => rfl
    case schedFull => cases s.rdp.flags.schedFull <;> simp [beBytes_one]
    case late => cases s.rdp.flags.late <;> simp [beBytes_one]
    case chainLimit => cases s.rdp.flags.chainLimit <;> simp [beBytes_one]
    case txAbandon => rcases s.rdp.flags.txAbandon with _ | ⟨kind, _ | cls⟩ <;> simp [beBytes_one, byte]
    case numberConflict => cases s.rdp.flags.numberConflict <;> simp [beBytes_one]
    case foreign => cases s.rdp.flags.foreign <;> simp [beBytes_one]
    case disagree => cases s.rdp.flags.disagree <;> simp [beBytes_one, offsetBytes_eq]
    case overrun => cases s.rdp.flags.overrun <;> simp [beBytes_one]
    case journalLost => cases s.rdp.flags.journalLost <;> simp [beBytes_one]

/-! ### The records' bytes (R188) -/

/-- A record's listed fields fill its first bytes, and zeros the rest. -/
theorem padTo_eq (k : Nat) {n : Nat} {bs : List Byte} (h : bs.length + k = n) :
    padTo n bs = bs ++ beBytes k 0 := by
  have hk : n - bs.length = k := by omega
  rw [padTo, beBytes_zero, hk]

theorem captureRecord_bytes (r : CaptureRec) :
    (Record.capture r).bytes =
      laid [(1, 1), (1, r.line), (1, r.outcome.code),
        (1, r.basis.code * 64 + bit (!r.rising) 5 + bit r.interval.isSome 1 + bit r.outcome.sequence?.isSome 0),
        (8, r.stamp.toNat), (4, (r.interval.getD 0).toNat), (2, (r.outcome.sequence?.getD 0).toNat),
        (2, r.eventCount.toNat), (4, 0)] := by
  rw [Record.bytes, padTo_eq 4 (by simp [beBytes_length])]
  simp [beBytes_one, optNat_eq]

theorem fireRecord_bytes (r : FireRec) :
    (Record.fire r).bytes =
      laid [(1, 2), (1, r.lines.toNat), (1, r.cls), (1, r.origin), (2, r.sequence.toNat), (1, r.index),
        (1, bit r.late 1 + bit r.overtaken 0), (8, r.time.toNat), (8, 0)] := by
  rw [Record.bytes, padTo_eq 8 (by simp [beBytes_length])]
  simp [beBytes_one, byte_toNat]

theorem stateRecord_bytes (r : StateRec) :
    (Record.state r).bytes =
      laid [(1, 3), (1, r.basis.code), (1, r.old.code), (1, r.new.code), (1, r.reason.code),
        (1, bit r.cancelled.isSome 0), (1, r.cancelled.getD 0), (1, 0), (8, r.time.toNat), (8, 0)] := by
  rw [Record.bytes, padTo_eq 8 (by simp [beBytes_length])]
  simp [beBytes_one]

theorem gapRecord_bytes (n : BitVec 16) : (Record.gap n).bytes = laid [(1, 4), (2, n.toNat), (21, 0)] := by
  rw [Record.bytes, padTo_eq 21 (by simp [beBytes_length])]
  simp [beBytes_one]

theorem RaiseOutcome.sequence?_eq_some (o : RaiseOutcome) (q : Sequence) :
    o.sequence? = some q ↔ o = .raised q := by
  cases o <;> simp [RaiseOutcome.sequence?]

/-! ### READ_JOURNAL and the end of its transfer (R169) -/

/-- The fill and the head record go out, and a head waits for the end of its transfer. -/
theorem execReadJournal_ready (s : State) (h : PortReady s) :
    exec .readJournal s = .next { s with rdp := { s.rdp with
      txn := .taken (0x00 :: journalFields s.jnl) (!s.jnl.records.isEmpty), armed := false } } := by
  obtain ⟨hr, hb, hl⟩ := h
  change execReadJournal s = _
  rw [execReadJournal, takeCommand_begun s _ hr hb, whenReady_ready s _ hl]
  rfl

theorem journalFields_nil (j : Jnl) (h : j.records = []) : journalFields j = [0x00, 0x00] := by
  simp [journalFields, h, byte]

theorem journalFields_cons (j : Jnl) (r : Record) (rest : List Record) (h : j.records = r :: rest) :
    journalFields j = byte (rest.length + 1) :: r.bytes := by
  simp [journalFields, h]

theorem execJournalTransferDone_open (out : List Byte) (s : State) (hr : s.src.inReset = false)
    (ht : s.rdp.txn = .taken out true) :
    exec .journalTransferDone s = .next { s with
      jnl := { s.jnl with records := s.jnl.records.drop 1 }, rdp := { s.rdp with txn := .taken out false } } := by
  change execJournalTransferDone s = _
  rw [execJournalTransferDone, live_running s _ hr]
  simp only [ht]
  rfl

theorem execJournalTransferDone_stands (s : State) (hr : s.src.inReset = false)
    (h : ∀ out, s.rdp.txn ≠ .taken out true) : exec .journalTransferDone s = .next s := by
  change execJournalTransferDone s = _
  rw [execJournalTransferDone, live_running s _ hr]
  split
  · exact absurd ‹_› (h _)
  all_goals rfl

/-- Settles O52. -/
theorem journalIsReadRecordByRecord : Obligations.JournalIsReadRecordByRecord := by
  unfold Obligations.JournalIsReadRecordByRecord
  refine ⟨captureRecord_bytes, fireRecord_bytes, stateRecord_bytes, gapRecord_bytes,
    ⟨rfl, rfl, rfl, fun _ => rfl, RaiseOutcome.sequence?_eq_some, rfl, rfl, rfl, rfl⟩,
    fun s h => ⟨fun hempty => ?empty, fun r rest hhead => ?head⟩, execJournalTransferDone_open,
    execJournalTransferDone_stands⟩
  case empty =>
    rw [execReadJournal_ready s h, journalFields_nil s.jnl hempty, hempty]
    rfl
  case head =>
    rw [execReadJournal_ready s h, journalFields_cons s.jnl r rest hhead, hhead]
    rfl

end Sys2Proof.Machine

/-! ## Every command answers a next state, and keeps the queue and the unique ID (O2) -/

namespace Sys2Proof.Machine

/-- No arm of `exec` ends in a fault or a refusal (logs 1 and 24). -/
theorem exec_next (c : Instr) (s : State) : ∃ t, exec c s = .next t := by
  cases c <;> exact ⟨_, rfl⟩

/-- The commands that wait and the part's unique ID, which no command touches (log 27). -/
def queueId (s : State) : List Instr × UniqueId := (s.pending, s.uniqueId)

/-- `t` has the waiting commands and the unique ID `k`. -/
def HasQueueId (k : List Instr × UniqueId) (t : State) : Prop := queueId t = k

theorem HasQueueId.of_eq {k : List Instr × UniqueId} {s t : State} (h : HasQueueId k s) (hp : t.pending = s.pending)
    (hu : t.uniqueId = s.uniqueId) : HasQueueId k t := by
  rw [HasQueueId, queueId, hp, hu]
  exact h

section
variable {k : List Instr × UniqueId}

theorem fireSome_hasQueueId (b : Option Time) (s : State) (h : HasQueueId k s) : HasQueueId k (fireSome b s) :=
  h.of_eq (by simp) (by simp)

theorem changeState_hasQueueId (c : Cfg) (new : SyncState) (r : Reason) (mid : State → State) (s : State)
    (hmid : mid = id ∨ ∃ b, mid = fireSome b) (h : HasQueueId k s) : HasQueueId k (changeState c new r mid s) := by
  rcases hmid with rfl | ⟨b, rfl⟩
  · exact h.of_eq (changeState_pending c new r id s fun _ => rfl) (changeState_uniqueId c new r id s fun _ => rfl)
  · exact h.of_eq (changeState_pending c new r _ s (by simp)) (changeState_uniqueId c new r _ s (by simp))

theorem correctionAt_hasQueueId (c : Cfg) (b : Time) (s : State) (h : HasQueueId k s) :
    HasQueueId k (correctionAt c b s) := by
  rw [correctionAt_eq]
  exact settleEvent_keeps (HasQueueId k) c _ _ _ _
    (h.of_eq (by simp [corrected, awaitNext]) (by simp [corrected, awaitNext]))
    (fun _ _ h => h.of_eq (by simp) (by simp)) (fun _ h => h.of_eq (by simp) (by simp))
    (fun s h => fireSome_hasQueueId _ s h)
    (fun new reason mid s h hmid _ => changeState_hasQueueId c new reason mid s (hmid.imp_right fun hm => ⟨_, hm⟩) h)

theorem deliverBeacon_hasQueueId (c : Cfg) (b : Beacon) (l x : Time) (s : State) (h : HasQueueId k s) :
    HasQueueId k (deliverBeacon c b l x s) :=
  deliverBeacon_keeps (HasQueueId k) c b l x s h (fun _ _ h => h.of_eq rfl rfl)
    (fun _ => changeState_hasQueueId c _ _ id s (.inl rfl) h) (fun _ _ _ => h.of_eq (by simp) (by simp))
    (fun _ _ h _ => changeState_hasQueueId c _ _ id _ (.inl rfl) (h.of_eq (by simp) (by simp)))

theorem judgeTriggerFrame_hasQueueId (c : Cfg) (t : Trigger) (s : State) (h : HasQueueId k s) :
    HasQueueId k (judgeTriggerFrame c t s) :=
  judgeTriggerFrame_keeps (HasQueueId k) c t s h (fun _ _ h _ _ _ => h.of_eq rfl rfl) (fun _ => h.of_eq rfl rfl)
    (fun _ h _ => h.of_eq (by simp) (by simp))

theorem qualifyEdge_hasQueueId (c : Cfg) (l : LineNo) (ic : InputCfg) (cand : Candidate) (s : State)
    (h : HasQueueId k s) : HasQueueId k (qualifyEdge c l ic cand s) :=
  qualifyEdge_keeps (HasQueueId k) c l ic cand s h (fun _ _ h => h.of_eq rfl rfl)
    (fun _ _ _ _ h => h.of_eq (by simp) (by simp)) (fun _ h => h.of_eq rfl rfl)
    (fun _ _ h _ => h.of_eq (by simp) (by simp))

/-- The end of the leave is a reset, which keeps both (log 27). -/
theorem completeBeacon_hasQueueId (leavingAtRef : Bool) (s : State) (h : HasQueueId k s) :
    HasQueueId k (completeBeacon leavingAtRef s) := by
  unfold completeBeacon
  dsimp only
  split <;> exact h.of_eq rfl rfl

theorem effect_hasQueueId (i : Instr) (s t : State) (h : HasQueueId k s) (he : Effect i s t) : HasQueueId k t := by
  cases he with
  | byteReady g =>
    exact changeState_hasQueueId _ _ _ id _ (.inl rfl) (h.of_eq (by simp [withByte]) (by simp [withByte]))
  | listenTimeout c => exact changeState_hasQueueId c _ _ id _ (.inl rfl) (h.of_eq (by simp) (by simp))
  | correction c => exact correctionAt_hasQueueId c _ s h
  | collideTrigger c => exact h.of_eq (by rw [collideTrigger_frame]; rfl) (by rw [collideTrigger_frame]; rfl)
  | collideBeacon c => exact h.of_eq (by rw [collideBeacon_frame]; rfl) (by rw [collideBeacon_frame]; rfl)
  | completeBeacon _ _ _ l => exact completeBeacon_hasQueueId l _ (h.of_eq rfl rfl)
  | beacon _ l x c b => exact deliverBeacon_hasQueueId c b l x _ (h.of_eq rfl rfl)
  | trigger _ _ _ c t => exact judgeTriggerFrame_hasQueueId c t _ (h.of_eq rfl rfl)
  | edge l c ic cand => exact qualifyEdge_hasQueueId c l ic cand s h
  | fire | startMark | reference => exact h.of_eq (by simp) (by simp)
  | raise _ cls c => exact h.of_eq (raiseTrigger_pending c cls _ true s) (raiseTrigger_uniqueId c cls _ true s)
  | _ => exact h.of_eq rfl rfl

end

/-- Settles O2: a command leaves the part as it stands or has one of its effects, and none of them touches either. -/
theorem everyCommandAnswersNext : Obligations.EveryCommandAnswersNext := by
  unfold Obligations.EveryCommandAnswersNext
  intro c s
  obtain ⟨t, ht⟩ := exec_next c s
  rcases exec_effect c s t ht with rfl | he
  · exact ⟨t, ht, rfl, rfl⟩
  · obtain ⟨hpending, hid⟩ := Prod.mk.inj (effect_hasQueueId (k := queueId s) c s t rfl he)
    exact ⟨t, ht, hpending, hid⟩

end Sys2Proof.Machine

/-! ## A reset holds the part (O4) -/

namespace Sys2Proof.Machine

/-- RESET of a cause from outside (R176); the ticks that a PORT reset still holds go on (log 27). -/
theorem execReset_outside (cause : ResetCause) (s : State) (h : cause ≠ .port) :
    exec (.reset cause) s = .next (resetState cause s.src.portHold s) := by
  cases cause with
  | port => exact absurd rfl h
  | power | pin | supply => rfl

/-- Of a part held in reset only RESET, RESET_RELEASE and TICK have an effect: every other asks for a part that runs. -/
theorem Effect.of_held {c : Instr} {s t : State} (he : Effect c s t) (hr : s.src.inReset = true) :
    (∃ k, c = .reset k) ∨ (∃ a b, c = .resetRelease a b) ∨ ∃ a p, c = .tick a p := by
  cases he with
  | reset cause => exact .inl ⟨cause, rfl⟩
  | release a b => exact .inr (.inl ⟨a, b, rfl⟩)
  | tickInReset a p => exact .inr (.inr ⟨a, p, rfl⟩)
  | _ => exact absurd hr (Bool.eq_false_iff.1 ‹s.src.inReset = false›)

/-- Every other command leaves the held part as it stands. -/
theorem exec_held (c : Instr) (s : State) (hr : s.src.inReset = true) (hreset : ∀ k, c ≠ .reset k)
    (hrelease : ∀ a b, c ≠ .resetRelease a b) (htick : ∀ a p, c ≠ .tick a p) : exec c s = .next s := by
  obtain ⟨t, ht⟩ := exec_next c s
  rcases exec_effect c s t ht with rfl | he
  · exact ht
  · rcases he.of_held hr with ⟨k, hk⟩ | ⟨a, b, hab⟩ | ⟨a, p, hap⟩
    · exact absurd hk (hreset k)
    · exact absurd hab (hrelease a b)
    · exact absurd hap (htick a p)

theorem execTick_held (a : Bool) (p : BitVec 8) (s : State) (hr : s.src.inReset = true) :
    exec (.tick a p) s = .next (tickInReset p s) := by
  change execTick a p s = _
  rw [execTick, if_pos hr]

/-- A tick in reset takes the levels and passes one of a PORT reset's ticks, and neither is an item of a reset table
(log 18). -/
theorem tickInReset_atReset (p : BitVec 8) (s : State) (h : AtReset s) : AtReset (tickInReset p s) :=
  { h with }

theorem attentionAsserted_held (s : State) (hr : s.src.inReset = true) : attentionAsserted s = false := by
  rw [attentionAsserted, hr]
  rfl

/-- A reset drives no line, of whatever mode (R139, R176). -/
theorem lineDrive_held (s : State) (l : LineNo) (hr : s.src.inReset = true) : lineDrive s l = none := by
  unfold lineDrive
  split
  · exact if_pos hr
  all_goals rfl

theorem imagePort_held (s : State) (hr : s.src.inReset = true) : imagePort s = .undriven := if_pos hr

/-- Settles O4: by the effects that ask for no running part, and by the views of a part that is held. -/
theorem resetHoldsThePart : Obligations.ResetHoldsThePart := by
  unfold Obligations.ResetHoldsThePart
  refine ⟨fun cause s hcause => ?reset, exec_held, fun a p s hr hs => ?tick, fun s hr => ?views⟩
  case reset =>
    exact ⟨_, execReset_outside cause s hcause, resetState_atReset _ _ _, rfl, rfl, rfl, rfl, rfl, rfl⟩
  case tick => exact ⟨_, execTick_held a p s hr, tickInReset_atReset p s hs, hr, rfl, rfl, rfl⟩
  case views =>
    exact ⟨attentionAsserted_held s hr, fun l => lineDrive_held s l hr, imagePort_held s hr,
      fun n => dataOut_released s n (.inl hr)⟩

end Sys2Proof.Machine

/-! ## An image byte is gathered, or ends the load (O10) -/

namespace Sys2Proof.Machine

/-! ### IMAGE_BYTE before the last one -/

theorem execImageByte_more (b : Byte) (s : State) (hr : s.src.inReset = false) (hl : s.src.loadState = .loading)
    (hj : judgeImage (s.src.image ++ [b]) = .more) : exec (.imageByte b) s = .next (withByte b s) := by
  change execImageByte b s = _
  rw [execImageByte, live_running s _ hr, if_pos hl, takeImageByte, hj]
  rfl

theorem execImageByte_fail (b : Byte) (r : LoadResult) (s : State) (hr : s.src.inReset = false)
    (hl : s.src.loadState = .loading) (hj : judgeImage (s.src.image ++ [b]) = .fail r) :
    exec (.imageByte b) s = .next (endLoad .failed r (withByte b s)) := by
  change execImageByte b s = _
  rw [execImageByte, live_running s _ hr, if_pos hl, takeImageByte, hj]
  rfl

/-- After the load the image port is idle, and a byte is not read (R177). -/
theorem execImageByte_ended (b : Byte) (s : State) (hr : s.src.inReset = false) (hl : s.src.loadState ≠ .loading) :
    exec (.imageByte b) s = .next s := by
  change execImageByte b s = _
  rw [execImageByte, live_running s _ hr, if_neg hl]

/-! ### The header's checks (R178, orders 1 to 3) -/

section
variable {bytes : List Byte}

theorem judgeImage_noImage (ha : 2 ≤ bytes.length) (hmagic : field bytes 0 2 ≠ 0x4A44) :
    judgeImage bytes = .fail (.noImage (field bytes 0 2)) := by
  unfold judgeImage
  exact (if_neg (by omega)).trans (if_pos hmagic)

theorem judgeImage_wrongDevice (ha : 4 ≤ bytes.length) (hmagic : field bytes 0 2 = 0x4A44)
    (hdevice : field bytes 2 2 ≠ 0x3208) : judgeImage bytes = .fail (.wrongDevice (field bytes 2 2)) := by
  unfold judgeImage
  exact (if_neg (by omega)).trans ((if_neg (not_not_intro hmagic)).trans ((if_neg (by omega)).trans (if_pos hdevice)))

theorem judgeImage_badLength (ha : 8 ≤ bytes.length) (hmagic : field bytes 0 2 = 0x4A44)
    (hdevice : field bytes 2 2 = 0x3208) (hlength : field bytes 6 2 < 10 ∨ 4096 < field bytes 6 2) :
    judgeImage bytes = .fail (.tooLong (field bytes 6 2)) := by
  have hout : (!within (field bytes 6 2) 10 Config.imageBytes) = true := by
    rw [within_eq, inRange, Bool.not_eq_true', decide_eq_false_iff_not, Config.imageBytes]
    omega
  unfold judgeImage
  exact (if_neg (by omega)).trans ((if_neg (not_not_intro hmagic)).trans ((if_neg (by omega)).trans
    ((if_neg (not_not_intro hdevice)).trans ((if_neg (by omega)).trans (if_pos hout)))))

/-! ### A block's checks (R178, orders 4 to 7) -/

/-- A block that runs past the image, judged once its type and length have arrived (log 14). -/
theorem readBlocks_pastImage (length left index pos : Nat) (seen : List Block) (ha : pos + 3 ≤ bytes.length)
    (hpast : length < pos + 5 + field bytes (pos + 1) 2 + 2) :
    readBlocks length (left + 1) index pos seen (bytes.drop pos) = .fail (.tooLong index) := by
  rw [readBlocks]
  simp only [field_drop, List.length_drop]
  rw [if_neg (by omega), if_pos hpast]

/-- A block that lies within the image and has arrived is judged by its check, its type, and the types before it. -/
theorem readBlocks_arrived (length left index pos n : Nat) (seen : List Block) (hn : n = field bytes (pos + 1) 2)
    (hin : pos + 5 + n + 2 ≤ length) (ha : pos + 5 + n ≤ bytes.length) :
    readBlocks length (left + 1) index pos seen (bytes.drop pos) =
      if field bytes (pos + 3 + n) 2 ≠ (crc16 ((bytes.drop pos).take (3 + n))).toNat then .fail (.blockCheck index)
      else if field bytes pos 1 = 0 ∨ 5 < field bytes pos 1 then .fail (.badValue (field bytes pos 1) 0)
      else if seen.any (fun b => b.type == field bytes pos 1) then .fail (.duplicateBlock (field bytes pos 1))
      else
        readBlocks length left (index + 1) (pos + 5 + n)
          (seen ++ [{ type := field bytes pos 1, payload := (bytes.drop (pos + 3)).take n }])
          (bytes.drop (pos + 5 + n)) := by
  rw [readBlocks]
  simp only [field_drop, List.length_drop, List.drop_drop, Nat.add_zero, ← Nat.add_assoc, ← hn]
  rw [if_neg (by omega), if_neg (by omega), if_neg (by omega)]

section
variable {index pos : Nat} {seen : List Block} {r : LoadResult} (h : HeaderPassed bytes)
  (hb : BlocksPassed bytes index pos seen)
include h hb

/-- A failing block ends the load, those before it having passed. -/
theorem judgeImage_blockFails (hi : index ≤ field bytes 5 1)
    (hr : ∀ left, readBlocks (field bytes 6 2) (left + 1) index pos seen (bytes.drop pos) = .fail r) :
    judgeImage bytes = .fail r := by
  rw [judgeImage_block bytes index pos seen h hb (by omega), Nat.sub_add_comm hi, hr]

variable {n : Nat} (hi : index ≤ field bytes 5 1) (hn : n = field bytes (pos + 1) 2)
include hi hn

theorem judgeImage_pastImage (ha : pos + 3 ≤ bytes.length) (hpast : field bytes 6 2 < pos + 5 + n + 2) :
    judgeImage bytes = .fail (.tooLong index) :=
  judgeImage_blockFails h hb hi fun left => readBlocks_pastImage _ left index pos seen ha (hn ▸ hpast)

variable (hin : pos + 5 + n + 2 ≤ field bytes 6 2) (ha : pos + 5 + n ≤ bytes.length)
include hin ha

theorem judgeImage_blockCheck
    (hc : field bytes (pos + 3 + n) 2 ≠ (crc16 ((bytes.drop pos).take (3 + n))).toNat) :
    judgeImage bytes = .fail (.blockCheck index) :=
  judgeImage_blockFails h hb hi fun left => by
    rw [readBlocks_arrived _ left index pos n seen hn hin ha, if_pos hc]

variable (hc : field bytes (pos + 3 + n) 2 = (crc16 ((bytes.drop pos).take (3 + n))).toNat)
include hc

theorem judgeImage_unknownType (htype : field bytes pos 1 = 0 ∨ 5 < field bytes pos 1) :
    judgeImage bytes = .fail (.badValue (field bytes pos 1) 0) :=
  judgeImage_blockFails h hb hi fun left => by
    rw [readBlocks_arrived _ left index pos n seen hn hin ha, if_neg (not_not_intro hc), if_pos htype]

theorem judgeImage_duplicate (hlow : 1 ≤ field bytes pos 1) (hhigh : field bytes pos 1 ≤ 5)
    (hseen : ∃ b ∈ seen, b.type = field bytes pos 1) :
    judgeImage bytes = .fail (.duplicateBlock (field bytes pos 1)) :=
  judgeImage_blockFails h hb hi fun left => by
    rw [readBlocks_arrived _ left index pos n seen hn hin ha, if_neg (not_not_intro hc), if_neg (by omega),
      if_pos (by simpa using hseen)]

end

/-! ### The whole image's checks (R178, orders 8 to 10) -/

/-- Behind the last block exactly the image's own check remains. -/
theorem judgeImage_remainder {pos : Nat} {seen : List Block} (h : HeaderPassed bytes)
    (hb : BlocksPassed bytes (field bytes 5 1 + 1) pos seen) (hremain : pos + 2 ≠ field bytes 6 2) :
    judgeImage bytes = .fail (.tooLong (field bytes 6 2)) := by
  rw [judgeImage_block bytes _ pos seen h hb le_rfl, Nat.sub_self, readBlocks, if_neg hremain]

theorem judgeWhole_imageCheck (bs : List Block)
    (hc : field bytes (bytes.length - 2) 2 ≠ (crc16 (bytes.take (bytes.length - 2))).toNat) :
    judgeWhole bytes bs = .fail .imageCheck :=
  if_pos hc

theorem judgeWhole_missingBlock (bs : List Block) (type : Nat)
    (hc : field bytes (bytes.length - 2) 2 = (crc16 (bytes.take (bytes.length - 2))).toNat)
    (hm : missingType bs = some type) : judgeWhole bytes bs = .fail (.missingBlock type) := by
  rw [judgeWhole, if_neg (not_not_intro hc), hm]

end

/-- No payload is read for a type exactly where no block has it. -/
theorem payloadOf_isNone_iff (type : Nat) (bs : List Block) :
    (payloadOf type bs).isNone = true ↔ ∀ b ∈ bs, b.type ≠ type := by
  simp [payloadOf]

/-- The missing type reported is the lowest of the four required (R178, order 10). -/
theorem missingType_eq_some_iff (type : Nat) (bs : List Block) :
    missingType bs = some type ↔ (∀ b ∈ bs, b.type ≠ type) ∧ (1 ≤ type ∧ type ≤ 4) ∧
      ∀ lower, 1 ≤ lower → lower < type → ∃ b ∈ bs, b.type = lower := by
  have hrequired : type ∈ List.range' 1 4 ↔ 1 ≤ type ∧ type ≤ 4 := by
    rw [List.mem_range'_1]
    omega
  have hpresent : ∀ lower, (!(payloadOf lower bs).isNone) = true ↔ ∃ b ∈ bs, b.type = lower := fun lower => by
    rw [Bool.not_eq_true', ← Bool.not_eq_true, payloadOf_isNone_iff]
    simp
  rw [missingType, show [1, 2, 3, 4] = List.range' 1 4 from rfl, List.find?_range'_eq_some, payloadOf_isNone_iff,
    hrequired]
  simp only [hpresent]

/-- Settles O10: check by check in R178's order. -/
theorem imageByteGathersOrFails : Obligations.ImageByteGathersOrFails := by
  unfold Obligations.ImageByteGathersOrFails
  refine ⟨fun b s hr => ⟨execImageByte_more b s hr, fun r => execImageByte_fail b r s hr, execImageByte_ended b s hr⟩,
    fun bytes => ⟨judgeImage_noImage, judgeImage_wrongDevice, judgeImage_badLength⟩,
    fun bytes index pos n seen h hb hi hn ha => ?block, fun bytes pos seen h hb => ?whole, ?absent⟩
  case block =>
    exact ⟨judgeImage_pastImage h hb hi hn ha, fun hin harrived =>
      ⟨judgeImage_blockCheck h hb hi hn hin harrived, fun hc =>
        ⟨judgeImage_unknownType h hb hi hn hin harrived hc, judgeImage_duplicate h hb hi hn hin harrived hc⟩⟩⟩
  case whole =>
    refine ⟨judgeImage_remainder h hb, fun hremain harrived => ?_⟩
    rw [judgeImage_whole bytes pos seen ⟨h, hb, hremain⟩ harrived]
    exact ⟨judgeWhole_imageCheck seen, fun hc type hlow hhigh hmissing hlower =>
      judgeWhole_missingBlock seen type hc ((missingType_eq_some_iff type seen).2 ⟨hmissing, ⟨hlow, hhigh⟩, hlower⟩)⟩
  case absent => exact judgeImage_noImage (by decide) (by decide)

end Sys2Proof.Machine

/-! ## A step runs the command at the front of the queue (O1) -/

namespace Sys2Proof.Machine

/-- Settles O1, by the queue: a front command runs with `withPending` setting the queue's rest, and an empty queue
idles. -/
theorem stepRunsTheFrontCommand : Obligations.StepRunsTheFrontCommand := by
  unfold Obligations.StepRunsTheFrontCommand
  refine ⟨fun c rest s hqueue => ?front, fun s hempty => ?idle⟩
  case front => exact step_front s c rest hqueue
  case idle => exact step_idle s hempty

end Sys2Proof.Machine
